-- ==== Sys2Proof/Word.lean ====
section
/-! DEFINITION. The machine's words: 32-bit register values and addresses, bytes, and the 64-bit cycle count (rules R4, R6). -/

namespace Sys2Proof

/-- A 32-bit word: a register value, a virtual or a physical address, an instruction word (rules R4, R6). -/
abbrev Word := BitVec 32

/-- One byte of memory (rule R61: all memory is byte-addressable). -/
abbrev Byte := BitVec 8

/-- The global cycle counter's width (rule R35). -/
abbrev CycleCount := BitVec 64

end Sys2Proof
end

