-- ==== Sys2Proof/Syntax.lean ====
section
/-! DEFINITION. The 30 instructions of the opcode map (rule R164), one constructor per row of spec/opcode_table.json. -/

namespace Sys2Proof

/-- A general register number, 0 to 15 (rule R20). A used field of 16 to 31 is no register: the decoder refuses it
(rule R167). -/
abbrev Reg := Fin 16

/-- The decoded instruction of rule R171. The fields stand in the order of the assembler's statement: `rs3` (written
`rd` where it is a destination and `rv` or `rc` where it is a source), then `rs1`, then `rs2` or the immediate. `imm`
and `offset` are the sign-extended values; ignored fields are not held. -/
inductive Instr where
  -- R format (rules R200 to R208)
  | add (rd ra rb : Reg)
  | sub (rd ra rb : Reg)
  | xor (rd ra rb : Reg)
  | or (rd ra rb : Reg)
  | and (rd ra rb : Reg)
  | shr (rd ra rb : Reg)
  | shl (rd ra rb : Reg)
  -- G format, arithmetic and logic (rules R212 to R216)
  | addi (rd ra : Reg) (imm : Int)
  | subi (rd ra : Reg) (imm : Int)
  | xori (rd ra : Reg) (imm : Int)
  | ori (rd ra : Reg) (imm : Int)
  | andi (rd ra : Reg) (imm : Int)
  -- G format, loads (rules R221 to R223)
  | ldb (rd ra : Reg) (imm : Int)
  | ldh (rd ra : Reg) (imm : Int)
  | ld (rd ra : Reg) (imm : Int)
  -- G format, stores (rules R224 to R226)
  | stb (rv ra : Reg) (imm : Int)
  | sth (rv ra : Reg) (imm : Int)
  | st (rv ra : Reg) (imm : Int)
  -- G format, branches (rules R232 to R235)
  | bne (rc ra : Reg) (imm : Int)
  | beq (rc ra : Reg) (imm : Int)
  | blt (rc ra : Reg) (imm : Int)
  | bgt (rc ra : Reg) (imm : Int)
  -- J format jump, LUI, call, and the B format (rules R236, R211, R237, R238, R240)
  | jmpr (offset : Int)
  | lui (rd : Reg) (imm : Int)
  | call (offset : Int)
  | ret
  | nop
  -- R format (rules R207, R208) and the software interrupt (rule R241)
  | mul (rd ra rb : Reg)
  | div (rd ra rb : Reg)
  | int0
deriving DecidableEq, Repr

end Sys2Proof
end

