-- ==== Sys2Proof/WellFormed.lean ====
section
/-! DEFINITION. Well-formed instructions (rule R171): every immediate lies in the range that its field can hold.
Registers are 0 to 15 by their type. -/

namespace Sys2Proof

/-- A G-format immediate: -32768 to 32767 (rules R162, R177). -/
def immInRange (imm : Int) : Bool := decide (-32768 ≤ imm) && decide (imm ≤ 32767)

/-- A J-format offset: -2^20 to 2^20 - 1 (rules R163, R177). -/
def offsetInRange (offset : Int) : Bool := decide (-1048576 ≤ offset) && decide (offset ≤ 1048575)

/-- Well-formed in the sense of rule R171. -/
def Instr.wellFormed : Instr → Bool
  | .add _ _ _ => true
  | .sub _ _ _ => true
  | .xor _ _ _ => true
  | .or _ _ _ => true
  | .and _ _ _ => true
  | .shr _ _ _ => true
  | .shl _ _ _ => true
  | .addi _ _ imm => immInRange imm
  | .subi _ _ imm => immInRange imm
  | .xori _ _ imm => immInRange imm
  | .ori _ _ imm => immInRange imm
  | .andi _ _ imm => immInRange imm
  | .ldb _ _ imm => immInRange imm
  | .ldh _ _ imm => immInRange imm
  | .ld _ _ imm => immInRange imm
  | .stb _ _ imm => immInRange imm
  | .sth _ _ imm => immInRange imm
  | .st _ _ imm => immInRange imm
  | .bne _ _ imm => immInRange imm
  | .beq _ _ imm => immInRange imm
  | .blt _ _ imm => immInRange imm
  | .bgt _ _ imm => immInRange imm
  | .jmpr offset => offsetInRange offset
  | .lui _ imm => immInRange imm
  | .call offset => offsetInRange offset
  | .ret => true
  | .nop => true
  | .mul _ _ _ => true
  | .div _ _ _ => true
  | .int0 => true

end Sys2Proof
end

