-- ==== Sys2Proof/Decode.lean ====
section
/-! DEFINITION. The decoder, a pure function of the instruction word that refuses by name (rules R160 to R171), and
after it the encoder. -/

namespace Sys2Proof

/-- Why a word is illegal: both raise IllegalInstruction (rules R166, R167). -/
inductive IllegalReason where
  /-- The opcode has no row in the opcode map (rule R166). -/
  | unassignedOpcode
  /-- A register field that the instruction uses holds 16 to 31 (rule R167). -/
  | noSuchRegister
deriving DecidableEq, Repr

/-- The decoder's answer: `Illegal` or the instruction record (rule R171). -/
inductive Decoded where
  | instr (i : Instr)
  | illegal (why : IllegalReason)
deriving DecidableEq, Repr

/-! ### Fields of the word (rule R161) -/

/-- The opcode, bits 31:26. -/
def opcodeField (w : Word) : BitVec 6 := w.extractLsb' 26 6

/-- `rs3`, bits 25:21. -/
def rs3Field (w : Word) : BitVec 5 := w.extractLsb' 21 5

/-- `rs1`, bits 20:16. -/
def rs1Field (w : Word) : BitVec 5 := w.extractLsb' 16 5

/-- `rs2`, bits 15:11. -/
def rs2Field (w : Word) : BitVec 5 := w.extractLsb' 11 5

/-- The G-format immediate, bits 15:0, sign-extended (rule R162). -/
def immField (w : Word) : Int := (w.extractLsb' 0 16).toInt

/-- The J-format offset, bits 20:0, sign-extended (rule R163). -/
def offsetField (w : Word) : Int := (w.extractLsb' 0 21).toInt

/-- The register that a used 5-bit field names; none for 16 to 31 (rules R20, R167). -/
def regOfField (f : BitVec 5) : Option Reg :=
  if h : f.toNat < 16 then some ⟨f.toNat, h⟩ else none

/-! ### Decoding by format (rules R161, R167, R168) -/

/-- R format: `rs3`, `rs1` and `rs2` are used, bits 10:0 are ignored. -/
def decodeR (w : Word) (mk : Reg → Reg → Reg → Instr) : Decoded :=
  match regOfField (rs3Field w), regOfField (rs1Field w), regOfField (rs2Field w) with
  | some c, some a, some b => .instr (mk c a b)
  | _, _, _ => .illegal .noSuchRegister

/-- G format: `rs3`, `rs1` and the immediate are used. -/
def decodeG (w : Word) (mk : Reg → Reg → Int → Instr) : Decoded :=
  match regOfField (rs3Field w), regOfField (rs1Field w) with
  | some c, some a => .instr (mk c a (immField w))
  | _, _ => .illegal .noSuchRegister

/-- LUI: G format with the `rs1` field ignored (rules R168, R211). -/
def decodeLui (w : Word) : Decoded :=
  match regOfField (rs3Field w) with
  | some c => .instr (.lui c (immField w))
  | none => .illegal .noSuchRegister

/-- J format: only the offset is used, the `rs3` field is ignored (rule R168). -/
def decodeJ (w : Word) (mk : Int → Instr) : Decoded := .instr (mk (offsetField w))

/-- `decode` of rule R171: the opcode selects the instruction (rule R164); an opcode without a row is illegal (rule R166). -/
def decode (w : Word) : Decoded :=
  match (opcodeField w).toNat with
  | 2 => decodeR w .add
  | 3 => decodeR w .sub
  | 4 => decodeR w .xor
  | 5 => decodeR w .or
  | 6 => decodeR w .and
  | 7 => decodeR w .shr
  | 8 => decodeR w .shl
  | 9 => decodeG w .addi
  | 10 => decodeG w .subi
  | 11 => decodeG w .xori
  | 12 => decodeG w .ori
  | 13 => decodeG w .andi
  | 14 => decodeG w .ldb
  | 15 => decodeG w .ldh
  | 16 => decodeG w .ld
  | 17 => decodeG w .stb
  | 18 => decodeG w .sth
  | 19 => decodeG w .st
  | 20 => decodeG w .bne
  | 21 => decodeG w .beq
  | 22 => decodeG w .blt
  | 23 => decodeG w .bgt
  | 25 => decodeJ w .jmpr
  | 26 => decodeLui w
  | 27 => decodeJ w .call
  | 28 => .instr .ret
  | 29 => .instr .nop
  | 30 => decodeR w .mul
  | 31 => decodeR w .div
  | 40 => .instr .int0
  | _ => .illegal .unassignedOpcode

/-! ### Bytes (rules R60, R160) -/

/-- The instruction word that four bytes in memory order hold: the byte at the lowest address is the least significant. -/
def wordOfBytes (b0 b1 b2 b3 : Byte) : Word := b3 ++ b2 ++ b1 ++ b0

/-- The four bytes of a word in memory order. -/
def bytesOfWord (w : Word) : List Byte :=
  [w.extractLsb' 0 8, w.extractLsb' 8 8, w.extractLsb' 16 8, w.extractLsb' 24 8]

/-- Decoding a stream of bytes: one instruction and the bytes after it; none where fewer than four bytes are left. -/
def decodeBytes : List Byte → Option (Decoded × List Byte)
  | b0 :: b1 :: b2 :: b3 :: rest => some (decode (wordOfBytes b0 b1 b2 b3), rest)
  | _ => none

/-- The instruction read from a row of the opcode table: `w`'s low `nbits` bits, laid out in memory order. -/
def decodeTableWord (nbits w : Nat) : Option Instr :=
  match decodeBytes (bytesOfWord (BitVec.ofNat 32 (w % 2 ^ nbits))) with
  | some (.instr i, _) => some i
  | _ => none

/-! ### The encoder (rules R161, R164, R171): every ignored bit is 0 -/

/-- A register number in its 5-bit field. -/
def regBits (r : Reg) : BitVec 5 := BitVec.ofNat 5 r.val

/-- R format. -/
def encodeR (op : BitVec 6) (rs3 rs1 rs2 : Reg) : Word :=
  op ++ regBits rs3 ++ regBits rs1 ++ regBits rs2 ++ 0#11

/-- G format. -/
def encodeG (op : BitVec 6) (rs3 rs1 : Reg) (imm : Int) : Word :=
  op ++ regBits rs3 ++ regBits rs1 ++ BitVec.ofInt 16 imm

/-- J format. -/
def encodeJ (op : BitVec 6) (offset : Int) : Word := op ++ 0#5 ++ BitVec.ofInt 21 offset

/-- B format. -/
def encodeB (op : BitVec 6) : Word := op ++ 0#26

/-- `encode` of rule R171. -/
def encode : Instr → Word
  | .add rd ra rb => encodeR 0b000010#6 rd ra rb
  | .sub rd ra rb => encodeR 0b000011#6 rd ra rb
  | .xor rd ra rb => encodeR 0b000100#6 rd ra rb
  | .or rd ra rb => encodeR 0b000101#6 rd ra rb
  | .and rd ra rb => encodeR 0b000110#6 rd ra rb
  | .shr rd ra rb => encodeR 0b000111#6 rd ra rb
  | .shl rd ra rb => encodeR 0b001000#6 rd ra rb
  | .addi rd ra imm => encodeG 0b001001#6 rd ra imm
  | .subi rd ra imm => encodeG 0b001010#6 rd ra imm
  | .xori rd ra imm => encodeG 0b001011#6 rd ra imm
  | .ori rd ra imm => encodeG 0b001100#6 rd ra imm
  | .andi rd ra imm => encodeG 0b001101#6 rd ra imm
  | .ldb rd ra imm => encodeG 0b001110#6 rd ra imm
  | .ldh rd ra imm => encodeG 0b001111#6 rd ra imm
  | .ld rd ra imm => encodeG 0b010000#6 rd ra imm
  | .stb rv ra imm => encodeG 0b010001#6 rv ra imm
  | .sth rv ra imm => encodeG 0b010010#6 rv ra imm
  | .st rv ra imm => encodeG 0b010011#6 rv ra imm
  | .bne rc ra imm => encodeG 0b010100#6 rc ra imm
  | .beq rc ra imm => encodeG 0b010101#6 rc ra imm
  | .blt rc ra imm => encodeG 0b010110#6 rc ra imm
  | .bgt rc ra imm => encodeG 0b010111#6 rc ra imm
  | .jmpr offset => encodeJ 0b011001#6 offset
  | .lui rd imm => encodeG 0b011010#6 rd 0 imm
  | .call offset => encodeJ 0b011011#6 offset
  | .ret => encodeB 0b011100#6
  | .nop => encodeB 0b011101#6
  | .mul rd ra rb => encodeR 0b011110#6 rd ra rb
  | .div rd ra rb => encodeR 0b011111#6 rd ra rb
  | .int0 => encodeB 0b101000#6

/-! ### The rows of the opcode table (rule R168, opcode_table.json) -/

/-- A row: the fixed bits of its words. A word belongs to it when `word &&& mask = pattern`. -/
structure OpcodeRow where
  mask : Word
  pattern : Word
deriving DecidableEq, Repr

/-- The row of each instruction: the opcode's six bits and the top bit, 0, of every used register field. -/
def rowOf : Instr → OpcodeRow
  | .add _ _ _ => ⟨0xFE108000#32, 0x08000000#32⟩
  | .sub _ _ _ => ⟨0xFE108000#32, 0x0C000000#32⟩
  | .xor _ _ _ => ⟨0xFE108000#32, 0x10000000#32⟩
  | .or _ _ _ => ⟨0xFE108000#32, 0x14000000#32⟩
  | .and _ _ _ => ⟨0xFE108000#32, 0x18000000#32⟩
  | .shr _ _ _ => ⟨0xFE108000#32, 0x1C000000#32⟩
  | .shl _ _ _ => ⟨0xFE108000#32, 0x20000000#32⟩
  | .addi _ _ _ => ⟨0xFE100000#32, 0x24000000#32⟩
  | .subi _ _ _ => ⟨0xFE100000#32, 0x28000000#32⟩
  | .xori _ _ _ => ⟨0xFE100000#32, 0x2C000000#32⟩
  | .ori _ _ _ => ⟨0xFE100000#32, 0x30000000#32⟩
  | .andi _ _ _ => ⟨0xFE100000#32, 0x34000000#32⟩
  | .ldb _ _ _ => ⟨0xFE100000#32, 0x38000000#32⟩
  | .ldh _ _ _ => ⟨0xFE100000#32, 0x3C000000#32⟩
  | .ld _ _ _ => ⟨0xFE100000#32, 0x40000000#32⟩
  | .stb _ _ _ => ⟨0xFE100000#32, 0x44000000#32⟩
  | .sth _ _ _ => ⟨0xFE100000#32, 0x48000000#32⟩
  | .st _ _ _ => ⟨0xFE100000#32, 0x4C000000#32⟩
  | .bne _ _ _ => ⟨0xFE100000#32, 0x50000000#32⟩
  | .beq _ _ _ => ⟨0xFE100000#32, 0x54000000#32⟩
  | .blt _ _ _ => ⟨0xFE100000#32, 0x58000000#32⟩
  | .bgt _ _ _ => ⟨0xFE100000#32, 0x5C000000#32⟩
  | .jmpr _ => ⟨0xFC000000#32, 0x64000000#32⟩
  | .lui _ _ => ⟨0xFE000000#32, 0x68000000#32⟩
  | .call _ => ⟨0xFC000000#32, 0x6C000000#32⟩
  | .ret => ⟨0xFC000000#32, 0x70000000#32⟩
  | .nop => ⟨0xFC000000#32, 0x74000000#32⟩
  | .mul _ _ _ => ⟨0xFE108000#32, 0x78000000#32⟩
  | .div _ _ _ => ⟨0xFE108000#32, 0x7C000000#32⟩
  | .int0 => ⟨0xFC000000#32, 0xA0000000#32⟩

/-- All 30 rows, in the table's order. -/
def opcodeRows : List OpcodeRow :=
  [⟨0xFE108000#32, 0x08000000#32⟩, ⟨0xFE108000#32, 0x0C000000#32⟩, ⟨0xFE108000#32, 0x10000000#32⟩,
    ⟨0xFE108000#32, 0x14000000#32⟩, ⟨0xFE108000#32, 0x18000000#32⟩, ⟨0xFE108000#32, 0x1C000000#32⟩,
    ⟨0xFE108000#32, 0x20000000#32⟩, ⟨0xFE100000#32, 0x24000000#32⟩, ⟨0xFE100000#32, 0x28000000#32⟩,
    ⟨0xFE100000#32, 0x2C000000#32⟩, ⟨0xFE100000#32, 0x30000000#32⟩, ⟨0xFE100000#32, 0x34000000#32⟩,
    ⟨0xFE100000#32, 0x38000000#32⟩, ⟨0xFE100000#32, 0x3C000000#32⟩, ⟨0xFE100000#32, 0x40000000#32⟩,
    ⟨0xFE100000#32, 0x44000000#32⟩, ⟨0xFE100000#32, 0x48000000#32⟩, ⟨0xFE100000#32, 0x4C000000#32⟩,
    ⟨0xFE100000#32, 0x50000000#32⟩, ⟨0xFE100000#32, 0x54000000#32⟩, ⟨0xFE100000#32, 0x58000000#32⟩,
    ⟨0xFE100000#32, 0x5C000000#32⟩, ⟨0xFC000000#32, 0x64000000#32⟩, ⟨0xFE000000#32, 0x68000000#32⟩,
    ⟨0xFC000000#32, 0x6C000000#32⟩, ⟨0xFC000000#32, 0x70000000#32⟩, ⟨0xFC000000#32, 0x74000000#32⟩,
    ⟨0xFE108000#32, 0x78000000#32⟩, ⟨0xFE108000#32, 0x7C000000#32⟩, ⟨0xFC000000#32, 0xA0000000#32⟩]

/-- The bits that an instruction's words ignore (rule R168). -/
def ignoredBits : Instr → Word
  | .add _ _ _ => 0x000007FF#32
  | .sub _ _ _ => 0x000007FF#32
  | .xor _ _ _ => 0x000007FF#32
  | .or _ _ _ => 0x000007FF#32
  | .and _ _ _ => 0x000007FF#32
  | .shr _ _ _ => 0x000007FF#32
  | .shl _ _ _ => 0x000007FF#32
  | .addi _ _ _ => 0x00000000#32
  | .subi _ _ _ => 0x00000000#32
  | .xori _ _ _ => 0x00000000#32
  | .ori _ _ _ => 0x00000000#32
  | .andi _ _ _ => 0x00000000#32
  | .ldb _ _ _ => 0x00000000#32
  | .ldh _ _ _ => 0x00000000#32
  | .ld _ _ _ => 0x00000000#32
  | .stb _ _ _ => 0x00000000#32
  | .sth _ _ _ => 0x00000000#32
  | .st _ _ _ => 0x00000000#32
  | .bne _ _ _ => 0x00000000#32
  | .beq _ _ _ => 0x00000000#32
  | .blt _ _ _ => 0x00000000#32
  | .bgt _ _ _ => 0x00000000#32
  | .jmpr _ => 0x03E00000#32
  | .lui _ _ => 0x001F0000#32
  | .call _ => 0x03E00000#32
  | .ret => 0x03FFFFFF#32
  | .nop => 0x03FFFFFF#32
  | .mul _ _ _ => 0x000007FF#32
  | .div _ _ _ => 0x000007FF#32
  | .int0 => 0x03FFFFFF#32

end Sys2Proof
end

