-- ==== Sys2Proof/Config.lean ====
section
/-! DEFINITION. What a configuration fixes: the parameters of rule R5, given at reset and constant afterwards, and the
values that the spec leaves open, as constants without a body. -/

namespace Sys2Proof

/-- `FAULT_POLICY` of rule R5: what AlignmentFault, DivideByZero and IllegalInstruction do (rule R307). -/
inductive FaultPolicy where
  /-- Vector through the table, the default. -/
  | vector
  /-- Halt the machine with `FaultHalt`. -/
  | halt
deriving DecidableEq, Repr

/-- `PrngNext` of rule R83, a parameter of the machine (92_eei_decisions.md, open parameters). -/
inductive PrngChoice where
  /-- The default that rule R83 gives: the linear congruential generator. -/
  | lcg
  /-- Any other function of the state: `Config.prngNext`, of which nothing is known. -/
  | implementation
deriving DecidableEq, Repr

/-- The two privilege levels (rules R137, R318): `PRIV` = 0 and `PRIV` = 1. -/
inductive Privilege where
  | user
  | supervisor
deriving DecidableEq, Repr

/-- The parameters of rule R5 that the running machine consults. They are constant after reset (rule R38). -/
structure Params where
  /-- `cache_enabled`: false sends every access past the cache (rule R111). -/
  cacheEnabled : Bool := true
  /-- `pipeline_enabled`: false runs one instruction at a time (rule R268). -/
  pipelineEnabled : Bool := true
  /-- `FAULT_POLICY` (rule R307). -/
  faultPolicy : FaultPolicy := .vector
  /-- `PrngNext` (rule R83). -/
  prng : PrngChoice := .lcg
deriving DecidableEq, Repr

/-- A chunk of `IMAGE`: a base address and the bytes from it on (rules R5, R180). -/
structure ImageChunk where
  base : Word
  bytes : List Byte
deriving DecidableEq, Repr

/-- The arguments of reset (rules R5, R340). `entry` has no default in rule R5: 0x4000 is the `ENTRY` of the spec's own
vectors (95_test_vectors.md, conventions). DESIGN CHOICE, log entry 1, unsafe. -/
structure ResetArgs where
  params : Params := {}
  entry : Word := 0x4000#32
  image : List ImageChunk := []
  ptbrReset : Word := 0#32
  privReset : Privilege := .supervisor
  prngSeed : Word := 0#32
deriving DecidableEq, Repr

/-- `PrngNext` where the configuration is not the default one: a function of the state about which nothing is assumed
(rule R83). -/
opaque Config.prngNext : Word → Word

/-- The `word` of an in-flight record whose fetch faulted: undefined (rule R251). Free, indexed by the cycle count at
the fetch. Log entry 4, safe. -/
opaque Config.undefinedWord : Nat → Word

/-- The value of a timestamp read in the instruction reading of a pipelined machine: any value (93_implementation_defined.md
U26, rule R272 (c)). Free, indexed by the model's own count of cycles. Log entry 3, safe. -/
opaque Config.anyTimestamp : Nat → Word

end Sys2Proof
end

