-- ==== Sys2Proof/Machine/Layout.lean ====
section
/-! DEFINITION. The fixed parameters of rule R4 (latencies, address map) and the bit-field splits of addresses and
page-table entries (rules R101, R131, R132). -/

namespace Sys2Proof.Machine

/-! ### Latencies in cycles (rules R4, R108) -/

/-- LAT_HIT. -/
def latHit : Nat := 10

/-- LAT_MISS: also an access with the cache disabled and an uncacheable access. -/
def latMiss : Nat := 100

/-- LAT_WRITEBACK: added to a read miss whose victim is dirty. -/
def latWriteback : Nat := 100

/-! ### The physical address map (rule R64) -/

/-- VGA_BASE. -/
def vgaBase : Word := 0x1000#32

/-- CTRL_BASE: the one register of the control MMIO region (rules R67, R68). -/
def ctrlBase : Word := 0x2000#32

/-- FREE_BASE: the first byte of free memory. -/
def freeBase : Word := 0x3000#32

/-- The VGA text buffer, 0x1000 to 0x1FFF (rule R66). -/
def inVga (pa : Word) : Bool := vgaBase ≤ pa && pa < ctrlBase

/-- The uncacheable ranges, 0x1000 to 0x2FFF (rule R69). -/
def uncacheable (pa : Word) : Bool := vgaBase ≤ pa && pa < freeBase

/-- The control register at exactly 0x2000 (rules R67, R68). -/
def isCtrl (pa : Word) : Bool := pa == ctrlBase

/-- Physical address of vector table entry `n` (rule R65). -/
def vectorAddress (n : Nat) : Word := BitVec.ofNat 32 (4 * n)

/-! ### Access widths and byte order (rules R60, R62, R63) -/

/-- The widths of an access: 1, 2 or 4 bytes (rule R62). -/
inductive Width where
  | byte
  | half
  | word
deriving DecidableEq, Repr

/-- The number of bytes of an access. -/
def widthBytes : Width → Nat
  | .byte => 1
  | .half => 2
  | .word => 4

/-- Natural alignment (rule R63): `pa mod n = 0`. -/
def aligned (pa : Word) (n : Width) : Bool := pa.toNat % widthBytes n == 0

/-- A value of `n` bytes from the bytes at offsets 0, 1, 2, 3, little-endian and zero-extended to a word (rules R7, R60). -/
def littleEndian (n : Width) (byteAt : Nat → Byte) : Word :=
  match n with
  | .byte => (byteAt 0).setWidth 32
  | .half => (byteAt 1 ++ byteAt 0).setWidth 32
  | .word => byteAt 3 ++ byteAt 2 ++ byteAt 1 ++ byteAt 0

/-- Byte `i` of a word, byte 0 the least significant (rule R60). -/
def byteOf (v : Word) (i : Nat) : Byte := v.extractLsb' (8 * i) 8

/-- The low `8n` bits of a word, zero-extended (rules R68, R73). -/
def lowBytes (n : Width) (v : Word) : Word :=
  match n with
  | .byte => (v.extractLsb' 0 8).setWidth 32
  | .half => (v.extractLsb' 0 16).setWidth 32
  | .word => v

/-! ### The cache's split of a physical address (rule R101) -/

/-- `tag = pa[31:11]`. -/
def cacheTag (pa : Word) : BitVec 21 := pa.extractLsb' 11 21

/-- `index = pa[10:6]`. -/
def cacheIndex (pa : Word) : BitVec 5 := pa.extractLsb' 6 5

/-- `offset = pa[5:0]`. -/
def blockOffset (pa : Word) : BitVec 6 := pa.extractLsb' 0 6

/-- The address of the byte at offset `o` of the block that a way of set `index` holds under `tag`:
`(tag << 11) | (index << 6) | o`. -/
def blockByteAddress (tag : BitVec 21) (index : BitVec 5) (o : BitVec 6) : Word := tag ++ index ++ o

/-! ### The MMU's split of a virtual address and of an entry (rules R131 to R133) -/

/-- `dir_idx = va[31:22]`. -/
def dirIndex (va : Word) : BitVec 10 := va.extractLsb' 22 10

/-- `tbl_idx = va[21:12]`. -/
def tableIndex (va : Word) : BitVec 10 := va.extractLsb' 12 10

/-- `offset = va[11:0]`. -/
def pageOffset (va : Word) : BitVec 12 := va.extractLsb' 0 12

/-- `FRAME`, bits 31:12 of an entry. -/
def entryFrame (entry : Word) : BitVec 20 := entry.extractLsb' 12 20

/-- `P`, bit 0 of an entry. -/
def entryPresent (entry : Word) : Bool := entry.getLsbD 0

/-- `R`, bit 1 of a table entry. -/
def entryReadable (entry : Word) : Bool := entry.getLsbD 1

/-- `W`, bit 2 of a table entry. -/
def entryWritable (entry : Word) : Bool := entry.getLsbD 2

/-- `X`, bit 3 of a table entry. -/
def entryExecutable (entry : Word) : Bool := entry.getLsbD 3

/-- `U`, bit 4 of a table entry. -/
def entryUser (entry : Word) : Bool := entry.getLsbD 4

/-- The address of entry `idx` of the directory or table page that `base` points to: `(base & 0xFFFFF000) + 4*idx`,
modulo 2^32 (rules R26, R133, R135). -/
def entryAddress (base : Word) (idx : BitVec 10) : Word :=
  (base &&& 0xFFFFF000#32) + BitVec.ofNat 32 (4 * idx.toNat)

end Sys2Proof.Machine
end

