-- ==== Sys2Proof/Machine/Memory.lean ====
section
/-! DEFINITION. Physical memory (rule R30): 2^32 bytes held as the list, in one canonical form, of those that are not 0. -/

namespace Sys2Proof.Machine

/-- Physical memory: the (address, byte) pairs of the bytes that are not 0, addresses strictly rising. -/
abbrev Memory := List Host.Cell

/-- What an unlisted address reads as: 0 (rule R30: reads outside initialized memory return zero). -/
def unlistedByte : Byte := 0#8

/-- The byte at an address. -/
def Memory.read : Memory → Nat → Byte
  | [], _ => unlistedByte
  | (k, b) :: rest, a => if a = k then b else Memory.read rest a

/-- One byte written; writing the unlisted byte removes the entry, so that equal memories are equal lists. -/
def Memory.write : Memory → Nat → Byte → Memory
  | [], a, b => if b = unlistedByte then [] else [(a, b)]
  | (k, c) :: rest, a, b =>
    if a < k then (if b = unlistedByte then (k, c) :: rest else (a, b) :: (k, c) :: rest)
    else if a = k then (if b = unlistedByte then rest else (a, b) :: rest)
    else (k, c) :: Memory.write rest a b

/-- The canonical form from address `low` on: addresses rise strictly, stay below 2^32, and no entry is the unlisted byte. -/
def Memory.wfFrom : Nat → Memory → Bool
  | _, [] => true
  | low, (k, b) :: rest => decide (low ≤ k) && decide (k < 2 ^ 32) && b != unlistedByte && Memory.wfFrom (k + 1) rest

/-- The canonical form of memory. -/
def Memory.wf (m : Memory) : Bool := Memory.wfFrom 0 m

/-- The `n`-byte value at `pa` in memory, zero-extended (rule R75, the second case of `DevRead`). -/
def Memory.readValue (m : Memory) (pa : Word) (n : Width) : Word :=
  littleEndian n (fun i => m.read (pa + BitVec.ofNat 32 i).toNat)

/-- The first `k` bytes of `v` written from `pa` on (rule R75). -/
def Memory.writeBytes (m : Memory) (pa v : Word) : Nat → Memory
  | 0 => m
  | k + 1 => (Memory.writeBytes m pa v k).write (pa + BitVec.ofNat 32 k).toNat (byteOf v k)

/-- The `n` low bytes of `v` written at `pa`, little-endian (rule R75). -/
def Memory.writeValue (m : Memory) (pa : Word) (n : Width) (v : Word) : Memory :=
  Memory.writeBytes m pa v (widthBytes n)

/-- A chunk's bytes written one after another from `pa` on (rule R341). -/
def Memory.writeList (m : Memory) (pa : Word) : List Byte → Memory
  | [] => m
  | b :: rest => Memory.writeList (m.write pa.toNat b) (pa + 1#32) rest

/-- `IMAGE` loaded in list order, a later chunk overwriting an earlier one (rules R37, R341). -/
def Memory.load (m : Memory) : List ImageChunk → Memory
  | [] => m
  | c :: rest => Memory.load (m.writeList c.base c.bytes) rest

/-! ### Blocks (rules R75, R101) -/

/-- The data of one cache block: 64 bytes. -/
abbrev Block := Vector Byte 64

/-- The byte at an offset of a block. -/
def Block.byte (d : Block) (o : BitVec 6) : Byte := d[o.toNat]'(o.isLt)

/-- A block with one byte replaced. -/
def Block.setByte (d : Block) (o : BitVec 6) (b : Byte) : Block := d.set o.toNat b o.isLt

/-- `BlockRead`: the 64 bytes of the block of `tag` and `index` (rule R75). -/
def Memory.readBlock (m : Memory) (tag : BitVec 21) (index : BitVec 5) : Block :=
  ⟨((List.range 64).map fun k => m.read (blockByteAddress tag index (BitVec.ofNat 6 k)).toNat).toArray, by simp⟩

/-- The first `k` bytes of a block written to memory. -/
def Memory.writeBlockBytes (m : Memory) (tag : BitVec 21) (index : BitVec 5) (d : Block) : Nat → Memory
  | 0 => m
  | k + 1 =>
    (Memory.writeBlockBytes m tag index d k).write
      (blockByteAddress tag index (BitVec.ofNat 6 k)).toNat (d.byte (BitVec.ofNat 6 k))

/-- `BlockWrite`: the 64 bytes of a block written to memory (rule R75). -/
def Memory.writeBlock (m : Memory) (tag : BitVec 21) (index : BitVec 5) (d : Block) : Memory :=
  Memory.writeBlockBytes m tag index d 64

end Sys2Proof.Machine
end

