-- ==== Sys2Proof/Machine/Cache.lean ====
section
/-! DEFINITION. The cache's state and the operations on one set (rules R100 to R107): lookup, Touch, Victim, install and
the update of cached bytes. -/

namespace Sys2Proof.Machine

/-- One way of one set (rules R29, R102). -/
structure Way where
  tag : BitVec 21
  valid : Bool
  dirty : Bool
  age : BitVec 2
  data : Block
deriving DecidableEq, Repr

/-- One set: four ways (rule R102). -/
structure CacheSet where
  way0 : Way
  way1 : Way
  way2 : Way
  way3 : Way
deriving DecidableEq, Repr

/-- The cache: 32 sets (rule R100). -/
abbrev Cache := Vector CacheSet 32

/-- A way after reset: invalid, clean, tag and data 0 (rule R37). -/
def emptyWay (age : BitVec 2) : Way := ⟨0#21, false, false, age, Vector.replicate 64 0#8⟩

/-- A set after reset: the age of way `w` is `3 - w` (rules R37, R102). -/
def emptySet : CacheSet := ⟨emptyWay 3#2, emptyWay 2#2, emptyWay 1#2, emptyWay 0#2⟩

/-- The cache after reset (rule R37). -/
def emptyCache : Cache := Vector.replicate 32 emptySet

/-- Way `w` of a set. -/
def CacheSet.way (s : CacheSet) (w : Fin 4) : Way :=
  match w with
  | 0 => s.way0
  | 1 => s.way1
  | 2 => s.way2
  | 3 => s.way3

/-- A set with way `w` replaced. -/
def CacheSet.setWay (s : CacheSet) (w : Fin 4) (y : Way) : CacheSet :=
  match w with
  | 0 => ⟨y, s.way1, s.way2, s.way3⟩
  | 1 => ⟨s.way0, y, s.way2, s.way3⟩
  | 2 => ⟨s.way0, s.way1, y, s.way3⟩
  | 3 => ⟨s.way0, s.way1, s.way2, y⟩

/-- A way holds the block of a tag: valid and the tag matches (rule R103). -/
def Way.holds (y : Way) (tag : BitVec 21) : Bool := y.valid && y.tag == tag

/-- `Hit`: the way of the set that holds the tag, the lowest-numbered one in a state where several do (rule R103; log
entry 8). -/
def CacheSet.hit (s : CacheSet) (tag : BitVec 21) : Option (Fin 4) :=
  if s.way0.holds tag then some 0
  else if s.way1.holds tag then some 1
  else if s.way2.holds tag then some 2
  else if s.way3.holds tag then some 3
  else none

/-- `Victim`: the way of age 3 (rule R106; log entry 8 for the sets where it is not the only one). -/
def CacheSet.victim (s : CacheSet) : Fin 4 :=
  if s.way0.age = 3#2 then 0
  else if s.way1.age = 3#2 then 1
  else if s.way2.age = 3#2 then 2
  else 3

/-- A way that is younger than age `a` grows older by one (rule R104). -/
def Way.growOlder (y : Way) (a : BitVec 2) : Way := { y with age := if y.age < a then y.age + 1#2 else y.age }

/-- A way made the most recently used one. -/
def Way.mostRecent (y : Way) : Way := { y with age := 0#2 }

/-- `Touch`: every way younger than `w` grows older by one, then `w` has age 0 (rule R104). -/
def CacheSet.touch (s : CacheSet) (w : Fin 4) : CacheSet :=
  let a := (s.way w).age
  CacheSet.setWay ⟨s.way0.growOlder a, s.way1.growOlder a, s.way2.growOlder a, s.way3.growOlder a⟩ w
    (s.way w).mostRecent

/-- The way that a read miss installs: valid, clean, under the new tag (rule R105). Its age is set by the Touch that
follows. -/
def Way.install (y : Way) (tag : BitVec 21) (data : Block) : Way :=
  { y with tag := tag, valid := true, dirty := false, data := data }

/-- The first `k` bytes of `v` put into a block at the offsets of `pa`, `pa + 1`, … -/
def Block.setBytes (d : Block) (pa v : Word) : Nat → Block
  | 0 => d
  | k + 1 => (Block.setBytes d pa v k).setByte (blockOffset (pa + BitVec.ofNat 32 k)) (byteOf v k)

/-- The way after a write hit: the `n` bytes updated, dirty (rule R107). -/
def Way.update (y : Way) (pa : Word) (n : Width) (v : Word) : Way :=
  { y with data := y.data.setBytes pa v (widthBytes n), dirty := true }

/-- The `n`-byte value at `pa` in a way's block (rule R105). -/
def Way.readValue (y : Way) (pa : Word) (n : Width) : Word :=
  littleEndian n (fun i => y.data.byte (blockOffset (pa + BitVec.ofNat 32 i)))

/-- The set of an index. -/
def Cache.setAt (cache : Cache) (i : BitVec 5) : CacheSet := cache[i.toNat]'(i.isLt)

/-- The cache with the set of an index replaced. -/
def Cache.putSet (cache : Cache) (i : BitVec 5) (s : CacheSet) : Cache := Vector.set cache i.toNat s i.isLt

/-- The way that holds the block of `pa`, if one does (rules R82, R103). -/
def Cache.lookup (cache : Cache) (pa : Word) : Option Way :=
  match (cache.setAt (cacheIndex pa)).hit (cacheTag pa) with
  | some w => some ((cache.setAt (cacheIndex pa)).way w)
  | none => none

end Sys2Proof.Machine
end

