-- ==== Sys2Proof/Machine/State.lean ====
section
/-! DEFINITION. The machine's state as plain data (rules R20 to R36), the reasons a step can stop, and the state after
reset (rule R37). -/

namespace Sys2Proof.Machine

/-! ### Faults and traps as data -/

/-- The kinds of fault (rule R301). -/
inductive FaultKind where
  | pageFault
  | permissionFault
  | alignmentFault
  | divideByZero
  | illegalInstruction
deriving DecidableEq, Repr

/-- A fault carried by an in-flight instruction: its kind and its information (rules R251, R300, R301). -/
structure FaultRec where
  kind : FaultKind
  info : Word
deriving DecidableEq, Repr

/-- `fault_info`: the last fault taken at writeback (rule R34). -/
structure FaultInfo where
  kind : FaultKind
  ipc : Word
  info : Word
deriving DecidableEq, Repr

/-- Why the machine has halted (rule R33). -/
inductive HaltCause where
  /-- The MMIO exit command retired. -/
  | hostExit
  /-- A trap through vector `n`, which is not registered. -/
  | unhandled (n : Nat)
  /-- A fault under `FAULT_POLICY = Halt`. -/
  | faultHalt (kind : FaultKind) (ipc info : Word)
  /-- A fault of kind `kind` while trap `n` was being entered. -/
  | doubleFault (n : Nat) (kind : FaultKind)
deriving DecidableEq, Repr

/-! ### Devices -/

/-- A pending command of the control MMIO register; `none` stands for the spec's `None` (rule R31). -/
inductive MmioCommand where
  | timestamp
  | random
deriving DecidableEq, Repr

/-- A store into the VGA text buffer as the host sees it (rules R32, R66). -/
structure VgaEvent where
  pa : Word
  width : Width
  value : Word
deriving DecidableEq, Repr

/-! ### The pipeline -/

/-- An in-flight instruction record (rule R251). A field that its stage has not written yet is empty: 0, false or none
(log entry 5). -/
structure InFlight where
  /-- The virtual address the instruction was fetched from. -/
  ipc : Word
  /-- The fetched word; a free value where the fetch faulted (log entry 4). -/
  word : Word
  /-- The fault the instruction carries. -/
  fault : Option FaultRec
  /-- Ticks still to serve in IF or MEM. -/
  wait : Nat
  /-- The decoded instruction. -/
  instr : Option Instr := none
  /-- `x[rs1]` as read in decode. -/
  a : Word := 0#32
  /-- `x[rs2]` as read in decode. -/
  b : Word := 0#32
  /-- `x[rs3]` as read in decode. -/
  c : Word := 0#32
  /-- `x[15]` as read in decode. -/
  sp : Word := 0#32
  /-- The destination register. -/
  dest : Option Reg := none
  /-- This instruction set `pending[dest]`. -/
  marked : Bool := false
  /-- The value to write to `dest`. -/
  result : Word := 0#32
  /-- The effective address. -/
  ea : Word := 0#32
  /-- The control-transfer decision. -/
  taken : Bool := false
  /-- The control-transfer target. -/
  target : Word := 0#32
  /-- The memory stage has made this instruction's accesses. -/
  issued : Bool := false
  /-- The privilege popped by RET. -/
  newpriv : Option Privilege := none
  /-- This store latched `exit_requested`. -/
  exit : Bool := false
deriving DecidableEq, Repr

/-- A stage slot: `none` is the spec's `Bubble` (rules R28, R250). -/
abbrev Slot := Option InFlight

/-- The five stage slots (rules R28, R250). -/
structure Slots where
  ifs : Slot := none
  ids : Slot := none
  exs : Slot := none
  mems : Slot := none
  wbs : Slot := none
deriving DecidableEq, Repr

/-! ### Counters -/

/-- The statistics counters, unbounded naturals (rule R36). -/
structure Stats where
  retired : Nat := 0
  dataStall : Nat := 0
  controlSquash : Nat := 0
  cacheReads : Nat := 0
  cacheReadHits : Nat := 0
  cacheWrites : Nat := 0
  cacheWriteHits : Nat := 0
  memCycles : Nat := 0
  fetchCycles : Nat := 0
deriving DecidableEq, Repr

/-! ### The machine -/

/-- Which of the two levels of description of rule R9 a step follows. The MODEL's own field: the spec gives both
readings of one machine. DESIGN CHOICE, log entry 2. -/
inductive Reading where
  /-- The sequential reading, R9 (a): one step is one instruction. -/
  | instruction
  /-- The cycle-level reading, R9 (b): one step is one tick (rule R252). -/
  | cycle
deriving DecidableEq, Repr

/-- The state of the machine: every piece of state of rules R20 to R36, the configuration that reset fixed (rule R5)
and the model's own `reading`. -/
structure State where
  /-- The parameters of rule R5, constant after reset (rule R38). -/
  params : Params
  /-- The model's own: the reading that a step follows. -/
  reading : Reading
  /-- The general registers r0 to r15 (rules R20, R21). -/
  x : Vector Word 16
  /-- The architectural program counter (rule R23 (b)). -/
  pc : Word
  /-- The fetch pointer (rule R23 (a)). -/
  fpc : Word
  /-- `FLAGS.PRIV`; the other bits of FLAGS read 0 (rule R25). -/
  priv : Privilege
  /-- The page-table base register (rule R26). -/
  ptbr : Word
  /-- The pending-write scoreboard (rule R27). -/
  pending : Vector Bool 16
  /-- The five stage slots (rule R28). -/
  slots : Slots
  /-- The cache (rule R29). -/
  cache : Cache
  /-- Physical memory, stale under a dirty cache block (rules R30, R82). -/
  mem : Memory
  /-- `exit_requested` (rule R31). -/
  exitRequested : Bool
  /-- `mmio_pending` (rule R31). -/
  mmioPending : Option MmioCommand
  /-- `prng_state` (rule R31). -/
  prngState : Word
  /-- `vga_events`, oldest first (rule R32). -/
  vgaEvents : List VgaEvent
  /-- `halted`; none while the machine runs (rule R33). -/
  halted : Option HaltCause
  /-- `fault_info` (rule R34). -/
  faultInfo : Option FaultInfo
  /-- The global cycle counter, modulo 2^64 (rule R35). -/
  cycles : CycleCount
  /-- The statistics counters (rule R36). -/
  stats : Stats
deriving DecidableEq, Repr

/-! ### How a step can stop -/

/-- A stop with a fault. There is none: every fault of this hardware is taken by the machine itself, which goes on at
the handler or halts in a state that says why (rules R33, R307 to R310), and every byte address exists (rule R30).
Raised by nobody; safe. -/
inductive Fault where
deriving DecidableEq, Repr

/-- A stop with a refusal. -/
inductive Refusal where
  /-- An instruction without a meaning, by its mnemonic. Raised by no arm of `exec`; safe. -/
  | notModelled (mnemonic : String)
  /-- The host wrote `PTBR` while an instruction was in flight (rule R275; 93_implementation_defined.md U23: refuse).
  Raised by the host operation `hostWritePtbr` only; safe. -/
  | ptbrWriteInFlight
deriving DecidableEq, Repr

/-! ### Reset -/

/-- The machine right after reset with the default arguments of rule R5: the table of rule R37. `ENTRY` has no default
there and the model's is 0x4000, with no image loaded (DESIGN CHOICE, log entry 1). -/
def State.reset : State where
  params := {}
  reading := .instruction
  x := Vector.replicate 16 0#32
  pc := 0x4000#32
  fpc := 0x4000#32
  priv := .supervisor
  ptbr := 0#32
  pending := Vector.replicate 16 false
  slots := {}
  cache := emptyCache
  mem := []
  exitRequested := false
  mmioPending := none
  prngState := 0#32
  vgaEvents := []
  halted := none
  faultInfo := none
  cycles := 0#64
  stats := {}

end Sys2Proof.Machine
end

