-- ==== Sys2Proof/Machine/Flags.lean ====
section
/-! DEFINITION. The flag state: the FLAGS word and its one bit PRIV (rule R25), and the conditions of the branches, which
compare two registers because the ISA has no condition codes (rules R24, R232 to R235). -/

namespace Sys2Proof.Machine

/-- The FLAGS word that CALL and trap entry push: `zext_1(PRIV)` (rules R25, R231). -/
def flagsWord : Privilege → Word
  | .user => 0#32
  | .supervisor => 1#32

/-- `PRIV` from a popped flags word: bit 0, the other bits ignored (rules R25, R238). -/
def privilegeOfFlags (flags : Word) : Privilege := if flags.getLsbD 0 then .supervisor else .user

/-- BNE's condition: `x[rs3] != x[rs1]` (rule R232). -/
def bneTaken (c a : Word) : Bool := c != a

/-- BEQ's condition: `x[rs3] = x[rs1]` (rule R233). -/
def beqTaken (c a : Word) : Bool := c == a

/-- BLT's condition: `s(x[rs3]) < s(x[rs1])`, signed (rule R234). -/
def bltTaken (c a : Word) : Bool := decide (c.toInt < a.toInt)

/-- BGT's condition: `s(x[rs3]) > s(x[rs1])`, signed (rule R235). -/
def bgtTaken (c a : Word) : Bool := decide (c.toInt > a.toInt)

end Sys2Proof.Machine
end

