-- ==== Sys2Proof/Machine/Operands.lean ====
section
/-! DEFINITION. The operand forms (rules R21, R162, R163, R220, R230, R231) and the results of arithmetic and logic
(rules R200 to R216), as functions of the operands' values. -/

namespace Sys2Proof.Machine

/-! ### Register operands (rules R20, R21) -/

/-- The stack pointer r15 (rule R22). -/
def spReg : Reg := 15

/-- `x[r]`: r0 reads 0 (rule R21). -/
def State.reg (s : State) (r : Reg) : Word := if r = 0 then 0#32 else s.x[r.val]

/-- `x[r] <- v`: a write to r0 is discarded (rule R21). -/
def State.setReg (s : State) (r : Reg) (v : Word) : State :=
  { s with x := if r = 0 then s.x else s.x.set r.val v }

/-! ### Immediate operands, addresses and targets -/

/-- `sext_16(imm)` as a word (rule R162). -/
def immWord (imm : Int) : Word := BitVec.ofInt 32 imm

/-- `sext_21(offset)` as a word (rule R163). -/
def offsetWord (offset : Int) : Word := BitVec.ofInt 32 offset

/-- The effective address of a load or store, modulo 2^32 (rule R220). -/
def effectiveAddress (base : Word) (imm : Int) : Word := base + immWord imm

/-- A branch target: relative to the branch's own address (rule R230). -/
def branchTarget (ipc : Word) (imm : Int) : Word := ipc + immWord imm

/-- A JMPR or CALL target: relative to the instruction's own address (rule R230). -/
def jumpTarget (ipc : Word) (offset : Int) : Word := ipc + offsetWord offset

/-- The address of the instruction that follows in memory (rule R23). -/
def nextAddress (ipc : Word) : Word := ipc + 4#32

/-- The stack pointer after a frame is pushed (rule R231). -/
def pushedSp (sp : Word) : Word := sp - 8#32

/-- The stack pointer after a frame is popped (rule R231). -/
def poppedSp (sp : Word) : Word := sp + 8#32

/-- The address of a frame's second word, the return pc (rule R231). -/
def framePcAddress (sp : Word) : Word := sp + 4#32

/-! ### Results, register with register (rules R200 to R208) -/

/-- ADD: modulo 2^32 (rule R200). -/
def addResult (a b : Word) : Word := a + b

/-- SUB: `rs1 - rs2` modulo 2^32 (rule R201). -/
def subResult (a b : Word) : Word := a - b

/-- XOR (rule R202). -/
def xorResult (a b : Word) : Word := a ^^^ b

/-- OR (rule R203). -/
def orResult (a b : Word) : Word := a ||| b

/-- AND (rule R204). -/
def andResult (a b : Word) : Word := a &&& b

/-- The shift amount: bits 4:0 of the operand (rules R205, R206). -/
def shiftAmount (b : Word) : Nat := (b.extractLsb' 0 5).toNat

/-- SHR: logical (rule R205). -/
def shrResult (a b : Word) : Word := a >>> shiftAmount b

/-- SHL (rule R206). -/
def shlResult (a b : Word) : Word := a <<< shiftAmount b

/-- MUL: the low 32 bits of the product (rule R207). -/
def mulResult (a b : Word) : Word := a * b

/-- DIV: none for a zero divisor, else the signed quotient truncated toward zero, as a 32-bit word (rule R208). -/
def divResult (a b : Word) : Option Word :=
  if b = 0#32 then none else some (BitVec.ofInt 32 (Int.tdiv a.toInt b.toInt))

/-! ### Results, register with immediate (rules R210 to R216) -/

/-- ADDI (rule R212). -/
def addiResult (a : Word) (imm : Int) : Word := a + immWord imm

/-- SUBI (rule R213). -/
def subiResult (a : Word) (imm : Int) : Word := a - immWord imm

/-- XORI (rule R214). -/
def xoriResult (a : Word) (imm : Int) : Word := a ^^^ immWord imm

/-- ORI (rule R215). -/
def oriResult (a : Word) (imm : Int) : Word := a ||| immWord imm

/-- ANDI (rule R216). -/
def andiResult (a : Word) (imm : Int) : Word := a &&& immWord imm

/-- LUI: `sext_16(imm) << 12` (rule R211). -/
def luiResult (imm : Int) : Word := immWord imm <<< 12

end Sys2Proof.Machine
end

