-- ==== Sys2Proof/Machine/Ops.lean ====
section
/-! DEFINITION. The named operations over the machine's state: counters, squash and halt, the devices, the cached access
path, the MMU, data accesses, the frame, and the taking of a trap (rules R33, R35, R66 to R75, R104 to R113, R130 to R140,
R231, R265, R300 to R311). -/

namespace Sys2Proof.Machine

/-- The outcome of a transaction: its value, its latency in cycles and the state after it. A transaction is performed
completely at the tick that issues it (rule R8). -/
structure Timed (α : Type) where
  val : α
  lat : Nat
  st : State

/-! ### Counters (rules R35, R36, R270) -/

/-- `cycles` advanced, modulo 2^64 (rule R35). -/
def State.addCycles (s : State) (n : Nat) : State := { s with cycles := s.cycles + BitVec.ofNat 64 n }

/-- `retired` + 1. -/
def State.countRetired (s : State) : State := { s with stats := { s.stats with retired := s.stats.retired + 1 } }

/-- `data_stall` + 1. -/
def State.countDataStall (s : State) : State := { s with stats := { s.stats with dataStall := s.stats.dataStall + 1 } }

/-- `control_squash` + n. -/
def State.countSquashed (s : State) (n : Nat) : State :=
  { s with stats := { s.stats with controlSquash := s.stats.controlSquash + n } }

/-- `mem_cycles` + n. -/
def State.countMemCycles (s : State) (n : Nat) : State :=
  { s with stats := { s.stats with memCycles := s.stats.memCycles + n } }

/-- `fetch_cycles` + n. -/
def State.countFetchCycles (s : State) (n : Nat) : State :=
  { s with stats := { s.stats with fetchCycles := s.stats.fetchCycles + n } }

/-! ### The program counters (rule R23) -/

/-- `pc <- t` and `fpc <- t`: a redirect or a trap sets both. -/
def State.setPcs (s : State) (t : Word) : State := { s with pc := t, fpc := t }

/-! ### Squash and halt (rules R33, R265) -/

/-- The scoreboard after the instruction in a slot is removed: the pending bit that it marked is cleared (rule R265). -/
def releasePending (pending : Vector Bool 16) : Slot → Vector Bool 16
  | none => pending
  | some i =>
    match i.marked, i.dest with
    | true, some d => pending.set d.val false
    | _, _ => pending

/-- The number of instructions in a slot. -/
def slotCount : Slot → Nat
  | none => 0
  | some _ => 1

/-- `Squash({EX, ID, IF})`, as a redirect performs it (rule R264). -/
def State.squashYoung (s : State) : State :=
  { s with
    pending := releasePending (releasePending (releasePending s.pending s.slots.exs) s.slots.ids) s.slots.ifs
    slots := { s.slots with exs := none, ids := none, ifs := none } }

/-- How many instructions `Squash({EX, ID, IF})` removes (rule R264). -/
def State.youngCount (s : State) : Nat := slotCount s.slots.exs + slotCount s.slots.ids + slotCount s.slots.ifs

/-- `Squash({IF, ID, EX, MEM})`, as trap entry performs it (rule R308). -/
def State.squashBehindWb (s : State) : State :=
  { s.squashYoung with
    pending := releasePending s.squashYoung.pending s.slots.mems
    slots := { s.slots with exs := none, ids := none, ifs := none, mems := none } }

/-- `Squash` of all five stages, as a halt performs it (rule R33). -/
def State.squashAll (s : State) : State :=
  { s.squashBehindWb with
    pending := releasePending s.squashBehindWb.pending s.slots.wbs
    slots := {} }

/-- `halt(cause)` (rule R33). It leaves the pipeline empty, so the fetch pointer goes back to `pc`: rule R23 says
`pc = fpc` of an empty pipeline (log entry 7). -/
def State.halt (s : State) (cause : HaltCause) : State := { s.squashAll with halted := some cause, fpc := s.pc }

/-! ### Devices (rules R66 to R68, R75, R83) -/

/-- `PrngNext` (rule R83). -/
def prngNext (choice : PrngChoice) (p : Word) : Word :=
  match choice with
  | .lcg => 1664525#32 * p + 1013904223#32
  | .implementation => Config.prngNext p

/-- The timestamp that a read takes: `cycles[31:0]` at the tick of issue (rule R68). In the instruction reading of a
pipelined machine the model does not know the pipeline's delays and the value is free (log entry 3). -/
def State.timestamp (s : State) : Word :=
  match s.reading, s.params.pipelineEnabled with
  | .instruction, true => Config.anyTimestamp s.cycles.toNat
  | _, _ => s.cycles.setWidth 32

/-- `DevRead`: the bytes of memory, or the value of a pending command at exactly 0x2000, which is consumed (rules R68, R75). -/
def devRead (pa : Word) (n : Width) (s : State) : Word × State :=
  if isCtrl pa then
    match s.mmioPending with
    | some .timestamp => (lowBytes n s.timestamp, { s with mmioPending := none })
    | some .random =>
      (lowBytes n (prngNext s.params.prng s.prngState),
        { s with mmioPending := none, prngState := prngNext s.params.prng s.prngState })
    | none => (s.mem.readValue pa n, s)
  else (s.mem.readValue pa n, s)

/-- The bytes of a store written into `mem` (rule R75). -/
def State.writeMem (s : State) (pa : Word) (n : Width) (v : Word) : State := { s with mem := s.mem.writeValue pa n v }

/-- The VGA event of a store into the text buffer (rule R66). -/
def State.emitVga (s : State) (pa : Word) (n : Width) (v : Word) : State :=
  { s with vgaEvents := if inVga pa then s.vgaEvents ++ [⟨pa, n, lowBytes n v⟩] else s.vgaEvents }

/-- The command of a store to exactly 0x2000: the low byte 0x41, 0x42 or 0x43; any other is no command (rule R67). -/
def State.command (s : State) (pa : Word) (v : Word) : State :=
  { s with
    exitRequested := s.exitRequested || (isCtrl pa && byteOf v 0 == 0x41#8)
    mmioPending :=
      if isCtrl pa && byteOf v 0 == 0x42#8 then some .timestamp
      else if isCtrl pa && byteOf v 0 == 0x43#8 then some .random
      else s.mmioPending }

/-- `DevWrite`: the bytes, then the VGA event, then the command (rule R75). -/
def devWrite (pa : Word) (n : Width) (v : Word) (s : State) : State :=
  ((s.writeMem pa n v).emitVga pa n v).command pa v

/-! ### The cached access path (rules R69 to R71, R104 to R113) -/

/-- The kind that an access's issuer gives it (rule R113). -/
inductive AccessKind where
  | load
  | store
  | fetch
  | walk
  | vector
deriving DecidableEq, Repr

/-- The cache counters of a read: only kind `load` counts (rule R113). -/
def countRead (kind : AccessKind) (isHit : Bool) (s : State) : State :=
  match kind with
  | .load =>
    { s with stats :=
      { s.stats with
        cacheReads := s.stats.cacheReads + 1
        cacheReadHits := s.stats.cacheReadHits + (if isHit then 1 else 0) } }
  | _ => s

/-- The cache counters of a write: every `CacheWrite` is of kind `store` (rule R113), the two frame writes of trap entry
included. 90_conflicts.md C8 says otherwise of those two; the model follows R113 (DESIGN CHOICE, log entry 19). -/
def countWrite (isHit : Bool) (s : State) : State :=
  { s with stats :=
    { s.stats with
      cacheWrites := s.stats.cacheWrites + 1
      cacheWriteHits := s.stats.cacheWriteHits + (if isHit then 1 else 0) } }

/-- The cache's set replaced. -/
def State.putSet (s : State) (i : BitVec 5) (cs : CacheSet) : State := { s with cache := s.cache.putSet i cs }

/-- A read hit in way `w`: Touch (rule R105). -/
def State.touchWay (s : State) (i : BitVec 5) (w : Fin 4) : State := s.putSet i ((s.cache.setAt i).touch w)

/-- Whether the victim of set `i` must be written back: valid and dirty (rule R105). -/
def State.victimDirty (s : State) (i : BitVec 5) : Bool :=
  ((s.cache.setAt i).way (s.cache.setAt i).victim).valid && ((s.cache.setAt i).way (s.cache.setAt i).victim).dirty

/-- The write-back of the victim of set `i`, where it is needed (rule R105). -/
def State.writeBackVictim (s : State) (i : BitVec 5) : State :=
  { s with
    mem :=
      if s.victimDirty i then
        s.mem.writeBlock ((s.cache.setAt i).way (s.cache.setAt i).victim).tag i
          ((s.cache.setAt i).way (s.cache.setAt i).victim).data
      else s.mem }

/-- The block of `tag` and set `i` read from memory into the victim way, which is touched (rule R105). -/
def State.installBlock (s : State) (tag : BitVec 21) (i : BitVec 5) : State :=
  s.putSet i
    (CacheSet.touch
      ((s.cache.setAt i).setWay (s.cache.setAt i).victim
        (((s.cache.setAt i).way (s.cache.setAt i).victim).install tag (s.mem.readBlock tag i)))
      (s.cache.setAt i).victim)

/-- The state after a read miss: the victim written back where it is dirty, then the block installed (rule R105). -/
def State.fillBlock (s : State) (pa : Word) : State :=
  (s.writeBackVictim (cacheIndex pa)).installBlock (cacheTag pa) (cacheIndex pa)

/-- The latency of a read miss: 100, and 100 more for a dirty victim (rules R105, R108). -/
def State.missLatency (s : State) (i : BitVec 5) : Nat := latMiss + (if s.victimDirty i then latWriteback else 0)

/-- `CacheRead` (rule R105): a hit touches its way, a miss fills the victim way and answers from it. -/
def cacheRead (kind : AccessKind) (pa : Word) (n : Width) (s : State) : Timed Word :=
  let i := cacheIndex pa
  let cs := s.cache.setAt i
  match cs.hit (cacheTag pa) with
  | some w => ⟨(cs.way w).readValue pa n, latHit, countRead kind true (s.touchWay i w)⟩
  | none =>
    let s' := s.fillBlock pa
    ⟨((s'.cache.setAt i).way cs.victim).readValue pa n, s.missLatency i, countRead kind false s'⟩

/-- The state after a write hit in way `w`: the bytes updated, the way dirty and touched (rule R107). -/
def State.updateWay (s : State) (w : Fin 4) (pa : Word) (n : Width) (v : Word) : State :=
  let i := cacheIndex pa
  let cs := s.cache.setAt i
  s.putSet i ((cs.setWay w ((cs.way w).update pa n v)).touch w)

/-- `CacheWrite` (rule R107): a hit updates the block, a miss writes through without allocating. -/
def cacheWrite (pa : Word) (n : Width) (v : Word) (s : State) : Timed Unit :=
  match (s.cache.setAt (cacheIndex pa)).hit (cacheTag pa) with
  | some w => ⟨(), latHit, countWrite true (s.updateWay w pa n v)⟩
  | none => ⟨(), latMiss, countWrite false (devWrite pa n v s)⟩

/-- An access that goes past the cache: the cache is disabled or the address is uncacheable (rules R69, R70, R111). -/
def bypassesCache (s : State) (pa : Word) : Bool := !s.params.cacheEnabled || uncacheable pa

/-- `PhysRead` (rule R70). -/
def physRead (kind : AccessKind) (pa : Word) (n : Width) (s : State) : Timed Word :=
  if bypassesCache s pa then ⟨(devRead pa n s).1, latMiss, (devRead pa n s).2⟩ else cacheRead kind pa n s

/-- `PhysWrite` (rule R71); every write of the core is of kind `store`. -/
def physWrite (pa : Word) (n : Width) (v : Word) (s : State) : Timed Unit :=
  if bypassesCache s pa then ⟨(), latMiss, devWrite pa n v s⟩ else cacheWrite pa n v s

/-- `View(pa)`: the byte that a program sees, the cached one where a valid way holds its block (rule R82). -/
def State.view (s : State) (pa : Word) : Byte :=
  match s.params.cacheEnabled, s.cache.lookup pa with
  | true, some y => y.data.byte (blockOffset pa)
  | _, _ => s.mem.read pa.toNat

/-- The 32-bit little-endian value of the coherent view at a physical address. -/
def State.viewWord (s : State) (pa : Word) : Word :=
  littleEndian .word (fun i => s.view (pa + BitVec.ofNat 32 i))

/-! ### The MMU (rules R130 to R140) -/

/-- The access kinds that a translation checks (rules R133, R136). -/
inductive Access where
  | fetch
  | load
  | store
deriving DecidableEq, Repr

/-- The right that an access needs: X, R or W of the table entry (rule R136). -/
def accessAllowed (acc : Access) (pte : Word) : Bool :=
  match acc with
  | .fetch => entryExecutable pte
  | .load => entryReadable pte
  | .store => entryWritable pte

/-- The privilege test: in user mode the page needs `U` (rule R137). -/
def privilegeAllowed (p : Privilege) (pte : Word) : Bool :=
  match p with
  | .user => entryUser pte
  | .supervisor => true

/-- The verdict on a table entry: presence, then the right, then the privilege, then the physical address (rule R133). -/
def leafResult (acc : Access) (p : Privilege) (va pte : Word) : Except FaultRec Word :=
  if entryPresent pte = false then .error ⟨.pageFault, va⟩
  else if accessAllowed acc pte = false then .error ⟨.permissionFault, va⟩
  else if privilegeAllowed p pte = false then .error ⟨.permissionFault, va⟩
  else .ok (entryFrame pte ++ pageOffset va)

/-- The directory entry read of a walk (rule R133). -/
def readDirectory (va : Word) (s : State) : Timed Word :=
  physRead .walk (entryAddress s.ptbr (dirIndex va)) .word s

/-- The table entry read of a walk (rule R133). -/
def readTable (pde va : Word) (s : State) : Timed Word :=
  physRead .walk (entryAddress pde (tableIndex va)) .word s

/-- `Translate` (rules R130, R133): the identity with paging off, else the two-level walk. -/
def translate (acc : Access) (va : Word) (s : State) : Timed (Except FaultRec Word) :=
  if s.ptbr = 0#32 then ⟨.ok va, 0, s⟩
  else
    let d := readDirectory va s
    if entryPresent d.val = false then ⟨.error ⟨.pageFault, va⟩, d.lat, d.st⟩
    else
      let t := readTable d.val va d.st
      ⟨leafResult acc s.priv va t.val, d.lat + t.lat, t.st⟩

/-- Translation followed by the alignment check (rules R63, R72 to R74). -/
def translateAligned (acc : Access) (va : Word) (n : Width) (s : State) : Timed (Except FaultRec Word) :=
  let t := translate acc va s
  match t.val with
  | .error f => ⟨.error f, t.lat, t.st⟩
  | .ok pa => if aligned pa n then ⟨.ok pa, t.lat, t.st⟩ else ⟨.error ⟨.alignmentFault, va⟩, t.lat, t.st⟩

/-! ### Data accesses and the fetch (rules R72 to R74) -/

/-- A read by virtual address for an access kind. On a fault nothing is read and the latency is `max(lat1, 1)`. -/
def virtualRead (acc : Access) (kind : AccessKind) (va : Word) (n : Width) (s : State) : Timed (Except FaultRec Word) :=
  let t := translateAligned acc va n s
  match t.val with
  | .error f => ⟨.error f, max t.lat 1, t.st⟩
  | .ok pa =>
    let r := physRead kind pa n t.st
    ⟨.ok r.val, t.lat + r.lat, r.st⟩

/-- `MemRead` (rule R72). -/
def memRead (va : Word) (n : Width) (s : State) : Timed (Except FaultRec Word) := virtualRead .load .load va n s

/-- `MemWrite` (rule R73). -/
def memWrite (va : Word) (n : Width) (v : Word) (s : State) : Timed (Except FaultRec Unit) :=
  let t := translateAligned .store va n s
  match t.val with
  | .error f => ⟨.error f, max t.lat 1, t.st⟩
  | .ok pa =>
    let r := physWrite pa n v t.st
    ⟨.ok (), t.lat + r.lat, r.st⟩

/-- `Fetch` (rule R74). -/
def fetch (va : Word) (s : State) : Timed (Except FaultRec Word) := virtualRead .fetch .fetch va .word s

/-! ### The frame of CALL and RET (rules R231, R237, R238, R261) -/

/-- The checks of CALL and RET before either access: the first word's translation, the second word's, the alignment
(rules R237, R238, R314). The walk stops at the first fault (log entry 6). -/
def translateFrame (acc : Access) (sp : Word) (s : State) : Timed (Except FaultRec (Word × Word)) :=
  let t0 := translate acc sp s
  match t0.val with
  | .error f => ⟨.error f, t0.lat, t0.st⟩
  | .ok pa0 =>
    let t1 := translate acc (framePcAddress sp) t0.st
    match t1.val with
    | .error f => ⟨.error f, t0.lat + t1.lat, t1.st⟩
    | .ok pa1 =>
      if aligned sp .word then ⟨.ok (pa0, pa1), t0.lat + t1.lat, t1.st⟩
      else ⟨.error ⟨.alignmentFault, sp⟩, t0.lat + t1.lat, t1.st⟩

/-- The two stores of a frame: the flags word, then the saved pc (rules R231, R237, R308). -/
def writeFrame (pa0 pa1 flags savedPc : Word) (s : State) : Timed Unit :=
  let w0 := physWrite pa0 .word flags s
  let w1 := physWrite pa1 .word savedPc w0.st
  ⟨(), w0.lat + w1.lat, w1.st⟩

/-- CALL's memory action: the frame pushed at `sp` (rules R237, R261). -/
def pushFrame (sp savedPc : Word) (s : State) : Timed (Except FaultRec Unit) :=
  let t := translateFrame .store sp s
  match t.val with
  | .error f => ⟨.error f, max t.lat 1, t.st⟩
  | .ok (pa0, pa1) =>
    let w := writeFrame pa0 pa1 (flagsWord s.priv) savedPc t.st
    ⟨.ok (), t.lat + w.lat, w.st⟩

/-- RET's memory action: the flags word and the saved pc popped from `sp` (rules R238, R261). -/
def popFrame (sp : Word) (s : State) : Timed (Except FaultRec (Word × Word)) :=
  let t := translateFrame .load sp s
  match t.val with
  | .error f => ⟨.error f, max t.lat 1, t.st⟩
  | .ok (pa0, pa1) =>
    let r0 := physRead .load pa0 .word t.st
    let r1 := physRead .load pa1 .word r0.st
    ⟨.ok (r0.val, r1.val), t.lat + r0.lat + r1.lat, r1.st⟩

/-! ### Taking a trap (rules R301, R306 to R311) -/

/-- The vector number of INT0 (rule R301). -/
def int0Vector : Nat := 0

/-- The vector number of a fault kind (rule R301). -/
def faultVector : FaultKind → Nat
  | .pageFault => 1
  | .permissionFault => 2
  | .alignmentFault => 3
  | .divideByZero => 4
  | .illegalInstruction => 5

/-- The state of a successful trap entry once its frame is stored: r15, the raised privilege, the handler's address
(rule R308). -/
def enterHandler (vec sp : Word) (s : State) : State :=
  { (s.setReg spReg sp).setPcs vec with priv := .supervisor }

/-- `TrapEntry(N, spc)` (rules R308 to R311): squash, vector read, the two translations at the pre-trap privilege, the two
pushes; the latencies of its accesses are added to `cycles`. An unregistered vector halts with `Unhandled`, a frame that
cannot be stored with `DoubleFault`. -/
def trapEntry (n : Nat) (savedPc : Word) (s : State) : State :=
  let v := physRead .vector (vectorAddress n) .word s.squashBehindWb
  if v.val = 0#32 then (v.st.addCycles v.lat).halt (.unhandled n)
  else
    let sp := pushedSp (s.reg spReg)
    let t0 := translate .store sp v.st
    let t1 := translate .store (framePcAddress sp) t0.st
    let fail := fun kind => (t1.st.addCycles (v.lat + t0.lat + t1.lat)).halt (.doubleFault n kind)
    match t0.val, t1.val with
    | .error f, _ => fail f.kind
    | .ok _, .error f => fail f.kind
    | .ok pa0, .ok pa1 =>
      if aligned sp .word then
        let w := writeFrame pa0 pa1 (flagsWord s.priv) savedPc t1.st
        (enterHandler v.val sp w.st).addCycles (v.lat + t0.lat + t1.lat + w.lat)
      else fail .alignmentFault

/-- The faults that `FAULT_POLICY` governs (rules R301, R307). -/
def policyGoverns : FaultKind → Bool
  | .pageFault => false
  | .permissionFault => false
  | .alignmentFault => true
  | .divideByZero => true
  | .illegalInstruction => true

/-- A fault taken at writeback: recorded in `fault_info`, then `FaultHalt` or trap entry with the faulting instruction's
own address as the saved pc (rules R253, R306, R307). -/
def takeFault (kind : FaultKind) (ipc info : Word) (s : State) : State :=
  let s' : State := { s with faultInfo := some ⟨kind, ipc, info⟩ }
  if policyGoverns kind && s.params.faultPolicy = .halt then s'.halt (.faultHalt kind ipc info)
  else trapEntry (faultVector kind) ipc s'

/-! ### Placing bytes where the core reads them -/

/-- A set with the byte of `pa` replaced in the way that holds its block, if one does. -/
def CacheSet.poke (cs : CacheSet) (pa : Word) (b : Byte) : CacheSet :=
  match cs.hit (cacheTag pa) with
  | some w => cs.setWay w { cs.way w with data := (cs.way w).data.setByte (blockOffset pa) b }
  | none => cs

/-- One byte replaced in memory and in the cached copy where there is one, so that every reader sees it. No access of the
core: it is how an instruction is placed for `withFetchWord`. -/
def State.pokeByte (s : State) (pa : Word) (b : Byte) : State :=
  { s with
    mem := s.mem.write pa.toNat b
    cache := s.cache.putSet (cacheIndex pa) ((s.cache.setAt (cacheIndex pa)).poke pa b) }

/-- The four bytes of a word placed at a physical address. -/
def State.pokeWord (s : State) (pa w : Word) : State :=
  (((s.pokeByte pa (byteOf w 0)).pokeByte (pa + 1#32) (byteOf w 1)).pokeByte (pa + 2#32) (byteOf w 2)).pokeByte
    (pa + 3#32) (byteOf w 3)

end Sys2Proof.Machine
end

