-- ==== Sys2Proof/Machine/Pipeline.lean ====
section
/-! DEFINITION. The cycle-level machine: one tick evaluates the five stages, oldest first (rules R250 to R276). -/

namespace Sys2Proof.Machine

/-! ### What each instruction needs of the interlock (rules R257, R259) -/

/-- `Sources` (rule R259). -/
def sources : Instr → List Reg
  | .add _ ra rb => [ra, rb]
  | .sub _ ra rb => [ra, rb]
  | .xor _ ra rb => [ra, rb]
  | .or _ ra rb => [ra, rb]
  | .and _ ra rb => [ra, rb]
  | .shr _ ra rb => [ra, rb]
  | .shl _ ra rb => [ra, rb]
  | .mul _ ra rb => [ra, rb]
  | .div _ ra rb => [ra, rb]
  | .addi _ ra _ => [ra]
  | .subi _ ra _ => [ra]
  | .xori _ ra _ => [ra]
  | .ori _ ra _ => [ra]
  | .andi _ ra _ => [ra]
  | .lui _ _ => []
  | .ldb _ ra _ => [ra]
  | .ldh _ ra _ => [ra]
  | .ld _ ra _ => [ra]
  | .stb rv ra _ => [ra, rv]
  | .sth rv ra _ => [ra, rv]
  | .st rv ra _ => [ra, rv]
  | .bne rc ra _ => [rc, ra]
  | .beq rc ra _ => [rc, ra]
  | .blt rc ra _ => [rc, ra]
  | .bgt rc ra _ => [rc, ra]
  | .jmpr _ => []
  | .nop => []
  | .int0 => []
  | .call _ => [spReg]
  | .ret => [spReg]

/-- `Dest` (rule R259). -/
def destination : Instr → Option Reg
  | .add rd _ _ => some rd
  | .sub rd _ _ => some rd
  | .xor rd _ _ => some rd
  | .or rd _ _ => some rd
  | .and rd _ _ => some rd
  | .shr rd _ _ => some rd
  | .shl rd _ _ => some rd
  | .mul rd _ _ => some rd
  | .div rd _ _ => some rd
  | .addi rd _ _ => some rd
  | .subi rd _ _ => some rd
  | .xori rd _ _ => some rd
  | .ori rd _ _ => some rd
  | .andi rd _ _ => some rd
  | .lui rd _ => some rd
  | .ldb rd _ _ => some rd
  | .ldh rd _ _ => some rd
  | .ld rd _ _ => some rd
  | .stb _ _ _ => none
  | .sth _ _ _ => none
  | .st _ _ _ => none
  | .bne _ _ _ => none
  | .beq _ _ _ => none
  | .blt _ _ _ => none
  | .bgt _ _ _ => none
  | .jmpr _ => none
  | .nop => none
  | .int0 => none
  | .call _ => some spReg
  | .ret => some spReg

/-- The register fields `(rs3, rs1, rs2)` of a decoded instruction, ignored or absent ones 0 (rule R171). -/
def regFields : Instr → Reg × Reg × Reg
  | .add rd ra rb => (rd, ra, rb)
  | .sub rd ra rb => (rd, ra, rb)
  | .xor rd ra rb => (rd, ra, rb)
  | .or rd ra rb => (rd, ra, rb)
  | .and rd ra rb => (rd, ra, rb)
  | .shr rd ra rb => (rd, ra, rb)
  | .shl rd ra rb => (rd, ra, rb)
  | .mul rd ra rb => (rd, ra, rb)
  | .div rd ra rb => (rd, ra, rb)
  | .addi rd ra _ => (rd, ra, 0)
  | .subi rd ra _ => (rd, ra, 0)
  | .xori rd ra _ => (rd, ra, 0)
  | .ori rd ra _ => (rd, ra, 0)
  | .andi rd ra _ => (rd, ra, 0)
  | .lui rd _ => (rd, 0, 0)
  | .ldb rd ra _ => (rd, ra, 0)
  | .ldh rd ra _ => (rd, ra, 0)
  | .ld rd ra _ => (rd, ra, 0)
  | .stb rv ra _ => (rv, ra, 0)
  | .sth rv ra _ => (rv, ra, 0)
  | .st rv ra _ => (rv, ra, 0)
  | .bne rc ra _ => (rc, ra, 0)
  | .beq rc ra _ => (rc, ra, 0)
  | .blt rc ra _ => (rc, ra, 0)
  | .bgt rc ra _ => (rc, ra, 0)
  | .jmpr _ => (0, 0, 0)
  | .nop => (0, 0, 0)
  | .int0 => (0, 0, 0)
  | .call _ => (0, 0, 0)
  | .ret => (0, 0, 0)

/-- `pending(idx)` (rule R27). -/
def State.isPending (s : State) (r : Reg) : Bool := s.pending[r.val]

/-- `Hazard(d)`: a source or the destination is pending (rule R257). -/
def hazard (i : Instr) (s : State) : Bool :=
  (sources i).any s.isPending || (destination i).any s.isPending

/-! ### Writeback (rules R253, R306) -/

/-- The register write of an unfaulted instruction at writeback (rule R253). -/
def commitResult (i : InFlight) (s : State) : State :=
  match i.dest with
  | some d => s.setReg d i.result
  | none => s

/-- `slot[WB] := Bubble`, with the pending bit of its instruction cleared (rule R253). -/
def clearWb (s : State) : State :=
  { s with
    pending := releasePending s.pending s.slots.wbs
    slots := { s.slots with wbs := none } }

/-- `WB_step` for the instruction in writeback (rule R253). -/
def writeback (i : InFlight) (s : State) : State :=
  match i.fault with
  | some f => takeFault f.kind i.ipc f.info (clearWb s)
  | none =>
    let s' := (commitResult i (clearWb s)).countRetired
    if i.exit then s'.halt .hostExit
    else if i.instr = some .int0 then trapEntry int0Vector (nextAddress i.ipc) s'
    else s'

/-- `WB_step` (rule R253). -/
def wbStep (s : State) : State :=
  match s.slots.wbs with
  | none => s
  | some i => writeback i s

/-! ### Memory (rules R254, R261, R264) -/

/-- What the memory stage does for an instruction (rule R261). -/
inductive MemForm where
  | noAction
  | load (n : Width)
  | store (n : Width)
  | push
  | pop
deriving DecidableEq, Repr

/-- The memory form of each instruction (rule R261). -/
def memForm : Instr → MemForm
  | .ldb _ _ _ => .load .byte
  | .ldh _ _ _ => .load .half
  | .ld _ _ _ => .load .word
  | .stb _ _ _ => .store .byte
  | .sth _ _ _ => .store .half
  | .st _ _ _ => .store .word
  | .call _ => .push
  | .ret => .pop
  | .add _ _ _ => .noAction
  | .sub _ _ _ => .noAction
  | .xor _ _ _ => .noAction
  | .or _ _ _ => .noAction
  | .and _ _ _ => .noAction
  | .shr _ _ _ => .noAction
  | .shl _ _ _ => .noAction
  | .mul _ _ _ => .noAction
  | .div _ _ _ => .noAction
  | .addi _ _ _ => .noAction
  | .subi _ _ _ => .noAction
  | .xori _ _ _ => .noAction
  | .ori _ _ _ => .noAction
  | .andi _ _ _ => .noAction
  | .lui _ _ => .noAction
  | .bne _ _ _ => .noAction
  | .beq _ _ _ => .noAction
  | .blt _ _ _ => .noAction
  | .bgt _ _ _ => .noAction
  | .jmpr _ => .noAction
  | .nop => .noAction
  | .int0 => .noAction

/-- The memory form of an in-flight record; a record without a decoded instruction has none. -/
def recordForm (i : InFlight) : MemForm := (i.instr.map memForm).getD .noAction

/-- The record with the fault of an access that failed (rule R300). -/
def InFlight.withFault (i : InFlight) (f : FaultRec) : InFlight := { i with fault := some f }

/-- `MemAction` (rule R261): the record after the accesses, their latency, and the state. -/
def memAction (i : InFlight) (s : State) : Timed InFlight :=
  match recordForm i with
  | .noAction => ⟨i, 1, s⟩
  | .load n =>
    let r := memRead i.ea n s
    match r.val with
    | .ok v => ⟨{ i with result := v }, r.lat, r.st⟩
    | .error f => ⟨i.withFault f, r.lat, r.st⟩
  | .store n =>
    let r := memWrite i.ea n i.c s
    match r.val with
    | .ok _ => ⟨{ i with exit := r.st.exitRequested && !s.exitRequested }, r.lat, r.st⟩
    | .error f => ⟨i.withFault f, r.lat, r.st⟩
  | .push =>
    let r := pushFrame i.result (nextAddress i.ipc) s
    match r.val with
    | .ok _ => ⟨i, r.lat, r.st⟩
    | .error f => ⟨i.withFault f, r.lat, r.st⟩
  | .pop =>
    let r := popFrame i.sp s
    match r.val with
    | .ok (flags, t) => ⟨{ i with newpriv := some (privilegeOfFlags flags), target := t }, r.lat, r.st⟩
    | .error f => ⟨i.withFault f, r.lat, r.st⟩

/-- The first tick of an instruction in the memory stage: its accesses are made, and `wait` is set to its latency
(rule R254). -/
def memIssue (i : InFlight) (s : State) : InFlight × State :=
  if i.fault.isSome || recordForm i = .noAction then ({ i with issued := true, wait := 1 }, s)
  else
    let r := memAction i s
    ({ r.val with issued := true, wait := r.lat }, r.st.countMemCycles r.lat)

/-- `Redirect(t)` (rule R264). -/
def redirect (t : Word) (s : State) : State := ((s.countSquashed s.youngCount).squashYoung).setPcs t

/-- The last memory tick of an unfaulted instruction: `PRIV` for RET, then the redirect or `pc := ipc + 4` (rule R254). -/
def memComplete (i : InFlight) (s : State) : State :=
  match i.fault with
  | some _ => s
  | none =>
    let s' : State := { s with priv := i.newpriv.getD s.priv }
    if i.taken then redirect i.target s' else { s' with pc := nextAddress i.ipc }

/-- `MEM_step` (rule R254). -/
def memStep (s : State) : State :=
  match s.slots.mems with
  | none => s
  | some i =>
    let p := if i.issued then (i, s) else memIssue i s
    let i' : InFlight := { p.1 with wait := p.1.wait - 1 }
    if i'.wait = 0 then
      let s' := memComplete i' p.2
      { s' with slots := { s'.slots with wbs := some i', mems := none } }
    else { p.2 with slots := { p.2.slots with mems := some i' } }

/-! ### Execute (rules R255, R263) -/

/-- `ExAction` (rule R263). -/
def exAction (i : InFlight) : InFlight :=
  match i.instr with
  | none => i
  | some instr =>
    match instr with
    | .add _ _ _ => { i with result := addResult i.a i.b }
    | .sub _ _ _ => { i with result := subResult i.a i.b }
    | .xor _ _ _ => { i with result := xorResult i.a i.b }
    | .or _ _ _ => { i with result := orResult i.a i.b }
    | .and _ _ _ => { i with result := andResult i.a i.b }
    | .shr _ _ _ => { i with result := shrResult i.a i.b }
    | .shl _ _ _ => { i with result := shlResult i.a i.b }
    | .mul _ _ _ => { i with result := mulResult i.a i.b }
    | .div _ _ _ =>
      match divResult i.a i.b with
      | some q => { i with result := q }
      | none => i.withFault ⟨.divideByZero, 0#32⟩
    | .addi _ _ imm => { i with result := addiResult i.a imm }
    | .subi _ _ imm => { i with result := subiResult i.a imm }
    | .xori _ _ imm => { i with result := xoriResult i.a imm }
    | .ori _ _ imm => { i with result := oriResult i.a imm }
    | .andi _ _ imm => { i with result := andiResult i.a imm }
    | .lui _ imm => { i with result := luiResult imm }
    | .ldb _ _ imm => { i with ea := effectiveAddress i.a imm }
    | .ldh _ _ imm => { i with ea := effectiveAddress i.a imm }
    | .ld _ _ imm => { i with ea := effectiveAddress i.a imm }
    | .stb _ _ imm => { i with ea := effectiveAddress i.a imm }
    | .sth _ _ imm => { i with ea := effectiveAddress i.a imm }
    | .st _ _ imm => { i with ea := effectiveAddress i.a imm }
    | .bne _ _ imm => { i with taken := bneTaken i.c i.a, target := branchTarget i.ipc imm }
    | .beq _ _ imm => { i with taken := beqTaken i.c i.a, target := branchTarget i.ipc imm }
    | .blt _ _ imm => { i with taken := bltTaken i.c i.a, target := branchTarget i.ipc imm }
    | .bgt _ _ imm => { i with taken := bgtTaken i.c i.a, target := branchTarget i.ipc imm }
    | .jmpr offset => { i with taken := true, target := jumpTarget i.ipc offset }
    | .call offset => { i with taken := true, target := jumpTarget i.ipc offset, result := pushedSp i.sp }
    | .ret => { i with taken := true, result := poppedSp i.sp }
    | .nop => i
    | .int0 => i

/-- `EX_step` (rule R255). -/
def exStep (s : State) : State :=
  match s.slots.exs, s.slots.mems with
  | some i, none =>
    let i' := if i.fault.isSome then i else exAction i
    { s with slots := { s.slots with mems := some i', exs := none } }
  | _, _ => s

/-! ### Decode (rules R256, R257) -/

/-- The record of a decoded instruction with its operands read and its destination noted (rule R256). -/
def readOperands (i : InFlight) (d : Instr) (s : State) : InFlight :=
  { i with
    instr := some d
    a := s.reg (regFields d).2.1
    b := s.reg (regFields d).2.2
    c := s.reg (regFields d).1
    sp := s.reg spReg
    dest := destination d
    marked := (destination d).any (· != 0) }

/-- The scoreboard with the destination marked; r0 is never marked (rules R27, R256). -/
def markPending (pending : Vector Bool 16) : Option Reg → Vector Bool 16
  | some t => if t = 0 then pending else pending.set t.val true
  | none => pending

/-- An instruction handed from decode to execute. -/
def State.leaveDecode (s : State) (i : InFlight) : State :=
  { s with slots := { s.slots with exs := some i, ids := none } }

/-- `ID_step` for the instruction in decode, execute being free (rule R256). -/
def decodeStage (i : InFlight) (s : State) : State :=
  if i.fault.isSome then s.leaveDecode i
  else
    match decode i.word with
    | .illegal _ => s.leaveDecode (i.withFault ⟨.illegalInstruction, i.word⟩)
    | .instr d =>
      if s.params.pipelineEnabled && hazard d s then
        State.countDataStall { s with slots := { s.slots with ids := some { i with instr := some d } } }
      else
        State.leaveDecode { s with pending := markPending s.pending (destination d) } (readOperands i d s)

/-- `ID_step` (rule R256). -/
def idStep (s : State) : State :=
  match s.slots.ids, s.slots.exs with
  | some i, none => decodeStage i s
  | _, _ => s

/-! ### Fetch (rule R258) -/

/-- The record of a fetch that was just issued (rule R258); the word of a failed fetch is undefined (rule R251, log entry 4). -/
def fetchRecord (ipc : Word) (lat : Nat) (undefinedWord : Word) : Except FaultRec Word → InFlight
  | .ok w => { ipc := ipc, word := w, fault := none, wait := lat }
  | .error f => { ipc := ipc, word := undefinedWord, fault := some f, wait := lat }

/-- A fetch issued at `fpc` (rule R258). -/
def issueFetch (s : State) : State :=
  let r := fetch s.fpc s
  let s' := r.st.countFetchCycles r.lat
  { s' with
    fpc := nextAddress s.fpc
    slots := { s'.slots with ifs := some (fetchRecord s.fpc r.lat (Config.undefinedWord s.cycles.toNat) r.val) } }

/-- The fetch in progress serves one tick, and moves to decode when it is done and decode is free (rule R258). -/
def advanceFetch (s : State) : State :=
  match s.slots.ifs with
  | none => s
  | some i =>
    let i' : InFlight := { i with wait := i.wait - 1 }
    if i'.wait = 0 && s.slots.ids.isNone then { s with slots := { s.slots with ids := some i', ifs := none } }
    else { s with slots := { s.slots with ifs := some i' } }

/-- `IF_step(idle0)` (rules R258, R268). -/
def ifStep (idle0 : Bool) (s : State) : State :=
  advanceFetch (if s.slots.ifs.isNone && (s.params.pipelineEnabled || idle0) then issueFetch s else s)

/-! ### The tick (rule R252) -/

/-- All five slots are bubbles. -/
def State.idle (s : State) : Bool := decide (s.slots = {})

/-- One tick of a machine that has not halted. -/
def runningTick (s : State) : State :=
  let s1 := wbStep (s.addCycles 1)
  if s1.halted.isSome then s1 else ifStep s.idle (idStep (exStep (memStep s1)))

/-- `tick` (rules R33, R252): a halted machine does not change. -/
def tick (s : State) : State := if s.halted.isSome then s else runningTick s

/-- `n` ticks. -/
def ticks : Nat → State → State
  | 0, s => s
  | n + 1, s => ticks n (tick s)

end Sys2Proof.Machine
end

