-- ==== Sys2Proof/Machine/Retire.lean ====
section
/-! DEFINITION. What the meanings share in the sequential reading (rules R9, R262): the ticks an instruction spends in its
stages when it runs alone (rules R260, R268), and its retirement. -/

namespace Sys2Proof.Machine

/-- The outcome of a step and of every meaning. -/
abbrev StepOutcome := Host.Outcome State Fault Refusal

/-- The ticks of ID, EX, a memory stage without a memory action, and WB: one each (rule R260). -/
def State.passStages (s : State) : State := s.addCycles 4

/-- The ticks of ID and EX and the first tick of MEM, in which the accesses are made (rules R254, R260). -/
def State.reachMemory (s : State) : State := s.addCycles 3

/-- The memory stage served for `lat` ticks, the first already counted, then WB; `mem_cycles` grows by `lat` (rules R254, R270). -/
def State.serveMemory (s : State) (lat : Nat) : State := (s.countMemCycles lat).addCycles lat

/-- An unfaulted instruction retired: `pc` at the address of the next one (rules R23, R253). -/
def State.retireTo (s : State) (next : Word) : State := (s.setPcs next).countRetired

/-- An instruction that writes `v` to `rd` and goes on at `pc + 4`. -/
def writeResult (rd : Reg) (v : Word) (s : State) : StepOutcome :=
  .next ((s.passStages.setReg rd v).retireTo (nextAddress s.pc))

/-- An instruction that only transfers control, to `target`. -/
def transferTo (target : Word) (s : State) : StepOutcome := .next (s.passStages.retireTo target)

/-- An instruction that raised a fault without a memory action: DIV, an illegal word, a failed fetch (rules R300, R306). -/
def faultWithoutAccess (kind : FaultKind) (info : Word) (s : State) : State :=
  takeFault kind s.pc info s.passStages

end Sys2Proof.Machine
end

