-- ==== Sys2Proof/Machine/AluImmediate.lean ====
section
/-! DEFINITION. The meanings of the register-immediate instructions (rules R210 to R216). -/

namespace Sys2Proof.Machine

/-- ADDI (rule R212). -/
def execAddi (rd ra : Reg) (imm : Int) (s : State) : StepOutcome := writeResult rd (addiResult (s.reg ra) imm) s

/-- SUBI (rule R213). -/
def execSubi (rd ra : Reg) (imm : Int) (s : State) : StepOutcome := writeResult rd (subiResult (s.reg ra) imm) s

/-- XORI (rule R214). -/
def execXori (rd ra : Reg) (imm : Int) (s : State) : StepOutcome := writeResult rd (xoriResult (s.reg ra) imm) s

/-- ORI (rule R215). -/
def execOri (rd ra : Reg) (imm : Int) (s : State) : StepOutcome := writeResult rd (oriResult (s.reg ra) imm) s

/-- ANDI (rule R216). -/
def execAndi (rd ra : Reg) (imm : Int) (s : State) : StepOutcome := writeResult rd (andiResult (s.reg ra) imm) s

/-- LUI (rule R211). -/
def execLui (rd : Reg) (imm : Int) (s : State) : StepOutcome := writeResult rd (luiResult imm) s

end Sys2Proof.Machine
end

