-- ==== Sys2Proof/Machine/AluRegister.lean ====
section
/-! DEFINITION. The meanings of the register-register instructions (rules R200 to R208). -/

namespace Sys2Proof.Machine

/-- ADD (rule R200). -/
def execAdd (rd ra rb : Reg) (s : State) : StepOutcome := writeResult rd (addResult (s.reg ra) (s.reg rb)) s

/-- SUB (rule R201). -/
def execSub (rd ra rb : Reg) (s : State) : StepOutcome := writeResult rd (subResult (s.reg ra) (s.reg rb)) s

/-- XOR (rule R202). -/
def execXor (rd ra rb : Reg) (s : State) : StepOutcome := writeResult rd (xorResult (s.reg ra) (s.reg rb)) s

/-- OR (rule R203). -/
def execOr (rd ra rb : Reg) (s : State) : StepOutcome := writeResult rd (orResult (s.reg ra) (s.reg rb)) s

/-- AND (rule R204). -/
def execAnd (rd ra rb : Reg) (s : State) : StepOutcome := writeResult rd (andResult (s.reg ra) (s.reg rb)) s

/-- SHR (rule R205). -/
def execShr (rd ra rb : Reg) (s : State) : StepOutcome := writeResult rd (shrResult (s.reg ra) (s.reg rb)) s

/-- SHL (rule R206). -/
def execShl (rd ra rb : Reg) (s : State) : StepOutcome := writeResult rd (shlResult (s.reg ra) (s.reg rb)) s

/-- MUL (rule R207). -/
def execMul (rd ra rb : Reg) (s : State) : StepOutcome := writeResult rd (mulResult (s.reg ra) (s.reg rb)) s

/-- DIV (rule R208): a zero divisor raises DivideByZero with information 0 and writes nothing (rule R305). -/
def execDiv (rd ra rb : Reg) (s : State) : StepOutcome :=
  match divResult (s.reg ra) (s.reg rb) with
  | some q => writeResult rd q s
  | none => .next (faultWithoutAccess .divideByZero 0#32 s)

end Sys2Proof.Machine
end

