-- ==== Sys2Proof/Machine/ControlTransfer.lean ====
section
/-! DEFINITION. The meanings of branches, jumps, calls and returns (rules R230 to R238). -/

namespace Sys2Proof.Machine

/-- A branch: to its target where the condition holds, else to the next instruction (rules R232 to R235). -/
def branchIf (cond : Bool) (imm : Int) (s : State) : StepOutcome :=
  transferTo (if cond then branchTarget s.pc imm else nextAddress s.pc) s

/-- BNE (rule R232). -/
def execBne (rc ra : Reg) (imm : Int) (s : State) : StepOutcome := branchIf (bneTaken (s.reg rc) (s.reg ra)) imm s

/-- BEQ (rule R233). -/
def execBeq (rc ra : Reg) (imm : Int) (s : State) : StepOutcome := branchIf (beqTaken (s.reg rc) (s.reg ra)) imm s

/-- BLT (rule R234). -/
def execBlt (rc ra : Reg) (imm : Int) (s : State) : StepOutcome := branchIf (bltTaken (s.reg rc) (s.reg ra)) imm s

/-- BGT (rule R235). -/
def execBgt (rc ra : Reg) (imm : Int) (s : State) : StepOutcome := branchIf (bgtTaken (s.reg rc) (s.reg ra)) imm s

/-- JMPR (rule R236). -/
def execJmpr (offset : Int) (s : State) : StepOutcome := transferTo (jumpTarget s.pc offset) s

/-- CALL (rule R237): the frame with the return address `pc + 4` pushed, then the jump; a fault changes neither r15 nor
`pc`. -/
def execCall (offset : Int) (s : State) : StepOutcome :=
  let sp := pushedSp (s.reg spReg)
  let r := pushFrame sp (nextAddress s.pc) s.reachMemory
  let s' := r.st.serveMemory r.lat
  match r.val with
  | .ok _ => .next ((s'.setReg spReg sp).retireTo (jumpTarget s.pc offset))
  | .error f => .next (takeFault f.kind s.pc f.info s')

/-- RET (rule R238): the frame popped, `PRIV` from bit 0 of its flags word, `pc` from its second word. -/
def execRet (s : State) : StepOutcome :=
  let sp := s.reg spReg
  let r := popFrame sp s.reachMemory
  let s' := r.st.serveMemory r.lat
  match r.val with
  | .ok (flags, target) =>
    let s'' : State := { s' with priv := privilegeOfFlags flags }
    .next ((s''.setReg spReg (poppedSp sp)).retireTo target)
  | .error f => .next (takeFault f.kind s.pc f.info s')

end Sys2Proof.Machine
end

