-- ==== Sys2Proof/Machine/LoadStore.lean ====
section
/-! DEFINITION. The meanings of the loads and stores (rules R220 to R226). -/

namespace Sys2Proof.Machine

/-- A load of `n` bytes at `ea` into `rd`, zero-extended: the access in the memory stage, then the write-back; a fault
writes no register (rules R221 to R223, R261). -/
def loadTo (n : Width) (rd : Reg) (ea : Word) (s : State) : StepOutcome :=
  let r := memRead ea n s.reachMemory
  let s' := r.st.serveMemory r.lat
  match r.val with
  | .ok v => .next ((s'.setReg rd v).retireTo (nextAddress s.pc))
  | .error f => .next (takeFault f.kind s.pc f.info s')

/-- The end of a store that wrote its bytes: it retires, and the machine halts with `HostExit` where this store latched
`exit_requested`, which was false before (rules R67, R253, R261). -/
def retireStore (before s : State) (next : Word) : State :=
  if s.exitRequested && !before.exitRequested then (s.retireTo next).halt .hostExit else s.retireTo next

/-- A store of the low `n` bytes of `v` at `ea` (rules R224 to R226, R261). -/
def storeFrom (n : Width) (v ea : Word) (s : State) : StepOutcome :=
  let r := memWrite ea n v s.reachMemory
  let s' := r.st.serveMemory r.lat
  match r.val with
  | .ok _ => .next (retireStore s s' (nextAddress s.pc))
  | .error f => .next (takeFault f.kind s.pc f.info s')

/-- LDB (rule R221). -/
def execLdb (rd ra : Reg) (imm : Int) (s : State) : StepOutcome :=
  loadTo .byte rd (effectiveAddress (s.reg ra) imm) s

/-- LDH (rule R222). -/
def execLdh (rd ra : Reg) (imm : Int) (s : State) : StepOutcome :=
  loadTo .half rd (effectiveAddress (s.reg ra) imm) s

/-- LD (rule R223). -/
def execLd (rd ra : Reg) (imm : Int) (s : State) : StepOutcome :=
  loadTo .word rd (effectiveAddress (s.reg ra) imm) s

/-- STB (rule R224). -/
def execStb (rv ra : Reg) (imm : Int) (s : State) : StepOutcome :=
  storeFrom .byte (s.reg rv) (effectiveAddress (s.reg ra) imm) s

/-- STH (rule R225). -/
def execSth (rv ra : Reg) (imm : Int) (s : State) : StepOutcome :=
  storeFrom .half (s.reg rv) (effectiveAddress (s.reg ra) imm) s

/-- ST (rule R226). -/
def execSt (rv ra : Reg) (imm : Int) (s : State) : StepOutcome :=
  storeFrom .word (s.reg rv) (effectiveAddress (s.reg ra) imm) s

end Sys2Proof.Machine
end

