-- ==== Sys2Proof/Machine/System.lean ====
section
/-! DEFINITION. The meanings of NOP and INT0 (rules R240, R241). -/

namespace Sys2Proof.Machine

/-- NOP (rule R240). -/
def execNop (s : State) : StepOutcome := transferTo (nextAddress s.pc) s

/-- INT0 (rule R241): it retires, then trap entry 0 is performed with the next instruction's address as the saved pc. -/
def execInt0 (s : State) : StepOutcome :=
  .next (trapEntry int0Vector (nextAddress s.pc) (s.passStages.retireTo (nextAddress s.pc)))

end Sys2Proof.Machine
end

