-- ==== Sys2Proof/Machine/Dispatch.lean ====
section
/-! DEFINITION. The dispatch: one arm per instruction, each one call of its meaning (the sequential reading, rule R9). -/

namespace Sys2Proof.Machine

def exec (i : Instr) (s : State) : Host.Outcome State Fault Refusal :=
  match i with
  | .add rd ra rb => Sys2Proof.Machine.execAdd rd ra rb s
  | .sub rd ra rb => Sys2Proof.Machine.execSub rd ra rb s
  | .xor rd ra rb => Sys2Proof.Machine.execXor rd ra rb s
  | .or rd ra rb => Sys2Proof.Machine.execOr rd ra rb s
  | .and rd ra rb => Sys2Proof.Machine.execAnd rd ra rb s
  | .shr rd ra rb => Sys2Proof.Machine.execShr rd ra rb s
  | .shl rd ra rb => Sys2Proof.Machine.execShl rd ra rb s
  | .addi rd ra imm => Sys2Proof.Machine.execAddi rd ra imm s
  | .subi rd ra imm => Sys2Proof.Machine.execSubi rd ra imm s
  | .xori rd ra imm => Sys2Proof.Machine.execXori rd ra imm s
  | .ori rd ra imm => Sys2Proof.Machine.execOri rd ra imm s
  | .andi rd ra imm => Sys2Proof.Machine.execAndi rd ra imm s
  | .ldb rd ra imm => Sys2Proof.Machine.execLdb rd ra imm s
  | .ldh rd ra imm => Sys2Proof.Machine.execLdh rd ra imm s
  | .ld rd ra imm => Sys2Proof.Machine.execLd rd ra imm s
  | .stb rv ra imm => Sys2Proof.Machine.execStb rv ra imm s
  | .sth rv ra imm => Sys2Proof.Machine.execSth rv ra imm s
  | .st rv ra imm => Sys2Proof.Machine.execSt rv ra imm s
  | .bne rc ra imm => Sys2Proof.Machine.execBne rc ra imm s
  | .beq rc ra imm => Sys2Proof.Machine.execBeq rc ra imm s
  | .blt rc ra imm => Sys2Proof.Machine.execBlt rc ra imm s
  | .bgt rc ra imm => Sys2Proof.Machine.execBgt rc ra imm s
  | .jmpr offset => Sys2Proof.Machine.execJmpr offset s
  | .lui rd imm => Sys2Proof.Machine.execLui rd imm s
  | .call offset => Sys2Proof.Machine.execCall offset s
  | .ret => Sys2Proof.Machine.execRet s
  | .nop => Sys2Proof.Machine.execNop s
  | .mul rd ra rb => Sys2Proof.Machine.execMul rd ra rb s
  | .div rd ra rb => Sys2Proof.Machine.execDiv rd ra rb s
  | .int0 => Sys2Proof.Machine.execInt0 s

end Sys2Proof.Machine
end

