-- ==== Sys2Proof/Machine/Sequential.lean ====
section
/-! DEFINITION. The sequential reading of rule R9 (a): fetch the word at `pc`, decode it, run the instruction's meaning or
take the fault, with the ticks of an instruction that runs alone (rule R268). -/

namespace Sys2Proof.Machine

/-- The fetch of the instruction at `pc`, with its ticks and its count (rules R74, R258, R268). -/
def fetchInstruction (s : State) : Timed (Except FaultRec Word) :=
  let r := fetch s.pc (s.addCycles 1)
  ⟨r.val, r.lat, { (r.st.countFetchCycles r.lat).addCycles (r.lat - 1) with fpc := nextAddress s.pc }⟩

/-- The word at `pc` decoded and run; an illegal word raises IllegalInstruction (rules R242, R312). -/
def runWord (w : Word) (s : State) : StepOutcome :=
  match decode w with
  | .instr i => exec i s
  | .illegal _ => .next (faultWithoutAccess .illegalInstruction w s)

/-- One instruction of a machine that has not halted (rules R9, R268). -/
def instructionStep (s : State) : StepOutcome :=
  let r := fetchInstruction s
  match r.val with
  | .ok w => runWord w r.st
  | .error f => .next (faultWithoutAccess f.kind f.info r.st)

/-- The physical address from which the instruction at `pc` is fetched; none where that fetch faults. -/
def fetchAddress (s : State) : Option Word :=
  match (translateAligned .fetch s.pc .word s).val with
  | .ok pa => some pa
  | .error _ => none

/-- An instruction word placed where the next step fetches it, in the sequential reading: the coherent view at the fetch
address, and no pending command where that address is the control register itself (rule R68). -/
def placeInstruction (w : Word) (s : State) : State :=
  match fetchAddress s with
  | some pa =>
    { s.pokeWord pa w with
      reading := .instruction
      mmioPending := if isCtrl pa then none else s.mmioPending }
  | none => { s with reading := .instruction }

end Sys2Proof.Machine
end

