-- ==== Sys2Proof/Machine/Step.lean ====
section
/-! DEFINITION. The step: an instruction or a tick, by the reading that the state names (rule R9). -/

namespace Sys2Proof.Machine

/-- One step: a halted machine does not change (rule R33); else one instruction of the sequential reading or one tick of
the cycle-level reading (rules R9, R252). -/
def step (s : State) : Host.Outcome State Fault Refusal :=
  if s.halted.isSome then .next s
  else
    match s.reading with
    | .instruction => instructionStep s
    | .cycle => .next (tick s)

/-- The instruction of `w`'s low `nbits` bits placed where the next step fetches, in the sequential reading (log entry 1). -/
def State.withFetchWord (s : State) (nbits w : Nat) : State :=
  placeInstruction (BitVec.ofNat 32 (w % 2 ^ nbits)) s

end Sys2Proof.Machine
end

