-- ==== Sys2Proof/Machine/HostOps.lean ====
section
/-! DEFINITION. The host operations of rules R275 and R340: reset with arguments, single step, run to a breakpoint, the
write of PTBR, snapshot. The host acts only between ticks; its breakpoints and limits are arguments, no state of the
machine (rule R38). -/

namespace Sys2Proof.Machine

/-! ### Reset (rules R37, R340, R341) -/

/-- Reset with the arguments of rule R5: the table of rule R37. -/
def State.resetWith (args : ResetArgs) : State :=
  { State.reset with
    params := args.params
    pc := args.entry
    fpc := args.entry
    priv := args.privReset
    ptbr := args.ptbrReset
    mem := Memory.load [] args.image
    prngState := args.prngSeed }

/-- The same machine in the cycle-level reading (rule R9 (b)). -/
def State.inCycleReading (s : State) : State := { s with reading := .cycle }

/-! ### Running (rule R275) -/

/-- Ticks, at most `limit`, until the condition holds between two ticks or the machine halts. The limit is the host's own
(rule R273: the host may stop ticking at any tick boundary). -/
def tickUntil (done : State → Bool) : Nat → State → State
  | 0, s => s
  | limit + 1, s => if s.halted.isSome || done s then s else tickUntil done limit (tick s)

/-- `step()`: ticks until one more instruction has retired or the machine halts (rule R275). The host's operations tick,
so they run the machine in its cycle-level reading, whatever reading it was in, and leave it there. -/
def hostStep (limit : Nat) (s : State) : State :=
  tickUntil (fun t => decide (s.stats.retired < t.stats.retired)) limit s.inCycleReading

/-- The address of the instruction that the next tick retires: the one in writeback, where it carries no fault (rule R253). -/
def retiringAddress (s : State) : Option Word :=
  match s.slots.wbs with
  | some i => if i.fault.isNone then some i.ipc else none
  | none => none

/-- Ticks, at most `limit`, until a halt, or until the tick in which an instruction at a breakpoint retired is over. -/
def tickToBreakpoint (breakpoints : List Word) : Nat → State → State
  | 0, s => s
  | limit + 1, s =>
    if s.halted.isSome then s
    else
      match retiringAddress s with
      | some a => if breakpoints.contains a then tick s else tickToBreakpoint breakpoints limit (tick s)
      | none => tickToBreakpoint breakpoints limit (tick s)

/-- `run_until_breakpoint_or_exit()`: ticks until a halt or a breakpoint (rule R275), in the cycle-level reading. -/
def runUntilBreakpoint (breakpoints : List Word) (limit : Nat) (s : State) : State :=
  tickToBreakpoint breakpoints limit s.inCycleReading

/-- `set_breakpoint(addr)`: an address added to the host's set (rule R275). -/
def setBreakpoint (breakpoints : List Word) (a : Word) : List Word :=
  if breakpoints.contains a then breakpoints else a :: breakpoints

/-- The host's write of PTBR between ticks: only with all five slots empty, refused otherwise (rules R26, R275;
93_implementation_defined.md U23). -/
def hostWritePtbr (v : Word) (s : State) : StepOutcome :=
  if s.idle then .next { s with ptbr := v } else .refused .ptbrWriteInFlight

/-! ### Snapshot (rules R114, R275) -/

/-- A consistent copy for the host: registers, a range of memory as the coherent view, cache, statistics, slots. -/
structure Snapshot where
  registers : List Word
  pc : Word
  flags : Word
  memoryRange : List Byte
  cacheState : Cache
  stats : Stats
  cycles : CycleCount
  pipelineSlots : Slots
deriving DecidableEq, Repr

/-- `count` bytes of the coherent view from `base` on. -/
def State.viewRange (s : State) (base : Word) : Nat → List Byte
  | 0 => []
  | count + 1 => s.view base :: s.viewRange (base + 1#32) count

/-- `snapshot()`: it changes nothing (rule R275). -/
def snapshot (base : Word) (count : Nat) (s : State) : Snapshot where
  registers := s.x.toList
  pc := s.pc
  flags := flagsWord s.priv
  memoryRange := s.viewRange base count
  cacheState := s.cache
  stats := s.stats
  cycles := s.cycles
  pipelineSlots := s.slots

end Sys2Proof.Machine
end

