-- ==== Sys2Proof/Safety.lean ====
section
/-! DEFINITION. What counts as a sound state and a safe run, in the terms that claims use: the invariants that the spec
states of the machine (rules R20, R23, R30, R109, R112, R276) and the states from which a step always answers. -/

namespace Sys2Proof.Machine

/-! ### Memory and registers -/

/-- Memory is in its canonical form. -/
def State.MemoryWf (s : State) : Prop := s.mem.wf = true

/-- The stored value of r0 is 0 (rule R21); reading r0 gives 0 in every state. -/
def State.ZeroRegister (s : State) : Prop := s.x[0] = 0#32

/-! ### The cache (rules R109, R112) -/

/-- What rule R109 says of one set: (a) at most one valid way per tag, (e) an invalid way is clean, (f) the ages are
pairwise distinct, hence a permutation of 0 to 3, and every invalid way is older than every valid way. -/
structure CacheSet.Sound (cs : CacheSet) : Prop where
  oneWayPerTag : ∀ v w, v ≠ w → (cs.way v).valid = true → (cs.way w).valid = true → (cs.way v).tag ≠ (cs.way w).tag
  invalidClean : ∀ w, (cs.way w).valid = false → (cs.way w).dirty = false
  agesDistinct : ∀ v w, v ≠ w → (cs.way v).age ≠ (cs.way w).age
  invalidOlder : ∀ v w, (cs.way v).valid = true → (cs.way w).valid = false → (cs.way v).age < (cs.way w).age

/-- Every set is as rule R109 says. -/
def State.CacheSound (s : State) : Prop := ∀ i, (s.cache.setAt i).Sound

/-- What a valid way holds (rules R69, R111, R112): the cache is enabled, no byte of the block is uncacheable, and a clean
block equals memory. -/
structure State.WayCoherent (s : State) (i : BitVec 5) (w : Fin 4) : Prop where
  enabled : s.params.cacheEnabled = true
  cacheable : ∀ o, uncacheable (blockByteAddress ((s.cache.setAt i).way w).tag i o) = false
  cleanEqual : ((s.cache.setAt i).way w).dirty = false →
    ∀ o, ((s.cache.setAt i).way w).data.byte o = s.mem.read (blockByteAddress ((s.cache.setAt i).way w).tag i o).toNat

/-- Every valid way is coherent with memory. -/
def State.CacheCoherent (s : State) : Prop :=
  ∀ i w, ((s.cache.setAt i).way w).valid = true → s.WayCoherent i w

/-- Memory canonical, the cache sound and coherent: what every access keeps (rules R109, R112). -/
structure StoreSound (s : State) : Prop where
  memoryWf : s.MemoryWf
  cacheSound : s.CacheSound
  cacheCoherent : s.CacheCoherent

/-- The addresses of an access of `n` bytes at `pa`. -/
def Covers (pa : Word) (n : Width) (a : Word) : Prop := ∃ i, i < widthBytes n ∧ a = pa + BitVec.ofNat 32 i

/-! ### The pipeline (rule R276) -/

/-- A slot holds an instruction that set the pending bit of register `t` (rule R276 (b)). -/
def owns (t : Reg) : Slot → Bool
  | none => false
  | some i => i.marked && i.dest == some t

/-- How many of EX, MEM and WB own register `t`. -/
def ownerCount (t : Reg) (sl : Slots) : Nat :=
  (owns t sl.exs).toNat + (owns t sl.mems).toNat + (owns t sl.wbs).toNat

/-- How many slots are occupied. -/
def occupied (sl : Slots) : Nat :=
  slotCount sl.ifs + slotCount sl.ids + slotCount sl.exs + slotCount sl.mems + slotCount sl.wbs

/-- The invariants of rule R276 that one state can show: (b) a pending bit is set exactly when an instruction in EX, MEM
or WB owns it, and at most one does; (c) r0 is never pending; (e) without the pipeline at most one slot is occupied;
(f) a halted machine has every slot empty and every pending bit clear. -/
structure State.PipelineSound (s : State) : Prop where
  pendingOwned : ∀ t : Reg, ownerCount t s.slots = (s.pending[t.val]).toNat
  youngOwnNothing : ∀ t : Reg, owns t s.slots.ids = false ∧ owns t s.slots.ifs = false
  zeroNotPending : s.pending[0] = false
  oneAtATime : s.params.pipelineEnabled = false → occupied s.slots ≤ 1
  haltedEmpty : s.halted.isSome = true → s.slots = {}

/-- Nothing is in flight and nothing is pending: the state between two instructions of a machine whose pipeline is off
(rule R268). -/
structure State.Between (s : State) : Prop where
  empty : s.slots = {}
  noPending : s.pending = Vector.replicate 16 false
  onePc : s.fpc = s.pc

/-- What rule R23 says of the two program counters. They agree when the pipeline is empty, as it always is in the
instruction reading. With the pipeline off the fetch pointer is the successor of the instruction in flight until that
instruction completes the memory stage, and then `pc`. -/
structure State.PcSound (s : State) : Prop where
  empty : s.slots = {} → s.fpc = s.pc
  inFlight : s.params.pipelineEnabled = false → ∀ i : InFlight,
    s.slots.ifs = some i ∨ s.slots.ids = some i ∨ s.slots.exs = some i ∨ s.slots.mems = some i → s.fpc = i.ipc + 4#32
  completed : s.params.pipelineEnabled = false → ∀ i : InFlight, s.slots.wbs = some i → i.fault = none → s.fpc = s.pc
  sequential : s.reading = .instruction → s.slots = {}

/-! ### The stages of a tick (rules R253, R254, R261, R263) -/

/-- The memory stage has begun to serve record `k` for `lat` ticks, counted in `mem_cycles`; its accesses led to `v`
(rule R254). -/
def Served (v : State) (k : InFlight) (lat : Nat) (u : State) (j : InFlight) : Prop :=
  j = { k with issued := true, wait := lat } ∧
    u = { v with stats := { v.stats with memCycles := v.stats.memCycles + lat } }

/-- `j` and `u` are the record and the state after the first tick's accesses of record `i` in memory: the table of rule R261
(`MemAction`), with the latency counted as rule R254 says. On a fault only the walk reads were made (log entry 6 says which
ones for CALL and RET). -/
structure MemIssued (i : InFlight) (s : State) (j : InFlight) (u : State) : Prop where
  issued : j.issued = true
  waits : 1 ≤ j.wait
  noAction : i.fault.isSome = true ∨ (∀ d, i.instr = some d → ∀ (r q : Reg) (k : Int),
      d ∉ [.ldb r q k, .ldh r q k, .ld r q k, .stb r q k, .sth r q k, .st r q k, .call k, .ret]) →
    j = { i with issued := true, wait := 1 } ∧ u = s
  load : ∀ d n r q k, i.fault = none → i.instr = some d →
    (d, n) ∈ [(Instr.ldb r q k, Width.byte), (.ldh r q k, .half), (.ld r q k, .word)] →
    (∀ v, (memRead i.ea n s).val = .ok v → Served (memRead i.ea n s).st { i with result := v } (memRead i.ea n s).lat u j) ∧
    (∀ f, (memRead i.ea n s).val = .error f →
      Served (memRead i.ea n s).st { i with fault := some f } (memRead i.ea n s).lat u j)
  store : ∀ d n r q k, i.fault = none → i.instr = some d →
    (d, n) ∈ [(Instr.stb r q k, Width.byte), (.sth r q k, .half), (.st r q k, .word)] →
    ((memWrite i.ea n i.c s).val = .ok () →
      Served (memWrite i.ea n i.c s).st
        { i with exit := (memWrite i.ea n i.c s).st.exitRequested && !s.exitRequested } (memWrite i.ea n i.c s).lat u j) ∧
    (∀ f, (memWrite i.ea n i.c s).val = .error f →
      Served (memWrite i.ea n i.c s).st { i with fault := some f } (memWrite i.ea n i.c s).lat u j)
  call : ∀ k t0 t1, i.fault = none → i.instr = some (.call k) → t0 = translate .store i.result s →
    t1 = translate .store (i.result + 4#32) t0.st →
    (∀ f, t0.val = .error f → Served t0.st { i with fault := some f } (max t0.lat 1) u j) ∧
    (∀ pa0 f, t0.val = .ok pa0 → t1.val = .error f →
      Served t1.st { i with fault := some f } (max (t0.lat + t1.lat) 1) u j) ∧
    (∀ pa0 pa1, t0.val = .ok pa0 → t1.val = .ok pa1 → i.result.toNat % 4 ≠ 0 →
      Served t1.st { i with fault := some ⟨.alignmentFault, i.result⟩ } (max (t0.lat + t1.lat) 1) u j) ∧
    (∀ pa0 pa1 w0 w1, t0.val = .ok pa0 → t1.val = .ok pa1 → i.result.toNat % 4 = 0 →
      w0 = physWrite pa0 .word (flagsWord s.priv) t1.st → w1 = physWrite pa1 .word (i.ipc + 4#32) w0.st →
      Served w1.st i (t0.lat + t1.lat + w0.lat + w1.lat) u j)
  ret : ∀ t0 t1, i.fault = none → i.instr = some .ret → t0 = translate .load i.sp s →
    t1 = translate .load (i.sp + 4#32) t0.st →
    (∀ f, t0.val = .error f → Served t0.st { i with fault := some f } (max t0.lat 1) u j) ∧
    (∀ pa0 f, t0.val = .ok pa0 → t1.val = .error f →
      Served t1.st { i with fault := some f } (max (t0.lat + t1.lat) 1) u j) ∧
    (∀ pa0 pa1, t0.val = .ok pa0 → t1.val = .ok pa1 → i.sp.toNat % 4 ≠ 0 →
      Served t1.st { i with fault := some ⟨.alignmentFault, i.sp⟩ } (max (t0.lat + t1.lat) 1) u j) ∧
    (∀ pa0 pa1 r0 r1, t0.val = .ok pa0 → t1.val = .ok pa1 → i.sp.toNat % 4 = 0 →
      r0 = physRead .load pa0 .word t1.st → r1 = physRead .load pa1 .word r0.st →
      Served r1.st
        { i with newpriv := some (if r0.val.getLsbD 0 then .supervisor else .user), target := r1.val }
        (t0.lat + t1.lat + r0.lat + r1.lat) u j)

/-- `j` is the record `i` after execute: the table of rule R263. -/
structure Executed (i j : InFlight) : Prop where
  faulted : i.fault.isSome = true → j = i
  add : ∀ d a b, i.fault = none → i.instr = some (.add d a b) → j = { i with result := i.a + i.b }
  sub : ∀ d a b, i.fault = none → i.instr = some (.sub d a b) → j = { i with result := i.a - i.b }
  xor : ∀ d a b, i.fault = none → i.instr = some (.xor d a b) → j = { i with result := i.a ^^^ i.b }
  or : ∀ d a b, i.fault = none → i.instr = some (.or d a b) → j = { i with result := i.a ||| i.b }
  and : ∀ d a b, i.fault = none → i.instr = some (.and d a b) → j = { i with result := i.a &&& i.b }
  shr : ∀ d a b, i.fault = none → i.instr = some (.shr d a b) → j = { i with result := i.a >>> (i.b.toNat % 32) }
  shl : ∀ d a b, i.fault = none → i.instr = some (.shl d a b) → j = { i with result := i.a <<< (i.b.toNat % 32) }
  mul : ∀ d a b, i.fault = none → i.instr = some (.mul d a b) → j = { i with result := i.a * i.b }
  div : ∀ d a b, i.fault = none → i.instr = some (.div d a b) →
    j = if i.b = 0#32 then { i with fault := some ⟨.divideByZero, 0#32⟩ }
      else { i with result := BitVec.ofInt 32 (i.a.toInt.tdiv i.b.toInt) }
  addi : ∀ d a k, i.fault = none → i.instr = some (.addi d a k) → j = { i with result := i.a + BitVec.ofInt 32 k }
  subi : ∀ d a k, i.fault = none → i.instr = some (.subi d a k) → j = { i with result := i.a - BitVec.ofInt 32 k }
  xori : ∀ d a k, i.fault = none → i.instr = some (.xori d a k) → j = { i with result := i.a ^^^ BitVec.ofInt 32 k }
  ori : ∀ d a k, i.fault = none → i.instr = some (.ori d a k) → j = { i with result := i.a ||| BitVec.ofInt 32 k }
  andi : ∀ d a k, i.fault = none → i.instr = some (.andi d a k) → j = { i with result := i.a &&& BitVec.ofInt 32 k }
  lui : ∀ d k, i.fault = none → i.instr = some (.lui d k) → j = { i with result := BitVec.ofInt 32 k <<< 12 }
  access : ∀ d r q k, i.fault = none → i.instr = some d →
    d ∈ [.ldb r q k, .ldh r q k, .ld r q k, .stb r q k, .sth r q k, .st r q k] →
    j = { i with ea := i.a + BitVec.ofInt 32 k }
  bne : ∀ r q k, i.fault = none → i.instr = some (.bne r q k) →
    j = { i with taken := decide (i.c ≠ i.a), target := i.ipc + BitVec.ofInt 32 k }
  beq : ∀ r q k, i.fault = none → i.instr = some (.beq r q k) →
    j = { i with taken := decide (i.c = i.a), target := i.ipc + BitVec.ofInt 32 k }
  blt : ∀ r q k, i.fault = none → i.instr = some (.blt r q k) →
    j = { i with taken := decide (i.c.toInt < i.a.toInt), target := i.ipc + BitVec.ofInt 32 k }
  bgt : ∀ r q k, i.fault = none → i.instr = some (.bgt r q k) →
    j = { i with taken := decide (i.a.toInt < i.c.toInt), target := i.ipc + BitVec.ofInt 32 k }
  jmpr : ∀ k, i.fault = none → i.instr = some (.jmpr k) →
    j = { i with taken := true, target := i.ipc + BitVec.ofInt 32 k }
  call : ∀ k, i.fault = none → i.instr = some (.call k) →
    j = { i with taken := true, target := i.ipc + BitVec.ofInt 32 k, result := i.sp - 8#32 }
  ret : i.fault = none → i.instr = some .ret → j = { i with taken := true, result := i.sp + 8#32 }
  nothing : i.fault = none → i.instr = some .nop ∨ i.instr = some .int0 → j = i

/-- `u` is `s` after the unfaulted instruction `i` in writeback has written its result, given up its pending bit, left its
slot and retired, before a halt or a trap of its own (rule R253). -/
structure Committed (i : InFlight) (s u : State) : Prop where
  slots : u.slots = { s.slots with wbs := none }
  retired : u.stats = { s.stats with retired := s.stats.retired + 1 }
  written : ∀ d, i.dest = some d → d ≠ 0 → u.reg d = i.result
  otherRegisters : ∀ q, i.dest ≠ some q ∨ q = 0 → u.reg q = s.reg q
  pending : ∀ r : Reg, u.pending[r.val] = (owns r s.slots.exs || owns r s.slots.mems)
  params : u.params = s.params
  reading : u.reading = s.reading
  pc : u.pc = s.pc
  fpc : u.fpc = s.fpc
  priv : u.priv = s.priv
  ptbr : u.ptbr = s.ptbr
  memory : u.mem = s.mem
  cache : u.cache = s.cache
  exitRequested : u.exitRequested = s.exitRequested
  mmioPending : u.mmioPending = s.mmioPending
  prngState : u.prngState = s.prngState
  vgaEvents : u.vgaEvents = s.vgaEvents
  halted : u.halted = s.halted
  faultInfo : u.faultInfo = s.faultInfo
  cycles : u.cycles = s.cycles

/-- The ways of a set other than `w` after Touch of way `w`: contents as they were, the younger ones older by one
(rule R104). -/
structure OtherWaysTouched (cs after : CacheSet) (w : Fin 4) : Prop where
  contents : ∀ v, v ≠ w → (after.way v).tag = (cs.way v).tag ∧ (after.way v).valid = (cs.way v).valid ∧
    (after.way v).dirty = (cs.way v).dirty ∧ (after.way v).data = (cs.way v).data
  ages : ∀ v, v ≠ w → (after.way v).age = if (cs.way v).age < (cs.way w).age then (cs.way v).age + 1#2 else (cs.way v).age

/-! ### Frames that claims use -/

/-- What no retiring instruction but RET and INT0 changes: the configuration, the reading, `PTBR`, `PRIV`, the scoreboard,
the slots, the fault record and the run state. -/
structure MachineUnchanged (s t : State) : Prop where
  params : t.params = s.params
  reading : t.reading = s.reading
  ptbr : t.ptbr = s.ptbr
  priv : t.priv = s.priv
  pending : t.pending = s.pending
  slots : t.slots = s.slots
  faultInfo : t.faultInfo = s.faultInfo
  halted : t.halted = s.halted

/-- The device latches and the event stream are as they were (rules R31, R32). -/
structure DevicesUnchanged (s t : State) : Prop where
  exitRequested : t.exitRequested = s.exitRequested
  mmioPending : t.mmioPending = s.mmioPending
  prngState : t.prngState = s.prngState
  vgaEvents : t.vgaEvents = s.vgaEvents

/-- `t` is `s` after an instruction that writes `v` to `rd`, accesses no memory and goes on at `pc + 4`: one tick each in
decode, execute, memory and writeback, and one retirement. A write to r0 is discarded. The clauses on `cycles` and the
counters are those of an instruction that runs alone (rules R260, R268), as the instruction reading counts it (log
entry 2). -/
structure RegisterResult (s t : State) (rd : Reg) (v : Word) : Prop where
  result : t.reg rd = if rd = 0 then 0#32 else v
  otherRegisters : ∀ q, q ≠ rd → t.reg q = s.reg q
  pc : t.pc = s.pc + 4#32
  fpc : t.fpc = s.pc + 4#32
  machine : MachineUnchanged s t
  devices : DevicesUnchanged s t
  memory : t.mem = s.mem
  cache : t.cache = s.cache
  cycles : t.cycles = s.cycles + 4#64
  counters : t.stats = { s.stats with retired := s.stats.retired + 1 }

/-- `t` is `s` after an instruction that only goes on at `target`. The clauses on `cycles` and the counters are those of an
instruction that runs alone (rules R260, R268), as the instruction reading counts it (log entry 2). -/
structure ControlResult (s t : State) (target : Word) : Prop where
  registers : ∀ q, t.reg q = s.reg q
  pc : t.pc = target
  fpc : t.fpc = target
  machine : MachineUnchanged s t
  devices : DevicesUnchanged s t
  memory : t.mem = s.mem
  cache : t.cache = s.cache
  cycles : t.cycles = s.cycles + 4#64
  counters : t.stats = { s.stats with retired := s.stats.retired + 1 }

/-- `t` is `s` after a load of the value `v` into `rd` from the physical address `pa`; `u` is the state after the
translation, whose walk reads may have consumed a pending command, and `prng` the random stream after the read. The clause `ticks` is
that of an instruction that runs alone (rules R260, R268), as the instruction reading counts it (log entry 2). -/
structure LoadResult (s u t : State) (rd : Reg) (pa v prng : Word) : Prop where
  result : t.reg rd = if rd = 0 then 0#32 else v
  otherRegisters : ∀ q, q ≠ rd → t.reg q = s.reg q
  pc : t.pc = s.pc + 4#32
  fpc : t.fpc = s.pc + 4#32
  machine : MachineUnchanged s t
  memory : ∀ a, t.view a = s.view a
  exitRequested : t.exitRequested = s.exitRequested
  vgaEvents : t.vgaEvents = s.vgaEvents
  mmioPending : t.mmioPending = if isCtrl pa then none else u.mmioPending
  prngState : t.prngState = prng
  retired : t.stats.retired = s.stats.retired + 1
  ticks : ∃ lat, 1 ≤ lat ∧ t.cycles = s.cycles + BitVec.ofNat 64 (3 + lat) ∧
    t.stats.memCycles = s.stats.memCycles + lat

/-- A store of `v` at `pa` is the exit command, given for the first time (rule R67). -/
def firstExit (s : State) (pa v : Word) : Bool := isCtrl pa && byteOf v 0 == 0x41#8 && !s.exitRequested

/-- `t` is `s` after a store of the low `n` bytes of `v` to the physical address `pa`; `u` is the state after the
translation. The clause `ticks` is that of an instruction that runs alone (rules R260, R268), as the instruction reading
counts it (log entry 2). -/
structure StoreResult (s u t : State) (n : Width) (pa v : Word) : Prop where
  registers : ∀ q, t.reg q = s.reg q
  pc : t.pc = s.pc + 4#32
  fpc : t.fpc = s.pc + 4#32
  stored : ∀ i, i < widthBytes n → t.view (pa + BitVec.ofNat 32 i) = byteOf v i
  elsewhere : ∀ a, ¬ Covers pa n a → t.view a = s.view a
  params : t.params = s.params
  reading : t.reading = s.reading
  ptbr : t.ptbr = s.ptbr
  priv : t.priv = s.priv
  faultInfo : t.faultInfo = s.faultInfo
  exitRequested : t.exitRequested = (s.exitRequested || (isCtrl pa && byteOf v 0 == 0x41#8))
  mmioPending : t.mmioPending =
    if isCtrl pa && byteOf v 0 == 0x42#8 then some .timestamp
    else if isCtrl pa && byteOf v 0 == 0x43#8 then some .random
    else u.mmioPending
  prngState : t.prngState = u.prngState
  vgaEvents : t.vgaEvents = if inVga pa then s.vgaEvents ++ [⟨pa, n, lowBytes n v⟩] else s.vgaEvents
  halted : t.halted = if firstExit s pa v then some .hostExit else s.halted
  slots : t.slots = if firstExit s pa v then {} else s.slots
  pending : firstExit s pa v = false → t.pending = s.pending
  retired : t.stats.retired = s.stats.retired + 1
  ticks : ∃ lat, 1 ≤ lat ∧ t.cycles = s.cycles + BitVec.ofNat 64 (3 + lat) ∧
    t.stats.memCycles = s.stats.memCycles + lat

/-- The VGA event of a word store, where the address lies in the text buffer (rule R66). -/
def vgaOf (pa v : Word) : List VgaEvent := if inVga pa then [⟨pa, .word, v⟩] else []

/-- The view of `t` is that of `s` with a frame stored: `flags` in the word at `pa0`, `savedPc` in the word at `pa1`
(rule R231). A pc word with low byte 0x41 at 0x2000 sets the exit latch as any store there does (log entry 11). -/
structure FrameStored (s t : State) (pa0 pa1 flags savedPc : Word) : Prop where
  flagsWord : ∀ i, i < 4 → t.view (pa0 + BitVec.ofNat 32 i) = byteOf flags i
  pcWord : ∀ i, i < 4 → t.view (pa1 + BitVec.ofNat 32 i) = byteOf savedPc i
  elsewhere : ∀ a, ¬ Covers pa0 .word a → ¬ Covers pa1 .word a → t.view a = s.view a
  vgaEvents : t.vgaEvents = s.vgaEvents ++ vgaOf pa0 flags ++ vgaOf pa1 savedPc
  exitRequested : t.exitRequested = (s.exitRequested || (isCtrl pa1 && byteOf savedPc 0 == 0x41#8))

/-- `t` is `s` after a CALL to `target` whose frame went to `pa0` and `pa1` (rule R237). -/
structure CallResult (s t : State) (pa0 pa1 target : Word) : Prop where
  sp : t.reg spReg = s.reg spReg - 8#32
  otherRegisters : ∀ q, q ≠ spReg → t.reg q = s.reg q
  pc : t.pc = target
  fpc : t.fpc = target
  frame : FrameStored s t pa0 pa1 (flagsWord s.priv) (s.pc + 4#32)
  machine : MachineUnchanged s t
  retired : t.stats.retired = s.stats.retired + 1

/-- `t` is `s` after a RET that popped the flags word `flags` and the return address `target` (rule R238). -/
structure ReturnResult (s t : State) (flags target : Word) : Prop where
  sp : t.reg spReg = s.reg spReg + 8#32
  otherRegisters : ∀ q, q ≠ spReg → t.reg q = s.reg q
  priv : t.priv = if flags.getLsbD 0 then .supervisor else .user
  pc : t.pc = target
  fpc : t.fpc = target
  memory : ∀ a, t.view a = s.view a
  params : t.params = s.params
  reading : t.reading = s.reading
  ptbr : t.ptbr = s.ptbr
  pending : t.pending = s.pending
  slots : t.slots = s.slots
  faultInfo : t.faultInfo = s.faultInfo
  halted : t.halted = s.halted
  exitRequested : t.exitRequested = s.exitRequested
  vgaEvents : t.vgaEvents = s.vgaEvents
  retired : t.stats.retired = s.stats.retired + 1

/-- `t` is `s` after the entry of the handler at `vec`, the frame with `savedPc` stored at `pa0` and `pa1` (rule R308). -/
structure HandlerEntered (s t : State) (vec pa0 pa1 savedPc : Word) : Prop where
  sp : t.reg spReg = s.reg spReg - 8#32
  otherRegisters : ∀ q, q ≠ spReg → t.reg q = s.reg q
  priv : t.priv = .supervisor
  pc : t.pc = vec
  fpc : t.fpc = vec
  frame : FrameStored s t pa0 pa1 (flagsWord s.priv) savedPc
  squashed : t.slots = { wbs := s.slots.wbs }
  pending : t.pending = s.squashBehindWb.pending
  params : t.params = s.params
  reading : t.reading = s.reading
  ptbr : t.ptbr = s.ptbr
  faultInfo : t.faultInfo = s.faultInfo
  halted : t.halted = s.halted

/-- `t` is `s` halted with `cause`: every slot empty, registers, `pc`, privilege, the view and the event stream as they were
(rules R33, R309, R310), and the fetch pointer equal to `pc`, as rule R23 says of an empty pipeline (log entry 7). -/
structure HaltedWith (s t : State) (cause : HaltCause) : Prop where
  halted : t.halted = some cause
  registers : ∀ q, t.reg q = s.reg q
  pc : t.pc = s.pc
  fpc : t.fpc = t.pc
  priv : t.priv = s.priv
  ptbr : t.ptbr = s.ptbr
  memory : ∀ a, t.view a = s.view a
  slots : t.slots = {}
  exitRequested : t.exitRequested = s.exitRequested
  vgaEvents : t.vgaEvents = s.vgaEvents
  retired : t.stats.retired = s.stats.retired

/-! ### Words as the instruction rules write them (rules R200 to R241) -/

/-- A register number at a bit position. -/
def regAt (r : Reg) (position : Nat) : Word := BitVec.ofNat 32 r.val <<< position

/-- `op | rs3<<21 | rs1<<16 | rs2<<11`. -/
def rWord (op : Word) (rs3 rs1 rs2 : Reg) : Word := op ||| regAt rs3 21 ||| regAt rs1 16 ||| regAt rs2 11

/-- `op | rs3<<21 | rs1<<16 | (imm & 0xFFFF)`. -/
def gWord (op : Word) (rs3 rs1 : Reg) (imm : Int) : Word :=
  op ||| regAt rs3 21 ||| regAt rs1 16 ||| (BitVec.ofInt 32 imm &&& 0xFFFF#32)

/-- `op | (offset & 0x1FFFFF)`. -/
def jWord (op : Word) (offset : Int) : Word := op ||| (BitVec.ofInt 32 offset &&& 0x1FFFFF#32)

/-- `i` completes from `s` in a state of which `post` holds. -/
def Completes (i : Instr) (s : State) (post : State → Prop) : Prop := ∃ t, exec i s = .next t ∧ post t

/-- `u` is `s` after the fetch of the instruction at `pc`: the fetch pointer beyond it, its ticks counted, the cache and a
pending command possibly changed by the reads, the view as it was (rules R74, R258). -/
structure Fetched (s u : State) : Prop where
  registers : ∀ q, u.reg q = s.reg q
  pc : u.pc = s.pc
  fpc : u.fpc = s.pc + 4#32
  machine : MachineUnchanged s u
  memory : StoreSound s → ∀ a, u.view a = s.view a
  sound : StoreSound s → StoreSound u
  exitRequested : u.exitRequested = s.exitRequested
  vgaEvents : u.vgaEvents = s.vgaEvents
  noCommand : s.mmioPending = none → u.mmioPending = none ∧ u.prngState = s.prngState
  retired : u.stats.retired = s.stats.retired
  ticks : ∃ lat, 1 ≤ lat ∧ u.cycles = s.cycles + BitVec.ofNat 64 lat ∧
    u.stats.fetchCycles = s.stats.fetchCycles + lat

/-- What only the host reads: the statistics and the fault record, forgotten (rules R34, R36). -/
def State.forgetHostOnly (s : State) : State := { s with stats := {}, faultInfo := none }

/-! ### All of it -/

/-- The sound states: memory canonical, r0 zero, the cache sound and coherent, the pipeline sound. -/
structure State.Sound (s : State) : Prop where
  memoryWf : s.MemoryWf
  zeroRegister : s.ZeroRegister
  cacheSound : s.CacheSound
  cacheCoherent : s.CacheCoherent
  pipelineSound : s.PipelineSound

/-- An outcome that is a next state. -/
def StepOutcome.isNext : StepOutcome → Bool
  | .next _ => true
  | .fault _ => false
  | .refused _ => false

/-- A run of `n` steps is safe: no step stops with a fault or a refusal. -/
def SafeFor : Nat → State → Prop
  | 0, _ => True
  | n + 1, s => ∃ t, step s = .next t ∧ SafeFor n t

end Sys2Proof.Machine
end

