-- ==== Sys2Proof/Certificates/Slice0/Obligations.lean ====
section
/-! DEFINITION. The statements for the provers, one definition each, in the order of OBLIGATIONS.json. -/

section

open Sys2Proof Sys2Proof.Machine

/-! ### Encoding -/

/-- R171: the encoder writes 0 in every ignored bit; `decode(encode(i)) = i` for every well-formed instruction; what the
decoder returns is well-formed; `encode(decode(w)) = w` holds exactly for the words whose ignored bits are 0. -/
def Obligations.DecodeEncodeRoundTrip : Prop :=
  (∀ i : Instr, encode i &&& ignoredBits i = 0#32) ∧
    (∀ i : Instr, i.wellFormed = true → decode (encode i) = .instr i) ∧
    (∀ (w : Word) (i : Instr), decode w = .instr i →
      i.wellFormed = true ∧ (encode i = w ↔ w &&& ignoredBits i = 0#32))

/-- R168: the decoder accepts a word exactly when it has the fixed bits of some row of the opcode table, then as an
instruction of that row; the bits that the instruction does not use do not matter. -/
def Obligations.DecodeAcceptsTableRows : Prop :=
  (∀ w : Word, (∃ i, decode w = .instr i) ↔ ∃ row ∈ opcodeRows, w &&& row.mask = row.pattern) ∧
    (∀ (w : Word) (i : Instr), decode w = .instr i →
      rowOf i ∈ opcodeRows ∧ w &&& (rowOf i).mask = (rowOf i).pattern) ∧
    (∀ (w w' : Word) (i : Instr), decode w = .instr i → w &&& ~~~(ignoredBits i) = w' &&& ~~~(ignoredBits i) →
      decode w' = .instr i)

/-- R166, R167: exactly the 34 unassigned opcodes are refused as unassigned, and a word with an assigned opcode is refused
exactly when a register field that its instruction uses holds 16 to 31. -/
def Obligations.DecodeNamesIllegalWords : Prop :=
  ∀ w : Word,
    (decode w = .illegal .unassignedOpcode ↔
      (opcodeField w).toNat ∈ [0, 1, 24, 32, 33, 34, 35, 36, 37, 38, 39] ∨ 41 ≤ (opcodeField w).toNat) ∧
    (decode w = .illegal .noSuchRegister ↔
      (∃ k, (opcodeField w).toNat = k ∧ k ∈ [2, 3, 4, 5, 6, 7, 8, 30, 31] ∧
        (16 ≤ (rs3Field w).toNat ∨ 16 ≤ (rs1Field w).toNat ∨ 16 ≤ (rs2Field w).toNat)) ∨
      (∃ k, (opcodeField w).toNat = k ∧ 9 ≤ k ∧ k ≤ 23 ∧ (16 ≤ (rs3Field w).toNat ∨ 16 ≤ (rs1Field w).toNat)) ∨
      ((opcodeField w).toNat = 26 ∧ 16 ≤ (rs3Field w).toNat))

/-- R181: the worked encodings, decoded and encoded, and the bytes of the first. -/
def Obligations.WorkedEncodings : Prop :=
  decode 0x24200005#32 = .instr (.addi 1 0 5) ∧ encode (.addi 1 0 5) = 0x24200005#32 ∧
    bytesOfWord 0x24200005#32 = [0x05#8, 0x00#8, 0x20#8, 0x24#8] ∧
    decode 0x24400007#32 = .instr (.addi 2 0 7) ∧ encode (.addi 2 0 7) = 0x24400007#32 ∧
    decode 0x08611000#32 = .instr (.add 3 1 2) ∧ encode (.add 3 1 2) = 0x08611000#32 ∧
    decode 0x4C603000#32 = .instr (.st 3 0 0x3000) ∧ encode (.st 3 0 0x3000) = 0x4C603000#32 ∧
    decode 0xA0000000#32 = .instr .int0 ∧ encode .int0 = 0xA0000000#32 ∧
    decode 0x2884FFFF#32 = .instr (.subi 4 4 (-1)) ∧ encode (.subi 4 4 (-1)) = 0x2884FFFF#32 ∧
    decode 0x641FFFFC#32 = .instr (.jmpr (-4)) ∧ encode (.jmpr (-4)) = 0x641FFFFC#32

/-! ### The step -/

/-- A step of the instruction reading (R9 (a); the reading is the model's own field, log entry 2) runs the instruction that
the word fetched at `pc` decodes to, in a state that differs from the one before only by the fetch, its ticks counted as
that reading does (R260, R268); where no command is pending at the fetch address that word is the coherent view's. -/
def Obligations.StepRunsDecodedInstruction : Prop :=
  ∀ (s : State) (w : Word) (i : Instr), s.halted = none → s.reading = .instruction →
    (fetch s.pc (s.addCycles 1)).val = .ok w → decode w = .instr i →
    (∃ u, step s = exec i u ∧ Fetched s u) ∧
      (∀ pa, StoreSound s → (translateAligned .fetch s.pc .word (s.addCycles 1)).val = .ok pa →
        (isCtrl pa = false ∨ (translateAligned .fetch s.pc .word (s.addCycles 1)).st.mmioPending = none) →
        w = s.viewWord pa)

/-- R166, R242, R312: a word that the decoder rejects raises IllegalInstruction with the word as information; it has no
other effect before the fault is taken. That it is taken four ticks after the fetch, one for each later stage, is the
model's reading of R254 and R260 for a faulting instruction (R300; log entry 13, DEDUCED); the step is one of the
instruction reading, the model's own field (log entry 2). -/
def Obligations.StepTakesIllegalInstruction : Prop :=
  ∀ (s : State) (w : Word) (why : IllegalReason), s.halted = none → s.reading = .instruction →
    (fetch s.pc (s.addCycles 1)).val = .ok w → decode w = .illegal why →
    ∃ u, step s = .next (takeFault .illegalInstruction s.pc w u.passStages) ∧ Fetched s u

/-- R74, R300, R304: a fetch that faults is taken as that fault with the instruction's own address; with paging off it
faults exactly when `pc` is not a multiple of 4, as an AlignmentFault with that address as information. That it is taken
four ticks after the fetch, one for each later stage, is the model's reading of R254 and R260 for a faulting instruction
(log entry 13, DEDUCED); the step is one of the instruction reading, the model's own field (log entry 2). -/
def Obligations.StepTakesFetchFault : Prop :=
  ∀ s : State, s.halted = none → s.reading = .instruction →
    (∀ f, (fetch s.pc (s.addCycles 1)).val = .error f →
      ∃ u, step s = .next (takeFault f.kind s.pc f.info u.passStages) ∧ Fetched s u) ∧
    (s.ptbr = 0#32 →
      ((fetch s.pc (s.addCycles 1)).val = .error ⟨.alignmentFault, s.pc⟩ ↔ s.pc.toNat % 4 ≠ 0) ∧
      (∀ f, (fetch s.pc (s.addCycles 1)).val = .error f → f = ⟨.alignmentFault, s.pc⟩))

/-- R33: a halted machine does not change, not even its cycle counter, whatever number of ticks or steps passes; in the
cycle-level reading (the model's own field, log entry 2) a step of a running machine is one tick: one cycle, then the stages
oldest first, ending with writeback where that halts the machine (R252). -/
def Obligations.HaltedMachineStays : Prop :=
  (∀ s : State, s.halted.isSome = true → step s = .next s ∧ ∀ n, ticks n s = s) ∧
    (∀ s : State, s.halted = none → s.reading = .cycle → step s = .next (tick s)) ∧
    (∀ s u : State, s.halted = none → u = wbStep { s with cycles := s.cycles + 1#64 } →
      (u.halted.isSome = true → tick s = u) ∧
      (u.halted = none → tick s = ifStep (decide (s.slots = {})) (idStep (exStep (memStep u)))))

/-- No step of any state stops with a fault or a refusal: every fault of the machine is taken by it (R306), every
instruction has its meaning (R164). -/
def Obligations.EveryStepAnswers : Prop := ∀ (n : Nat) (s : State), SafeFor n s

/-! ### Register with register -/

/-- R200, R201, R207: ADD, SUB and MUL, modulo 2^32, with their encodings, their frame and no fault. The tick count is the
model's choice: in its instruction reading (log entry 2, DESIGN CHOICE) it is that of an instruction that runs alone (R260,
R268). -/
def Obligations.AddSubMulResults : Prop :=
  ∀ (rd ra rb : Reg) (s : State),
    encode (.add rd ra rb) = rWord 0x08000000#32 rd ra rb ∧
    encode (.sub rd ra rb) = rWord 0x0C000000#32 rd ra rb ∧
    encode (.mul rd ra rb) = rWord 0x78000000#32 rd ra rb ∧
    Completes (.add rd ra rb) s (fun t =>
      RegisterResult s t rd (BitVec.ofNat 32 ((s.reg ra).toNat + (s.reg rb).toNat))) ∧
    Completes (.sub rd ra rb) s (fun t =>
      RegisterResult s t rd (BitVec.ofInt 32 ((s.reg ra).toNat - (s.reg rb).toNat))) ∧
    Completes (.mul rd ra rb) s (fun t =>
      RegisterResult s t rd (BitVec.ofNat 32 ((s.reg ra).toNat * (s.reg rb).toNat)) ∧
      RegisterResult s t rd (BitVec.ofInt 32 ((s.reg ra).toInt * (s.reg rb).toInt)))

/-- R202, R203, R204: XOR, OR and AND, bit by bit, with their encodings, their frame and no fault. The tick count is the
model's choice: in its instruction reading (log entry 2, DESIGN CHOICE) it is that of an instruction that runs alone (R260,
R268). -/
def Obligations.XorOrAndResults : Prop :=
  ∀ (rd ra rb : Reg) (s : State),
    encode (.xor rd ra rb) = rWord 0x10000000#32 rd ra rb ∧
    encode (.or rd ra rb) = rWord 0x14000000#32 rd ra rb ∧
    encode (.and rd ra rb) = rWord 0x18000000#32 rd ra rb ∧
    Completes (.xor rd ra rb) s (fun t => ∃ v, RegisterResult s t rd v ∧
      ∀ k, k < 32 → v.getLsbD k = ((s.reg ra).getLsbD k != (s.reg rb).getLsbD k)) ∧
    Completes (.or rd ra rb) s (fun t => ∃ v, RegisterResult s t rd v ∧
      ∀ k, k < 32 → v.getLsbD k = ((s.reg ra).getLsbD k || (s.reg rb).getLsbD k)) ∧
    Completes (.and rd ra rb) s (fun t => ∃ v, RegisterResult s t rd v ∧
      ∀ k, k < 32 → v.getLsbD k = ((s.reg ra).getLsbD k && (s.reg rb).getLsbD k))

/-- R205, R206: SHR is logical, SHL loses the bits past 31, both by the low five bits of the second operand. The tick count
is the model's choice: in its instruction reading (log entry 2, DESIGN CHOICE) it is that of an instruction that runs alone
(R260, R268). -/
def Obligations.ShiftResults : Prop :=
  ∀ (rd ra rb : Reg) (s : State),
    encode (.shr rd ra rb) = rWord 0x1C000000#32 rd ra rb ∧
    encode (.shl rd ra rb) = rWord 0x20000000#32 rd ra rb ∧
    Completes (.shr rd ra rb) s (fun t =>
      RegisterResult s t rd (BitVec.ofNat 32 ((s.reg ra).toNat / 2 ^ ((s.reg rb).toNat % 32)))) ∧
    Completes (.shl rd ra rb) s (fun t =>
      RegisterResult s t rd (BitVec.ofNat 32 ((s.reg ra).toNat * 2 ^ ((s.reg rb).toNat % 32))))

/-- R208, R305: DIV gives the signed quotient rounded toward zero; its one overflow, -2^31 by -1, gives 0x80000000; a zero
divisor raises DivideByZero with information 0 and writes no destination. The tick count is the model's choice: in its
instruction reading (log entry 2, DESIGN CHOICE) it is that of an instruction that runs alone (R260, R268); that a zero
divisor's fault is taken after the same four ticks is log entry 13 (DEDUCED from R254 and R260). -/
def Obligations.DivResults : Prop :=
  ∀ (rd ra rb : Reg) (s : State),
    encode (.div rd ra rb) = rWord 0x7C000000#32 rd ra rb ∧
    (s.reg rb ≠ 0#32 → Completes (.div rd ra rb) s (fun t => ∃ q,
      RegisterResult s t rd q ∧ q = BitVec.ofInt 32 ((s.reg ra).toInt.tdiv (s.reg rb).toInt) ∧
      (s.reg ra = 0x80000000#32 → s.reg rb = 0xFFFFFFFF#32 → q = 0x80000000#32) ∧
      ((s.reg ra ≠ 0x80000000#32 ∨ s.reg rb ≠ 0xFFFFFFFF#32) →
        q.toInt = (s.reg ra).toInt.tdiv (s.reg rb).toInt))) ∧
    (s.reg rb = 0#32 → exec (.div rd ra rb) s = .next (takeFault .divideByZero s.pc 0#32 s.passStages) ∧
      ∀ q, q ≠ spReg → (takeFault .divideByZero s.pc 0#32 s.passStages).reg q = s.reg q)

/-! ### Register with immediate -/

/-- R212, R213: ADDI and SUBI with the sign-extended immediate, modulo 2^32. The tick count is the model's choice: in its
instruction reading (log entry 2, DESIGN CHOICE) it is that of an instruction that runs alone (R260, R268). -/
def Obligations.AddiSubiResults : Prop :=
  ∀ (rd ra : Reg) (imm : Int) (s : State), immInRange imm = true →
    encode (.addi rd ra imm) = gWord 0x24000000#32 rd ra imm ∧
    encode (.subi rd ra imm) = gWord 0x28000000#32 rd ra imm ∧
    Completes (.addi rd ra imm) s (fun t => RegisterResult s t rd (BitVec.ofInt 32 ((s.reg ra).toInt + imm))) ∧
    Completes (.subi rd ra imm) s (fun t => RegisterResult s t rd (BitVec.ofInt 32 ((s.reg ra).toInt - imm)))

/-- R210, R214, R215, R216: XORI, ORI and ANDI, bit by bit, with the immediate sign-extended to 32 bits: its bits 31:16 are
copies of its bit 15. The tick count is the model's choice: in its instruction reading (log entry 2, DESIGN CHOICE) it is
that of an instruction that runs alone (R260, R268). -/
def Obligations.XoriOriAndiResults : Prop :=
  ∀ (rd ra : Reg) (imm : Int) (s : State), immInRange imm = true →
    encode (.xori rd ra imm) = gWord 0x2C000000#32 rd ra imm ∧
    encode (.ori rd ra imm) = gWord 0x30000000#32 rd ra imm ∧
    encode (.andi rd ra imm) = gWord 0x34000000#32 rd ra imm ∧
    Completes (.xori rd ra imm) s (fun t => ∃ v, RegisterResult s t rd v ∧
      ∀ k, k < 32 → v.getLsbD k = ((s.reg ra).getLsbD k != (BitVec.ofInt 16 imm).getLsbD (min k 15))) ∧
    Completes (.ori rd ra imm) s (fun t => ∃ v, RegisterResult s t rd v ∧
      ∀ k, k < 32 → v.getLsbD k = ((s.reg ra).getLsbD k || (BitVec.ofInt 16 imm).getLsbD (min k 15))) ∧
    Completes (.andi rd ra imm) s (fun t => ∃ v, RegisterResult s t rd v ∧
      ∀ k, k < 32 → v.getLsbD k = ((s.reg ra).getLsbD k && (BitVec.ofInt 16 imm).getLsbD (min k 15)))

/-- R211: LUI's result has bits 11:0 zero, the 16 immediate bits in 27:12, and four copies of immediate bit 15 above. The
tick count is the model's choice: in its instruction reading (log entry 2, DESIGN CHOICE) it is that of an instruction that
runs alone (R260, R268). -/
def Obligations.LuiResult : Prop :=
  ∀ (rd : Reg) (imm : Int) (s : State), immInRange imm = true →
    encode (.lui rd imm) = gWord 0x68000000#32 rd 0 imm ∧
    Completes (.lui rd imm) s (fun t => ∃ v, RegisterResult s t rd v ∧ v = BitVec.ofInt 32 (imm * 4096) ∧
      (∀ k, k < 12 → v.getLsbD k = false) ∧
      (∀ k, k < 16 → v.getLsbD (12 + k) = (BitVec.ofInt 16 imm).getLsbD k) ∧
      (∀ k, 28 ≤ k → k < 32 → v.getLsbD k = (BitVec.ofInt 16 imm).getLsbD 15))

/-! ### Loads and stores -/

/-- R220 to R223: LDB, LDH and LD complete wherever the effective address translates for a load and is aligned, at physical
address `pa`. The value is what the read at `pa` returns; without a pending command there it is the little-endian,
zero-extended bytes of the coherent view, and no byte of the view changes. The tick count is the model's choice: in its
instruction reading (log entry 2, DESIGN CHOICE) it is that of an instruction that runs alone (R260, R268). -/
def Obligations.LoadsComplete : Prop :=
  ∀ (rd ra : Reg) (imm : Int) (s : State) (i : Instr) (n : Width) (pa : Word),
    (i, n) ∈ [(Instr.ldb rd ra imm, Width.byte), (Instr.ldh rd ra imm, Width.half), (Instr.ld rd ra imm, Width.word)] →
    StoreSound s →
    (translateAligned .load (s.reg ra + BitVec.ofInt 32 imm) n s.reachMemory).val = .ok pa →
    Completes i s (fun t => ∃ u v prng,
      u = (translateAligned .load (s.reg ra + BitVec.ofInt 32 imm) n s.reachMemory).st ∧
      v = (physRead .load pa n u).val ∧ prng = (physRead .load pa n u).st.prngState ∧
      LoadResult s u t rd pa v prng ∧
      (isCtrl pa = false ∨ u.mmioPending = none →
        v = littleEndian n (fun k => s.view (pa + BitVec.ofNat 32 k)) ∧ prng = u.prngState))

/-- R72, R300, R314: a load whose translation or alignment check fails takes that fault, its information the virtual
address; nothing of the view has changed and it has read nothing: a pending command and the random stream are as the walk
left them. That three ticks and those of the walk reads, at least one, pass before the fault is taken is the model's reading
of R254, R260 and R261 for a faulting instruction (log entry 13, DEDUCED), as the instruction reading counts (log entry
2). -/
def Obligations.LoadsTakeFaults : Prop :=
  ∀ (rd ra : Reg) (imm : Int) (s : State) (i : Instr) (n : Width) (f : FaultRec),
    (i, n) ∈ [(Instr.ldb rd ra imm, Width.byte), (Instr.ldh rd ra imm, Width.half), (Instr.ld rd ra imm, Width.word)] →
    (translateAligned .load (s.reg ra + BitVec.ofInt 32 imm) n s.reachMemory).val = .error f →
    f.info = s.reg ra + BitVec.ofInt 32 imm ∧
    ∃ u, exec i s = .next (takeFault f.kind s.pc f.info u) ∧ u.x = s.x ∧ u.pc = s.pc ∧ u.priv = s.priv ∧
      u.halted = s.halted ∧ u.stats.retired = s.stats.retired ∧ (StoreSound s → ∀ a, u.view a = s.view a) ∧
      u.exitRequested = s.exitRequested ∧ u.vgaEvents = s.vgaEvents ∧
      u.mmioPending = (translateAligned .load (s.reg ra + BitVec.ofInt 32 imm) n s.reachMemory).st.mmioPending ∧
      u.prngState = (translateAligned .load (s.reg ra + BitVec.ofInt 32 imm) n s.reachMemory).st.prngState ∧
      u.cycles = s.cycles + BitVec.ofNat 64
        (3 + max (translateAligned .load (s.reg ra + BitVec.ofInt 32 imm) n s.reachMemory).lat 1)

/-- R66, R67, R220, R224 to R226: STB, STH and ST complete wherever the effective address translates for a store and is
aligned, at physical address `pa`: exactly the bytes at `pa` change, little-endian; a store into the VGA buffer is an event,
a store to 0x2000 a command, and the first exit command halts the machine with `HostExit`. The tick count is the model's
choice: in its instruction reading (log entry 2, DESIGN CHOICE) it is that of an instruction that runs alone (R260,
R268). -/
def Obligations.StoresComplete : Prop :=
  ∀ (rv ra : Reg) (imm : Int) (s : State) (i : Instr) (n : Width) (pa : Word),
    (i, n) ∈ [(Instr.stb rv ra imm, Width.byte), (Instr.sth rv ra imm, Width.half), (Instr.st rv ra imm, Width.word)] →
    StoreSound s →
    (translateAligned .store (s.reg ra + BitVec.ofInt 32 imm) n s.reachMemory).val = .ok pa →
    Completes i s (fun t =>
      StoreResult s (translateAligned .store (s.reg ra + BitVec.ofInt 32 imm) n s.reachMemory).st t n pa (s.reg rv))

/-- R73, R300, R314: a store whose translation or alignment check fails takes that fault and writes nothing: memory as the
program sees it, the exit latch and the events are as they were, a pending command and the random stream as the walk left
them. -/
def Obligations.StoresTakeFaults : Prop :=
  ∀ (rv ra : Reg) (imm : Int) (s : State) (i : Instr) (n : Width) (f : FaultRec),
    (i, n) ∈ [(Instr.stb rv ra imm, Width.byte), (Instr.sth rv ra imm, Width.half), (Instr.st rv ra imm, Width.word)] →
    (translateAligned .store (s.reg ra + BitVec.ofInt 32 imm) n s.reachMemory).val = .error f →
    f.info = s.reg ra + BitVec.ofInt 32 imm ∧
    ∃ u, exec i s = .next (takeFault f.kind s.pc f.info u) ∧ u.x = s.x ∧ u.pc = s.pc ∧ u.priv = s.priv ∧
      u.halted = s.halted ∧ u.stats.retired = s.stats.retired ∧ u.exitRequested = s.exitRequested ∧
      u.vgaEvents = s.vgaEvents ∧ (StoreSound s → ∀ a, u.view a = s.view a) ∧
      u.mmioPending = (translateAligned .store (s.reg ra + BitVec.ofInt 32 imm) n s.reachMemory).st.mmioPending ∧
      u.prngState = (translateAligned .store (s.reg ra + BitVec.ofInt 32 imm) n s.reachMemory).st.prngState

/-! ### Control transfer -/

/-- R230, R232 to R235: the four branches compare the first register written with the second, BLT and BGT as signed numbers,
and go to their own address plus the immediate or to the next instruction. The tick count is the model's choice: in its
instruction reading (log entry 2, DESIGN CHOICE) it is that of an instruction that runs alone (R260, R268). -/
def Obligations.BranchesDecide : Prop :=
  ∀ (rc ra : Reg) (imm : Int) (s : State), immInRange imm = true →
    encode (.bne rc ra imm) = gWord 0x50000000#32 rc ra imm ∧
    encode (.beq rc ra imm) = gWord 0x54000000#32 rc ra imm ∧
    encode (.blt rc ra imm) = gWord 0x58000000#32 rc ra imm ∧
    encode (.bgt rc ra imm) = gWord 0x5C000000#32 rc ra imm ∧
    Completes (.bne rc ra imm) s (fun t => ControlResult s t
      (if s.reg rc ≠ s.reg ra then s.pc + BitVec.ofInt 32 imm else s.pc + 4#32)) ∧
    Completes (.beq rc ra imm) s (fun t => ControlResult s t
      (if s.reg rc = s.reg ra then s.pc + BitVec.ofInt 32 imm else s.pc + 4#32)) ∧
    Completes (.blt rc ra imm) s (fun t => ControlResult s t
      (if (s.reg rc).toInt < (s.reg ra).toInt then s.pc + BitVec.ofInt 32 imm else s.pc + 4#32)) ∧
    Completes (.bgt rc ra imm) s (fun t => ControlResult s t
      (if (s.reg ra).toInt < (s.reg rc).toInt then s.pc + BitVec.ofInt 32 imm else s.pc + 4#32))

/-- R236, R240: JMPR always goes to its own address plus the offset, NOP to the next instruction; neither changes a
register, a byte of memory or a device. The tick count is the model's choice: in its instruction reading (log entry 2,
DESIGN CHOICE) it is that of an instruction that runs alone (R260, R268). -/
def Obligations.JmprAndNop : Prop :=
  (∀ (offset : Int) (s : State), offsetInRange offset = true →
    encode (.jmpr offset) = jWord 0x64000000#32 offset ∧
    Completes (.jmpr offset) s (fun t => ControlResult s t (s.pc + BitVec.ofInt 32 offset))) ∧
  (encode .nop = 0x74000000#32 ∧ ∀ s : State, Completes .nop s (fun t => ControlResult s t (s.pc + 4#32)))

/-- R231, R237: CALL completes wherever both words of the frame below `r15` translate for a store and `r15` is aligned: the
flags word and the return address `pc + 4` are stored there and nowhere else, `r15` drops by 8, `pc` goes to the target. -/
def Obligations.CallPushesFrame : Prop :=
  ∀ (offset : Int) (s : State) (pa0 pa1 : Word), offsetInRange offset = true → StoreSound s →
    (translateFrame .store (s.reg spReg - 8#32) s.reachMemory).val = .ok (pa0, pa1) →
    encode (.call offset) = jWord 0x6C000000#32 offset ∧
    Completes (.call offset) s (fun t => CallResult s t pa0 pa1 (s.pc + BitVec.ofInt 32 offset) ∧
      t.prngState = (translateFrame .store (s.reg spReg - 8#32) s.reachMemory).st.prngState ∧
      (isCtrl pa1 = false ∨ s.pc.toNat % 4 = 0 →
        t.exitRequested = s.exitRequested ∧
        t.mmioPending = (translateFrame .store (s.reg spReg - 8#32) s.reachMemory).st.mmioPending))

/-- R231, R238: RET completes wherever both words of the frame at `r15` translate for a load and `r15` is aligned: `PRIV` is
bit 0 of the word read at `pa0`, `pc` the word read at `pa1`, `r15` rises by 8, no byte of the view changes; without a
pending command those words are the view's. -/
def Obligations.RetPopsFrame : Prop :=
  ∀ (s : State) (pa0 pa1 : Word), StoreSound s →
    (translateFrame .load (s.reg spReg) s.reachMemory).val = .ok (pa0, pa1) →
    encode .ret = 0x70000000#32 ∧
    Completes .ret s (fun t => ∃ u flags target,
      u = (translateFrame .load (s.reg spReg) s.reachMemory).st ∧
      flags = (physRead .load pa0 .word u).val ∧
      target = (physRead .load pa1 .word (physRead .load pa0 .word u).st).val ∧
      ReturnResult s t flags target ∧
      (u.mmioPending = none ∨ (isCtrl pa0 = false ∧ isCtrl pa1 = false) →
        flags = s.viewWord pa0 ∧ target = s.viewWord pa1 ∧ t.mmioPending = u.mmioPending ∧ t.prngState = u.prngState))

/-- R237, R238, R304, R314: a CALL or RET whose frame fails a check takes that fault and changes nothing before it: the
first word's translation, then the second word's, then the alignment of the frame's address. A pending command and the
random stream are as the walks left them; that the second word's walk is not made where the first fails is log entry 6
(DEDUCED). -/
def Obligations.FrameFaults : Prop :=
  ∀ (offset : Int) (s : State) (i : Instr) (acc : Access) (sp : Word) (f : FaultRec),
    (i, acc, sp) ∈ [(Instr.call offset, Access.store, s.reg spReg - 8#32), (Instr.ret, Access.load, s.reg spReg)] →
    (translateFrame acc sp s.reachMemory).val = .error f →
    ((translate acc sp s.reachMemory).val = .error f ∨
      (∃ pa0, (translate acc sp s.reachMemory).val = .ok pa0 ∧
        (translate acc (sp + 4#32) (translate acc sp s.reachMemory).st).val = .error f) ∨
      (∃ pa0 pa1, (translate acc sp s.reachMemory).val = .ok pa0 ∧
        (translate acc (sp + 4#32) (translate acc sp s.reachMemory).st).val = .ok pa1 ∧
        sp.toNat % 4 ≠ 0 ∧ f = ⟨.alignmentFault, sp⟩)) ∧
    ∃ u, exec i s = .next (takeFault f.kind s.pc f.info u) ∧ u.x = s.x ∧ u.pc = s.pc ∧ u.priv = s.priv ∧
      u.halted = s.halted ∧ u.stats.retired = s.stats.retired ∧ (StoreSound s → ∀ a, u.view a = s.view a) ∧
      u.exitRequested = s.exitRequested ∧ u.vgaEvents = s.vgaEvents ∧
      u.mmioPending = (translateFrame acc sp s.reachMemory).st.mmioPending ∧
      u.prngState = (translateFrame acc sp s.reachMemory).st.prngState

/-- R241, R308, R309: INT0 with a registered handler retires and enters it: the frame with `pc + 4` and the flags is stored
below `r15`, the machine is in supervisor mode at the handler's address. Without one it retires and halts with
`Unhandled(0)`: registers, privilege and the view stay, `pc` is the next instruction's address, and so is the fetch pointer
(R23; log entry 7). -/
def Obligations.Int0EntersHandler : Prop :=
  (∀ (s s0 : State) (v : Timed Word) (t0 t1 : Timed (Except FaultRec Word)) (pa0 pa1 : Word), StoreSound s →
    s0 = (s.passStages.retireTo (s.pc + 4#32)).squashBehindWb →
    v = physRead .vector 0#32 .word s0 →
    t0 = translate .store (s.reg spReg - 8#32) v.st →
    t1 = translate .store (s.reg spReg - 8#32 + 4#32) t0.st →
    s.viewWord 0#32 ≠ 0#32 → t0.val = .ok pa0 → t1.val = .ok pa1 → (s.reg spReg).toNat % 4 = 0 →
    encode .int0 = 0xA0000000#32 ∧
    Completes .int0 s (fun t => HandlerEntered s t (s.viewWord 0#32) pa0 pa1 (s.pc + 4#32) ∧
      t.stats.retired = s.stats.retired + 1)) ∧
  (∀ s : State, StoreSound s → s.viewWord 0#32 = 0#32 →
    Completes .int0 s (fun t => t.halted = some (.unhandled 0) ∧ (∀ q, t.reg q = s.reg q) ∧ t.pc = s.pc + 4#32 ∧
      t.fpc = s.pc + 4#32 ∧ t.priv = s.priv ∧ (∀ a, t.view a = s.view a) ∧ t.slots = {} ∧
      t.stats.retired = s.stats.retired + 1))

/-! ### Memory and devices -/

/-- R60: what a store wrote, a load of the same width reads back, with paging off and outside the control register; a
narrower load of part of it, and a fetch, see the bytes little-endian. -/
def Obligations.StoreLoadRoundTrip : Prop :=
  ∀ (s : State) (va v : Word) (n : Width), StoreSound s → s.ptbr = 0#32 → va.toNat % widthBytes n = 0 →
    (∀ k, k < widthBytes n → isCtrl (va + BitVec.ofNat 32 k) = false) →
    (memWrite va n v s).val = .ok () ∧
    (memRead va n (memWrite va n v s).st).val = .ok (lowBytes n v) ∧
    (∀ k, k < widthBytes n →
      (memRead (va + BitVec.ofNat 32 k) .byte (memWrite va n v s).st).val = .ok ((byteOf v k).setWidth 32)) ∧
    (n = .word →
      (memRead (va + 2#32) .half (memWrite va n v s).st).val = .ok (v >>> 16) ∧
      (fetch va (memWrite va n v s).st).val = .ok v)

/-- R63: an access whose address is not a multiple of its width raises AlignmentFault with the virtual address, after a
successful translation, and performs nothing; bytes are always aligned; an aligned access lies in one block and one page. -/
def Obligations.MisalignedAccessesFault : Prop :=
  (∀ (s : State) (va v pa : Word) (n : Width), va.toNat % widthBytes n ≠ 0 →
    ((translate .load va s).val = .ok pa →
      (memRead va n s).val = .error ⟨.alignmentFault, va⟩ ∧ (memRead va n s).st = (translate .load va s).st) ∧
    ((translate .store va s).val = .ok pa →
      (memWrite va n v s).val = .error ⟨.alignmentFault, va⟩ ∧ (memWrite va n v s).st = (translate .store va s).st) ∧
    (n = .word → (translate .fetch va s).val = .ok pa →
      (fetch va s).val = .error ⟨.alignmentFault, va⟩ ∧ (fetch va s).st = (translate .fetch va s).st)) ∧
  (∀ (s : State) (va v : Word) (n : Width) (f : FaultRec),
    ((translate .load va s).val = .error f → (memRead va n s).val = .error f) ∧
    ((translate .store va s).val = .error f → (memWrite va n v s).val = .error f) ∧
    ((translate .fetch va s).val = .error f → (fetch va s).val = .error f)) ∧
  (∀ va : Word, va.toNat % widthBytes .byte = 0) ∧
  (∀ (pa : Word) (n : Width) (k : Nat), pa.toNat % widthBytes n = 0 → k < widthBytes n →
    (pa + BitVec.ofNat 32 k).toNat / 64 = pa.toNat / 64 ∧ (pa + BitVec.ofNat 32 k).toNat / 4096 = pa.toNat / 4096)

/-- R66: a store into the VGA text buffer writes its bytes into memory and appends its event; a load returns the bytes of
memory and has no side effect. -/
def Obligations.VgaBufferStoresAreEvents : Prop :=
  ∀ (s : State) (pa v : Word) (n : Width) (kind : AccessKind), StoreSound s → 0x1000 ≤ pa.toNat → pa.toNat < 0x2000 →
    pa.toNat % widthBytes n = 0 →
    (physWrite pa n v s).st.vgaEvents = s.vgaEvents ++ [⟨pa, n, lowBytes n v⟩] ∧
    (∀ k, k < widthBytes n → (physWrite pa n v s).st.mem.read (pa.toNat + k) = byteOf v k) ∧
    (physRead kind pa n s).val = littleEndian n (fun k => s.mem.read (pa.toNat + k)) ∧
    (physRead kind pa n s).st = s

/-- R68, R83: a read of 0x2000 consumes a pending command: the low bytes of the cycle counter, where the reading of the
model knows it (log entry 3), or of the next word of the random stream; every other read of the region returns the bytes of
memory without a side effect. The default stream is the generator of R83, whose constants R83 itself marks as general
knowledge (log entry 9, PRESUMED). -/
def Obligations.ControlRegisterReads : Prop :=
  (∀ (s : State) (n : Width) (kind : AccessKind),
    s.mmioPending = some .timestamp → (s.reading = .cycle ∨ s.params.pipelineEnabled = false) →
    (physRead kind 0x2000#32 n s).val = lowBytes n (s.cycles.setWidth 32) ∧
    (physRead kind 0x2000#32 n s).st = { s with mmioPending := none }) ∧
  (∀ (s : State) (n : Width) (kind : AccessKind), s.mmioPending = some .random →
    (physRead kind 0x2000#32 n s).val = lowBytes n (prngNext s.params.prng s.prngState) ∧
    (physRead kind 0x2000#32 n s).st =
      { s with mmioPending := none, prngState := prngNext s.params.prng s.prngState }) ∧
  (∀ (s : State) (pa : Word) (n : Width) (kind : AccessKind), 0x2000 ≤ pa.toNat → pa.toNat < 0x3000 →
    (pa ≠ 0x2000#32 ∨ s.mmioPending = none) →
    (physRead kind pa n s).val = littleEndian n (fun k => s.mem.read (pa + BitVec.ofNat 32 k).toNat) ∧
    (physRead kind pa n s).st = s) ∧
  (∀ p : Word, prngNext .lcg p = BitVec.ofNat 32 ((1664525 * p.toNat + 1013904223) % 2 ^ 32))

/-- R69, R70, R71, R111: with the cache disabled, or at an address in 0x1000 to 0x2FFF, an access costs 100 cycles and
changes no cache state and no counter. -/
def Obligations.BypassIsFlat : Prop :=
  ∀ (s : State) (pa v : Word) (n : Width) (kind : AccessKind),
    (s.params.cacheEnabled = false ∨ (0x1000 ≤ pa.toNat ∧ pa.toNat < 0x3000)) →
    (physRead kind pa n s).lat = 100 ∧ (physRead kind pa n s).st.cache = s.cache ∧
    (physRead kind pa n s).st.stats = s.stats ∧ (physRead kind pa n s).st.mem = s.mem ∧
    (physWrite pa n v s).lat = 100 ∧ (physWrite pa n v s).st.cache = s.cache ∧
    (physWrite pa n v s).st.stats = s.stats ∧ (physWrite pa n v s).st.mem = s.mem.writeValue pa n v

/-! ### The cache -/

/-- R104, R106: Touch makes its way the only one of age 0 and ages exactly the younger ways by one; the victim is the way of
age 3, and an invalid one while there is one. -/
def Obligations.TouchAndVictim : Prop :=
  ∀ (cs : CacheSet) (w : Fin 4), cs.Sound →
    ((cs.touch w).way w).age = 0#2 ∧
    (∀ v, v ≠ w → ((cs.touch w).way v).age ≠ 0#2 ∧
      (((cs.way v).age < (cs.way w).age → ((cs.touch w).way v).age = (cs.way v).age + 1#2) ∧
        (¬ (cs.way v).age < (cs.way w).age → ((cs.touch w).way v).age = (cs.way v).age))) ∧
    (∀ v u, v ≠ u → ((cs.touch w).way v).age ≠ ((cs.touch w).way u).age) ∧
    (∀ v, (cs.way v).age = 3#2 ↔ v = cs.victim) ∧
    ((∃ v, (cs.way v).valid = false) → (cs.way cs.victim).valid = false)

/-- R105, R104, R108: a read hit costs 10, returns the way's bytes and changes ages only; a read miss costs 100, or 200 with
a valid and dirty victim, whose block it writes back; the victim way then holds the block of memory, valid, clean and most
recently used, the set's other ways are as Touch leaves them, and the value is read from the victim way. Nothing of the
machine but cache, memory and counters changes. -/
def Obligations.CacheReadHitAndMiss : Prop :=
  ∀ (s : State) (pa : Word) (n : Width) (kind : AccessKind) (cs : CacheSet), cs = s.cache.setAt (cacheIndex pa) →
    (cacheRead kind pa n s).st = { s with
      cache := (cacheRead kind pa n s).st.cache
      mem := (cacheRead kind pa n s).st.mem
      stats := (cacheRead kind pa n s).st.stats } ∧
    (∀ w, cs.hit (cacheTag pa) = some w →
      (cacheRead kind pa n s).lat = 10 ∧
      (cacheRead kind pa n s).val = littleEndian n (fun k => (cs.way w).data.byte (blockOffset (pa + BitVec.ofNat 32 k))) ∧
      (cacheRead kind pa n s).st.cache = s.cache.putSet (cacheIndex pa) (cs.touch w) ∧
      (cacheRead kind pa n s).st.mem = s.mem) ∧
    (cs.hit (cacheTag pa) = none → s.mem.wf = true →
      let r := cacheRead kind pa n s
      let old := cs.way cs.victim
      let new := (r.st.cache.setAt (cacheIndex pa)).way cs.victim
      r.lat = (if old.valid && old.dirty then 200 else 100) ∧
      (∀ a : Word, r.st.mem.read a.toNat =
        if (old.valid && old.dirty) ∧ cacheTag a = old.tag ∧ cacheIndex a = cacheIndex pa then old.data.byte (blockOffset a)
        else s.mem.read a.toNat) ∧
      (new.tag = cacheTag pa ∧ new.valid = true ∧ new.dirty = false ∧ new.age = 0#2 ∧
        ∀ o, new.data.byte o = r.st.mem.read (blockByteAddress (cacheTag pa) (cacheIndex pa) o).toNat) ∧
      OtherWaysTouched cs (r.st.cache.setAt (cacheIndex pa)) cs.victim ∧
      (∀ j, j ≠ cacheIndex pa → r.st.cache.setAt j = s.cache.setAt j) ∧
      r.val = littleEndian n (fun k => new.data.byte (blockOffset (pa + BitVec.ofNat 32 k))))

/-- R107, R104, R108: a write hit costs 10, changes exactly its bytes of the block, makes the way dirty and most recently
used, leaves the set's other ways as Touch does, the other sets, memory and the devices as they were; a write miss costs
100, is the write of R75 to memory and leaves the cache (no-allocate). -/
def Obligations.CacheWriteHitAndMiss : Prop :=
  ∀ (s : State) (pa v : Word) (n : Width) (cs : CacheSet), cs = s.cache.setAt (cacheIndex pa) →
    pa.toNat % widthBytes n = 0 →
    (∀ w, cs.hit (cacheTag pa) = some w →
      let new := ((cacheWrite pa n v s).st.cache.setAt (cacheIndex pa)).way w
      (cacheWrite pa n v s).lat = 10 ∧ (cacheWrite pa n v s).st.mem = s.mem ∧
      new.tag = (cs.way w).tag ∧ new.valid = (cs.way w).valid ∧ new.dirty = true ∧ new.age = 0#2 ∧
      (∀ k, k < widthBytes n → new.data.byte (blockOffset (pa + BitVec.ofNat 32 k)) = byteOf v k) ∧
      (∀ o, (∀ k, k < widthBytes n → o ≠ blockOffset (pa + BitVec.ofNat 32 k)) →
        new.data.byte o = (cs.way w).data.byte o) ∧
      OtherWaysTouched cs ((cacheWrite pa n v s).st.cache.setAt (cacheIndex pa)) w ∧
      (∀ j, j ≠ cacheIndex pa → (cacheWrite pa n v s).st.cache.setAt j = s.cache.setAt j) ∧
      (cacheWrite pa n v s).st =
        { s with cache := (cacheWrite pa n v s).st.cache, stats := (cacheWrite pa n v s).st.stats }) ∧
    (cs.hit (cacheTag pa) = none →
      (cacheWrite pa n v s).lat = 100 ∧ (cacheWrite pa n v s).st.cache = s.cache ∧
      (cacheWrite pa n v s).st.mem = s.mem.writeValue pa n v ∧
      (cacheWrite pa n v s).st = { devWrite pa n v s with stats := (cacheWrite pa n v s).st.stats } ∧
      (uncacheable pa = false →
        DevicesUnchanged s (cacheWrite pa n v s).st))

/-- R82, R112: the cache is transparent. If `m` is one flat memory equal to the coherent view, a read returns what a machine
without a cache reads from `m` and leaves the view, and after a write the view is `m` with the bytes written. -/
def Obligations.CacheIsTransparent : Prop :=
  ∀ (s : State) (m : Memory) (pa v : Word) (n : Width) (kind : AccessKind), StoreSound s → pa.toNat % widthBytes n = 0 →
    m.wf = true → (∀ a : Word, m.read a.toNat = s.view a) →
    (physRead kind pa n s).val = (devRead pa n { s with mem := m }).1 ∧
    (∀ a, (physRead kind pa n s).st.view a = s.view a) ∧
    (∀ a : Word, (m.writeValue pa n v).read a.toNat = (physWrite pa n v s).st.view a)

/-- R113, R111: which accesses the four cache counters count: the cached reads of kind load, with their hits, and every
cached write, with its hits; an access past the cache, a fetch, a walk read and a vector read count nowhere. That every
cached write counts, the frame writes of trap entry with it, is R113's; 90_conflicts.md C8 says otherwise of those (log
entry 19, DESIGN CHOICE). -/
def Obligations.CacheCountersByKind : Prop :=
  ∀ (s : State) (pa v : Word) (n : Width) (kind : AccessKind),
    let isHit := if (s.cache.setAt (cacheIndex pa)).hit (cacheTag pa) = none then 0 else 1
    ((kind ≠ .load ∨ bypassesCache s pa = true) → (physRead kind pa n s).st.stats = s.stats) ∧
    (bypassesCache s pa = false → (physRead .load pa n s).st.stats =
      { s.stats with cacheReads := s.stats.cacheReads + 1, cacheReadHits := s.stats.cacheReadHits + isHit }) ∧
    (bypassesCache s pa = true → (physWrite pa n v s).st.stats = s.stats) ∧
    (bypassesCache s pa = false → (physWrite pa n v s).st.stats =
      { s.stats with cacheWrites := s.stats.cacheWrites + 1, cacheWriteHits := s.stats.cacheWriteHits + isHit })

/-! ### The MMU -/

/-- R130: with `PTBR` = 0 translation is the identity, for every access and privilege, with no read and no latency. R138
(with R133, R134, R136, R137): with paging on, and no command pending at an entry's address, PageFault is raised exactly
when the directory entry or the table entry is not present, PermissionFault exactly when both are present and the access
kind or the privilege is not allowed; both carry the full virtual address. The entries are those of the coherent view. -/
def Obligations.TranslationFaults : Prop :=
  (∀ (acc : Access) (va : Word) (s : State), s.ptbr = 0#32 → translate acc va s = ⟨.ok va, 0, s⟩) ∧
  (∀ (acc : Access) (va dir tbl pde pte : Word) (s : State), StoreSound s → s.ptbr ≠ 0#32 →
    dir = (s.ptbr &&& 0xFFFFF000#32) + BitVec.ofNat 32 (4 * (va.toNat / 2 ^ 22)) → pde = s.viewWord dir →
    tbl = (pde &&& 0xFFFFF000#32) + BitVec.ofNat 32 (4 * (va.toNat / 2 ^ 12 % 2 ^ 10)) → pte = s.viewWord tbl →
    (s.mmioPending = none ∨ (dir ≠ 0x2000#32 ∧ tbl ≠ 0x2000#32)) →
    let right := match acc with
      | .fetch => pte.getLsbD 3
      | .load => pte.getLsbD 1
      | .store => pte.getLsbD 2
    ((translate acc va s).val = .error ⟨.pageFault, va⟩ ↔ pde.getLsbD 0 = false ∨ pte.getLsbD 0 = false) ∧
    ((translate acc va s).val = .error ⟨.permissionFault, va⟩ ↔
      pde.getLsbD 0 = true ∧ pte.getLsbD 0 = true ∧ (right = false ∨ (s.priv = .user ∧ pte.getLsbD 4 = false))) ∧
    (∀ f, (translate acc va s).val = .error f → f = ⟨.pageFault, va⟩ ∨ f = ⟨.permissionFault, va⟩))

/-- R141 (with R133, R139, R140): for an address whose entries are present and permit the access, translation gives the
entry's frame with the low 12 bits of the address, after two reads, and leaves the view. -/
def Obligations.TranslationRoundTrip : Prop :=
  ∀ (acc : Access) (va dir tbl pde pte : Word) (s : State), StoreSound s → s.ptbr ≠ 0#32 →
    dir = (s.ptbr &&& 0xFFFFF000#32) + BitVec.ofNat 32 (4 * (va.toNat / 2 ^ 22)) → pde = s.viewWord dir →
    tbl = (pde &&& 0xFFFFF000#32) + BitVec.ofNat 32 (4 * (va.toNat / 2 ^ 12 % 2 ^ 10)) → pte = s.viewWord tbl →
    (s.mmioPending = none ∨ (dir ≠ 0x2000#32 ∧ tbl ≠ 0x2000#32)) →
    pde.getLsbD 0 = true → pte.getLsbD 0 = true →
    (match acc with
      | .fetch => pte.getLsbD 3
      | .load => pte.getLsbD 1
      | .store => pte.getLsbD 2) = true →
    (s.priv = .supervisor ∨ pte.getLsbD 4 = true) →
    (translate acc va s).val = .ok (BitVec.ofNat 32 (pte.toNat / 2 ^ 12 * 2 ^ 12 + va.toNat % 2 ^ 12)) ∧
    20 ≤ (translate acc va s).lat ∧ (translate acc va s).lat ≤ 400 ∧
    (∀ a, (translate acc va s).st.view a = s.view a)

/-! ### Traps -/

/-- R308, R311: a trap through a registered vector whose frame can be stored. The vector is read first; the frame is
translated at the privilege before the trap; exactly the frame's words change; the summed latencies are added to `cycles`
alone. That a saved pc stored at 0x2000 with the low byte 0x41 sets the exit latch and does not halt the machine is log
entry 11 (DEDUCED from R67, R75, R253 and R261). -/
def Obligations.TrapEntersHandler : Prop :=
  ∀ (n : Nat) (savedPc : Word) (s : State) (v : Timed Word) (t0 t1 : Timed (Except FaultRec Word)) (w0 w1 : Timed Unit)
    (pa0 pa1 : Word), n < 1024 → StoreSound s →
    v = physRead .vector (BitVec.ofNat 32 (4 * n)) .word s.squashBehindWb →
    t0 = translate .store (s.reg spReg - 8#32) v.st →
    t1 = translate .store (s.reg spReg - 8#32 + 4#32) t0.st →
    t0.val = .ok pa0 → t1.val = .ok pa1 → (s.reg spReg).toNat % 4 = 0 →
    w0 = physWrite pa0 .word (flagsWord s.priv) t1.st →
    w1 = physWrite pa1 .word savedPc w0.st →
    s.viewWord (BitVec.ofNat 32 (4 * n)) ≠ 0#32 →
    HandlerEntered s (trapEntry n savedPc s) (s.viewWord (BitVec.ofNat 32 (4 * n))) pa0 pa1 savedPc ∧
    (trapEntry n savedPc s).cycles = s.cycles + BitVec.ofNat 64 (v.lat + t0.lat + t1.lat + w0.lat + w1.lat) ∧
    (trapEntry n savedPc s).stats.memCycles = s.stats.memCycles ∧
    (trapEntry n savedPc s).stats.fetchCycles = s.stats.fetchCycles ∧
    (trapEntry n savedPc s).stats.retired = s.stats.retired

/-- R309: a trap through an entry equal to 0 halts with `Unhandled(N)` and no change to `r15`, `PRIV`, `pc` or the view;
only the vector read's latency remains. The clause on `fpc`, equal to `pc` in the emptied pipeline, is R23 as log entry 7
reads it (DEDUCED). -/
def Obligations.UnregisteredVectorHalts : Prop :=
  ∀ (n : Nat) (savedPc : Word) (s : State), n < 1024 → StoreSound s →
    s.viewWord (BitVec.ofNat 32 (4 * n)) = 0#32 →
    HaltedWith s (trapEntry n savedPc s) (.unhandled n) ∧
    (trapEntry n savedPc s).cycles =
      s.cycles + BitVec.ofNat 64 (physRead .vector (BitVec.ofNat 32 (4 * n)) .word s.squashBehindWb).lat

/-- R310: a trap whose frame cannot be translated for a store, or whose `r15` is misaligned, halts with a double fault that
names the first failure, having written nothing. The clause on `fpc`, equal to `pc` in the emptied pipeline, is R23 as log
entry 7 reads it (DEDUCED). -/
def Obligations.DoubleFaultHalts : Prop :=
  ∀ (n : Nat) (savedPc : Word) (s : State) (v : Timed Word) (t0 t1 : Timed (Except FaultRec Word)) (kind : FaultKind),
    n < 1024 → StoreSound s →
    v = physRead .vector (BitVec.ofNat 32 (4 * n)) .word s.squashBehindWb →
    t0 = translate .store (s.reg spReg - 8#32) v.st →
    t1 = translate .store (s.reg spReg - 8#32 + 4#32) t0.st →
    s.viewWord (BitVec.ofNat 32 (4 * n)) ≠ 0#32 →
    ((∃ f, t0.val = .error f ∧ kind = f.kind) ∨
      (∃ pa0 f, t0.val = .ok pa0 ∧ t1.val = .error f ∧ kind = f.kind) ∨
      (∃ pa0 pa1, t0.val = .ok pa0 ∧ t1.val = .ok pa1 ∧ (s.reg spReg).toNat % 4 ≠ 0 ∧ kind = .alignmentFault)) →
    HaltedWith s (trapEntry n savedPc s) (.doubleFault n kind) ∧
    (trapEntry n savedPc s).cycles = s.cycles + BitVec.ofNat 64 (v.lat + t0.lat + t1.lat)

/-- R34, R301, R306, R307: a fault taken is recorded with the instruction's address; under `FAULT_POLICY = Halt` the three
configurable faults halt at once; every other fault enters the trap of its vector, 1 to 5, with the instruction's own
address as the saved pc. The clause on `fpc` of the halted machine, equal to `pc` in the emptied pipeline, is R23 as log
entry 7 reads it (DEDUCED). -/
def Obligations.FaultPolicyDecides : Prop :=
  ∀ (kind : FaultKind) (ipc info : Word) (s s' : State), s' = { s with faultInfo := some ⟨kind, ipc, info⟩ } →
    (takeFault kind ipc info s).faultInfo = some ⟨kind, ipc, info⟩ ∧
    (s.params.faultPolicy = .halt → kind ∈ [.alignmentFault, .divideByZero, .illegalInstruction] →
      HaltedWith s (takeFault kind ipc info s) (.faultHalt kind ipc info) ∧
      (takeFault kind ipc info s).cycles = s.cycles ∧ (takeFault kind ipc info s).mem = s.mem) ∧
    (∀ n, (kind, n) ∈ [(FaultKind.pageFault, 1), (.permissionFault, 2), (.alignmentFault, 3), (.divideByZero, 4),
        (.illegalInstruction, 5)] →
      (s.params.faultPolicy = .vector ∨ n ≤ 2) → takeFault kind ipc info s = trapEntry n ipc s')

/-- R315: a RET at the handler's first instruction resumes what the trap interrupted, with paging off and the frame outside
the control register: `pc`, `PRIV` and every register are as the trap saved or found them, and only the frame's words have
changed. -/
def Obligations.TrapThenReturnResumes : Prop :=
  ∀ (n : Nat) (savedPc : Word) (s : State), n < 1024 → StoreSound s → s.ptbr = 0#32 →
    s.viewWord (BitVec.ofNat 32 (4 * n)) ≠ 0#32 → (s.reg spReg).toNat % 4 = 0 →
    isCtrl (s.reg spReg - 8#32) = false → isCtrl (s.reg spReg - 4#32) = false →
    Completes .ret (trapEntry n savedPc s) (fun t =>
      t.pc = savedPc ∧ t.fpc = savedPc ∧ t.priv = s.priv ∧ (∀ q, t.reg q = s.reg q) ∧
      (∀ a, ¬ Covers (s.reg spReg - 8#32) .word a → ¬ Covers (s.reg spReg - 4#32) .word a → t.view a = s.view a))

/-- R237, R238, R239: a RET at the first instruction of a subroutine resumes after its CALL, with paging off and the frame
outside the control register. -/
def Obligations.CallThenReturnResumes : Prop :=
  ∀ (offset : Int) (s : State), StoreSound s → s.ptbr = 0#32 → (s.reg spReg).toNat % 4 = 0 →
    isCtrl (s.reg spReg - 8#32) = false → isCtrl (s.reg spReg - 4#32) = false →
    Completes (.call offset) s (fun t => Completes .ret t (fun u =>
      u.pc = s.pc + 4#32 ∧ u.priv = s.priv ∧ (∀ q, u.reg q = s.reg q) ∧
      (∀ a, ¬ Covers (s.reg spReg - 8#32) .word a → ¬ Covers (s.reg spReg - 4#32) .word a → u.view a = s.view a)))

/-! ### Invariants and rules of the whole machine -/

/-- R109, R112: every step, instruction or tick, keeps memory canonical and the cache sound and coherent. -/
def Obligations.StepKeepsStoreSound : Prop :=
  ∀ s t : State, StoreSound s → step s = .next t → StoreSound t

/-- R276: every step keeps the pipeline's invariants: a pending bit is set exactly while one instruction in execute, memory
or writeback owns it, r0 is never pending, without the pipeline at most one slot is occupied, a halted machine is empty. -/
def Obligations.StepKeepsPipelineSound : Prop :=
  ∀ s t : State, s.PipelineSound → step s = .next t → t.PipelineSound

/-- R21: no step gives r0 another value than 0, in its cell or as it reads. -/
def Obligations.StepKeepsZeroRegister : Prop :=
  ∀ s t : State, s.ZeroRegister → step s = .next t → t.ZeroRegister ∧ t.reg 0 = 0#32

/-- R37, R341: the state after reset with any arguments is sound; the reset state of this model is the one with the default
arguments, its entry address 0x4000 and empty image being the model's choice (log entry 1). -/
def Obligations.ResetIsSound : Prop :=
  (∀ args : ResetArgs, (State.resetWith args).Sound ∧ (State.resetWith args).PcSound ∧
    (State.resetWith args).Between) ∧ State.reset = State.resetWith {}

/-- R37: the table of reset values, for any arguments of reset. -/
def Obligations.ResetValues : Prop :=
  ∀ (args : ResetArgs) (s : State), s = State.resetWith args →
    (∀ r, s.reg r = 0#32) ∧ s.pc = args.entry ∧ s.fpc = args.entry ∧ s.priv = args.privReset ∧ s.ptbr = args.ptbrReset ∧
    (∀ r : Reg, s.pending[r.val] = false) ∧ s.slots = {} ∧
    (∀ i w, ((s.cache.setAt i).way w).valid = false ∧ ((s.cache.setAt i).way w).dirty = false ∧
      ((s.cache.setAt i).way w).age.toNat = 3 - w.val ∧ ((s.cache.setAt i).way w).tag = 0#21 ∧
      ∀ o, ((s.cache.setAt i).way w).data.byte o = 0#8) ∧
    (∀ a : Word, (∀ chunk ∈ args.image, ∀ k, k < chunk.bytes.length → chunk.base + BitVec.ofNat 32 k ≠ a) →
      s.mem.read a.toNat = 0#8) ∧
    (∀ (before after : List ImageChunk) (chunk : ImageChunk) (k : Nat) (hk : k < chunk.bytes.length),
      args.image = before ++ chunk :: after → chunk.bytes.length ≤ 2 ^ 32 →
      (∀ later ∈ after, ∀ j, j < later.bytes.length → later.base + BitVec.ofNat 32 j ≠ chunk.base + BitVec.ofNat 32 k) →
      s.mem.read (chunk.base + BitVec.ofNat 32 k).toNat = chunk.bytes[k]) ∧
    s.exitRequested = false ∧ s.mmioPending = none ∧ s.prngState = args.prngSeed ∧ s.vgaEvents = [] ∧ s.halted = none ∧
    s.faultInfo = none ∧ s.cycles = 0#64 ∧ s.stats = {}

/-- R25, R318, R348: only RET lowers the privilege; every other instruction leaves it or raises it. -/
def Obligations.OnlyReturnLowersPrivilege : Prop :=
  ∀ (i : Instr) (s t : State), exec i s = .next t → s.priv = .supervisor → t.priv = .user → i = .ret

/-- R26, R31, R32, R33, R38: no step writes `PTBR` or the configuration; the exit latch and the halt are never cleared, the
event stream only grows, the retirement counter never falls. -/
def Obligations.StepKeepsConfigurationAndLatches : Prop :=
  ∀ s t : State, step s = .next t →
    t.ptbr = s.ptbr ∧ t.params = s.params ∧ t.reading = s.reading ∧ (s.exitRequested = true → t.exitRequested = true) ∧
    (∀ cause, s.halted = some cause → t.halted = some cause) ∧ (∃ e, t.vgaEvents = s.vgaEvents ++ e) ∧
    s.stats.retired ≤ t.stats.retired

/-- R23: `pc = fpc` when the pipeline is empty. Every step of either reading keeps that, with what R23 says of the fetch
pointer while an instruction is in flight and the pipeline is off; after an instruction of the instruction reading (the
model's own field, log entry 2) the two agree, halted or not. That a halt moves `fpc` and not `pc` is log entry 7
(DEDUCED). -/
def Obligations.ProgramCountersAgree : Prop :=
  (∀ s t : State, s.halted = none → s.reading = .instruction → step s = .next t → t.fpc = t.pc) ∧
    (∀ s t : State, s.PipelineSound → s.PcSound → step s = .next t → t.PcSound)

/-- R9, R268, R272: with the pipeline disabled the cycle-level machine and the sequential reading agree exactly: some number
of ticks leads from any state between two instructions to the state after the instruction, all counters included, and that
state is again one between two instructions, or the machine has halted. -/
def Obligations.TicksRefineInstruction : Prop :=
  ∀ s t : State, s.params.pipelineEnabled = false → s.halted = none → s.Between → instructionStep s = .next t →
    (∃ n, 1 ≤ n ∧ ticks n s = t) ∧ (t.halted = none → t.Between)

/-- R34, R36, R270: the statistics and the fault record are for the host alone: no step reads them, so changing them changes
nothing else. -/
def Obligations.HostOnlyStateIsInvisible : Prop :=
  ∀ (s t : State) (stats : Stats) (faultInfo : Option FaultInfo), step s = .next t →
    ∃ t', step { s with stats := stats, faultInfo := faultInfo } = .next t' ∧ t'.forgetHostOnly = t.forgetHostOnly

/-! ### The pipeline, tick by tick -/

/-- R256, R257, R259: with the pipeline on, an unfaulted, legal instruction in decode with execute free stalls exactly while
one of its sources or its destination is pending: the slot stays and `data_stall` grows; else it moves on with its operands
read and its destination marked, r0 never. A faulted instruction moves on unchanged, an illegal word as IllegalInstruction
with the word as information; nothing moves behind an occupied execute stage. The sources, the destination and the register
fields `(rs3, rs1, rs2)` of every instruction are those of the tables of R259 and R171. -/
def Obligations.DecodeInterlock : Prop :=
  (∀ rd ra rb : Reg, ∀ d ∈ [Instr.add rd ra rb, .sub rd ra rb, .xor rd ra rb, .or rd ra rb, .and rd ra rb, .shr rd ra rb,
      .shl rd ra rb, .mul rd ra rb, .div rd ra rb],
    sources d = [ra, rb] ∧ destination d = some rd ∧ regFields d = (rd, ra, rb)) ∧
  (∀ (rd ra : Reg) (imm : Int), ∀ d ∈ [Instr.addi rd ra imm, .subi rd ra imm, .xori rd ra imm, .ori rd ra imm,
      .andi rd ra imm, .ldb rd ra imm, .ldh rd ra imm, .ld rd ra imm],
    sources d = [ra] ∧ destination d = some rd ∧ regFields d = (rd, ra, 0)) ∧
  (∀ (rd : Reg) (imm : Int),
    sources (.lui rd imm) = [] ∧ destination (.lui rd imm) = some rd ∧ regFields (.lui rd imm) = (rd, 0, 0)) ∧
  (∀ (rv ra : Reg) (imm : Int), ∀ d ∈ [Instr.stb rv ra imm, .sth rv ra imm, .st rv ra imm],
    sources d = [ra, rv] ∧ destination d = none ∧ regFields d = (rv, ra, 0)) ∧
  (∀ (rc ra : Reg) (imm : Int), ∀ d ∈ [Instr.bne rc ra imm, .beq rc ra imm, .blt rc ra imm, .bgt rc ra imm],
    sources d = [rc, ra] ∧ destination d = none ∧ regFields d = (rc, ra, 0)) ∧
  (∀ offset : Int, ∀ d ∈ [Instr.jmpr offset, .nop, .int0],
    sources d = [] ∧ destination d = none ∧ regFields d = (0, 0, 0)) ∧
  (∀ offset : Int, ∀ d ∈ [Instr.call offset, .ret],
    sources d = [15] ∧ destination d = some 15 ∧ regFields d = (0, 0, 0)) ∧
  (∀ s : State, s.slots.ids = none ∨ s.slots.exs ≠ none → idStep s = s) ∧
  (∀ (s : State) (i : InFlight), s.slots.ids = some i → s.slots.exs = none →
    (i.fault.isSome = true → idStep s = { s with slots := { s.slots with exs := some i, ids := none } }) ∧
    (i.fault = none → (∀ d, decode i.word ≠ .instr d) → idStep s = { s with
      slots := { s.slots with exs := some { i with fault := some ⟨.illegalInstruction, i.word⟩ }, ids := none } })) ∧
  (∀ (s : State) (i : InFlight) (d : Instr), s.params.pipelineEnabled = true → s.slots.ids = some i → s.slots.exs = none →
    i.fault = none → decode i.word = .instr d →
    (((∃ r ∈ sources d, s.isPending r = true) ∨ (∃ r, destination d = some r ∧ s.isPending r = true)) →
      idStep s = (State.countDataStall { s with slots := { s.slots with ids := some { i with instr := some d } } })) ∧
    ((∀ r ∈ sources d, s.isPending r = false) → (∀ r, destination d = some r → s.isPending r = false) →
      ∃ j, (idStep s).slots.exs = some j ∧ (idStep s).slots.ids = none ∧ j.ipc = i.ipc ∧ j.instr = some d ∧
        j.a = s.reg (regFields d).2.1 ∧ j.b = s.reg (regFields d).2.2 ∧ j.c = s.reg (regFields d).1 ∧ j.sp = s.reg spReg ∧
        j.dest = destination d ∧ (j.marked = true ↔ ∃ r, destination d = some r ∧ r ≠ 0) ∧
        (∀ r : Reg, (idStep s).isPending r = (s.isPending r || (decide (destination d = some r) && decide (r ≠ 0)))) ∧
        (idStep s).stats = s.stats))

/-- R255, R263, R258: execute does the table's action, none for a faulted instruction, and hands over to a free memory
stage, else it holds; fetch issues at the fetch pointer when its slot is empty (with the pipeline off only from an idle
machine, R268), counts its latency, raises the fetch pointer by 4, serves its ticks and hands over to a free decode. A new
record's other fields are empty: log entry 5 says what the model holds there, log entry 4 the word of a failed fetch. -/
def Obligations.ExecuteAndFetchStages : Prop :=
  (∀ s : State, s.slots.exs = none ∨ s.slots.mems ≠ none → exStep s = s) ∧
  (∀ (s : State) (i : InFlight), s.slots.exs = some i → s.slots.mems = none →
    ∃ j, Executed i j ∧ exStep s = { s with slots := { s.slots with mems := some j, exs := none } }) ∧
  (∀ s : State, s.slots.ifs = none → s.params.pipelineEnabled = false → ifStep false s = s) ∧
  (∀ (s : State) (idle0 : Bool), s.slots.ifs = none → (s.params.pipelineEnabled = true ∨ idle0 = true) →
    1 ≤ (fetch s.fpc s).lat ∧ ∃ w fault,
      ((fetch s.fpc s).val = .ok w ∧ fault = none ∨ ∃ f, (fetch s.fpc s).val = .error f ∧ fault = some f) ∧
      ifStep idle0 s = ifStep idle0 { (fetch s.fpc s).st with
        stats := { s.stats with fetchCycles := s.stats.fetchCycles + (fetch s.fpc s).lat }
        fpc := s.fpc + 4#32
        slots := { s.slots with
          ifs := some { ipc := s.fpc, word := w, fault := fault, wait := (fetch s.fpc s).lat } } }) ∧
  (∀ (s : State) (idle0 : Bool) (i : InFlight), s.slots.ifs = some i →
    (1 < i.wait ∨ s.slots.ids ≠ none →
      ifStep idle0 s = { s with slots := { s.slots with ifs := some { i with wait := i.wait - 1 } } }) ∧
    (i.wait ≤ 1 → s.slots.ids = none →
      ifStep idle0 s = { s with slots := { s.slots with ids := some { i with wait := 0 }, ifs := none } }))

/-- R254, R261, R264: the memory stage makes an instruction's accesses in its first tick and takes their latency, counted in
`mem_cycles`; it serves that many ticks; in the last one an unfaulted instruction writes PRIV (RET) and redirects, or sets
`pc` to the next address, and goes to writeback; a faulted one changes neither. -/
def Obligations.MemoryStage : Prop :=
  (∀ s : State, s.slots.mems = none → memStep s = s) ∧
  (∀ (s : State) (i : InFlight), s.slots.mems = some i → i.issued = false →
    ∃ j u, MemIssued i s j u ∧ memStep s = memStep { u with slots := { s.slots with mems := some j } }) ∧
  (∀ (s : State) (i : InFlight), s.slots.mems = some i → i.issued = true → 1 < i.wait →
    memStep s = { s with slots := { s.slots with mems := some { i with wait := i.wait - 1 } } }) ∧
  (∀ (s : State) (i : InFlight), s.slots.mems = some i → i.issued = true → i.wait ≤ 1 →
    ∃ t : State, memStep s = { t with slots := { t.slots with wbs := some { i with wait := 0 }, mems := none } } ∧
      (i.fault.isSome = true → t = s) ∧
      (i.fault = none → i.taken = true → t = redirect i.target { s with priv := i.newpriv.getD s.priv }) ∧
      (i.fault = none → i.taken = false → t = { s with priv := i.newpriv.getD s.priv, pc := i.ipc + 4#32 }))

/-- R264, R265: a redirect sets both program counters, empties execute, decode and fetch, counts the instructions removed,
and leaves pending exactly the destinations of the instructions in memory and writeback. -/
def Obligations.RedirectSquashes : Prop :=
  ∀ (s : State) (target : Word), s.PipelineSound →
    (redirect target s).pc = target ∧ (redirect target s).fpc = target ∧
    (redirect target s).slots = { mems := s.slots.mems, wbs := s.slots.wbs } ∧
    (redirect target s).stats.controlSquash = s.stats.controlSquash +
      ((if s.slots.exs.isSome then 1 else 0) + (if s.slots.ids.isSome then 1 else 0) +
        (if s.slots.ifs.isSome then 1 else 0)) ∧
    (∀ r : Reg, (redirect target s).isPending r = (owns r s.slots.mems || owns r s.slots.wbs)) ∧
    (∀ q, (redirect target s).reg q = s.reg q) ∧ (redirect target s).priv = s.priv ∧
    (∀ a, (redirect target s).view a = s.view a)

/-- R253: an unfaulted instruction in writeback writes its result, clears the pending bit it set, retires, and leaves
writeback. Then a store that latched the exit command halts the machine with `HostExit`, every slot empty; an INT0 enters
trap 0 with `ipc + 4` as the saved pc; any other instruction does nothing more. The clause on `fpc` of the halted machine,
equal to `pc` in the emptied pipeline, is R23 as log entry 7 reads it (DEDUCED). -/
def Obligations.WritebackCommits : Prop :=
  (∀ s : State, s.slots.wbs = none → wbStep s = s) ∧
  ∀ (s : State) (i : InFlight), s.PipelineSound → s.slots.wbs = some i → i.fault = none →
    ∃ u, Committed i s u ∧
      (i.exit = true → wbStep s = u.halt .hostExit ∧ HaltedWith u (wbStep s) .hostExit ∧
        (wbStep s).stats = u.stats ∧ ∀ r : Reg, (wbStep s).isPending r = false) ∧
      (i.exit = false → i.instr = some .int0 → wbStep s = trapEntry 0 (i.ipc + 4#32) u) ∧
      (i.exit = false → i.instr ≠ some .int0 → wbStep s = u)

/-- R271, R306: faults are precise. In the tick that takes the fault of the instruction in writeback nothing retires, no
register but `r15` changes, every younger instruction is removed with its pending bit, and the fault is recorded. Either the
machine is halted and empty with `pc` as it was, or it is in supervisor mode at the handler that the fault's vector names,
and all that decode or fetch holds is the handler's first instruction. -/
def Obligations.FaultsArePrecise : Prop :=
  ∀ (s : State) (i : InFlight) (f : FaultRec), s.PipelineSound → s.halted = none → s.slots.wbs = some i →
    i.fault = some f →
    (∀ q, q ≠ spReg → (tick s).reg q = s.reg q) ∧ (tick s).stats.retired = s.stats.retired ∧
    (tick s).slots.exs = none ∧ (tick s).slots.mems = none ∧ (tick s).slots.wbs = none ∧
    (∀ r : Reg, (tick s).isPending r = false) ∧ (tick s).faultInfo = some ⟨f.kind, i.ipc, f.info⟩ ∧
    ((tick s).halted.isSome = true → (tick s).slots = {} ∧ (tick s).pc = s.pc ∧ (tick s).reg spReg = s.reg spReg) ∧
    ((tick s).halted = none → (tick s).priv = .supervisor ∧
      (∀ j : InFlight, (tick s).slots.ids = some j ∨ (tick s).slots.ifs = some j → j.ipc = (tick s).pc) ∧
      (∀ n, (f.kind, n) ∈ [(FaultKind.pageFault, 1), (.permissionFault, 2), (.alignmentFault, 3), (.divideByZero, 4),
          (.illegalInstruction, 5)] → StoreSound s → (tick s).pc = s.viewWord (BitVec.ofNat 32 (4 * n))))

end
end

