-- ==== Sys2Proof/Laws/Memory.lean ====
section
/-! SUPPORT. What reading memory gives after a write, and that every memory operation keeps the canonical form. -/

namespace Sys2Proof.Machine

/-! ### One byte -/

theorem Memory.read_nil (a : Nat) : Memory.read [] a = unlistedByte := rfl

/-- The canonical form may start lower. -/
theorem Memory.wfFrom_mono {lo lo' : Nat} (h : lo' ≤ lo) {m : Memory} (hm : Memory.wfFrom lo m = true) :
    Memory.wfFrom lo' m = true := by
  cases m with
  | nil => rfl
  | cons c rest =>
    obtain ⟨k, b⟩ := c
    simp only [Memory.wfFrom, Bool.and_eq_true, decide_eq_true_eq] at hm ⊢
    exact ⟨⟨⟨h.trans hm.1.1.1, hm.1.1.2⟩, hm.1.2⟩, hm.2⟩

/-- Below its lowest listed address a memory reads as unlisted. -/
theorem Memory.read_below {lo a : Nat} {m : Memory} (hm : Memory.wfFrom lo m = true) (h : a < lo) :
    m.read a = unlistedByte := by
  induction m generalizing lo with
  | nil => rfl
  | cons c rest ih =>
    obtain ⟨k, b⟩ := c
    simp only [Memory.wfFrom, Bool.and_eq_true, decide_eq_true_eq] at hm
    have hk : a ≠ k := by omega
    simp only [Memory.read, hk, if_false]
    exact ih hm.2 (by omega)

/-- A write leaves every other byte as it was. -/
theorem Memory.read_write_ne (m : Memory) {a a' : Nat} (b : Byte) (h : a' ≠ a) : (m.write a b).read a' = m.read a' := by
  induction m with
  | nil => unfold Memory.write; split <;> simp [Memory.read, h]
  | cons c rest ih =>
    obtain ⟨k, d⟩ := c
    unfold Memory.write
    split
    · split <;> simp [Memory.read, h]
    · split
      · rename_i hk; subst hk
        split <;> simp [Memory.read, h]
      · simp [Memory.read, ih]

/-- A byte written is the byte read. -/
theorem Memory.read_write_self {lo : Nat} {m : Memory} (hm : Memory.wfFrom lo m = true) (a : Nat) (b : Byte) :
    (m.write a b).read a = b := by
  induction m generalizing lo with
  | nil => unfold Memory.write; split <;> simp_all [Memory.read]
  | cons c rest ih =>
    obtain ⟨k, d⟩ := c
    have hm' := hm
    simp only [Memory.wfFrom, Bool.and_eq_true, decide_eq_true_eq] at hm'
    unfold Memory.write
    split
    · rename_i hlt
      split
      · rename_i hb
        have hk : a ≠ k := by omega
        simp only [Memory.read, hk, if_false]
        rw [Memory.read_below hm'.2 (by omega), hb]
      · simp [Memory.read]
    · split
      · rename_i hk; subst hk
        split
        · rename_i hb; rw [Memory.read_below hm'.2 (Nat.lt_succ_self _), hb]
        · simp [Memory.read]
      · rename_i hk
        simp only [Memory.read, hk, if_false]
        exact ih hm'.2

/-- What a write does to every byte. -/
theorem Memory.read_write {m : Memory} (hm : m.wf = true) (a : Nat) (b : Byte) (a' : Nat) :
    (m.write a b).read a' = if a' = a then b else m.read a' := by
  by_cases h : a' = a
  · subst h; simp [Memory.read_write_self hm]
  · simp [h, Memory.read_write_ne m b h]

theorem Memory.write_wfFrom {lo : Nat} {m : Memory} (hm : Memory.wfFrom lo m = true) {a : Nat} (b : Byte)
    (hlo : lo ≤ a) (ha : a < 2 ^ 32) : Memory.wfFrom lo (m.write a b) = true := by
  induction m generalizing lo with
  | nil =>
    unfold Memory.write
    split
    · rfl
    · simp_all [Memory.wfFrom]
  | cons c rest ih =>
    obtain ⟨k, d⟩ := c
    have hm' := hm
    simp only [Memory.wfFrom, Bool.and_eq_true, decide_eq_true_eq] at hm'
    unfold Memory.write
    split
    · rename_i hlt
      split
      · exact hm
      · rename_i hb
        simp only [Memory.wfFrom, Bool.and_eq_true, decide_eq_true_eq, bne_iff_ne, ne_eq]
        exact ⟨⟨⟨hlo, ha⟩, hb⟩, ⟨⟨hlt, hm'.1.1.2⟩, by simpa using hm'.1.2⟩, hm'.2⟩
    · split
      · rename_i hk; subst hk
        split
        · exact Memory.wfFrom_mono (by omega) hm'.2
        · rename_i hb
          simp only [Memory.wfFrom, Bool.and_eq_true, decide_eq_true_eq, bne_iff_ne, ne_eq]
          exact ⟨⟨⟨hlo, ha⟩, hb⟩, hm'.2⟩
      · rename_i hlt hk
        simp only [Memory.wfFrom, Bool.and_eq_true, decide_eq_true_eq]
        exact ⟨hm'.1, ih hm'.2 (by omega)⟩

/-- A write of one byte keeps the canonical form. -/
theorem Memory.write_wf {m : Memory} (hm : m.wf = true) {a : Nat} (ha : a < 2 ^ 32) (b : Byte) :
    (m.write a b).wf = true :=
  Memory.write_wfFrom hm b (Nat.zero_le a) ha

/-! ### Values, lists, images -/

theorem Memory.writeBytes_wf {m : Memory} (hm : m.wf = true) (pa v : Word) (k : Nat) :
    (m.writeBytes pa v k).wf = true := by
  induction k with
  | zero => exact hm
  | succ k ih => exact Memory.write_wf ih (BitVec.isLt _) _

/-- A store of a value keeps the canonical form. -/
theorem Memory.writeValue_wf {m : Memory} (hm : m.wf = true) (pa : Word) (n : Width) (v : Word) :
    (m.writeValue pa n v).wf = true :=
  Memory.writeBytes_wf hm pa v _

theorem Memory.writeList_wf {m : Memory} (hm : m.wf = true) (pa : Word) (bs : List Byte) :
    (m.writeList pa bs).wf = true := by
  induction bs generalizing m pa with
  | nil => exact hm
  | cons b rest ih => exact ih (Memory.write_wf hm (BitVec.isLt _) _) _

/-- Loading an image keeps the canonical form. -/
theorem Memory.load_wf {m : Memory} (hm : m.wf = true) (image : List ImageChunk) : (m.load image).wf = true := by
  induction image generalizing m with
  | nil => exact hm
  | cons c rest ih => exact ih (Memory.writeList_wf hm _ _)

theorem Memory.writeBytes_read_ne (m : Memory) (pa v : Word) (k : Nat) {a : Nat}
    (h : ∀ i, i < k → a ≠ (pa + BitVec.ofNat 32 i).toNat) : (m.writeBytes pa v k).read a = m.read a := by
  induction k with
  | zero => rfl
  | succ k ih =>
    rw [Memory.writeBytes, Memory.read_write_ne _ _ (h k (Nat.lt_succ_self k))]
    exact ih fun i hi => h i (Nat.lt_succ_of_lt hi)

/-- The bytes that a store writes are the value's, little-endian. -/
theorem Memory.writeBytes_read {m : Memory} (hm : m.wf = true) (pa v : Word) {k i : Nat} (hi : i < k) (hk : k ≤ 2 ^ 32) :
    (m.writeBytes pa v k).read (pa + BitVec.ofNat 32 i).toNat = byteOf v i := by
  induction k with
  | zero => omega
  | succ k ih =>
    rw [Memory.writeBytes]
    by_cases hik : i = k
    · subst hik; exact Memory.read_write_self (Memory.writeBytes_wf hm pa v i) _ _
    · have hne : (pa + BitVec.ofNat 32 i).toNat ≠ (pa + BitVec.ofNat 32 k).toNat := by
        intro heq
        have h1 : pa + BitVec.ofNat 32 i = pa + BitVec.ofNat 32 k := BitVec.eq_of_toNat_eq heq
        have h2 : BitVec.ofNat 32 i = BitVec.ofNat 32 k := by simpa using h1
        have h3 := congrArg BitVec.toNat h2
        simp only [BitVec.toNat_ofNat] at h3
        rw [Nat.mod_eq_of_lt (by omega), Nat.mod_eq_of_lt (by omega)] at h3
        exact hik h3
      rw [Memory.read_write_ne _ _ hne]
      exact ih (by omega) (by omega)

theorem widthBytes_le (n : Width) : widthBytes n ≤ 4 := by cases n <;> decide

/-- A store leaves every byte outside it as it was. -/
theorem Memory.writeValue_read_ne (m : Memory) (pa : Word) (n : Width) (v : Word) {a : Nat}
    (h : ∀ i, i < widthBytes n → a ≠ (pa + BitVec.ofNat 32 i).toNat) : (m.writeValue pa n v).read a = m.read a :=
  Memory.writeBytes_read_ne m pa v _ h

/-- A store puts byte `i` of the value at the address `i` above its own. -/
theorem Memory.writeValue_read {m : Memory} (hm : m.wf = true) (pa : Word) {n : Width} (v : Word) {i : Nat}
    (hi : i < widthBytes n) : (m.writeValue pa n v).read (pa + BitVec.ofNat 32 i).toNat = byteOf v i :=
  Memory.writeBytes_read hm pa v hi ((widthBytes_le n).trans (by decide))

/-! ### Blocks -/

/-- Byte `o` of a block read is the byte of memory at its address (rule R75). -/
theorem Memory.readBlock_byte (m : Memory) (tag : BitVec 21) (i : BitVec 5) (o : BitVec 6) :
    (m.readBlock tag i).byte o = m.read (blockByteAddress tag i o).toNat := by
  simp [Memory.readBlock, Block.byte]

theorem Block.setByte_byte (d : Block) (o : BitVec 6) (b : Byte) (o' : BitVec 6) :
    (d.setByte o b).byte o' = if o' = o then b else d.byte o' := by
  unfold Block.setByte Block.byte
  by_cases h : o' = o
  · subst h; simp
  · have : o.toNat ≠ o'.toNat := fun hh => h (BitVec.eq_of_toNat_eq hh.symm)
    rw [Vector.getElem_set_ne _ _ this]; simp [h]

/-- The bits of a byte's address in a block (rule R101). -/
theorem blockByteAddress_getLsbD (tag : BitVec 21) (i : BitVec 5) (o : BitVec 6) (k : Nat) :
    (blockByteAddress tag i o).getLsbD k =
      if k < 6 then o.getLsbD k else if k - 6 < 5 then i.getLsbD (k - 6) else tag.getLsbD (k - 6 - 5) := by
  change BitVec.getLsbD (w := 21 + 5 + 6) (tag ++ i ++ o) k = _
  rw [BitVec.getLsbD_append, BitVec.getLsbD_append]

/-- The tag of a byte of a block is the block's. -/
@[simp] theorem cacheTag_blockByteAddress (tag : BitVec 21) (i : BitVec 5) (o : BitVec 6) :
    cacheTag (blockByteAddress tag i o) = tag := by
  apply BitVec.eq_of_getLsbD_eq
  intro k hk
  simp only [cacheTag, BitVec.getLsbD_extractLsb', blockByteAddress_getLsbD, hk, decide_true, Bool.true_and]
  rw [if_neg (by omega), if_neg (by omega), show 11 + k - 6 - 5 = k by omega]

/-- The index of a byte of a block is the block's. -/
@[simp] theorem cacheIndex_blockByteAddress (tag : BitVec 21) (i : BitVec 5) (o : BitVec 6) :
    cacheIndex (blockByteAddress tag i o) = i := by
  apply BitVec.eq_of_getLsbD_eq
  intro k hk
  simp only [cacheIndex, BitVec.getLsbD_extractLsb', blockByteAddress_getLsbD, hk, decide_true, Bool.true_and]
  rw [if_neg (by omega), if_pos (by omega), show 6 + k - 6 = k by omega]

/-- The offset of a byte of a block. -/
@[simp] theorem blockOffset_blockByteAddress (tag : BitVec 21) (i : BitVec 5) (o : BitVec 6) :
    blockOffset (blockByteAddress tag i o) = o := by
  apply BitVec.eq_of_getLsbD_eq
  intro k hk
  simp only [blockOffset, BitVec.getLsbD_extractLsb', blockByteAddress_getLsbD, hk, decide_true, Bool.true_and]
  rw [if_pos (by omega), Nat.zero_add]

/-- An address is the byte of its own block at its own offset (rule R101). -/
theorem blockByteAddress_self (pa : Word) : blockByteAddress (cacheTag pa) (cacheIndex pa) (blockOffset pa) = pa := by
  apply BitVec.eq_of_getLsbD_eq
  intro k hk
  simp only [blockByteAddress_getLsbD, cacheTag, cacheIndex, blockOffset, BitVec.getLsbD_extractLsb']
  split
  · simp_all
  · split
    · rw [show 6 + (k - 6) = k by omega]; simp_all
    · rw [show 11 + (k - 6 - 5) = k by omega]
      have : k - 6 - 5 < 21 := by omega
      simp [this]

/-- Two addresses of one block at one offset are one address. -/
theorem eq_of_block_eq {pa qa : Word} (ht : cacheTag pa = cacheTag qa) (hi : cacheIndex pa = cacheIndex qa)
    (ho : blockOffset pa = blockOffset qa) : pa = qa := by
  rw [← blockByteAddress_self pa, ht, hi, ho, blockByteAddress_self]

theorem Memory.writeBlockBytes_wf {m : Memory} (hm : m.wf = true) (tag : BitVec 21) (i : BitVec 5) (d : Block) (k : Nat) :
    (m.writeBlockBytes tag i d k).wf = true := by
  induction k with
  | zero => exact hm
  | succ k ih => exact Memory.write_wf ih (BitVec.isLt _) _

/-- A block's write-back keeps the canonical form. -/
theorem Memory.writeBlock_wf {m : Memory} (hm : m.wf = true) (tag : BitVec 21) (i : BitVec 5) (d : Block) :
    (m.writeBlock tag i d).wf = true :=
  Memory.writeBlockBytes_wf hm tag i d 64

theorem Memory.writeBlockBytes_read {m : Memory} (hm : m.wf = true) (tag : BitVec 21) (i : BitVec 5) (d : Block)
    (k : Nat) (hk : k ≤ 64) (pa : Word) :
    (m.writeBlockBytes tag i d k).read pa.toNat =
      if cacheTag pa = tag ∧ cacheIndex pa = i ∧ (blockOffset pa).toNat < k then d.byte (blockOffset pa)
      else m.read pa.toNat := by
  induction k with
  | zero => simp [Memory.writeBlockBytes]
  | succ k ih =>
    rw [Memory.writeBlockBytes, Memory.read_write (Memory.writeBlockBytes_wf hm tag i d k), ih (by omega)]
    by_cases hp : pa = blockByteAddress tag i (BitVec.ofNat 6 k)
    · subst hp
      simp [Nat.mod_eq_of_lt (show k < 64 by omega)]
    · have hp' : pa.toNat ≠ (blockByteAddress tag i (BitVec.ofNat 6 k)).toNat := fun h => hp (BitVec.eq_of_toNat_eq h)
      simp only [hp', if_false]
      by_cases ht : cacheTag pa = tag ∧ cacheIndex pa = i
      · have hne : (blockOffset pa).toNat ≠ k := by
          intro h
          apply hp
          rw [← blockByteAddress_self pa, ht.1, ht.2, ← h]
          simp
        have : (blockOffset pa).toNat < k + 1 ↔ (blockOffset pa).toNat < k := by omega
        simp [ht, this]
      · have h1 : ∀ x : Prop, ¬ (cacheTag pa = tag ∧ cacheIndex pa = i ∧ x) := fun x h => ht ⟨h.1, h.2.1⟩
        rw [if_neg (h1 _), if_neg (h1 _)]

/-- A block's write-back puts the block's bytes at its addresses and leaves every other byte as it was (rule R75). -/
theorem Memory.writeBlock_read {m : Memory} (hm : m.wf = true) (tag : BitVec 21) (i : BitVec 5) (d : Block) (pa : Word) :
    (m.writeBlock tag i d).read pa.toNat =
      if cacheTag pa = tag ∧ cacheIndex pa = i then d.byte (blockOffset pa) else m.read pa.toNat := by
  have h : (blockOffset pa).toNat < 64 := (blockOffset pa).isLt
  simp [Memory.writeBlock, Memory.writeBlockBytes_read hm tag i d 64 (le_refl _) pa, h]

end Sys2Proof.Machine
end

