-- ==== Sys2Proof/Laws/State.lean ====
section
/-! SUPPORT. What each update of the state leaves in each field: one lemma per field per update. -/

namespace Sys2Proof.Machine

variable (s : State)

/-! ### setReg -/

@[simp] theorem State.setReg_params (r : Reg) (v : Word) : (s.setReg r v).params = s.params := rfl
@[simp] theorem State.setReg_reading (r : Reg) (v : Word) : (s.setReg r v).reading = s.reading := rfl
@[simp] theorem State.setReg_x (r : Reg) (v : Word) : (s.setReg r v).x = if r = 0 then s.x else s.x.set r.val v := rfl
@[simp] theorem State.setReg_pc (r : Reg) (v : Word) : (s.setReg r v).pc = s.pc := rfl
@[simp] theorem State.setReg_fpc (r : Reg) (v : Word) : (s.setReg r v).fpc = s.fpc := rfl
@[simp] theorem State.setReg_priv (r : Reg) (v : Word) : (s.setReg r v).priv = s.priv := rfl
@[simp] theorem State.setReg_ptbr (r : Reg) (v : Word) : (s.setReg r v).ptbr = s.ptbr := rfl
@[simp] theorem State.setReg_pending (r : Reg) (v : Word) : (s.setReg r v).pending = s.pending := rfl
@[simp] theorem State.setReg_slots (r : Reg) (v : Word) : (s.setReg r v).slots = s.slots := rfl
@[simp] theorem State.setReg_cache (r : Reg) (v : Word) : (s.setReg r v).cache = s.cache := rfl
@[simp] theorem State.setReg_mem (r : Reg) (v : Word) : (s.setReg r v).mem = s.mem := rfl
@[simp] theorem State.setReg_exitRequested (r : Reg) (v : Word) : (s.setReg r v).exitRequested = s.exitRequested := rfl
@[simp] theorem State.setReg_mmioPending (r : Reg) (v : Word) : (s.setReg r v).mmioPending = s.mmioPending := rfl
@[simp] theorem State.setReg_prngState (r : Reg) (v : Word) : (s.setReg r v).prngState = s.prngState := rfl
@[simp] theorem State.setReg_vgaEvents (r : Reg) (v : Word) : (s.setReg r v).vgaEvents = s.vgaEvents := rfl
@[simp] theorem State.setReg_halted (r : Reg) (v : Word) : (s.setReg r v).halted = s.halted := rfl
@[simp] theorem State.setReg_faultInfo (r : Reg) (v : Word) : (s.setReg r v).faultInfo = s.faultInfo := rfl
@[simp] theorem State.setReg_cycles (r : Reg) (v : Word) : (s.setReg r v).cycles = s.cycles := rfl
@[simp] theorem State.setReg_stats (r : Reg) (v : Word) : (s.setReg r v).stats = s.stats := rfl

/-! ### addCycles -/

@[simp] theorem State.addCycles_params (n : Nat) : (s.addCycles n).params = s.params := rfl
@[simp] theorem State.addCycles_reading (n : Nat) : (s.addCycles n).reading = s.reading := rfl
@[simp] theorem State.addCycles_x (n : Nat) : (s.addCycles n).x = s.x := rfl
@[simp] theorem State.addCycles_pc (n : Nat) : (s.addCycles n).pc = s.pc := rfl
@[simp] theorem State.addCycles_fpc (n : Nat) : (s.addCycles n).fpc = s.fpc := rfl
@[simp] theorem State.addCycles_priv (n : Nat) : (s.addCycles n).priv = s.priv := rfl
@[simp] theorem State.addCycles_ptbr (n : Nat) : (s.addCycles n).ptbr = s.ptbr := rfl
@[simp] theorem State.addCycles_pending (n : Nat) : (s.addCycles n).pending = s.pending := rfl
@[simp] theorem State.addCycles_slots (n : Nat) : (s.addCycles n).slots = s.slots := rfl
@[simp] theorem State.addCycles_cache (n : Nat) : (s.addCycles n).cache = s.cache := rfl
@[simp] theorem State.addCycles_mem (n : Nat) : (s.addCycles n).mem = s.mem := rfl
@[simp] theorem State.addCycles_exitRequested (n : Nat) : (s.addCycles n).exitRequested = s.exitRequested := rfl
@[simp] theorem State.addCycles_mmioPending (n : Nat) : (s.addCycles n).mmioPending = s.mmioPending := rfl
@[simp] theorem State.addCycles_prngState (n : Nat) : (s.addCycles n).prngState = s.prngState := rfl
@[simp] theorem State.addCycles_vgaEvents (n : Nat) : (s.addCycles n).vgaEvents = s.vgaEvents := rfl
@[simp] theorem State.addCycles_halted (n : Nat) : (s.addCycles n).halted = s.halted := rfl
@[simp] theorem State.addCycles_faultInfo (n : Nat) : (s.addCycles n).faultInfo = s.faultInfo := rfl
@[simp] theorem State.addCycles_cycles (n : Nat) : (s.addCycles n).cycles = s.cycles + BitVec.ofNat 64 n := rfl
@[simp] theorem State.addCycles_stats (n : Nat) : (s.addCycles n).stats = s.stats := rfl

/-! ### countRetired -/

@[simp] theorem State.countRetired_params : (s.countRetired).params = s.params := rfl
@[simp] theorem State.countRetired_reading : (s.countRetired).reading = s.reading := rfl
@[simp] theorem State.countRetired_x : (s.countRetired).x = s.x := rfl
@[simp] theorem State.countRetired_pc : (s.countRetired).pc = s.pc := rfl
@[simp] theorem State.countRetired_fpc : (s.countRetired).fpc = s.fpc := rfl
@[simp] theorem State.countRetired_priv : (s.countRetired).priv = s.priv := rfl
@[simp] theorem State.countRetired_ptbr : (s.countRetired).ptbr = s.ptbr := rfl
@[simp] theorem State.countRetired_pending : (s.countRetired).pending = s.pending := rfl
@[simp] theorem State.countRetired_slots : (s.countRetired).slots = s.slots := rfl
@[simp] theorem State.countRetired_cache : (s.countRetired).cache = s.cache := rfl
@[simp] theorem State.countRetired_mem : (s.countRetired).mem = s.mem := rfl
@[simp] theorem State.countRetired_exitRequested : (s.countRetired).exitRequested = s.exitRequested := rfl
@[simp] theorem State.countRetired_mmioPending : (s.countRetired).mmioPending = s.mmioPending := rfl
@[simp] theorem State.countRetired_prngState : (s.countRetired).prngState = s.prngState := rfl
@[simp] theorem State.countRetired_vgaEvents : (s.countRetired).vgaEvents = s.vgaEvents := rfl
@[simp] theorem State.countRetired_halted : (s.countRetired).halted = s.halted := rfl
@[simp] theorem State.countRetired_faultInfo : (s.countRetired).faultInfo = s.faultInfo := rfl
@[simp] theorem State.countRetired_cycles : (s.countRetired).cycles = s.cycles := rfl
@[simp] theorem State.countRetired_stats : (s.countRetired).stats = { s.stats with retired := s.stats.retired + 1 } := rfl

/-! ### countDataStall -/

@[simp] theorem State.countDataStall_params : (s.countDataStall).params = s.params := rfl
@[simp] theorem State.countDataStall_reading : (s.countDataStall).reading = s.reading := rfl
@[simp] theorem State.countDataStall_x : (s.countDataStall).x = s.x := rfl
@[simp] theorem State.countDataStall_pc : (s.countDataStall).pc = s.pc := rfl
@[simp] theorem State.countDataStall_fpc : (s.countDataStall).fpc = s.fpc := rfl
@[simp] theorem State.countDataStall_priv : (s.countDataStall).priv = s.priv := rfl
@[simp] theorem State.countDataStall_ptbr : (s.countDataStall).ptbr = s.ptbr := rfl
@[simp] theorem State.countDataStall_pending : (s.countDataStall).pending = s.pending := rfl
@[simp] theorem State.countDataStall_slots : (s.countDataStall).slots = s.slots := rfl
@[simp] theorem State.countDataStall_cache : (s.countDataStall).cache = s.cache := rfl
@[simp] theorem State.countDataStall_mem : (s.countDataStall).mem = s.mem := rfl
@[simp] theorem State.countDataStall_exitRequested : (s.countDataStall).exitRequested = s.exitRequested := rfl
@[simp] theorem State.countDataStall_mmioPending : (s.countDataStall).mmioPending = s.mmioPending := rfl
@[simp] theorem State.countDataStall_prngState : (s.countDataStall).prngState = s.prngState := rfl
@[simp] theorem State.countDataStall_vgaEvents : (s.countDataStall).vgaEvents = s.vgaEvents := rfl
@[simp] theorem State.countDataStall_halted : (s.countDataStall).halted = s.halted := rfl
@[simp] theorem State.countDataStall_faultInfo : (s.countDataStall).faultInfo = s.faultInfo := rfl
@[simp] theorem State.countDataStall_cycles : (s.countDataStall).cycles = s.cycles := rfl
@[simp] theorem State.countDataStall_stats : (s.countDataStall).stats = { s.stats with dataStall := s.stats.dataStall + 1 } := rfl

/-! ### countSquashed -/

@[simp] theorem State.countSquashed_params (n : Nat) : (s.countSquashed n).params = s.params := rfl
@[simp] theorem State.countSquashed_reading (n : Nat) : (s.countSquashed n).reading = s.reading := rfl
@[simp] theorem State.countSquashed_x (n : Nat) : (s.countSquashed n).x = s.x := rfl
@[simp] theorem State.countSquashed_pc (n : Nat) : (s.countSquashed n).pc = s.pc := rfl
@[simp] theorem State.countSquashed_fpc (n : Nat) : (s.countSquashed n).fpc = s.fpc := rfl
@[simp] theorem State.countSquashed_priv (n : Nat) : (s.countSquashed n).priv = s.priv := rfl
@[simp] theorem State.countSquashed_ptbr (n : Nat) : (s.countSquashed n).ptbr = s.ptbr := rfl
@[simp] theorem State.countSquashed_pending (n : Nat) : (s.countSquashed n).pending = s.pending := rfl
@[simp] theorem State.countSquashed_slots (n : Nat) : (s.countSquashed n).slots = s.slots := rfl
@[simp] theorem State.countSquashed_cache (n : Nat) : (s.countSquashed n).cache = s.cache := rfl
@[simp] theorem State.countSquashed_mem (n : Nat) : (s.countSquashed n).mem = s.mem := rfl
@[simp] theorem State.countSquashed_exitRequested (n : Nat) : (s.countSquashed n).exitRequested = s.exitRequested := rfl
@[simp] theorem State.countSquashed_mmioPending (n : Nat) : (s.countSquashed n).mmioPending = s.mmioPending := rfl
@[simp] theorem State.countSquashed_prngState (n : Nat) : (s.countSquashed n).prngState = s.prngState := rfl
@[simp] theorem State.countSquashed_vgaEvents (n : Nat) : (s.countSquashed n).vgaEvents = s.vgaEvents := rfl
@[simp] theorem State.countSquashed_halted (n : Nat) : (s.countSquashed n).halted = s.halted := rfl
@[simp] theorem State.countSquashed_faultInfo (n : Nat) : (s.countSquashed n).faultInfo = s.faultInfo := rfl
@[simp] theorem State.countSquashed_cycles (n : Nat) : (s.countSquashed n).cycles = s.cycles := rfl
@[simp] theorem State.countSquashed_stats (n : Nat) : (s.countSquashed n).stats = { s.stats with controlSquash := s.stats.controlSquash + n } := rfl

/-! ### countMemCycles -/

@[simp] theorem State.countMemCycles_params (n : Nat) : (s.countMemCycles n).params = s.params := rfl
@[simp] theorem State.countMemCycles_reading (n : Nat) : (s.countMemCycles n).reading = s.reading := rfl
@[simp] theorem State.countMemCycles_x (n : Nat) : (s.countMemCycles n).x = s.x := rfl
@[simp] theorem State.countMemCycles_pc (n : Nat) : (s.countMemCycles n).pc = s.pc := rfl
@[simp] theorem State.countMemCycles_fpc (n : Nat) : (s.countMemCycles n).fpc = s.fpc := rfl
@[simp] theorem State.countMemCycles_priv (n : Nat) : (s.countMemCycles n).priv = s.priv := rfl
@[simp] theorem State.countMemCycles_ptbr (n : Nat) : (s.countMemCycles n).ptbr = s.ptbr := rfl
@[simp] theorem State.countMemCycles_pending (n : Nat) : (s.countMemCycles n).pending = s.pending := rfl
@[simp] theorem State.countMemCycles_slots (n : Nat) : (s.countMemCycles n).slots = s.slots := rfl
@[simp] theorem State.countMemCycles_cache (n : Nat) : (s.countMemCycles n).cache = s.cache := rfl
@[simp] theorem State.countMemCycles_mem (n : Nat) : (s.countMemCycles n).mem = s.mem := rfl
@[simp] theorem State.countMemCycles_exitRequested (n : Nat) : (s.countMemCycles n).exitRequested = s.exitRequested := rfl
@[simp] theorem State.countMemCycles_mmioPending (n : Nat) : (s.countMemCycles n).mmioPending = s.mmioPending := rfl
@[simp] theorem State.countMemCycles_prngState (n : Nat) : (s.countMemCycles n).prngState = s.prngState := rfl
@[simp] theorem State.countMemCycles_vgaEvents (n : Nat) : (s.countMemCycles n).vgaEvents = s.vgaEvents := rfl
@[simp] theorem State.countMemCycles_halted (n : Nat) : (s.countMemCycles n).halted = s.halted := rfl
@[simp] theorem State.countMemCycles_faultInfo (n : Nat) : (s.countMemCycles n).faultInfo = s.faultInfo := rfl
@[simp] theorem State.countMemCycles_cycles (n : Nat) : (s.countMemCycles n).cycles = s.cycles := rfl
@[simp] theorem State.countMemCycles_stats (n : Nat) : (s.countMemCycles n).stats = { s.stats with memCycles := s.stats.memCycles + n } := rfl

/-! ### countFetchCycles -/

@[simp] theorem State.countFetchCycles_params (n : Nat) : (s.countFetchCycles n).params = s.params := rfl
@[simp] theorem State.countFetchCycles_reading (n : Nat) : (s.countFetchCycles n).reading = s.reading := rfl
@[simp] theorem State.countFetchCycles_x (n : Nat) : (s.countFetchCycles n).x = s.x := rfl
@[simp] theorem State.countFetchCycles_pc (n : Nat) : (s.countFetchCycles n).pc = s.pc := rfl
@[simp] theorem State.countFetchCycles_fpc (n : Nat) : (s.countFetchCycles n).fpc = s.fpc := rfl
@[simp] theorem State.countFetchCycles_priv (n : Nat) : (s.countFetchCycles n).priv = s.priv := rfl
@[simp] theorem State.countFetchCycles_ptbr (n : Nat) : (s.countFetchCycles n).ptbr = s.ptbr := rfl
@[simp] theorem State.countFetchCycles_pending (n : Nat) : (s.countFetchCycles n).pending = s.pending := rfl
@[simp] theorem State.countFetchCycles_slots (n : Nat) : (s.countFetchCycles n).slots = s.slots := rfl
@[simp] theorem State.countFetchCycles_cache (n : Nat) : (s.countFetchCycles n).cache = s.cache := rfl
@[simp] theorem State.countFetchCycles_mem (n : Nat) : (s.countFetchCycles n).mem = s.mem := rfl
@[simp] theorem State.countFetchCycles_exitRequested (n : Nat) : (s.countFetchCycles n).exitRequested = s.exitRequested := rfl
@[simp] theorem State.countFetchCycles_mmioPending (n : Nat) : (s.countFetchCycles n).mmioPending = s.mmioPending := rfl
@[simp] theorem State.countFetchCycles_prngState (n : Nat) : (s.countFetchCycles n).prngState = s.prngState := rfl
@[simp] theorem State.countFetchCycles_vgaEvents (n : Nat) : (s.countFetchCycles n).vgaEvents = s.vgaEvents := rfl
@[simp] theorem State.countFetchCycles_halted (n : Nat) : (s.countFetchCycles n).halted = s.halted := rfl
@[simp] theorem State.countFetchCycles_faultInfo (n : Nat) : (s.countFetchCycles n).faultInfo = s.faultInfo := rfl
@[simp] theorem State.countFetchCycles_cycles (n : Nat) : (s.countFetchCycles n).cycles = s.cycles := rfl
@[simp] theorem State.countFetchCycles_stats (n : Nat) : (s.countFetchCycles n).stats = { s.stats with fetchCycles := s.stats.fetchCycles + n } := rfl

/-! ### setPcs -/

@[simp] theorem State.setPcs_params (t : Word) : (s.setPcs t).params = s.params := rfl
@[simp] theorem State.setPcs_reading (t : Word) : (s.setPcs t).reading = s.reading := rfl
@[simp] theorem State.setPcs_x (t : Word) : (s.setPcs t).x = s.x := rfl
@[simp] theorem State.setPcs_pc (t : Word) : (s.setPcs t).pc = t := rfl
@[simp] theorem State.setPcs_fpc (t : Word) : (s.setPcs t).fpc = t := rfl
@[simp] theorem State.setPcs_priv (t : Word) : (s.setPcs t).priv = s.priv := rfl
@[simp] theorem State.setPcs_ptbr (t : Word) : (s.setPcs t).ptbr = s.ptbr := rfl
@[simp] theorem State.setPcs_pending (t : Word) : (s.setPcs t).pending = s.pending := rfl
@[simp] theorem State.setPcs_slots (t : Word) : (s.setPcs t).slots = s.slots := rfl
@[simp] theorem State.setPcs_cache (t : Word) : (s.setPcs t).cache = s.cache := rfl
@[simp] theorem State.setPcs_mem (t : Word) : (s.setPcs t).mem = s.mem := rfl
@[simp] theorem State.setPcs_exitRequested (t : Word) : (s.setPcs t).exitRequested = s.exitRequested := rfl
@[simp] theorem State.setPcs_mmioPending (t : Word) : (s.setPcs t).mmioPending = s.mmioPending := rfl
@[simp] theorem State.setPcs_prngState (t : Word) : (s.setPcs t).prngState = s.prngState := rfl
@[simp] theorem State.setPcs_vgaEvents (t : Word) : (s.setPcs t).vgaEvents = s.vgaEvents := rfl
@[simp] theorem State.setPcs_halted (t : Word) : (s.setPcs t).halted = s.halted := rfl
@[simp] theorem State.setPcs_faultInfo (t : Word) : (s.setPcs t).faultInfo = s.faultInfo := rfl
@[simp] theorem State.setPcs_cycles (t : Word) : (s.setPcs t).cycles = s.cycles := rfl
@[simp] theorem State.setPcs_stats (t : Word) : (s.setPcs t).stats = s.stats := rfl

/-! ### squashYoung -/

@[simp] theorem State.squashYoung_params : (s.squashYoung).params = s.params := rfl
@[simp] theorem State.squashYoung_reading : (s.squashYoung).reading = s.reading := rfl
@[simp] theorem State.squashYoung_x : (s.squashYoung).x = s.x := rfl
@[simp] theorem State.squashYoung_pc : (s.squashYoung).pc = s.pc := rfl
@[simp] theorem State.squashYoung_fpc : (s.squashYoung).fpc = s.fpc := rfl
@[simp] theorem State.squashYoung_priv : (s.squashYoung).priv = s.priv := rfl
@[simp] theorem State.squashYoung_ptbr : (s.squashYoung).ptbr = s.ptbr := rfl
@[simp] theorem State.squashYoung_pending : (s.squashYoung).pending = releasePending (releasePending (releasePending s.pending s.slots.exs) s.slots.ids) s.slots.ifs := rfl
@[simp] theorem State.squashYoung_slots : (s.squashYoung).slots = { s.slots with exs := none, ids := none, ifs := none } := rfl
@[simp] theorem State.squashYoung_cache : (s.squashYoung).cache = s.cache := rfl
@[simp] theorem State.squashYoung_mem : (s.squashYoung).mem = s.mem := rfl
@[simp] theorem State.squashYoung_exitRequested : (s.squashYoung).exitRequested = s.exitRequested := rfl
@[simp] theorem State.squashYoung_mmioPending : (s.squashYoung).mmioPending = s.mmioPending := rfl
@[simp] theorem State.squashYoung_prngState : (s.squashYoung).prngState = s.prngState := rfl
@[simp] theorem State.squashYoung_vgaEvents : (s.squashYoung).vgaEvents = s.vgaEvents := rfl
@[simp] theorem State.squashYoung_halted : (s.squashYoung).halted = s.halted := rfl
@[simp] theorem State.squashYoung_faultInfo : (s.squashYoung).faultInfo = s.faultInfo := rfl
@[simp] theorem State.squashYoung_cycles : (s.squashYoung).cycles = s.cycles := rfl
@[simp] theorem State.squashYoung_stats : (s.squashYoung).stats = s.stats := rfl

/-! ### squashBehindWb -/

@[simp] theorem State.squashBehindWb_params : (s.squashBehindWb).params = s.params := rfl
@[simp] theorem State.squashBehindWb_reading : (s.squashBehindWb).reading = s.reading := rfl
@[simp] theorem State.squashBehindWb_x : (s.squashBehindWb).x = s.x := rfl
@[simp] theorem State.squashBehindWb_pc : (s.squashBehindWb).pc = s.pc := rfl
@[simp] theorem State.squashBehindWb_fpc : (s.squashBehindWb).fpc = s.fpc := rfl
@[simp] theorem State.squashBehindWb_priv : (s.squashBehindWb).priv = s.priv := rfl
@[simp] theorem State.squashBehindWb_ptbr : (s.squashBehindWb).ptbr = s.ptbr := rfl
@[simp] theorem State.squashBehindWb_pending : (s.squashBehindWb).pending = releasePending s.squashYoung.pending s.slots.mems := rfl
@[simp] theorem State.squashBehindWb_slots : (s.squashBehindWb).slots = { s.slots with exs := none, ids := none, ifs := none, mems := none } := rfl
@[simp] theorem State.squashBehindWb_cache : (s.squashBehindWb).cache = s.cache := rfl
@[simp] theorem State.squashBehindWb_mem : (s.squashBehindWb).mem = s.mem := rfl
@[simp] theorem State.squashBehindWb_exitRequested : (s.squashBehindWb).exitRequested = s.exitRequested := rfl
@[simp] theorem State.squashBehindWb_mmioPending : (s.squashBehindWb).mmioPending = s.mmioPending := rfl
@[simp] theorem State.squashBehindWb_prngState : (s.squashBehindWb).prngState = s.prngState := rfl
@[simp] theorem State.squashBehindWb_vgaEvents : (s.squashBehindWb).vgaEvents = s.vgaEvents := rfl
@[simp] theorem State.squashBehindWb_halted : (s.squashBehindWb).halted = s.halted := rfl
@[simp] theorem State.squashBehindWb_faultInfo : (s.squashBehindWb).faultInfo = s.faultInfo := rfl
@[simp] theorem State.squashBehindWb_cycles : (s.squashBehindWb).cycles = s.cycles := rfl
@[simp] theorem State.squashBehindWb_stats : (s.squashBehindWb).stats = s.stats := rfl

/-! ### squashAll -/

@[simp] theorem State.squashAll_params : (s.squashAll).params = s.params := rfl
@[simp] theorem State.squashAll_reading : (s.squashAll).reading = s.reading := rfl
@[simp] theorem State.squashAll_x : (s.squashAll).x = s.x := rfl
@[simp] theorem State.squashAll_pc : (s.squashAll).pc = s.pc := rfl
@[simp] theorem State.squashAll_fpc : (s.squashAll).fpc = s.fpc := rfl
@[simp] theorem State.squashAll_priv : (s.squashAll).priv = s.priv := rfl
@[simp] theorem State.squashAll_ptbr : (s.squashAll).ptbr = s.ptbr := rfl
@[simp] theorem State.squashAll_pending : (s.squashAll).pending = releasePending s.squashBehindWb.pending s.slots.wbs := rfl
@[simp] theorem State.squashAll_slots : (s.squashAll).slots = {} := rfl
@[simp] theorem State.squashAll_cache : (s.squashAll).cache = s.cache := rfl
@[simp] theorem State.squashAll_mem : (s.squashAll).mem = s.mem := rfl
@[simp] theorem State.squashAll_exitRequested : (s.squashAll).exitRequested = s.exitRequested := rfl
@[simp] theorem State.squashAll_mmioPending : (s.squashAll).mmioPending = s.mmioPending := rfl
@[simp] theorem State.squashAll_prngState : (s.squashAll).prngState = s.prngState := rfl
@[simp] theorem State.squashAll_vgaEvents : (s.squashAll).vgaEvents = s.vgaEvents := rfl
@[simp] theorem State.squashAll_halted : (s.squashAll).halted = s.halted := rfl
@[simp] theorem State.squashAll_faultInfo : (s.squashAll).faultInfo = s.faultInfo := rfl
@[simp] theorem State.squashAll_cycles : (s.squashAll).cycles = s.cycles := rfl
@[simp] theorem State.squashAll_stats : (s.squashAll).stats = s.stats := rfl

/-! ### halt -/

@[simp] theorem State.halt_params (c : HaltCause) : (s.halt c).params = s.params := rfl
@[simp] theorem State.halt_reading (c : HaltCause) : (s.halt c).reading = s.reading := rfl
@[simp] theorem State.halt_x (c : HaltCause) : (s.halt c).x = s.x := rfl
@[simp] theorem State.halt_pc (c : HaltCause) : (s.halt c).pc = s.pc := rfl
@[simp] theorem State.halt_fpc (c : HaltCause) : (s.halt c).fpc = s.pc := rfl
@[simp] theorem State.halt_priv (c : HaltCause) : (s.halt c).priv = s.priv := rfl
@[simp] theorem State.halt_ptbr (c : HaltCause) : (s.halt c).ptbr = s.ptbr := rfl
@[simp] theorem State.halt_pending (c : HaltCause) : (s.halt c).pending = s.squashAll.pending := rfl
@[simp] theorem State.halt_slots (c : HaltCause) : (s.halt c).slots = {} := rfl
@[simp] theorem State.halt_cache (c : HaltCause) : (s.halt c).cache = s.cache := rfl
@[simp] theorem State.halt_mem (c : HaltCause) : (s.halt c).mem = s.mem := rfl
@[simp] theorem State.halt_exitRequested (c : HaltCause) : (s.halt c).exitRequested = s.exitRequested := rfl
@[simp] theorem State.halt_mmioPending (c : HaltCause) : (s.halt c).mmioPending = s.mmioPending := rfl
@[simp] theorem State.halt_prngState (c : HaltCause) : (s.halt c).prngState = s.prngState := rfl
@[simp] theorem State.halt_vgaEvents (c : HaltCause) : (s.halt c).vgaEvents = s.vgaEvents := rfl
@[simp] theorem State.halt_halted (c : HaltCause) : (s.halt c).halted = some c := rfl
@[simp] theorem State.halt_faultInfo (c : HaltCause) : (s.halt c).faultInfo = s.faultInfo := rfl
@[simp] theorem State.halt_cycles (c : HaltCause) : (s.halt c).cycles = s.cycles := rfl
@[simp] theorem State.halt_stats (c : HaltCause) : (s.halt c).stats = s.stats := rfl

/-! ### writeMem -/

@[simp] theorem State.writeMem_params (pa : Word) (n : Width) (v : Word) : (s.writeMem pa n v).params = s.params := rfl
@[simp] theorem State.writeMem_reading (pa : Word) (n : Width) (v : Word) : (s.writeMem pa n v).reading = s.reading := rfl
@[simp] theorem State.writeMem_x (pa : Word) (n : Width) (v : Word) : (s.writeMem pa n v).x = s.x := rfl
@[simp] theorem State.writeMem_pc (pa : Word) (n : Width) (v : Word) : (s.writeMem pa n v).pc = s.pc := rfl
@[simp] theorem State.writeMem_fpc (pa : Word) (n : Width) (v : Word) : (s.writeMem pa n v).fpc = s.fpc := rfl
@[simp] theorem State.writeMem_priv (pa : Word) (n : Width) (v : Word) : (s.writeMem pa n v).priv = s.priv := rfl
@[simp] theorem State.writeMem_ptbr (pa : Word) (n : Width) (v : Word) : (s.writeMem pa n v).ptbr = s.ptbr := rfl
@[simp] theorem State.writeMem_pending (pa : Word) (n : Width) (v : Word) : (s.writeMem pa n v).pending = s.pending := rfl
@[simp] theorem State.writeMem_slots (pa : Word) (n : Width) (v : Word) : (s.writeMem pa n v).slots = s.slots := rfl
@[simp] theorem State.writeMem_cache (pa : Word) (n : Width) (v : Word) : (s.writeMem pa n v).cache = s.cache := rfl
@[simp] theorem State.writeMem_mem (pa : Word) (n : Width) (v : Word) : (s.writeMem pa n v).mem = s.mem.writeValue pa n v := rfl
@[simp] theorem State.writeMem_exitRequested (pa : Word) (n : Width) (v : Word) : (s.writeMem pa n v).exitRequested = s.exitRequested := rfl
@[simp] theorem State.writeMem_mmioPending (pa : Word) (n : Width) (v : Word) : (s.writeMem pa n v).mmioPending = s.mmioPending := rfl
@[simp] theorem State.writeMem_prngState (pa : Word) (n : Width) (v : Word) : (s.writeMem pa n v).prngState = s.prngState := rfl
@[simp] theorem State.writeMem_vgaEvents (pa : Word) (n : Width) (v : Word) : (s.writeMem pa n v).vgaEvents = s.vgaEvents := rfl
@[simp] theorem State.writeMem_halted (pa : Word) (n : Width) (v : Word) : (s.writeMem pa n v).halted = s.halted := rfl
@[simp] theorem State.writeMem_faultInfo (pa : Word) (n : Width) (v : Word) : (s.writeMem pa n v).faultInfo = s.faultInfo := rfl
@[simp] theorem State.writeMem_cycles (pa : Word) (n : Width) (v : Word) : (s.writeMem pa n v).cycles = s.cycles := rfl
@[simp] theorem State.writeMem_stats (pa : Word) (n : Width) (v : Word) : (s.writeMem pa n v).stats = s.stats := rfl

/-! ### emitVga -/

@[simp] theorem State.emitVga_params (pa : Word) (n : Width) (v : Word) : (s.emitVga pa n v).params = s.params := rfl
@[simp] theorem State.emitVga_reading (pa : Word) (n : Width) (v : Word) : (s.emitVga pa n v).reading = s.reading := rfl
@[simp] theorem State.emitVga_x (pa : Word) (n : Width) (v : Word) : (s.emitVga pa n v).x = s.x := rfl
@[simp] theorem State.emitVga_pc (pa : Word) (n : Width) (v : Word) : (s.emitVga pa n v).pc = s.pc := rfl
@[simp] theorem State.emitVga_fpc (pa : Word) (n : Width) (v : Word) : (s.emitVga pa n v).fpc = s.fpc := rfl
@[simp] theorem State.emitVga_priv (pa : Word) (n : Width) (v : Word) : (s.emitVga pa n v).priv = s.priv := rfl
@[simp] theorem State.emitVga_ptbr (pa : Word) (n : Width) (v : Word) : (s.emitVga pa n v).ptbr = s.ptbr := rfl
@[simp] theorem State.emitVga_pending (pa : Word) (n : Width) (v : Word) : (s.emitVga pa n v).pending = s.pending := rfl
@[simp] theorem State.emitVga_slots (pa : Word) (n : Width) (v : Word) : (s.emitVga pa n v).slots = s.slots := rfl
@[simp] theorem State.emitVga_cache (pa : Word) (n : Width) (v : Word) : (s.emitVga pa n v).cache = s.cache := rfl
@[simp] theorem State.emitVga_mem (pa : Word) (n : Width) (v : Word) : (s.emitVga pa n v).mem = s.mem := rfl
@[simp] theorem State.emitVga_exitRequested (pa : Word) (n : Width) (v : Word) : (s.emitVga pa n v).exitRequested = s.exitRequested := rfl
@[simp] theorem State.emitVga_mmioPending (pa : Word) (n : Width) (v : Word) : (s.emitVga pa n v).mmioPending = s.mmioPending := rfl
@[simp] theorem State.emitVga_prngState (pa : Word) (n : Width) (v : Word) : (s.emitVga pa n v).prngState = s.prngState := rfl
@[simp] theorem State.emitVga_vgaEvents (pa : Word) (n : Width) (v : Word) : (s.emitVga pa n v).vgaEvents = if inVga pa then s.vgaEvents ++ [⟨pa, n, lowBytes n v⟩] else s.vgaEvents := rfl
@[simp] theorem State.emitVga_halted (pa : Word) (n : Width) (v : Word) : (s.emitVga pa n v).halted = s.halted := rfl
@[simp] theorem State.emitVga_faultInfo (pa : Word) (n : Width) (v : Word) : (s.emitVga pa n v).faultInfo = s.faultInfo := rfl
@[simp] theorem State.emitVga_cycles (pa : Word) (n : Width) (v : Word) : (s.emitVga pa n v).cycles = s.cycles := rfl
@[simp] theorem State.emitVga_stats (pa : Word) (n : Width) (v : Word) : (s.emitVga pa n v).stats = s.stats := rfl

/-! ### command -/

@[simp] theorem State.command_params (pa v : Word) : (s.command pa v).params = s.params := rfl
@[simp] theorem State.command_reading (pa v : Word) : (s.command pa v).reading = s.reading := rfl
@[simp] theorem State.command_x (pa v : Word) : (s.command pa v).x = s.x := rfl
@[simp] theorem State.command_pc (pa v : Word) : (s.command pa v).pc = s.pc := rfl
@[simp] theorem State.command_fpc (pa v : Word) : (s.command pa v).fpc = s.fpc := rfl
@[simp] theorem State.command_priv (pa v : Word) : (s.command pa v).priv = s.priv := rfl
@[simp] theorem State.command_ptbr (pa v : Word) : (s.command pa v).ptbr = s.ptbr := rfl
@[simp] theorem State.command_pending (pa v : Word) : (s.command pa v).pending = s.pending := rfl
@[simp] theorem State.command_slots (pa v : Word) : (s.command pa v).slots = s.slots := rfl
@[simp] theorem State.command_cache (pa v : Word) : (s.command pa v).cache = s.cache := rfl
@[simp] theorem State.command_mem (pa v : Word) : (s.command pa v).mem = s.mem := rfl
@[simp] theorem State.command_exitRequested (pa v : Word) : (s.command pa v).exitRequested = (s.exitRequested || (isCtrl pa && byteOf v 0 == 0x41#8)) := rfl
@[simp] theorem State.command_mmioPending (pa v : Word) : (s.command pa v).mmioPending = if isCtrl pa && byteOf v 0 == 0x42#8 then some .timestamp else if isCtrl pa && byteOf v 0 == 0x43#8 then some .random else s.mmioPending := rfl
@[simp] theorem State.command_prngState (pa v : Word) : (s.command pa v).prngState = s.prngState := rfl
@[simp] theorem State.command_vgaEvents (pa v : Word) : (s.command pa v).vgaEvents = s.vgaEvents := rfl
@[simp] theorem State.command_halted (pa v : Word) : (s.command pa v).halted = s.halted := rfl
@[simp] theorem State.command_faultInfo (pa v : Word) : (s.command pa v).faultInfo = s.faultInfo := rfl
@[simp] theorem State.command_cycles (pa v : Word) : (s.command pa v).cycles = s.cycles := rfl
@[simp] theorem State.command_stats (pa v : Word) : (s.command pa v).stats = s.stats := rfl

/-! ### putSet -/

@[simp] theorem State.putSet_params (i : BitVec 5) (cs : CacheSet) : (s.putSet i cs).params = s.params := rfl
@[simp] theorem State.putSet_reading (i : BitVec 5) (cs : CacheSet) : (s.putSet i cs).reading = s.reading := rfl
@[simp] theorem State.putSet_x (i : BitVec 5) (cs : CacheSet) : (s.putSet i cs).x = s.x := rfl
@[simp] theorem State.putSet_pc (i : BitVec 5) (cs : CacheSet) : (s.putSet i cs).pc = s.pc := rfl
@[simp] theorem State.putSet_fpc (i : BitVec 5) (cs : CacheSet) : (s.putSet i cs).fpc = s.fpc := rfl
@[simp] theorem State.putSet_priv (i : BitVec 5) (cs : CacheSet) : (s.putSet i cs).priv = s.priv := rfl
@[simp] theorem State.putSet_ptbr (i : BitVec 5) (cs : CacheSet) : (s.putSet i cs).ptbr = s.ptbr := rfl
@[simp] theorem State.putSet_pending (i : BitVec 5) (cs : CacheSet) : (s.putSet i cs).pending = s.pending := rfl
@[simp] theorem State.putSet_slots (i : BitVec 5) (cs : CacheSet) : (s.putSet i cs).slots = s.slots := rfl
@[simp] theorem State.putSet_cache (i : BitVec 5) (cs : CacheSet) : (s.putSet i cs).cache = s.cache.putSet i cs := rfl
@[simp] theorem State.putSet_mem (i : BitVec 5) (cs : CacheSet) : (s.putSet i cs).mem = s.mem := rfl
@[simp] theorem State.putSet_exitRequested (i : BitVec 5) (cs : CacheSet) : (s.putSet i cs).exitRequested = s.exitRequested := rfl
@[simp] theorem State.putSet_mmioPending (i : BitVec 5) (cs : CacheSet) : (s.putSet i cs).mmioPending = s.mmioPending := rfl
@[simp] theorem State.putSet_prngState (i : BitVec 5) (cs : CacheSet) : (s.putSet i cs).prngState = s.prngState := rfl
@[simp] theorem State.putSet_vgaEvents (i : BitVec 5) (cs : CacheSet) : (s.putSet i cs).vgaEvents = s.vgaEvents := rfl
@[simp] theorem State.putSet_halted (i : BitVec 5) (cs : CacheSet) : (s.putSet i cs).halted = s.halted := rfl
@[simp] theorem State.putSet_faultInfo (i : BitVec 5) (cs : CacheSet) : (s.putSet i cs).faultInfo = s.faultInfo := rfl
@[simp] theorem State.putSet_cycles (i : BitVec 5) (cs : CacheSet) : (s.putSet i cs).cycles = s.cycles := rfl
@[simp] theorem State.putSet_stats (i : BitVec 5) (cs : CacheSet) : (s.putSet i cs).stats = s.stats := rfl

/-! ### touchWay -/

@[simp] theorem State.touchWay_params (i : BitVec 5) (w : Fin 4) : (s.touchWay i w).params = s.params := rfl
@[simp] theorem State.touchWay_reading (i : BitVec 5) (w : Fin 4) : (s.touchWay i w).reading = s.reading := rfl
@[simp] theorem State.touchWay_x (i : BitVec 5) (w : Fin 4) : (s.touchWay i w).x = s.x := rfl
@[simp] theorem State.touchWay_pc (i : BitVec 5) (w : Fin 4) : (s.touchWay i w).pc = s.pc := rfl
@[simp] theorem State.touchWay_fpc (i : BitVec 5) (w : Fin 4) : (s.touchWay i w).fpc = s.fpc := rfl
@[simp] theorem State.touchWay_priv (i : BitVec 5) (w : Fin 4) : (s.touchWay i w).priv = s.priv := rfl
@[simp] theorem State.touchWay_ptbr (i : BitVec 5) (w : Fin 4) : (s.touchWay i w).ptbr = s.ptbr := rfl
@[simp] theorem State.touchWay_pending (i : BitVec 5) (w : Fin 4) : (s.touchWay i w).pending = s.pending := rfl
@[simp] theorem State.touchWay_slots (i : BitVec 5) (w : Fin 4) : (s.touchWay i w).slots = s.slots := rfl
@[simp] theorem State.touchWay_cache (i : BitVec 5) (w : Fin 4) : (s.touchWay i w).cache = s.cache.putSet i ((s.cache.setAt i).touch w) := rfl
@[simp] theorem State.touchWay_mem (i : BitVec 5) (w : Fin 4) : (s.touchWay i w).mem = s.mem := rfl
@[simp] theorem State.touchWay_exitRequested (i : BitVec 5) (w : Fin 4) : (s.touchWay i w).exitRequested = s.exitRequested := rfl
@[simp] theorem State.touchWay_mmioPending (i : BitVec 5) (w : Fin 4) : (s.touchWay i w).mmioPending = s.mmioPending := rfl
@[simp] theorem State.touchWay_prngState (i : BitVec 5) (w : Fin 4) : (s.touchWay i w).prngState = s.prngState := rfl
@[simp] theorem State.touchWay_vgaEvents (i : BitVec 5) (w : Fin 4) : (s.touchWay i w).vgaEvents = s.vgaEvents := rfl
@[simp] theorem State.touchWay_halted (i : BitVec 5) (w : Fin 4) : (s.touchWay i w).halted = s.halted := rfl
@[simp] theorem State.touchWay_faultInfo (i : BitVec 5) (w : Fin 4) : (s.touchWay i w).faultInfo = s.faultInfo := rfl
@[simp] theorem State.touchWay_cycles (i : BitVec 5) (w : Fin 4) : (s.touchWay i w).cycles = s.cycles := rfl
@[simp] theorem State.touchWay_stats (i : BitVec 5) (w : Fin 4) : (s.touchWay i w).stats = s.stats := rfl

/-! ### writeBackVictim -/

@[simp] theorem State.writeBackVictim_params (i : BitVec 5) : (s.writeBackVictim i).params = s.params := rfl
@[simp] theorem State.writeBackVictim_reading (i : BitVec 5) : (s.writeBackVictim i).reading = s.reading := rfl
@[simp] theorem State.writeBackVictim_x (i : BitVec 5) : (s.writeBackVictim i).x = s.x := rfl
@[simp] theorem State.writeBackVictim_pc (i : BitVec 5) : (s.writeBackVictim i).pc = s.pc := rfl
@[simp] theorem State.writeBackVictim_fpc (i : BitVec 5) : (s.writeBackVictim i).fpc = s.fpc := rfl
@[simp] theorem State.writeBackVictim_priv (i : BitVec 5) : (s.writeBackVictim i).priv = s.priv := rfl
@[simp] theorem State.writeBackVictim_ptbr (i : BitVec 5) : (s.writeBackVictim i).ptbr = s.ptbr := rfl
@[simp] theorem State.writeBackVictim_pending (i : BitVec 5) : (s.writeBackVictim i).pending = s.pending := rfl
@[simp] theorem State.writeBackVictim_slots (i : BitVec 5) : (s.writeBackVictim i).slots = s.slots := rfl
@[simp] theorem State.writeBackVictim_cache (i : BitVec 5) : (s.writeBackVictim i).cache = s.cache := rfl
@[simp] theorem State.writeBackVictim_exitRequested (i : BitVec 5) : (s.writeBackVictim i).exitRequested = s.exitRequested := rfl
@[simp] theorem State.writeBackVictim_mmioPending (i : BitVec 5) : (s.writeBackVictim i).mmioPending = s.mmioPending := rfl
@[simp] theorem State.writeBackVictim_prngState (i : BitVec 5) : (s.writeBackVictim i).prngState = s.prngState := rfl
@[simp] theorem State.writeBackVictim_vgaEvents (i : BitVec 5) : (s.writeBackVictim i).vgaEvents = s.vgaEvents := rfl
@[simp] theorem State.writeBackVictim_halted (i : BitVec 5) : (s.writeBackVictim i).halted = s.halted := rfl
@[simp] theorem State.writeBackVictim_faultInfo (i : BitVec 5) : (s.writeBackVictim i).faultInfo = s.faultInfo := rfl
@[simp] theorem State.writeBackVictim_cycles (i : BitVec 5) : (s.writeBackVictim i).cycles = s.cycles := rfl
@[simp] theorem State.writeBackVictim_stats (i : BitVec 5) : (s.writeBackVictim i).stats = s.stats := rfl

/-! ### installBlock -/

@[simp] theorem State.installBlock_params (tag : BitVec 21) (i : BitVec 5) : (s.installBlock tag i).params = s.params := rfl
@[simp] theorem State.installBlock_reading (tag : BitVec 21) (i : BitVec 5) : (s.installBlock tag i).reading = s.reading := rfl
@[simp] theorem State.installBlock_x (tag : BitVec 21) (i : BitVec 5) : (s.installBlock tag i).x = s.x := rfl
@[simp] theorem State.installBlock_pc (tag : BitVec 21) (i : BitVec 5) : (s.installBlock tag i).pc = s.pc := rfl
@[simp] theorem State.installBlock_fpc (tag : BitVec 21) (i : BitVec 5) : (s.installBlock tag i).fpc = s.fpc := rfl
@[simp] theorem State.installBlock_priv (tag : BitVec 21) (i : BitVec 5) : (s.installBlock tag i).priv = s.priv := rfl
@[simp] theorem State.installBlock_ptbr (tag : BitVec 21) (i : BitVec 5) : (s.installBlock tag i).ptbr = s.ptbr := rfl
@[simp] theorem State.installBlock_pending (tag : BitVec 21) (i : BitVec 5) : (s.installBlock tag i).pending = s.pending := rfl
@[simp] theorem State.installBlock_slots (tag : BitVec 21) (i : BitVec 5) : (s.installBlock tag i).slots = s.slots := rfl
@[simp] theorem State.installBlock_mem (tag : BitVec 21) (i : BitVec 5) : (s.installBlock tag i).mem = s.mem := rfl
@[simp] theorem State.installBlock_exitRequested (tag : BitVec 21) (i : BitVec 5) : (s.installBlock tag i).exitRequested = s.exitRequested := rfl
@[simp] theorem State.installBlock_mmioPending (tag : BitVec 21) (i : BitVec 5) : (s.installBlock tag i).mmioPending = s.mmioPending := rfl
@[simp] theorem State.installBlock_prngState (tag : BitVec 21) (i : BitVec 5) : (s.installBlock tag i).prngState = s.prngState := rfl
@[simp] theorem State.installBlock_vgaEvents (tag : BitVec 21) (i : BitVec 5) : (s.installBlock tag i).vgaEvents = s.vgaEvents := rfl
@[simp] theorem State.installBlock_halted (tag : BitVec 21) (i : BitVec 5) : (s.installBlock tag i).halted = s.halted := rfl
@[simp] theorem State.installBlock_faultInfo (tag : BitVec 21) (i : BitVec 5) : (s.installBlock tag i).faultInfo = s.faultInfo := rfl
@[simp] theorem State.installBlock_cycles (tag : BitVec 21) (i : BitVec 5) : (s.installBlock tag i).cycles = s.cycles := rfl
@[simp] theorem State.installBlock_stats (tag : BitVec 21) (i : BitVec 5) : (s.installBlock tag i).stats = s.stats := rfl

/-! ### fillBlock -/

@[simp] theorem State.fillBlock_params (pa : Word) : (s.fillBlock pa).params = s.params := rfl
@[simp] theorem State.fillBlock_reading (pa : Word) : (s.fillBlock pa).reading = s.reading := rfl
@[simp] theorem State.fillBlock_x (pa : Word) : (s.fillBlock pa).x = s.x := rfl
@[simp] theorem State.fillBlock_pc (pa : Word) : (s.fillBlock pa).pc = s.pc := rfl
@[simp] theorem State.fillBlock_fpc (pa : Word) : (s.fillBlock pa).fpc = s.fpc := rfl
@[simp] theorem State.fillBlock_priv (pa : Word) : (s.fillBlock pa).priv = s.priv := rfl
@[simp] theorem State.fillBlock_ptbr (pa : Word) : (s.fillBlock pa).ptbr = s.ptbr := rfl
@[simp] theorem State.fillBlock_pending (pa : Word) : (s.fillBlock pa).pending = s.pending := rfl
@[simp] theorem State.fillBlock_slots (pa : Word) : (s.fillBlock pa).slots = s.slots := rfl
@[simp] theorem State.fillBlock_mem (pa : Word) : (s.fillBlock pa).mem = (s.writeBackVictim (cacheIndex pa)).mem := rfl
@[simp] theorem State.fillBlock_exitRequested (pa : Word) : (s.fillBlock pa).exitRequested = s.exitRequested := rfl
@[simp] theorem State.fillBlock_mmioPending (pa : Word) : (s.fillBlock pa).mmioPending = s.mmioPending := rfl
@[simp] theorem State.fillBlock_prngState (pa : Word) : (s.fillBlock pa).prngState = s.prngState := rfl
@[simp] theorem State.fillBlock_vgaEvents (pa : Word) : (s.fillBlock pa).vgaEvents = s.vgaEvents := rfl
@[simp] theorem State.fillBlock_halted (pa : Word) : (s.fillBlock pa).halted = s.halted := rfl
@[simp] theorem State.fillBlock_faultInfo (pa : Word) : (s.fillBlock pa).faultInfo = s.faultInfo := rfl
@[simp] theorem State.fillBlock_cycles (pa : Word) : (s.fillBlock pa).cycles = s.cycles := rfl
@[simp] theorem State.fillBlock_stats (pa : Word) : (s.fillBlock pa).stats = s.stats := rfl

/-! ### updateWay -/

@[simp] theorem State.updateWay_params (w : Fin 4) (pa : Word) (n : Width) (v : Word) : (s.updateWay w pa n v).params = s.params := rfl
@[simp] theorem State.updateWay_reading (w : Fin 4) (pa : Word) (n : Width) (v : Word) : (s.updateWay w pa n v).reading = s.reading := rfl
@[simp] theorem State.updateWay_x (w : Fin 4) (pa : Word) (n : Width) (v : Word) : (s.updateWay w pa n v).x = s.x := rfl
@[simp] theorem State.updateWay_pc (w : Fin 4) (pa : Word) (n : Width) (v : Word) : (s.updateWay w pa n v).pc = s.pc := rfl
@[simp] theorem State.updateWay_fpc (w : Fin 4) (pa : Word) (n : Width) (v : Word) : (s.updateWay w pa n v).fpc = s.fpc := rfl
@[simp] theorem State.updateWay_priv (w : Fin 4) (pa : Word) (n : Width) (v : Word) : (s.updateWay w pa n v).priv = s.priv := rfl
@[simp] theorem State.updateWay_ptbr (w : Fin 4) (pa : Word) (n : Width) (v : Word) : (s.updateWay w pa n v).ptbr = s.ptbr := rfl
@[simp] theorem State.updateWay_pending (w : Fin 4) (pa : Word) (n : Width) (v : Word) : (s.updateWay w pa n v).pending = s.pending := rfl
@[simp] theorem State.updateWay_slots (w : Fin 4) (pa : Word) (n : Width) (v : Word) : (s.updateWay w pa n v).slots = s.slots := rfl
@[simp] theorem State.updateWay_mem (w : Fin 4) (pa : Word) (n : Width) (v : Word) : (s.updateWay w pa n v).mem = s.mem := rfl
@[simp] theorem State.updateWay_exitRequested (w : Fin 4) (pa : Word) (n : Width) (v : Word) : (s.updateWay w pa n v).exitRequested = s.exitRequested := rfl
@[simp] theorem State.updateWay_mmioPending (w : Fin 4) (pa : Word) (n : Width) (v : Word) : (s.updateWay w pa n v).mmioPending = s.mmioPending := rfl
@[simp] theorem State.updateWay_prngState (w : Fin 4) (pa : Word) (n : Width) (v : Word) : (s.updateWay w pa n v).prngState = s.prngState := rfl
@[simp] theorem State.updateWay_vgaEvents (w : Fin 4) (pa : Word) (n : Width) (v : Word) : (s.updateWay w pa n v).vgaEvents = s.vgaEvents := rfl
@[simp] theorem State.updateWay_halted (w : Fin 4) (pa : Word) (n : Width) (v : Word) : (s.updateWay w pa n v).halted = s.halted := rfl
@[simp] theorem State.updateWay_faultInfo (w : Fin 4) (pa : Word) (n : Width) (v : Word) : (s.updateWay w pa n v).faultInfo = s.faultInfo := rfl
@[simp] theorem State.updateWay_cycles (w : Fin 4) (pa : Word) (n : Width) (v : Word) : (s.updateWay w pa n v).cycles = s.cycles := rfl
@[simp] theorem State.updateWay_stats (w : Fin 4) (pa : Word) (n : Width) (v : Word) : (s.updateWay w pa n v).stats = s.stats := rfl

/-! ### passStages -/

@[simp] theorem State.passStages_params : (s.passStages).params = s.params := rfl
@[simp] theorem State.passStages_reading : (s.passStages).reading = s.reading := rfl
@[simp] theorem State.passStages_x : (s.passStages).x = s.x := rfl
@[simp] theorem State.passStages_pc : (s.passStages).pc = s.pc := rfl
@[simp] theorem State.passStages_fpc : (s.passStages).fpc = s.fpc := rfl
@[simp] theorem State.passStages_priv : (s.passStages).priv = s.priv := rfl
@[simp] theorem State.passStages_ptbr : (s.passStages).ptbr = s.ptbr := rfl
@[simp] theorem State.passStages_pending : (s.passStages).pending = s.pending := rfl
@[simp] theorem State.passStages_slots : (s.passStages).slots = s.slots := rfl
@[simp] theorem State.passStages_cache : (s.passStages).cache = s.cache := rfl
@[simp] theorem State.passStages_mem : (s.passStages).mem = s.mem := rfl
@[simp] theorem State.passStages_exitRequested : (s.passStages).exitRequested = s.exitRequested := rfl
@[simp] theorem State.passStages_mmioPending : (s.passStages).mmioPending = s.mmioPending := rfl
@[simp] theorem State.passStages_prngState : (s.passStages).prngState = s.prngState := rfl
@[simp] theorem State.passStages_vgaEvents : (s.passStages).vgaEvents = s.vgaEvents := rfl
@[simp] theorem State.passStages_halted : (s.passStages).halted = s.halted := rfl
@[simp] theorem State.passStages_faultInfo : (s.passStages).faultInfo = s.faultInfo := rfl
@[simp] theorem State.passStages_cycles : (s.passStages).cycles = s.cycles + 4#64 := rfl
@[simp] theorem State.passStages_stats : (s.passStages).stats = s.stats := rfl

/-! ### reachMemory -/

@[simp] theorem State.reachMemory_params : (s.reachMemory).params = s.params := rfl
@[simp] theorem State.reachMemory_reading : (s.reachMemory).reading = s.reading := rfl
@[simp] theorem State.reachMemory_x : (s.reachMemory).x = s.x := rfl
@[simp] theorem State.reachMemory_pc : (s.reachMemory).pc = s.pc := rfl
@[simp] theorem State.reachMemory_fpc : (s.reachMemory).fpc = s.fpc := rfl
@[simp] theorem State.reachMemory_priv : (s.reachMemory).priv = s.priv := rfl
@[simp] theorem State.reachMemory_ptbr : (s.reachMemory).ptbr = s.ptbr := rfl
@[simp] theorem State.reachMemory_pending : (s.reachMemory).pending = s.pending := rfl
@[simp] theorem State.reachMemory_slots : (s.reachMemory).slots = s.slots := rfl
@[simp] theorem State.reachMemory_cache : (s.reachMemory).cache = s.cache := rfl
@[simp] theorem State.reachMemory_mem : (s.reachMemory).mem = s.mem := rfl
@[simp] theorem State.reachMemory_exitRequested : (s.reachMemory).exitRequested = s.exitRequested := rfl
@[simp] theorem State.reachMemory_mmioPending : (s.reachMemory).mmioPending = s.mmioPending := rfl
@[simp] theorem State.reachMemory_prngState : (s.reachMemory).prngState = s.prngState := rfl
@[simp] theorem State.reachMemory_vgaEvents : (s.reachMemory).vgaEvents = s.vgaEvents := rfl
@[simp] theorem State.reachMemory_halted : (s.reachMemory).halted = s.halted := rfl
@[simp] theorem State.reachMemory_faultInfo : (s.reachMemory).faultInfo = s.faultInfo := rfl
@[simp] theorem State.reachMemory_cycles : (s.reachMemory).cycles = s.cycles + 3#64 := rfl
@[simp] theorem State.reachMemory_stats : (s.reachMemory).stats = s.stats := rfl

/-! ### serveMemory -/

@[simp] theorem State.serveMemory_params (n : Nat) : (s.serveMemory n).params = s.params := rfl
@[simp] theorem State.serveMemory_reading (n : Nat) : (s.serveMemory n).reading = s.reading := rfl
@[simp] theorem State.serveMemory_x (n : Nat) : (s.serveMemory n).x = s.x := rfl
@[simp] theorem State.serveMemory_pc (n : Nat) : (s.serveMemory n).pc = s.pc := rfl
@[simp] theorem State.serveMemory_fpc (n : Nat) : (s.serveMemory n).fpc = s.fpc := rfl
@[simp] theorem State.serveMemory_priv (n : Nat) : (s.serveMemory n).priv = s.priv := rfl
@[simp] theorem State.serveMemory_ptbr (n : Nat) : (s.serveMemory n).ptbr = s.ptbr := rfl
@[simp] theorem State.serveMemory_pending (n : Nat) : (s.serveMemory n).pending = s.pending := rfl
@[simp] theorem State.serveMemory_slots (n : Nat) : (s.serveMemory n).slots = s.slots := rfl
@[simp] theorem State.serveMemory_cache (n : Nat) : (s.serveMemory n).cache = s.cache := rfl
@[simp] theorem State.serveMemory_mem (n : Nat) : (s.serveMemory n).mem = s.mem := rfl
@[simp] theorem State.serveMemory_exitRequested (n : Nat) : (s.serveMemory n).exitRequested = s.exitRequested := rfl
@[simp] theorem State.serveMemory_mmioPending (n : Nat) : (s.serveMemory n).mmioPending = s.mmioPending := rfl
@[simp] theorem State.serveMemory_prngState (n : Nat) : (s.serveMemory n).prngState = s.prngState := rfl
@[simp] theorem State.serveMemory_vgaEvents (n : Nat) : (s.serveMemory n).vgaEvents = s.vgaEvents := rfl
@[simp] theorem State.serveMemory_halted (n : Nat) : (s.serveMemory n).halted = s.halted := rfl
@[simp] theorem State.serveMemory_faultInfo (n : Nat) : (s.serveMemory n).faultInfo = s.faultInfo := rfl
@[simp] theorem State.serveMemory_cycles (n : Nat) : (s.serveMemory n).cycles = s.cycles + BitVec.ofNat 64 n := rfl
@[simp] theorem State.serveMemory_stats (n : Nat) : (s.serveMemory n).stats = { s.stats with memCycles := s.stats.memCycles + n } := rfl

/-! ### retireTo -/

@[simp] theorem State.retireTo_params (t : Word) : (s.retireTo t).params = s.params := rfl
@[simp] theorem State.retireTo_reading (t : Word) : (s.retireTo t).reading = s.reading := rfl
@[simp] theorem State.retireTo_x (t : Word) : (s.retireTo t).x = s.x := rfl
@[simp] theorem State.retireTo_pc (t : Word) : (s.retireTo t).pc = t := rfl
@[simp] theorem State.retireTo_fpc (t : Word) : (s.retireTo t).fpc = t := rfl
@[simp] theorem State.retireTo_priv (t : Word) : (s.retireTo t).priv = s.priv := rfl
@[simp] theorem State.retireTo_ptbr (t : Word) : (s.retireTo t).ptbr = s.ptbr := rfl
@[simp] theorem State.retireTo_pending (t : Word) : (s.retireTo t).pending = s.pending := rfl
@[simp] theorem State.retireTo_slots (t : Word) : (s.retireTo t).slots = s.slots := rfl
@[simp] theorem State.retireTo_cache (t : Word) : (s.retireTo t).cache = s.cache := rfl
@[simp] theorem State.retireTo_mem (t : Word) : (s.retireTo t).mem = s.mem := rfl
@[simp] theorem State.retireTo_exitRequested (t : Word) : (s.retireTo t).exitRequested = s.exitRequested := rfl
@[simp] theorem State.retireTo_mmioPending (t : Word) : (s.retireTo t).mmioPending = s.mmioPending := rfl
@[simp] theorem State.retireTo_prngState (t : Word) : (s.retireTo t).prngState = s.prngState := rfl
@[simp] theorem State.retireTo_vgaEvents (t : Word) : (s.retireTo t).vgaEvents = s.vgaEvents := rfl
@[simp] theorem State.retireTo_halted (t : Word) : (s.retireTo t).halted = s.halted := rfl
@[simp] theorem State.retireTo_faultInfo (t : Word) : (s.retireTo t).faultInfo = s.faultInfo := rfl
@[simp] theorem State.retireTo_cycles (t : Word) : (s.retireTo t).cycles = s.cycles := rfl
@[simp] theorem State.retireTo_stats (t : Word) : (s.retireTo t).stats = { s.stats with retired := s.stats.retired + 1 } := rfl

/-! ### Registers and the view through the updates -/

@[simp] theorem State.addCycles_reg (n : Nat) (r : Reg) : (s.addCycles n).reg r = s.reg r := rfl
@[simp] theorem State.countRetired_reg (r : Reg) : (s.countRetired).reg r = s.reg r := rfl
@[simp] theorem State.countDataStall_reg (r : Reg) : (s.countDataStall).reg r = s.reg r := rfl
@[simp] theorem State.countSquashed_reg (n : Nat) (r : Reg) : (s.countSquashed n).reg r = s.reg r := rfl
@[simp] theorem State.countMemCycles_reg (n : Nat) (r : Reg) : (s.countMemCycles n).reg r = s.reg r := rfl
@[simp] theorem State.countFetchCycles_reg (n : Nat) (r : Reg) : (s.countFetchCycles n).reg r = s.reg r := rfl
@[simp] theorem State.setPcs_reg (t : Word) (r : Reg) : (s.setPcs t).reg r = s.reg r := rfl
@[simp] theorem State.squashYoung_reg (r : Reg) : (s.squashYoung).reg r = s.reg r := rfl
@[simp] theorem State.squashBehindWb_reg (r : Reg) : (s.squashBehindWb).reg r = s.reg r := rfl
@[simp] theorem State.squashAll_reg (r : Reg) : (s.squashAll).reg r = s.reg r := rfl
@[simp] theorem State.halt_reg (c : HaltCause) (r : Reg) : (s.halt c).reg r = s.reg r := rfl
@[simp] theorem State.writeMem_reg (pa : Word) (n : Width) (v : Word) (r : Reg) : (s.writeMem pa n v).reg r = s.reg r := rfl
@[simp] theorem State.emitVga_reg (pa : Word) (n : Width) (v : Word) (r : Reg) : (s.emitVga pa n v).reg r = s.reg r := rfl
@[simp] theorem State.command_reg (pa v : Word) (r : Reg) : (s.command pa v).reg r = s.reg r := rfl
@[simp] theorem State.putSet_reg (i : BitVec 5) (cs : CacheSet) (r : Reg) : (s.putSet i cs).reg r = s.reg r := rfl
@[simp] theorem State.touchWay_reg (i : BitVec 5) (w : Fin 4) (r : Reg) : (s.touchWay i w).reg r = s.reg r := rfl
@[simp] theorem State.writeBackVictim_reg (i : BitVec 5) (r : Reg) : (s.writeBackVictim i).reg r = s.reg r := rfl
@[simp] theorem State.installBlock_reg (tag : BitVec 21) (i : BitVec 5) (r : Reg) : (s.installBlock tag i).reg r = s.reg r := rfl
@[simp] theorem State.fillBlock_reg (pa : Word) (r : Reg) : (s.fillBlock pa).reg r = s.reg r := rfl
@[simp] theorem State.updateWay_reg (w : Fin 4) (pa : Word) (n : Width) (v : Word) (r : Reg) : (s.updateWay w pa n v).reg r = s.reg r := rfl
@[simp] theorem State.passStages_reg (r : Reg) : (s.passStages).reg r = s.reg r := rfl
@[simp] theorem State.reachMemory_reg (r : Reg) : (s.reachMemory).reg r = s.reg r := rfl
@[simp] theorem State.serveMemory_reg (n : Nat) (r : Reg) : (s.serveMemory n).reg r = s.reg r := rfl
@[simp] theorem State.retireTo_reg (t : Word) (r : Reg) : (s.retireTo t).reg r = s.reg r := rfl
@[simp] theorem State.setReg_view (r : Reg) (v : Word) (a : Word) : (s.setReg r v).view a = s.view a := rfl
@[simp] theorem State.addCycles_view (n : Nat) (a : Word) : (s.addCycles n).view a = s.view a := rfl
@[simp] theorem State.countRetired_view (a : Word) : (s.countRetired).view a = s.view a := rfl
@[simp] theorem State.countDataStall_view (a : Word) : (s.countDataStall).view a = s.view a := rfl
@[simp] theorem State.countSquashed_view (n : Nat) (a : Word) : (s.countSquashed n).view a = s.view a := rfl
@[simp] theorem State.countMemCycles_view (n : Nat) (a : Word) : (s.countMemCycles n).view a = s.view a := rfl
@[simp] theorem State.countFetchCycles_view (n : Nat) (a : Word) : (s.countFetchCycles n).view a = s.view a := rfl
@[simp] theorem State.setPcs_view (t : Word) (a : Word) : (s.setPcs t).view a = s.view a := rfl
@[simp] theorem State.squashYoung_view (a : Word) : (s.squashYoung).view a = s.view a := rfl
@[simp] theorem State.squashBehindWb_view (a : Word) : (s.squashBehindWb).view a = s.view a := rfl
@[simp] theorem State.squashAll_view (a : Word) : (s.squashAll).view a = s.view a := rfl
@[simp] theorem State.halt_view (c : HaltCause) (a : Word) : (s.halt c).view a = s.view a := rfl
@[simp] theorem State.emitVga_view (pa : Word) (n : Width) (v : Word) (a : Word) : (s.emitVga pa n v).view a = s.view a := rfl
@[simp] theorem State.command_view (pa v : Word) (a : Word) : (s.command pa v).view a = s.view a := rfl
@[simp] theorem State.passStages_view (a : Word) : (s.passStages).view a = s.view a := rfl
@[simp] theorem State.reachMemory_view (a : Word) : (s.reachMemory).view a = s.view a := rfl
@[simp] theorem State.serveMemory_view (n : Nat) (a : Word) : (s.serveMemory n).view a = s.view a := rfl
@[simp] theorem State.retireTo_view (t : Word) (a : Word) : (s.retireTo t).view a = s.view a := rfl

/-- Reading a register after a write (rules R20, R21): r0 reads 0, the written register its value, any other its old
value. -/
theorem State.setReg_reg (r : Reg) (v : Word) (q : Reg) :
    (s.setReg r v).reg q = if q = 0 then 0#32 else if q = r then v else s.reg q := by
  unfold State.reg
  by_cases hq : q = 0
  · simp [hq]
  · by_cases hqr : q = r
    · subst hqr; simp [hq]
    · by_cases hr : r = 0
      · simp [hq, hr]
      · have : r.val ≠ q.val := fun h => hqr (Fin.ext h.symm)
        simp [hq, hqr, hr, Vector.getElem_set_ne, this]

@[simp] theorem State.setReg_reg_self (r : Reg) (v : Word) : (s.setReg r v).reg r = if r = 0 then 0#32 else v := by
  simp [State.setReg_reg]

theorem State.setReg_reg_ne (r : Reg) (v : Word) {q : Reg} (h : q ≠ r) : (s.setReg r v).reg q = s.reg q := by
  rw [State.setReg_reg]
  by_cases hq : q = 0
  · simp [hq, State.reg]
  · simp [hq, h]

@[simp] theorem State.reg_zero : s.reg 0 = 0#32 := rfl

/-- Writing r0 changes nothing (rule R21). -/
@[simp] theorem State.setReg_zero (v : Word) : s.setReg 0 v = s := rfl

end Sys2Proof.Machine
end

