-- ==== Sys2Proof/Laws/Cache.lean ====
section
/-! SUPPORT. What each cache operation does to a set, that it keeps the set sound (rule R109), and where a lookup hits. -/

namespace Sys2Proof.Machine

/-! ### Sets and ways -/

theorem Cache.setAt_putSet (cache : Cache) (i j : BitVec 5) (cs : CacheSet) :
    (cache.putSet i cs).setAt j = if j = i then cs else cache.setAt j := by
  unfold Cache.putSet Cache.setAt
  by_cases h : j = i
  · subst h; simp
  · have : i.toNat ≠ j.toNat := fun hh => h (BitVec.eq_of_toNat_eq hh.symm)
    rw [Vector.getElem_set_ne _ _ this]; simp [h]

@[simp] theorem Cache.setAt_putSet_self (cache : Cache) (i : BitVec 5) (cs : CacheSet) :
    (cache.putSet i cs).setAt i = cs := by simp [Cache.setAt_putSet]

theorem CacheSet.way_setWay (cs : CacheSet) (w v : Fin 4) (y : Way) :
    (cs.setWay w y).way v = if v = w then y else cs.way v := by
  fin_cases w <;> fin_cases v <;> rfl

/-- Touch changes ages only (rule R104). -/
theorem CacheSet.way_touch (cs : CacheSet) (w v : Fin 4) :
    (cs.touch w).way v = if v = w then (cs.way w).mostRecent else (cs.way v).growOlder (cs.way w).age := by
  unfold CacheSet.touch
  rw [CacheSet.way_setWay]
  split
  · rfl
  · fin_cases v <;> rfl

@[simp] theorem CacheSet.touch_tag (cs : CacheSet) (w v : Fin 4) : ((cs.touch w).way v).tag = (cs.way v).tag := by
  rw [CacheSet.way_touch]; split
  · rename_i h; subst h; rfl
  · rfl

@[simp] theorem CacheSet.touch_valid (cs : CacheSet) (w v : Fin 4) : ((cs.touch w).way v).valid = (cs.way v).valid := by
  rw [CacheSet.way_touch]; split
  · rename_i h; subst h; rfl
  · rfl

@[simp] theorem CacheSet.touch_dirty (cs : CacheSet) (w v : Fin 4) : ((cs.touch w).way v).dirty = (cs.way v).dirty := by
  rw [CacheSet.way_touch]; split
  · rename_i h; subst h; rfl
  · rfl

@[simp] theorem CacheSet.touch_data (cs : CacheSet) (w v : Fin 4) : ((cs.touch w).way v).data = (cs.way v).data := by
  rw [CacheSet.way_touch]; split
  · rename_i h; subst h; rfl
  · rfl

theorem CacheSet.touch_age (cs : CacheSet) (w v : Fin 4) :
    ((cs.touch w).way v).age =
      if v = w then 0#2 else if (cs.way v).age < (cs.way w).age then (cs.way v).age + 1#2 else (cs.way v).age := by
  rw [CacheSet.way_touch]; split <;> rfl

theorem Way.holds_iff (y : Way) (tag : BitVec 21) : y.holds tag = true ↔ y.valid = true ∧ y.tag = tag := by
  simp [Way.holds]

/-! ### Lookup (rule R103) -/

/-- A hit names a way that holds the tag. -/
theorem CacheSet.hit_some {cs : CacheSet} {tag : BitVec 21} {w : Fin 4} (h : cs.hit tag = some w) :
    (cs.way w).valid = true ∧ (cs.way w).tag = tag := by
  rw [← Way.holds_iff]
  unfold CacheSet.hit at h
  split at h
  · cases h; assumption
  · split at h
    · cases h; assumption
    · split at h
      · cases h; assumption
      · split at h
        · cases h; assumption
        · cases h

/-- A miss means that no way holds the tag. -/
theorem CacheSet.hit_none {cs : CacheSet} {tag : BitVec 21} (h : cs.hit tag = none) (w : Fin 4)
    (hv : (cs.way w).valid = true) : (cs.way w).tag ≠ tag := by
  intro ht
  have hh : (cs.way w).holds tag = true := (Way.holds_iff _ _).2 ⟨hv, ht⟩
  unfold CacheSet.hit at h
  split at h
  · cases h
  · split at h
    · cases h
    · split at h
      · cases h
      · split at h
        · cases h
        · fin_cases w <;> simp_all [CacheSet.way]

/-- In a sound set the way that holds a tag is the one that a lookup finds. -/
theorem CacheSet.Sound.hit_eq {cs : CacheSet} (hs : cs.Sound) {w : Fin 4} (hv : (cs.way w).valid = true) :
    cs.hit (cs.way w).tag = some w := by
  cases h : cs.hit (cs.way w).tag with
  | none => exact absurd rfl (CacheSet.hit_none h w hv)
  | some v =>
    obtain ⟨hvv, hvt⟩ := CacheSet.hit_some h
    by_contra hne
    exact hs.oneWayPerTag v w (fun he => hne (by rw [he])) hvv hv hvt

/-- In a sound set the victim has age 3 (rule R106). -/
theorem CacheSet.Sound.victim_age {cs : CacheSet} (hs : cs.Sound) : (cs.way cs.victim).age = 3#2 := by
  have h01 := hs.agesDistinct 0 1 (by decide)
  have h02 := hs.agesDistinct 0 2 (by decide)
  have h03 := hs.agesDistinct 0 3 (by decide)
  have h12 := hs.agesDistinct 1 2 (by decide)
  have h13 := hs.agesDistinct 1 3 (by decide)
  have h23 := hs.agesDistinct 2 3 (by decide)
  simp only [CacheSet.way] at h01 h02 h03 h12 h13 h23
  unfold CacheSet.victim
  by_cases c0 : cs.way0.age = 3#2
  · simp [c0, CacheSet.way]
  · by_cases c1 : cs.way1.age = 3#2
    · simp [c0, c1, CacheSet.way]
    · by_cases c2 : cs.way2.age = 3#2
      · simp [c0, c1, c2, CacheSet.way]
      · simp only [c0, c1, c2, if_false, CacheSet.way]
        generalize cs.way0.age = a0 at *
        generalize cs.way1.age = a1 at *
        generalize cs.way2.age = a2 at *
        generalize cs.way3.age = a3 at *
        clear hs
        revert a0 a1 a2 a3
        decide

/-! ### The operations keep a set sound (rule R109) -/

/-- The set after reset is sound. -/
theorem emptySet_sound : emptySet.Sound where
  oneWayPerTag := by decide
  invalidClean := by decide
  agesDistinct := by decide
  invalidOlder := by decide

/-- Touching a valid way keeps the set sound. -/
theorem CacheSet.Sound.touch {cs : CacheSet} (hs : cs.Sound) {w : Fin 4} (hw : (cs.way w).valid = true) :
    (cs.touch w).Sound where
  oneWayPerTag v u hvu := by simpa using hs.oneWayPerTag v u hvu
  invalidClean v := by simpa using hs.invalidClean v
  agesDistinct v u hvu := by
    have h1 := hs.agesDistinct v u hvu
    have h2 := hs.agesDistinct v w
    have h3 := hs.agesDistinct u w
    rw [CacheSet.touch_age, CacheSet.touch_age]
    by_cases hv : v = w
    · have hu : u ≠ w := fun h => hvu (hv.trans h.symm)
      have := h3 hu
      simp only [hv, hu, if_true, if_false]
      split <;> bv_omega
    · by_cases hu : u = w
      · have := h2 hv
        simp only [hv, hu, if_true, if_false]
        split <;> bv_omega
      · have := h2 hv
        have := h3 hu
        simp only [hv, hu, if_false]
        split <;> split <;> bv_omega
  invalidOlder v u hv hu := by
    simp only [CacheSet.touch_valid] at hv hu
    have h1 := hs.invalidOlder v u hv hu
    have h2 := hs.invalidOlder w u hw hu
    have huw : u ≠ w := by rintro rfl; simp_all
    rw [CacheSet.touch_age, CacheSet.touch_age]
    by_cases hvw : v = w
    · simp only [hvw, huw, if_true, if_false]
      split <;> bv_omega
    · simp only [hvw, huw, if_false]
      split <;> split <;> bv_omega

/-- A miss's install at the victim, touched, keeps the set sound (rules R105, R106). -/
theorem CacheSet.Sound.install {cs : CacheSet} (hs : cs.Sound) {tag : BitVec 21} (hm : cs.hit tag = none) (d : Block) :
    ((cs.setWay cs.victim ((cs.way cs.victim).install tag d)).touch cs.victim).Sound := by
  have hva := hs.victim_age
  generalize cs.victim = x at *
  refine ⟨?_, ?_, ?_, ?_⟩
  · intro v u hvu hv hu
    simp only [CacheSet.touch_valid, CacheSet.touch_tag, CacheSet.way_setWay] at *
    by_cases hvx : v = x
    · have hux : u ≠ x := fun h => hvu (hvx.trans h.symm)
      simp only [hvx, hux, if_true, if_false, Way.install] at *
      exact fun h => CacheSet.hit_none hm u hu h.symm
    · by_cases hux : u = x
      · simp only [hvx, hux, if_true, if_false, Way.install] at *
        exact fun h => CacheSet.hit_none hm v hv h
      · simp only [hvx, hux, if_false] at *
        exact hs.oneWayPerTag v u hvu hv hu
  · intro v hv
    simp only [CacheSet.touch_valid, CacheSet.touch_dirty, CacheSet.way_setWay] at *
    by_cases hvx : v = x
    · simp [hvx, Way.install] at *
    · simp only [hvx, if_false] at *
      exact hs.invalidClean v hv
  · intro v u hvu
    have h1 := hs.agesDistinct v u hvu
    have h2 := hs.agesDistinct v x
    have h3 := hs.agesDistinct u x
    simp only [CacheSet.touch_age, CacheSet.way_setWay, if_true]
    by_cases hvx : v = x
    · have hux : u ≠ x := fun h => hvu (hvx.trans h.symm)
      have := h3 hux
      simp only [hvx, hux, if_true, if_false, Way.install]
      split <;> bv_omega
    · by_cases hux : u = x
      · have := h2 hvx
        simp only [hvx, hux, if_true, if_false, Way.install]
        split <;> bv_omega
      · have := h2 hvx
        have := h3 hux
        simp only [hvx, hux, if_false, Way.install]
        split <;> split <;> bv_omega
  · intro v u hv hu
    have h3 := hs.agesDistinct u x
    simp only [CacheSet.touch_age, CacheSet.touch_valid, CacheSet.way_setWay, if_true] at *
    by_cases hux : u = x
    · simp [hux, Way.install] at hu
    · have := h3 hux
      by_cases hvx : v = x
      · simp only [hvx, hux, if_true, if_false, Way.install]
        split <;> bv_omega
      · have hx := hs.agesDistinct v x hvx
        simp only [hvx, hux, if_false, Way.install] at *
        have h1 := hs.invalidOlder v u hv hu
        split <;> split <;> bv_omega

/-- A write hit's update of a valid way keeps the set sound (rule R107). -/
theorem CacheSet.Sound.update {cs : CacheSet} (hs : cs.Sound) {w : Fin 4} (hw : (cs.way w).valid = true) (pa : Word)
    (n : Width) (v : Word) : (cs.setWay w ((cs.way w).update pa n v)).Sound := by
  have hway : ∀ u, (((cs.setWay w ((cs.way w).update pa n v)).way u).tag = (cs.way u).tag ∧
      ((cs.setWay w ((cs.way w).update pa n v)).way u).valid = (cs.way u).valid ∧
      ((cs.setWay w ((cs.way w).update pa n v)).way u).age = (cs.way u).age) := by
    intro u
    rw [CacheSet.way_setWay]
    split
    · rename_i h; subst h; exact ⟨rfl, rfl, rfl⟩
    · exact ⟨rfl, rfl, rfl⟩
  refine ⟨?_, ?_, ?_, ?_⟩
  · intro x y hxy hx hy
    rw [(hway x).1, (hway y).1]
    exact hs.oneWayPerTag x y hxy ((hway x).2.1 ▸ hx) ((hway y).2.1 ▸ hy)
  · intro x hx
    have hx' := (hway x).2.1 ▸ hx
    rw [CacheSet.way_setWay]
    split
    · rename_i h; subst h; simp_all
    · exact hs.invalidClean x hx'
  · intro x y hxy
    rw [(hway x).2.2, (hway y).2.2]
    exact hs.agesDistinct x y hxy
  · intro x y hx hy
    rw [(hway x).2.2, (hway y).2.2]
    exact hs.invalidOlder x y ((hway x).2.1 ▸ hx) ((hway y).2.1 ▸ hy)

end Sys2Proof.Machine
end

