-- ==== Sys2Proof/Laws/Access.lean ====
section
/-! SUPPORT. What the physical access path can do, said once for `physRead` and `physWrite`: their frames, their values in
terms of the coherent view, and that they keep memory canonical and the cache sound and coherent (rules R70, R71, R82,
R109, R112). -/

namespace Sys2Proof.Machine

/-! ### Frames -/

/-- `t` comes from `s` by reads: only the cache, memory under it, a consumed MMIO command and the statistics differ. -/
structure ReadFrame (s t : State) : Prop where
  params : t.params = s.params
  reading : t.reading = s.reading
  x : t.x = s.x
  pc : t.pc = s.pc
  fpc : t.fpc = s.fpc
  priv : t.priv = s.priv
  ptbr : t.ptbr = s.ptbr
  pending : t.pending = s.pending
  slots : t.slots = s.slots
  exitRequested : t.exitRequested = s.exitRequested
  vgaEvents : t.vgaEvents = s.vgaEvents
  halted : t.halted = s.halted
  faultInfo : t.faultInfo = s.faultInfo
  cycles : t.cycles = s.cycles

/-- `t` comes from `s` by reads and writes: what `ReadFrame` says, but for the exit latch and the VGA events. -/
structure WriteFrame (s t : State) : Prop where
  params : t.params = s.params
  reading : t.reading = s.reading
  x : t.x = s.x
  pc : t.pc = s.pc
  fpc : t.fpc = s.fpc
  priv : t.priv = s.priv
  ptbr : t.ptbr = s.ptbr
  pending : t.pending = s.pending
  slots : t.slots = s.slots
  halted : t.halted = s.halted
  faultInfo : t.faultInfo = s.faultInfo
  cycles : t.cycles = s.cycles

theorem ReadFrame.refl (s : State) : ReadFrame s s := ⟨rfl, rfl, rfl, rfl, rfl, rfl, rfl, rfl, rfl, rfl, rfl, rfl, rfl, rfl⟩

theorem WriteFrame.refl (s : State) : WriteFrame s s := ⟨rfl, rfl, rfl, rfl, rfl, rfl, rfl, rfl, rfl, rfl, rfl, rfl⟩

theorem ReadFrame.trans {s t u : State} (h : ReadFrame s t) (k : ReadFrame t u) : ReadFrame s u :=
  ⟨k.params.trans h.params, k.reading.trans h.reading, k.x.trans h.x, k.pc.trans h.pc, k.fpc.trans h.fpc,
    k.priv.trans h.priv, k.ptbr.trans h.ptbr, k.pending.trans h.pending, k.slots.trans h.slots,
    k.exitRequested.trans h.exitRequested, k.vgaEvents.trans h.vgaEvents, k.halted.trans h.halted,
    k.faultInfo.trans h.faultInfo, k.cycles.trans h.cycles⟩

theorem WriteFrame.trans {s t u : State} (h : WriteFrame s t) (k : WriteFrame t u) : WriteFrame s u :=
  ⟨k.params.trans h.params, k.reading.trans h.reading, k.x.trans h.x, k.pc.trans h.pc, k.fpc.trans h.fpc,
    k.priv.trans h.priv, k.ptbr.trans h.ptbr, k.pending.trans h.pending, k.slots.trans h.slots,
    k.halted.trans h.halted, k.faultInfo.trans h.faultInfo, k.cycles.trans h.cycles⟩

theorem ReadFrame.toWrite {s t : State} (h : ReadFrame s t) : WriteFrame s t :=
  ⟨h.params, h.reading, h.x, h.pc, h.fpc, h.priv, h.ptbr, h.pending, h.slots, h.halted, h.faultInfo, h.cycles⟩

theorem ReadFrame.reg {s t : State} (h : ReadFrame s t) (r : Reg) : t.reg r = s.reg r := by
  unfold State.reg; rw [h.x]

theorem WriteFrame.reg {s t : State} (h : WriteFrame s t) (r : Reg) : t.reg r = s.reg r := by
  unfold State.reg; rw [h.x]

/-! ### Aligned accesses stay in one block (rules R63, R110) -/

theorem cacheTag_toNat (pa : Word) : (cacheTag pa).toNat = pa.toNat / 2048 := by
  have := pa.isLt
  simp only [cacheTag, BitVec.extractLsb'_toNat, Nat.shiftRight_eq_div_pow]
  omega

theorem cacheIndex_toNat (pa : Word) : (cacheIndex pa).toNat = pa.toNat / 64 % 32 := by
  simp only [cacheIndex, BitVec.extractLsb'_toNat, Nat.shiftRight_eq_div_pow]

theorem blockOffset_toNat (pa : Word) : (blockOffset pa).toNat = pa.toNat % 64 := by
  simp only [blockOffset, BitVec.extractLsb'_toNat, Nat.shiftRight_eq_div_pow]
  omega

/-- Byte `i` of an aligned access lies `i` above it, without wrapping. -/
theorem aligned_add_toNat {pa : Word} {n : Width} (h : aligned pa n = true) {i : Nat} (hi : i < widthBytes n) :
    (pa + BitVec.ofNat 32 i).toNat = pa.toNat + i := by
  have := pa.isLt
  cases n <;> simp only [aligned, widthBytes, beq_iff_eq] at h hi <;>
    simp only [BitVec.toNat_add, BitVec.toNat_ofNat] <;> omega

theorem aligned_cacheTag {pa : Word} {n : Width} (h : aligned pa n = true) {i : Nat} (hi : i < widthBytes n) :
    cacheTag (pa + BitVec.ofNat 32 i) = cacheTag pa := by
  apply BitVec.eq_of_toNat_eq
  rw [cacheTag_toNat, cacheTag_toNat, aligned_add_toNat h hi]
  cases n <;> simp only [aligned, widthBytes, beq_iff_eq] at h hi <;> omega

theorem aligned_cacheIndex {pa : Word} {n : Width} (h : aligned pa n = true) {i : Nat} (hi : i < widthBytes n) :
    cacheIndex (pa + BitVec.ofNat 32 i) = cacheIndex pa := by
  apply BitVec.eq_of_toNat_eq
  rw [cacheIndex_toNat, cacheIndex_toNat, aligned_add_toNat h hi]
  cases n <;> simp only [aligned, widthBytes, beq_iff_eq] at h hi <;> omega

theorem uncacheable_iff (pa : Word) : uncacheable pa = true ↔ 0x1000 ≤ pa.toNat ∧ pa.toNat < 0x3000 := by
  simp [uncacheable, vgaBase, freeBase, BitVec.le_def, BitVec.lt_def]

/-- The uncacheable ranges are made of whole blocks (rule R69). -/
theorem uncacheable_block {pa qa : Word} (ht : cacheTag pa = cacheTag qa) (hi : cacheIndex pa = cacheIndex qa) :
    uncacheable pa = uncacheable qa := by
  have h1 := congrArg BitVec.toNat ht
  have h2 := congrArg BitVec.toNat hi
  rw [cacheTag_toNat, cacheTag_toNat] at h1
  rw [cacheIndex_toNat, cacheIndex_toNat] at h2
  rw [Bool.eq_iff_iff, uncacheable_iff, uncacheable_iff]
  omega

/-- A value assembled from the bytes at `pa`, `pa + 1`, … depends on those bytes only. -/
theorem littleEndian_congr {n : Width} {f g : Nat → Byte} (h : ∀ i, i < widthBytes n → f i = g i) :
    littleEndian n f = littleEndian n g := by
  cases n
  · simp only [littleEndian]; rw [h 0 (by decide)]
  · simp only [littleEndian]; rw [h 0 (by decide), h 1 (by decide)]
  · simp only [littleEndian]; rw [h 0 (by decide), h 1 (by decide), h 2 (by decide), h 3 (by decide)]

/-! ### The view (rule R82) -/

/-- Where no way holds the block, the view is memory. -/
theorem State.view_miss {s : State} {a : Word} (h : (s.cache.setAt (cacheIndex a)).hit (cacheTag a) = none) :
    s.view a = s.mem.read a.toNat := by
  unfold State.view Cache.lookup
  rw [h]
  cases s.params.cacheEnabled <;> rfl

/-- Where a valid way of a coherent cache holds the block, the view is the cached byte. -/
theorem State.view_hit {s : State} (hc : s.CacheCoherent) {a : Word} {w : Fin 4}
    (h : (s.cache.setAt (cacheIndex a)).hit (cacheTag a) = some w) :
    s.view a = ((s.cache.setAt (cacheIndex a)).way w).data.byte (blockOffset a) := by
  have he := (hc (cacheIndex a) w (CacheSet.hit_some h).1).enabled
  unfold State.view Cache.lookup
  rw [h, he]

/-- No coherent cache holds a byte that goes past it: the lookup misses. -/
theorem State.hit_none_of_bypass {s : State} (hc : s.CacheCoherent) {a : Word} (h : bypassesCache s a = true) :
    (s.cache.setAt (cacheIndex a)).hit (cacheTag a) = none := by
  cases hh : (s.cache.setAt (cacheIndex a)).hit (cacheTag a) with
  | none => rfl
  | some w =>
    obtain ⟨hv, ht⟩ := CacheSet.hit_some hh
    have hw := hc _ w hv
    have hu := hw.cacheable (blockOffset a)
    rw [ht, blockByteAddress_self] at hu
    simp [bypassesCache, hw.enabled, hu] at h

/-- The view of a byte that goes past the cache is memory. -/
theorem State.view_bypass {s : State} (hc : s.CacheCoherent) {a : Word} (h : bypassesCache s a = true) :
    s.view a = s.mem.read a.toNat :=
  State.view_miss (State.hit_none_of_bypass hc h)

/-! ### What an access keeps -/

theorem State.Sound.store {s : State} (h : s.Sound) : StoreSound s := ⟨h.memoryWf, h.cacheSound, h.cacheCoherent⟩

/-- Only the parameters, the cache and memory matter. -/
theorem StoreSound.congr {s t : State} (h : StoreSound s) (hp : t.params = s.params) (hc : t.cache = s.cache)
    (hm : t.mem = s.mem) : StoreSound t where
  memoryWf := by unfold State.MemoryWf; rw [hm]; exact h.memoryWf
  cacheSound := by unfold State.CacheSound; rw [hc]; exact h.cacheSound
  cacheCoherent i w hv := by
    have := h.cacheCoherent i w (by rw [← hc]; exact hv)
    exact ⟨by rw [hp]; exact this.enabled, by rw [hc]; exact this.cacheable, by rw [hc, hm]; exact this.cleanEqual⟩

/-- A set replaced by one with the same tags, valid and dirty bits and data: coherence stays. -/
theorem coherent_putSet_touch {s : State} (hc : s.CacheCoherent) (i : BitVec 5) (w : Fin 4) :
    (s.touchWay i w).CacheCoherent := by
  intro j v hv
  have key : ∀ u, (((s.touchWay i w).cache.setAt j).way u).tag = ((s.cache.setAt j).way u).tag ∧
      (((s.touchWay i w).cache.setAt j).way u).valid = ((s.cache.setAt j).way u).valid ∧
      (((s.touchWay i w).cache.setAt j).way u).dirty = ((s.cache.setAt j).way u).dirty ∧
      (((s.touchWay i w).cache.setAt j).way u).data = ((s.cache.setAt j).way u).data := by
    intro u
    simp only [State.touchWay_cache, Cache.setAt_putSet]
    split
    · rename_i h; subst h; simp
    · simp
  obtain ⟨h1, h2, h3, h4⟩ := key v
  have := hc j v (h2 ▸ hv)
  exact ⟨this.enabled, by rw [h1]; exact this.cacheable, by rw [h1, h3, h4]; exact this.cleanEqual⟩

/-! ### A read hit -/

/-- A hit's Touch keeps the store sound. -/
theorem StoreSound.touchWay {s : State} (h : StoreSound s) {i : BitVec 5} {w : Fin 4}
    (hv : ((s.cache.setAt i).way w).valid = true) : StoreSound (s.touchWay i w) where
  memoryWf := h.memoryWf
  cacheSound j := by
    simp only [State.touchWay_cache, Cache.setAt_putSet]
    split
    · rename_i hj; subst hj; exact (h.cacheSound j).touch hv
    · exact h.cacheSound j
  cacheCoherent := coherent_putSet_touch h.cacheCoherent i w

/-- In a sound set the lookup is decided by the valid ways' tags. -/
theorem CacheSet.hit_congr {cs cs' : CacheSet} (hs' : cs'.Sound)
    (h : ∀ v, (cs'.way v).valid = (cs.way v).valid ∧ (cs'.way v).tag = (cs.way v).tag) (tag : BitVec 21) :
    cs'.hit tag = cs.hit tag := by
  cases hh : cs.hit tag with
  | some w =>
    obtain ⟨hv, ht⟩ := CacheSet.hit_some hh
    have := hs'.hit_eq (w := w) (by rw [(h w).1]; exact hv)
    rw [(h w).2, ht] at this
    exact this
  | none =>
    cases hh' : cs'.hit tag with
    | none => rfl
    | some w =>
      obtain ⟨hv, ht⟩ := CacheSet.hit_some hh'
      exact absurd ((h w).2 ▸ ht) (CacheSet.hit_none hh w ((h w).1 ▸ hv))

/-- A hit's Touch leaves the view. -/
theorem State.touchWay_view {s : State} (h : StoreSound s) {i : BitVec 5} {w : Fin 4}
    (hv : ((s.cache.setAt i).way w).valid = true) (a : Word) : (s.touchWay i w).view a = s.view a := by
  have hst := h.touchWay hv
  have hh : ((s.touchWay i w).cache.setAt (cacheIndex a)).hit (cacheTag a) =
      (s.cache.setAt (cacheIndex a)).hit (cacheTag a) := by
    refine CacheSet.hit_congr (hst.cacheSound _) ?_ _
    intro u
    simp only [State.touchWay_cache, Cache.setAt_putSet]
    split
    · rename_i hj; rw [hj]; simp
    · simp
  cases hw : (s.cache.setAt (cacheIndex a)).hit (cacheTag a) with
  | none => rw [State.view_miss hw, State.view_miss (hh.trans hw)]; rfl
  | some u =>
    rw [State.view_hit h.cacheCoherent hw, State.view_hit hst.cacheCoherent (hh.trans hw)]
    simp only [State.touchWay_cache, Cache.setAt_putSet]
    split
    · rename_i hj; rw [hj]; simp
    · rfl

/-! ### A read miss -/

/-- The victim of a set. -/
def State.victimWay (s : State) (i : BitVec 5) : Way := (s.cache.setAt i).way (s.cache.setAt i).victim

/-- What the write-back of a victim leaves in memory: the view of every byte that the victim held, memory elsewhere. -/
theorem State.writeBackVictim_read {s : State} (h : StoreSound s) (i : BitVec 5) (a : Word)
    (hv : (s.victimWay i).valid = true) (ht : cacheTag a = (s.victimWay i).tag) (hi : cacheIndex a = i) :
    (s.writeBackVictim i).mem.read a.toNat = (s.victimWay i).data.byte (blockOffset a) := by
  have hw := h.cacheCoherent i _ hv
  unfold State.writeBackVictim State.victimDirty
  cases hd : (s.victimWay i).dirty with
  | true =>
    have hc : ((s.victimWay i).valid && (s.victimWay i).dirty) = true := by rw [hv, hd]; rfl
    simp only [State.victimWay] at hc ht
    simp only [hc, if_true]
    rw [Memory.writeBlock_read h.memoryWf, if_pos ⟨ht, hi⟩]
    rfl
  | false =>
    have hc : ((s.victimWay i).valid && (s.victimWay i).dirty) = false := by rw [hv, hd]; rfl
    have := hw.cleanEqual hd (blockOffset a)
    simp only [State.victimWay] at hc ht ⊢
    simp only [hc]
    rw [this, ← ht, ← hi, blockByteAddress_self]
    simp

theorem State.writeBackVictim_read_ne {s : State} (h : StoreSound s) (i : BitVec 5) (a : Word)
    (hne : ¬ ((s.victimWay i).valid = true ∧ cacheTag a = (s.victimWay i).tag ∧ cacheIndex a = i)) :
    (s.writeBackVictim i).mem.read a.toNat = s.mem.read a.toNat := by
  unfold State.writeBackVictim
  simp only
  split
  · rename_i hd
    simp only [State.victimDirty, Bool.and_eq_true] at hd
    rw [Memory.writeBlock_read h.memoryWf, if_neg]
    exact fun hh => hne ⟨hd.1, hh.1, hh.2⟩
  · rfl

theorem State.writeBackVictim_wf {s : State} (h : StoreSound s) (i : BitVec 5) : (s.writeBackVictim i).mem.wf = true := by
  unfold State.writeBackVictim
  simp only
  split
  · exact Memory.writeBlock_wf h.memoryWf _ _ _
  · exact h.memoryWf

/-- A set after a miss at `pa` (rule R105). -/
theorem State.fillBlock_cache (s : State) (pa : Word) (j : BitVec 5) :
    (s.fillBlock pa).cache.setAt j =
      if j = cacheIndex pa then
        ((s.cache.setAt (cacheIndex pa)).setWay (s.cache.setAt (cacheIndex pa)).victim
          ((s.victimWay (cacheIndex pa)).install (cacheTag pa)
            ((s.writeBackVictim (cacheIndex pa)).mem.readBlock (cacheTag pa) (cacheIndex pa)))).touch
          (s.cache.setAt (cacheIndex pa)).victim
      else s.cache.setAt j := by
  simp only [State.fillBlock, State.installBlock, State.putSet_cache, Cache.setAt_putSet, State.writeBackVictim_cache,
    State.victimWay]

/-- A way after a miss at `pa`: the victim of that set holds the new block, every other way is as it was but for its age. -/
theorem State.fillBlock_way (s : State) (pa : Word) (j : BitVec 5) (v : Fin 4) :
    let y := ((s.fillBlock pa).cache.setAt j).way v
    if j = cacheIndex pa ∧ v = (s.cache.setAt (cacheIndex pa)).victim then
      y.tag = cacheTag pa ∧ y.valid = true ∧ y.dirty = false ∧
        y.data = (s.writeBackVictim (cacheIndex pa)).mem.readBlock (cacheTag pa) (cacheIndex pa)
    else
      y.tag = ((s.cache.setAt j).way v).tag ∧ y.valid = ((s.cache.setAt j).way v).valid ∧
        y.dirty = ((s.cache.setAt j).way v).dirty ∧ y.data = ((s.cache.setAt j).way v).data := by
  intro y
  simp only [y, State.fillBlock_cache]
  by_cases hj : j = cacheIndex pa
  · subst hj
    by_cases hv : v = (s.cache.setAt (cacheIndex pa)).victim
    · subst hv; simp [CacheSet.way_setWay, Way.install]
    · simp [hv, CacheSet.way_setWay]
  · simp [hj]

/-- A miss keeps the store sound. -/
theorem StoreSound.fillBlock {s : State} (h : StoreSound s) {pa : Word} (hb : bypassesCache s pa = false)
    (hm : (s.cache.setAt (cacheIndex pa)).hit (cacheTag pa) = none) : StoreSound (s.fillBlock pa) where
  memoryWf := State.writeBackVictim_wf h _
  cacheSound j := by
    rw [State.fillBlock_cache]
    split
    · exact (h.cacheSound _).install hm _
    · exact h.cacheSound j
  cacheCoherent j v hv := by
    have hw := State.fillBlock_way s pa j v
    simp only [bypassesCache, Bool.or_eq_false_iff, Bool.not_eq_false'] at hb
    split at hw
    · rename_i hjv
      obtain ⟨h1, -, -, h4⟩ := hw
      refine ⟨hb.1, fun o => ?_, fun _ o => ?_⟩
      · rw [h1, hjv.1, uncacheable_block (qa := pa) (by simp) (by simp)]; exact hb.2
      · rw [h1, h4, hjv.1, Memory.readBlock_byte]; rfl
    · rename_i hjv
      obtain ⟨h1, h2, h3, h4⟩ := hw
      have hvv := h2 ▸ hv
      have hold := h.cacheCoherent j v hvv
      refine ⟨hold.enabled, by rw [h1]; exact hold.cacheable, fun hd o => ?_⟩
      rw [h1, h4, hold.cleanEqual (h3 ▸ hd) o, State.fillBlock_mem, State.writeBackVictim_read_ne h]
      rintro ⟨hvv', ht, hi⟩
      simp only [cacheTag_blockByteAddress, cacheIndex_blockByteAddress] at ht hi
      rw [← hi] at ht hvv' hjv
      by_cases hvx : v = (s.cache.setAt j).victim
      · exact hjv ⟨rfl, hvx⟩
      · exact (h.cacheSound j).oneWayPerTag v _ hvx hvv hvv' ht

/-- A miss leaves the view (rule R112). -/
theorem State.fillBlock_view {s : State} (h : StoreSound s) {pa : Word} (hb : bypassesCache s pa = false)
    (hm : (s.cache.setAt (cacheIndex pa)).hit (cacheTag pa) = none) (a : Word) :
    (s.fillBlock pa).view a = s.view a := by
  have hst := h.fillBlock hb hm
  by_cases hblk : cacheTag a = cacheTag pa ∧ cacheIndex a = cacheIndex pa
  · -- the installed block: a copy of memory, which was the view
    have hw := State.fillBlock_way s pa (cacheIndex pa) (s.cache.setAt (cacheIndex pa)).victim
    simp only [and_self, if_true] at hw
    obtain ⟨h1, h2, -, h4⟩ := hw
    have hhit := (hst.cacheSound (cacheIndex pa)).hit_eq h2
    rw [h1] at hhit
    rw [State.view_hit hst.cacheCoherent (w := (s.cache.setAt (cacheIndex pa)).victim) (by rw [hblk.1, hblk.2]; exact hhit),
      hblk.2, h4, Memory.readBlock_byte, ← hblk.1, ← hblk.2, blockByteAddress_self,
      State.view_miss (by rw [hblk.1, hblk.2]; exact hm), State.writeBackVictim_read_ne h]
    rintro ⟨hv, ht, -⟩
    rw [hblk.1, hblk.2] at ht
    rw [hblk.2] at hv
    exact CacheSet.hit_none hm _ hv ht.symm
  · -- any other block
    have hmiss : ∀ w, (s.cache.setAt (cacheIndex a)).hit (cacheTag a) = some w →
        ¬ (cacheIndex a = cacheIndex pa ∧ w = (s.cache.setAt (cacheIndex pa)).victim) →
        (s.fillBlock pa).view a = s.view a := by
      intro w hw hne
      obtain ⟨hv, ht⟩ := CacheSet.hit_some hw
      have hway := State.fillBlock_way s pa (cacheIndex a) w
      rw [if_neg hne] at hway
      obtain ⟨h1, h2, -, h4⟩ := hway
      have hhit := (hst.cacheSound (cacheIndex a)).hit_eq (h2.trans hv)
      rw [h1, ht] at hhit
      rw [State.view_hit hst.cacheCoherent hhit, State.view_hit h.cacheCoherent hw, h4]
    have hnone : (∀ v, ((s.fillBlock pa).cache.setAt (cacheIndex a)).hit (cacheTag a) = some v → False) →
        (s.fillBlock pa).view a = (s.writeBackVictim (cacheIndex pa)).mem.read a.toNat := by
      intro hn
      rw [State.view_miss]
      · rfl
      · cases hx : ((s.fillBlock pa).cache.setAt (cacheIndex a)).hit (cacheTag a) with
        | none => rfl
        | some v => exact (hn v hx).elim
    cases hw : (s.cache.setAt (cacheIndex a)).hit (cacheTag a) with
    | some w =>
      by_cases hev : cacheIndex a = cacheIndex pa ∧ w = (s.cache.setAt (cacheIndex pa)).victim
      · -- the block that was evicted
        obtain ⟨hi, rfl⟩ := hev
        obtain ⟨hv, ht⟩ := CacheSet.hit_some hw
        rw [hi] at hv ht
        rw [hnone, State.writeBackVictim_read h _ _ hv (by rw [← ht]; rfl) hi, State.view_hit h.cacheCoherent hw, hi]
        · rfl
        · intro v hx
          obtain ⟨hxv, hxt⟩ := CacheSet.hit_some hx
          have hway := State.fillBlock_way s pa (cacheIndex a) v
          split at hway
          · rw [hway.1] at hxt; exact hblk ⟨hxt.symm, hi⟩
          · rename_i hne
            rw [hway.1] at hxt
            rw [hway.2.1] at hxv
            have hvx : v ≠ (s.cache.setAt (cacheIndex pa)).victim := fun hh => hne ⟨hi, hh⟩
            rw [hi] at hxv hxt
            exact (h.cacheSound _).oneWayPerTag v _ hvx hxv hv (by rw [hxt, ht])
      · exact hmiss w hw hev
    | none =>
      rw [hnone, State.view_miss hw, State.writeBackVictim_read_ne h]
      · rintro ⟨hv, ht, hi⟩
        rw [hi] at hw
        exact CacheSet.hit_none hw _ hv ht.symm
      · intro v hx
        obtain ⟨hxv, hxt⟩ := CacheSet.hit_some hx
        have hway := State.fillBlock_way s pa (cacheIndex a) v
        split at hway
        · rename_i hj
          rw [hway.1] at hxt
          exact hblk ⟨hxt.symm, hj.1⟩
        · rw [hway.1] at hxt
          rw [hway.2.1] at hxv
          exact CacheSet.hit_none hw v hxv hxt

end Sys2Proof.Machine
end

