-- ==== Sys2Proof/Laws/Decode.lean ====
section
/-! SUPPORT. The fields of the words that the encoder writes, as the decoder reads them (rules R161 to R163, R168). -/

namespace Sys2Proof

/-! ### Register fields and immediates -/

/-- A register's field names that register. -/
@[simp] theorem regOfField_regBits (r : Reg) : regOfField (regBits r) = some r := by
  revert r; decide

/-- The top bit of a register's field is 0 (rule R168). -/
@[simp] theorem regBits_top (r : Reg) : (regBits r)[4] = false := by
  revert r; decide

/-- The field of the register that it names. -/
theorem regBits_of_regOfField {f : BitVec 5} {r : Reg} (h : regOfField f = some r) : regBits r = f := by
  revert f r; decide

/-- A field that names a register has its top bit 0, and only such a field does (rule R167). -/
theorem regOfField_isSome (f : BitVec 5) : (regOfField f).isSome = !f.getLsbD 4 := by
  revert f; decide

theorem immInRange_iff (imm : Int) : immInRange imm = true ↔ -32768 ≤ imm ∧ imm ≤ 32767 := by
  simp [immInRange]

theorem offsetInRange_iff (offset : Int) : offsetInRange offset = true ↔ -1048576 ≤ offset ∧ offset ≤ 1048575 := by
  simp [offsetInRange]

/-- An immediate in range is the value of its 16 bits. -/
theorem toInt_ofInt_imm {imm : Int} (h : immInRange imm = true) : (BitVec.ofInt 16 imm).toInt = imm := by
  rw [immInRange_iff] at h
  rw [BitVec.toInt_ofInt, Int.bmod_def]; omega

/-- An offset in range is the value of its 21 bits. -/
theorem toInt_ofInt_offset {offset : Int} (h : offsetInRange offset = true) : (BitVec.ofInt 21 offset).toInt = offset := by
  rw [offsetInRange_iff] at h
  rw [BitVec.toInt_ofInt, Int.bmod_def]; omega

/-! ### Bits of the four formats (rule R161) -/

theorem encodeR_bit (op : BitVec 6) (a b d : Reg) (k : Nat) :
    (encodeR op a b d).getLsbD k =
      if k < 11 then false else if k - 11 < 5 then (regBits d).getLsbD (k - 11)
      else if k - 16 < 5 then (regBits b).getLsbD (k - 16)
      else if k - 21 < 5 then (regBits a).getLsbD (k - 21) else op.getLsbD (k - 26) := by
  change BitVec.getLsbD (w := 6 + 5 + 5 + 5 + 11) (op ++ regBits a ++ regBits b ++ regBits d ++ 0#11) k = _
  simp only [BitVec.getLsbD_append, BitVec.getLsbD_zero, Nat.sub_sub]

theorem encodeG_bit (op : BitVec 6) (a b : Reg) (imm : Int) (k : Nat) :
    (encodeG op a b imm).getLsbD k =
      if k < 16 then (BitVec.ofInt 16 imm).getLsbD k
      else if k - 16 < 5 then (regBits b).getLsbD (k - 16)
      else if k - 21 < 5 then (regBits a).getLsbD (k - 21) else op.getLsbD (k - 26) := by
  change BitVec.getLsbD (w := 6 + 5 + 5 + 16) (op ++ regBits a ++ regBits b ++ BitVec.ofInt 16 imm) k = _
  simp only [BitVec.getLsbD_append, Nat.sub_sub]

theorem encodeJ_bit (op : BitVec 6) (offset : Int) (k : Nat) :
    (encodeJ op offset).getLsbD k =
      if k < 21 then (BitVec.ofInt 21 offset).getLsbD k else if k - 21 < 5 then false else op.getLsbD (k - 26) := by
  change BitVec.getLsbD (w := 6 + 5 + 21) (op ++ 0#5 ++ BitVec.ofInt 21 offset) k = _
  simp only [BitVec.getLsbD_append, BitVec.getLsbD_zero, Nat.sub_sub]

theorem encodeB_bit (op : BitVec 6) (k : Nat) :
    (encodeB op).getLsbD k = if k < 26 then false else op.getLsbD (k - 26) := by
  change BitVec.getLsbD (w := 6 + 26) (op ++ 0#26) k = _
  simp only [BitVec.getLsbD_append, BitVec.getLsbD_zero]

/-! ### Fields of an encoded word -/

@[simp] theorem opcodeField_encodeR (op : BitVec 6) (a b d : Reg) : opcodeField (encodeR op a b d) = op := by
  apply BitVec.eq_of_getLsbD_eq; intro k hk
  rw [opcodeField, BitVec.getLsbD_extractLsb', encodeR_bit]
  simp only [hk, decide_true, Bool.true_and]
  rw [if_neg (by omega), if_neg (by omega), if_neg (by omega), if_neg (by omega)]; congr 1; omega

@[simp] theorem rs3Field_encodeR (op : BitVec 6) (a b d : Reg) : rs3Field (encodeR op a b d) = regBits a := by
  apply BitVec.eq_of_getLsbD_eq; intro k hk
  rw [rs3Field, BitVec.getLsbD_extractLsb', encodeR_bit]
  simp only [hk, decide_true, Bool.true_and]
  rw [if_neg (by omega), if_neg (by omega), if_neg (by omega), if_pos (by omega)]; congr 1; omega

@[simp] theorem rs1Field_encodeR (op : BitVec 6) (a b d : Reg) : rs1Field (encodeR op a b d) = regBits b := by
  apply BitVec.eq_of_getLsbD_eq; intro k hk
  rw [rs1Field, BitVec.getLsbD_extractLsb', encodeR_bit]
  simp only [hk, decide_true, Bool.true_and]
  rw [if_neg (by omega), if_neg (by omega), if_pos (by omega)]; congr 1; omega

@[simp] theorem rs2Field_encodeR (op : BitVec 6) (a b d : Reg) : rs2Field (encodeR op a b d) = regBits d := by
  apply BitVec.eq_of_getLsbD_eq; intro k hk
  rw [rs2Field, BitVec.getLsbD_extractLsb', encodeR_bit]
  simp only [hk, decide_true, Bool.true_and]
  rw [if_neg (by omega), if_pos (by omega)]; congr 1; omega

@[simp] theorem opcodeField_encodeG (op : BitVec 6) (a b : Reg) (imm : Int) : opcodeField (encodeG op a b imm) = op := by
  apply BitVec.eq_of_getLsbD_eq; intro k hk
  rw [opcodeField, BitVec.getLsbD_extractLsb', encodeG_bit]
  simp only [hk, decide_true, Bool.true_and]
  rw [if_neg (by omega), if_neg (by omega), if_neg (by omega)]; congr 1; omega

@[simp] theorem rs3Field_encodeG (op : BitVec 6) (a b : Reg) (imm : Int) : rs3Field (encodeG op a b imm) = regBits a := by
  apply BitVec.eq_of_getLsbD_eq; intro k hk
  rw [rs3Field, BitVec.getLsbD_extractLsb', encodeG_bit]
  simp only [hk, decide_true, Bool.true_and]
  rw [if_neg (by omega), if_neg (by omega), if_pos (by omega)]; congr 1; omega

@[simp] theorem rs1Field_encodeG (op : BitVec 6) (a b : Reg) (imm : Int) : rs1Field (encodeG op a b imm) = regBits b := by
  apply BitVec.eq_of_getLsbD_eq; intro k hk
  rw [rs1Field, BitVec.getLsbD_extractLsb', encodeG_bit]
  simp only [hk, decide_true, Bool.true_and]
  rw [if_neg (by omega), if_pos (by omega)]; congr 1; omega

theorem immField_encodeG (op : BitVec 6) (a b : Reg) {imm : Int} (h : immInRange imm = true) :
    immField (encodeG op a b imm) = imm := by
  have : (encodeG op a b imm).extractLsb' 0 16 = BitVec.ofInt 16 imm := by
    apply BitVec.eq_of_getLsbD_eq; intro k hk
    rw [BitVec.getLsbD_extractLsb', encodeG_bit]
    simp only [hk, decide_true, Bool.true_and]
    rw [if_pos (by omega), Nat.zero_add]
  rw [immField, this, toInt_ofInt_imm h]

@[simp] theorem opcodeField_encodeJ (op : BitVec 6) (offset : Int) : opcodeField (encodeJ op offset) = op := by
  apply BitVec.eq_of_getLsbD_eq; intro k hk
  rw [opcodeField, BitVec.getLsbD_extractLsb', encodeJ_bit]
  simp only [hk, decide_true, Bool.true_and]
  rw [if_neg (by omega), if_neg (by omega)]; congr 1; omega

theorem offsetField_encodeJ (op : BitVec 6) {offset : Int} (h : offsetInRange offset = true) :
    offsetField (encodeJ op offset) = offset := by
  have : (encodeJ op offset).extractLsb' 0 21 = BitVec.ofInt 21 offset := by
    apply BitVec.eq_of_getLsbD_eq; intro k hk
    rw [BitVec.getLsbD_extractLsb', encodeJ_bit]
    simp only [hk, decide_true, Bool.true_and]
    rw [if_pos (by omega), Nat.zero_add]
  rw [offsetField, this, toInt_ofInt_offset h]

@[simp] theorem opcodeField_encodeB (op : BitVec 6) : opcodeField (encodeB op) = op := by
  apply BitVec.eq_of_getLsbD_eq; intro k hk
  rw [opcodeField, BitVec.getLsbD_extractLsb', encodeB_bit]
  simp only [hk, decide_true, Bool.true_and]
  rw [if_neg (by omega)]; congr 1; omega

/-! ### The fixed bits of a row (rule R168) -/

/-- The fixed bits of an R-format word are its opcode and three zeros. -/
theorem encodeR_mask (op : BitVec 6) (a b d : Reg) : encodeR op a b d &&& 0xFE108000#32 = encodeB op := by
  apply BitVec.eq_of_getLsbD_eq; intro k hk
  rw [BitVec.getLsbD_and, encodeR_bit, encodeB_bit]
  interval_cases k <;> simp

/-- The fixed bits of a G-format word with two register fields are its opcode and two zeros. -/
theorem encodeG_mask (op : BitVec 6) (a b : Reg) (imm : Int) : encodeG op a b imm &&& 0xFE100000#32 = encodeB op := by
  apply BitVec.eq_of_getLsbD_eq; intro k hk
  rw [BitVec.getLsbD_and, encodeG_bit, encodeB_bit]
  interval_cases k <;> simp

/-- The fixed bits of LUI's word are its opcode and one zero. -/
theorem encodeG_lui_mask (op : BitVec 6) (a b : Reg) (imm : Int) :
    encodeG op a b imm &&& 0xFE000000#32 = encodeB op := by
  apply BitVec.eq_of_getLsbD_eq; intro k hk
  rw [BitVec.getLsbD_and, encodeG_bit, encodeB_bit]
  interval_cases k <;> simp

/-- The fixed bits of a J-format word are its opcode. -/
theorem encodeJ_mask (op : BitVec 6) (offset : Int) : encodeJ op offset &&& 0xFC000000#32 = encodeB op := by
  apply BitVec.eq_of_getLsbD_eq; intro k hk
  rw [BitVec.getLsbD_and, encodeJ_bit, encodeB_bit]
  interval_cases k <;> simp

/-- The fixed bits of a B-format word are its opcode. -/
theorem encodeB_mask (op : BitVec 6) : encodeB op &&& 0xFC000000#32 = encodeB op := by
  apply BitVec.eq_of_getLsbD_eq; intro k hk
  rw [BitVec.getLsbD_and, encodeB_bit]
  interval_cases k <;> simp

end Sys2Proof
end

