-- ==== Sys2Proof/Laws/Physical.lean ====
section
/-! SUPPORT. What `physRead` and `physWrite` can do, each said once (rules R70, R71, R75, R105, R107, R112): `PhysReadSpec`
and `PhysWriteSpec` with the theorems `physRead_spec` and `physWrite_spec`. -/

namespace Sys2Proof.Machine

/-! ### Devices (rule R75) -/

/-- A read of memory is the view of bytes that go past the cache. -/
theorem readValue_view {s : State} {pa : Word} {n : Width}
    (hm : ∀ i, i < widthBytes n → (s.cache.setAt (cacheIndex (pa + BitVec.ofNat 32 i))).hit
      (cacheTag (pa + BitVec.ofNat 32 i)) = none) :
    s.mem.readValue pa n = littleEndian n (fun i => s.view (pa + BitVec.ofNat 32 i)) := by
  unfold Memory.readValue
  exact littleEndian_congr fun i hi => (State.view_miss (hm i hi)).symm

/-- The frame of a device read: at most the command latch and the random stream change. -/
theorem devRead_frame (pa : Word) (n : Width) (s : State) :
    ReadFrame s (devRead pa n s).2 ∧ (devRead pa n s).2.cache = s.cache ∧ (devRead pa n s).2.mem = s.mem ∧
      (devRead pa n s).2.stats = s.stats := by
  unfold devRead
  split
  · split
    · exact ⟨⟨rfl, rfl, rfl, rfl, rfl, rfl, rfl, rfl, rfl, rfl, rfl, rfl, rfl, rfl⟩, rfl, rfl, rfl⟩
    · exact ⟨⟨rfl, rfl, rfl, rfl, rfl, rfl, rfl, rfl, rfl, rfl, rfl, rfl, rfl, rfl⟩, rfl, rfl, rfl⟩
    · exact ⟨ReadFrame.refl s, rfl, rfl, rfl⟩
  · exact ⟨ReadFrame.refl s, rfl, rfl, rfl⟩

/-- Where no command is pending at the address a device read is a read of memory. -/
theorem devRead_plain {pa : Word} (n : Width) {s : State} (h : isCtrl pa = false ∨ s.mmioPending = none) :
    devRead pa n s = (s.mem.readValue pa n, s) := by
  unfold devRead
  rcases h with h | h <;> simp [h]

/-- A device read elsewhere than at 0x2000 leaves the command latch and the random stream. -/
theorem devRead_latches (pa : Word) (n : Width) (s : State) :
    (devRead pa n s).2.mmioPending = (if isCtrl pa then none else s.mmioPending) ∧
      (isCtrl pa = false ∨ s.mmioPending ≠ some .random → (devRead pa n s).2.prngState = s.prngState) := by
  unfold devRead
  by_cases hc : isCtrl pa = true
  · simp only [hc, if_true]
    cases hp : s.mmioPending with
    | none => simp [hp]
    | some m => cases m <;> simp
  · simp [hc]

theorem devWrite_frame (pa : Word) (n : Width) (v : Word) (s : State) : WriteFrame s (devWrite pa n v s) :=
  ⟨rfl, rfl, rfl, rfl, rfl, rfl, rfl, rfl, rfl, rfl, rfl, rfl⟩

/-! ### What a physical read can do -/

/-- Everything that `PhysRead` at `pa` can do to the latches, the counters and the latency. -/
structure PhysReadSpec (pa : Word) (s : State) (r : Timed Word) : Prop where
  frame : ReadFrame s r.st
  mmioPending : r.st.mmioPending = if isCtrl pa then none else s.mmioPending
  prngState : isCtrl pa = false ∨ s.mmioPending ≠ some .random → r.st.prngState = s.prngState
  retired : r.st.stats.retired = s.stats.retired
  latPos : 1 ≤ r.lat
  sound : StoreSound s → StoreSound r.st
  view : StoreSound s → ∀ a, r.st.view a = s.view a

theorem isCtrl_uncacheable {pa : Word} (h : isCtrl pa = true) : uncacheable pa = true := by
  simp only [isCtrl, beq_iff_eq] at h
  subst h; decide

theorem not_ctrl_of_cached {s : State} {pa : Word} (h : bypassesCache s pa = false) : isCtrl pa = false := by
  cases hc : isCtrl pa with
  | false => rfl
  | true => simp [bypassesCache, isCtrl_uncacheable hc] at h

theorem countRead_frame (kind : AccessKind) (b : Bool) (s : State) :
    ReadFrame s (countRead kind b s) ∧ (countRead kind b s).cache = s.cache ∧ (countRead kind b s).mem = s.mem ∧
      (countRead kind b s).mmioPending = s.mmioPending ∧ (countRead kind b s).prngState = s.prngState ∧
      (countRead kind b s).stats.retired = s.stats.retired := by
  cases kind <;> exact ⟨⟨rfl, rfl, rfl, rfl, rfl, rfl, rfl, rfl, rfl, rfl, rfl, rfl, rfl, rfl⟩, rfl, rfl, rfl, rfl, rfl⟩

/-- The view depends on the parameters, the cache and memory only. -/
theorem State.view_congr {s t : State} (hp : t.params = s.params) (hc : t.cache = s.cache) (hm : t.mem = s.mem)
    (a : Word) : t.view a = s.view a := by
  unfold State.view; rw [hp, hc, hm]

/-- What `PhysRead` can do (rules R70, R105, R112). -/
theorem physRead_spec (kind : AccessKind) (pa : Word) (n : Width) (s : State) :
    PhysReadSpec pa s (physRead kind pa n s) := by
  unfold physRead
  cases hb : bypassesCache s pa with
  | true =>
    simp only [if_true]
    obtain ⟨h1, h2, h3, h4⟩ := devRead_frame pa n s
    obtain ⟨h5, h6⟩ := devRead_latches pa n s
    exact ⟨h1, h5, h6, by rw [h4], Nat.le_of_ble_eq_true rfl, fun h => h.congr h1.params h2 h3,
      fun _ a => State.view_congr h1.params h2 h3 a⟩
  | false =>
    have hn := not_ctrl_of_cached hb
    simp only [Bool.false_eq_true, if_false]
    unfold cacheRead
    dsimp only
    split
    · rename_i w hw
      obtain ⟨c1, c2, c3, c4, c5, c6⟩ := countRead_frame kind true (s.touchWay (cacheIndex pa) w)
      have hv := (CacheSet.hit_some hw).1
      have c0 : ReadFrame s (s.touchWay (cacheIndex pa) w) :=
        ⟨rfl, rfl, rfl, rfl, rfl, rfl, rfl, rfl, rfl, rfl, rfl, rfl, rfl, rfl⟩
      exact ⟨c0.trans c1, by simp [c4, hn], fun _ => c5, c6, Nat.le_of_ble_eq_true rfl, fun h => (h.touchWay hv).congr c1.params c2 c3,
        fun h a => (State.view_congr c1.params c2 c3 a).trans (State.touchWay_view h hv a)⟩
    · rename_i hw
      obtain ⟨c1, c2, c3, c4, c5, c6⟩ := countRead_frame kind false (s.fillBlock pa)
      have c0 : ReadFrame s (s.fillBlock pa) :=
        ⟨rfl, rfl, rfl, rfl, rfl, rfl, rfl, rfl, rfl, rfl, rfl, rfl, rfl, rfl⟩
      exact ⟨c0.trans c1, by simp [c4, hn], fun _ => c5, c6, by simp only [State.missLatency, latMiss]; omega,
        fun h => (h.fillBlock hb hw).congr c1.params c2 c3,
        fun h a => (State.view_congr c1.params c2 c3 a).trans (State.fillBlock_view h hb hw a)⟩

/-- In a coherent store an address past the cache has no cached byte in the whole aligned access. -/
theorem bypass_aligned {s : State} {pa : Word} {n : Width} (ha : aligned pa n = true) {i : Nat} (hi : i < widthBytes n) :
    bypassesCache s (pa + BitVec.ofNat 32 i) = bypassesCache s pa := by
  unfold bypassesCache
  rw [uncacheable_block (aligned_cacheTag ha hi) (aligned_cacheIndex ha hi)]

/-- What `PhysRead` returns, where no MMIO command is pending at the address: the view's bytes, little-endian (rules R70,
R82). -/
theorem physRead_val (kind : AccessKind) {pa : Word} {n : Width} {s : State} (h : StoreSound s) (ha : aligned pa n = true)
    (hp : isCtrl pa = false ∨ s.mmioPending = none) :
    (physRead kind pa n s).val = littleEndian n (fun i => s.view (pa + BitVec.ofNat 32 i)) := by
  unfold physRead
  cases hb : bypassesCache s pa with
  | true =>
    simp only [if_true]
    rw [devRead_plain n hp]
    exact readValue_view fun i hi =>
      State.hit_none_of_bypass h.cacheCoherent ((bypass_aligned ha hi).trans hb)
  | false =>
    simp only [Bool.false_eq_true, if_false]
    unfold cacheRead
    dsimp only
    split
    · rename_i w hw
      simp only [Way.readValue]
      refine littleEndian_congr fun i hi => ?_
      rw [State.view_hit h.cacheCoherent (w := w) (by rw [aligned_cacheTag ha hi, aligned_cacheIndex ha hi]; exact hw),
        aligned_cacheIndex ha hi]
    · rename_i hw
      simp only [Way.readValue]
      refine littleEndian_congr fun i hi => ?_
      have hway := State.fillBlock_way s pa (cacheIndex pa) (s.cache.setAt (cacheIndex pa)).victim
      simp only [and_self, if_true] at hway
      have hst := h.fillBlock hb hw
      have hhit := (hst.cacheSound (cacheIndex pa)).hit_eq hway.2.1
      rw [hway.1] at hhit
      rw [← State.fillBlock_view h hb hw, State.view_hit hst.cacheCoherent
        (w := (s.cache.setAt (cacheIndex pa)).victim) (by rw [aligned_cacheTag ha hi, aligned_cacheIndex ha hi]; exact hhit),
        aligned_cacheIndex ha hi]

/-- What `PhysRead` returns at 0x2000 while a timestamp is pending (rule R68). -/
theorem physRead_timestamp (kind : AccessKind) (n : Width) {s : State} (hp : s.mmioPending = some .timestamp) :
    (physRead kind ctrlBase n s).val = lowBytes n s.timestamp := by
  have hb : bypassesCache s ctrlBase = true := by simp [bypassesCache, isCtrl_uncacheable (pa := ctrlBase) (by decide)]
  have hc : isCtrl ctrlBase = true := by decide
  simp [physRead, hb, devRead, hc, hp]

/-- What `PhysRead` returns at 0x2000 while a random word is pending, and the stream after it (rule R68). -/
theorem physRead_random (kind : AccessKind) (n : Width) {s : State} (hp : s.mmioPending = some .random) :
    (physRead kind ctrlBase n s).val = lowBytes n (prngNext s.params.prng s.prngState) ∧
      (physRead kind ctrlBase n s).st.prngState = prngNext s.params.prng s.prngState := by
  have hb : bypassesCache s ctrlBase = true := by simp [bypassesCache, isCtrl_uncacheable (pa := ctrlBase) (by decide)]
  have hc : isCtrl ctrlBase = true := by decide
  simp [physRead, hb, devRead, hc, hp]

/-! ### What a physical write can do -/

/-- Everything that `PhysWrite` of the low `n` bytes of `v` at `pa` can do. -/
structure PhysWriteSpec (pa : Word) (n : Width) (v : Word) (s : State) (r : Timed Unit) : Prop where
  frame : WriteFrame s r.st
  exitRequested : r.st.exitRequested = (s.exitRequested || (isCtrl pa && byteOf v 0 == 0x41#8))
  mmioPending : r.st.mmioPending =
    if isCtrl pa && byteOf v 0 == 0x42#8 then some .timestamp
    else if isCtrl pa && byteOf v 0 == 0x43#8 then some .random
    else s.mmioPending
  prngState : r.st.prngState = s.prngState
  vgaEvents : r.st.vgaEvents = if inVga pa then s.vgaEvents ++ [⟨pa, n, lowBytes n v⟩] else s.vgaEvents
  retired : r.st.stats.retired = s.stats.retired
  latPos : 1 ≤ r.lat
  sound : aligned pa n = true → StoreSound s → StoreSound r.st
  stored : aligned pa n = true → StoreSound s → ∀ i, i < widthBytes n → r.st.view (pa + BitVec.ofNat 32 i) = byteOf v i
  elsewhere : aligned pa n = true → StoreSound s → ∀ a, ¬ Covers pa n a → r.st.view a = s.view a

/-- No way of a coherent cache holds a block of a bypassed or missed access. -/
theorem covers_hit_none {s : State} {pa : Word} {n : Width} (ha : aligned pa n = true)
    (hm : (s.cache.setAt (cacheIndex pa)).hit (cacheTag pa) = none) {a : Word} (hcov : Covers pa n a) :
    (s.cache.setAt (cacheIndex a)).hit (cacheTag a) = none := by
  obtain ⟨i, hi, rfl⟩ := hcov
  rw [aligned_cacheTag ha hi, aligned_cacheIndex ha hi]; exact hm

theorem devWrite_store {s : State} (h : StoreSound s) {pa : Word} {n : Width} (v : Word) (ha : aligned pa n = true)
    (hm : (s.cache.setAt (cacheIndex pa)).hit (cacheTag pa) = none) :
    StoreSound (devWrite pa n v s) ∧
      (∀ i, i < widthBytes n → (devWrite pa n v s).view (pa + BitVec.ofNat 32 i) = byteOf v i) ∧
      (∀ a, ¬ Covers pa n a → (devWrite pa n v s).view a = s.view a) := by
  have hmem : (devWrite pa n v s).mem = s.mem.writeValue pa n v := rfl
  have hcache : (devWrite pa n v s).cache = s.cache := rfl
  have hpar : (devWrite pa n v s).params = s.params := rfl
  refine ⟨⟨?_, ?_, ?_⟩, ?_, ?_⟩
  · exact Memory.writeValue_wf h.memoryWf pa n v
  · intro i; rw [hcache]; exact h.cacheSound i
  · intro i w hv
    rw [hcache] at hv
    have hw := h.cacheCoherent i w hv
    refine ⟨hpar ▸ hw.enabled, by rw [hcache]; exact hw.cacheable, ?_⟩
    rw [hcache, hmem]
    intro hd o
    rw [hw.cleanEqual hd o, Memory.writeValue_read_ne]
    intro k hk heq
    have hcov : Covers pa n (blockByteAddress ((s.cache.setAt i).way w).tag i o) := ⟨k, hk, BitVec.eq_of_toNat_eq heq⟩
    have := covers_hit_none ha hm hcov
    simp only [cacheTag_blockByteAddress, cacheIndex_blockByteAddress] at this
    exact CacheSet.hit_none this w hv rfl
  · intro i hi
    rw [State.view_miss (by rw [hcache]; exact covers_hit_none ha hm ⟨i, hi, rfl⟩), hmem]
    exact Memory.writeValue_read h.memoryWf pa v hi
  · intro a hna
    have hne : ∀ i, i < widthBytes n → a.toNat ≠ (pa + BitVec.ofNat 32 i).toNat :=
      fun i hi heq => hna ⟨i, hi, BitVec.eq_of_toNat_eq heq⟩
    unfold State.view
    rw [hpar, hcache, hmem, Memory.writeValue_read_ne _ _ _ _ hne]

/-! ### A write hit (rule R107) -/

theorem Block.setBytes_byte (d : Block) (pa v : Word) (k : Nat) (hk : k ≤ 64) (o : BitVec 6) :
    (d.setBytes pa v k).byte o =
      if (o - blockOffset pa).toNat < k then byteOf v (o - blockOffset pa).toNat else d.byte o := by
  have hoff : ∀ j, blockOffset (pa + BitVec.ofNat 32 j) = blockOffset pa + BitVec.ofNat 6 j := by
    intro j
    apply BitVec.eq_of_toNat_eq
    rw [blockOffset_toNat, BitVec.toNat_add, BitVec.toNat_add, blockOffset_toNat, BitVec.toNat_ofNat, BitVec.toNat_ofNat]
    omega
  induction k with
  | zero => simp [Block.setBytes]
  | succ k ih =>
    rw [Block.setBytes, Block.setByte_byte, ih (by omega), hoff]
    by_cases ho : o = blockOffset pa + BitVec.ofNat 6 k
    · subst ho
      have : (blockOffset pa + BitVec.ofNat 6 k - blockOffset pa).toNat = k := by
        have h2 : blockOffset pa + BitVec.ofNat 6 k - blockOffset pa = BitVec.ofNat 6 k := by bv_omega
        rw [h2, BitVec.toNat_ofNat, Nat.mod_eq_of_lt (by omega)]
      rw [this, if_pos rfl, if_pos (Nat.lt_succ_self k)]
    · have hne : (o - blockOffset pa).toNat ≠ k := by
        intro h
        apply ho
        have h2 : o - blockOffset pa = BitVec.ofNat 6 k := by
          apply BitVec.eq_of_toNat_eq
          rw [h, BitVec.toNat_ofNat, Nat.mod_eq_of_lt (by omega)]
        rw [← h2]; bv_omega
      have : (o - blockOffset pa).toNat < k + 1 ↔ (o - blockOffset pa).toNat < k := by omega
      simp only [ho, if_false, this]

/-- The byte of an address that shares the block of an aligned access. -/
theorem offset_covers {pa a : Word} {n : Width} (ha : aligned pa n = true) (ht : cacheTag a = cacheTag pa)
    (hi : cacheIndex a = cacheIndex pa) :
    (blockOffset a - blockOffset pa).toNat < widthBytes n ↔ Covers pa n a := by
  have ht' := congrArg BitVec.toNat ht
  have hi' := congrArg BitVec.toNat hi
  rw [cacheTag_toNat, cacheTag_toNat] at ht'
  rw [cacheIndex_toNat, cacheIndex_toNat] at hi'
  have hsub : (blockOffset a - blockOffset pa).toNat = (64 - pa.toNat % 64 + a.toNat % 64) % 64 := by
    rw [BitVec.toNat_sub, blockOffset_toNat, blockOffset_toNat]
  have hal : ∀ i, i < widthBytes n → (pa + BitVec.ofNat 32 i).toNat = pa.toNat + i := fun i hi => aligned_add_toNat ha hi
  constructor
  · intro h
    rw [hsub] at h
    have hal0 : pa.toNat % widthBytes n = 0 := by simpa [aligned] using ha
    have hge : pa.toNat % 64 ≤ a.toNat % 64 := by
      by_contra hlt
      cases n <;> simp only [widthBytes] at h hal0 <;> omega
    refine ⟨a.toNat - pa.toNat, ?_, ?_⟩
    · cases n <;> simp only [widthBytes] at h ⊢ <;> omega
    · apply BitVec.eq_of_toNat_eq
      rw [hal _ (by cases n <;> simp only [widthBytes] at h ⊢ <;> omega)]
      omega
  · rintro ⟨i, hlt, rfl⟩
    rw [hsub, hal i hlt]
    rw [hal i hlt] at ht' hi'
    have := widthBytes_le n
    omega

theorem State.updateWay_way (s : State) (w : Fin 4) (pa : Word) (n : Width) (v : Word) (j : BitVec 5) (u : Fin 4) :
    let y := ((s.updateWay w pa n v).cache.setAt j).way u
    y.tag = ((s.cache.setAt j).way u).tag ∧ y.valid = ((s.cache.setAt j).way u).valid ∧
      y.dirty = (if j = cacheIndex pa ∧ u = w then true else ((s.cache.setAt j).way u).dirty) ∧
      y.data = (if j = cacheIndex pa ∧ u = w then ((s.cache.setAt j).way u).data.setBytes pa v (widthBytes n)
        else ((s.cache.setAt j).way u).data) := by
  intro y
  simp only [y, State.updateWay, State.putSet_cache, Cache.setAt_putSet]
  by_cases hj : j = cacheIndex pa
  · subst hj
    by_cases hu : u = w
    · subst hu; simp [CacheSet.way_setWay, Way.update]
    · simp [hu, CacheSet.way_setWay]
  · simp [hj]

theorem updateWay_store {s : State} (h : StoreSound s) {pa : Word} {n : Width} (v : Word) (ha : aligned pa n = true)
    {w : Fin 4} (hw : (s.cache.setAt (cacheIndex pa)).hit (cacheTag pa) = some w) :
    StoreSound (s.updateWay w pa n v) ∧
      (∀ i, i < widthBytes n → (s.updateWay w pa n v).view (pa + BitVec.ofNat 32 i) = byteOf v i) ∧
      (∀ a, ¬ Covers pa n a → (s.updateWay w pa n v).view a = s.view a) := by
  obtain ⟨hv, ht⟩ := CacheSet.hit_some hw
  have hsound : StoreSound (s.updateWay w pa n v) := by
    refine ⟨h.memoryWf, ?_, ?_⟩
    · intro j
      simp only [State.updateWay, State.putSet_cache, Cache.setAt_putSet]
      split
      · refine ((h.cacheSound _).update hv pa n v).touch ?_
        rw [CacheSet.way_setWay]; simpa [Way.update] using hv
      · exact h.cacheSound j
    · intro j u hvu
      obtain ⟨h1, h2, h3, h4⟩ := State.updateWay_way s w pa n v j u
      have hold := h.cacheCoherent j u (h2 ▸ hvu)
      refine ⟨hold.enabled, by rw [h1]; exact hold.cacheable, ?_⟩
      rw [h1, h3, h4]
      split
      · intro hd; exact absurd hd (by decide)
      · exact hold.cleanEqual
  have hview : ∀ a, (s.updateWay w pa n v).view a =
      if cacheTag a = cacheTag pa ∧ cacheIndex a = cacheIndex pa ∧ (blockOffset a - blockOffset pa).toNat < widthBytes n
      then byteOf v (blockOffset a - blockOffset pa).toNat else s.view a := by
    intro a
    have hh : ((s.updateWay w pa n v).cache.setAt (cacheIndex a)).hit (cacheTag a) =
        (s.cache.setAt (cacheIndex a)).hit (cacheTag a) :=
      CacheSet.hit_congr (hsound.cacheSound _)
        (fun u => ⟨(State.updateWay_way s w pa n v _ u).2.1, (State.updateWay_way s w pa n v _ u).1⟩) _
    cases hx : (s.cache.setAt (cacheIndex a)).hit (cacheTag a) with
    | none =>
      rw [State.view_miss hx, State.view_miss (hh.trans hx), if_neg]
      · rfl
      · rintro ⟨e1, e2, -⟩
        rw [e1, e2, hw] at hx; cases hx
    | some u =>
      obtain ⟨hxv, hxt⟩ := CacheSet.hit_some hx
      rw [State.view_hit h.cacheCoherent hx, State.view_hit hsound.cacheCoherent (hh.trans hx),
        (State.updateWay_way s w pa n v _ u).2.2.2]
      by_cases hblk : cacheTag a = cacheTag pa ∧ cacheIndex a = cacheIndex pa
      · have huw : u = w := by
          rw [hblk.1, hblk.2, hw] at hx; exact (Option.some.inj hx).symm
        rw [if_pos ⟨hblk.2, huw⟩, Block.setBytes_byte _ _ _ _ ((widthBytes_le n).trans (by decide))]
        simp [hblk]
      · have h1 : ¬ (cacheIndex a = cacheIndex pa ∧ u = w) := by
          rintro ⟨e1, e2⟩
          apply hblk
          refine ⟨?_, e1⟩
          rw [← hxt, ← ht, e1, e2]
        have h2 : ¬ (cacheTag a = cacheTag pa ∧ cacheIndex a = cacheIndex pa ∧
            (blockOffset a - blockOffset pa).toNat < widthBytes n) := fun hc => hblk ⟨hc.1, hc.2.1⟩
        rw [if_neg h1, if_neg h2]
  refine ⟨hsound, ?_, ?_⟩
  · intro i hi
    have hlt : i < 64 := lt_of_lt_of_le hi ((widthBytes_le n).trans (by decide))
    have hoff : (blockOffset (pa + BitVec.ofNat 32 i) - blockOffset pa).toNat = i := by
      have hb : (blockOffset (pa + BitVec.ofNat 32 i)).toNat = pa.toNat % 64 + i := by
        rw [blockOffset_toNat, aligned_add_toNat ha hi]
        cases n <;> simp only [aligned, widthBytes, beq_iff_eq] at ha hi <;> omega
      rw [BitVec.toNat_sub, hb, blockOffset_toNat]; omega
    rw [hview, if_pos ⟨aligned_cacheTag ha hi, aligned_cacheIndex ha hi, by rw [hoff]; exact hi⟩, hoff]
  · intro a hna
    rw [hview, if_neg]
    rintro ⟨e1, e2, e3⟩
    exact hna ((offset_covers ha e1 e2).1 e3)

/-- What `PhysWrite` can do (rules R66, R67, R71, R75, R107, R112). -/
theorem physWrite_spec (pa : Word) (n : Width) (v : Word) (s : State) : PhysWriteSpec pa n v s (physWrite pa n v s) := by
  unfold physWrite
  cases hb : bypassesCache s pa with
  | true =>
    simp only [if_true]
    have hm : StoreSound s → (s.cache.setAt (cacheIndex pa)).hit (cacheTag pa) = none :=
      fun h => State.hit_none_of_bypass h.cacheCoherent hb
    exact ⟨devWrite_frame pa n v s, rfl, rfl, rfl, rfl, rfl, Nat.le_of_ble_eq_true rfl, fun ha h => (devWrite_store h v ha (hm h)).1,
      fun ha h => (devWrite_store h v ha (hm h)).2.1, fun ha h => (devWrite_store h v ha (hm h)).2.2⟩
  | false =>
    have hn := not_ctrl_of_cached hb
    have hu : uncacheable pa = false := by
      simp only [bypassesCache, Bool.or_eq_false_iff] at hb; exact hb.2
    have hvga : inVga pa = false := by
      cases hv : inVga pa with
      | false => rfl
      | true =>
        rw [← Bool.not_eq_true, uncacheable_iff] at hu
        simp [inVga, vgaBase, ctrlBase, BitVec.le_def, BitVec.lt_def] at hv
        omega
    simp only [Bool.false_eq_true, if_false]
    unfold cacheWrite
    split
    · rename_i w hw
      have key := fun ha h => updateWay_store (s := s) (n := n) (pa := pa) h v ha hw
      refine ⟨⟨rfl, rfl, rfl, rfl, rfl, rfl, rfl, rfl, rfl, rfl, rfl, rfl⟩, ?_, ?_, rfl, ?_, rfl,
        Nat.le_of_ble_eq_true rfl, ?_, ?_, ?_⟩
      · simp [countWrite, hn]
      · simp [countWrite, hn]
      · simp [countWrite, hvga]
      · exact fun ha h => (key ha h).1.congr rfl rfl rfl
      · exact fun ha h => (key ha h).2.1
      · exact fun ha h => (key ha h).2.2
    · rename_i hw
      refine ⟨⟨rfl, rfl, rfl, rfl, rfl, rfl, rfl, rfl, rfl, rfl, rfl, rfl⟩, rfl, rfl, rfl, rfl, rfl,
        Nat.le_of_ble_eq_true rfl, ?_, ?_, ?_⟩
      · exact fun ha h => (devWrite_store h v ha hw).1.congr rfl rfl rfl
      · exact fun ha h => (devWrite_store h v ha hw).2.1
      · exact fun ha h => (devWrite_store h v ha hw).2.2

end Sys2Proof.Machine
end

