-- ==== Sys2Proof/Laws/Virtual.lean ====
section
/-! SUPPORT. What translation, the virtual accesses and the frame operations can do, each said once (rules R72 to R74, R130
to R140, R231, R237, R238). -/

namespace Sys2Proof.Machine

/-! ### Any number of reads -/

/-- `t` comes from `s` by physical reads: the frame, and the view and soundness of the store. -/
structure ReadSpec (s t : State) : Prop where
  frame : ReadFrame s t
  retired : t.stats.retired = s.stats.retired
  noCommand : s.mmioPending = none → t.mmioPending = none
  sound : StoreSound s → StoreSound t
  view : StoreSound s → ∀ a, t.view a = s.view a

theorem ReadSpec.refl (s : State) : ReadSpec s s := ⟨ReadFrame.refl s, rfl, id, id, fun _ _ => rfl⟩

theorem ReadSpec.trans {s t u : State} (h : ReadSpec s t) (k : ReadSpec t u) : ReadSpec s u :=
  ⟨h.frame.trans k.frame, k.retired.trans h.retired, fun hn => k.noCommand (h.noCommand hn), fun hs => k.sound (h.sound hs),
    fun hs a => (k.view (h.sound hs) a).trans (h.view hs a)⟩

theorem PhysReadSpec.toRead {pa : Word} {s : State} {r : Timed Word} (h : PhysReadSpec pa s r) : ReadSpec s r.st :=
  ⟨h.frame, h.retired, fun hn => by rw [h.mmioPending]; split <;> simp [hn], h.sound, h.view⟩

theorem physRead_read (kind : AccessKind) (pa : Word) (n : Width) (s : State) : ReadSpec s (physRead kind pa n s).st :=
  (physRead_spec kind pa n s).toRead

/-! ### Translation -/

/-- With paging off translation is the identity, without a read and without latency (rule R130). -/
theorem translate_off (acc : Access) (va : Word) {s : State} (h : s.ptbr = 0#32) : translate acc va s = ⟨.ok va, 0, s⟩ := by
  simp [translate, h]

/-- A translation only reads (rule R133). -/
theorem translate_read (acc : Access) (va : Word) (s : State) : ReadSpec s (translate acc va s).st := by
  unfold translate
  dsimp only
  split
  · exact ReadSpec.refl s
  · split
    · exact physRead_read _ _ _ _
    · exact (physRead_read _ _ _ _).trans (physRead_read _ _ _ _)

/-- Translation keeps the low 12 bits (rule R133). -/
theorem translate_offset {acc : Access} {va pa : Word} {s : State} (h : (translate acc va s).val = .ok pa) :
    pageOffset pa = pageOffset va := by
  unfold translate at h
  dsimp only at h
  split at h
  · simp only [Except.ok.injEq] at h; rw [h]
  · split at h
    · cases h
    · unfold leafResult at h
      split at h
      · cases h
      · split at h
        · cases h
        · split at h
          · cases h
          · simp only [Except.ok.injEq] at h
            subst h
            unfold pageOffset
            apply BitVec.eq_of_getLsbD_eq
            intro i hi
            rw [BitVec.getLsbD_extractLsb', BitVec.getLsbD_extractLsb', Nat.zero_add]
            change (decide (i < 12) && BitVec.getLsbD (w := 20 + 12) (_ ++ _) i) = _
            rw [BitVec.getLsbD_append]
            simp [hi]

/-- Translation keeps alignment, since it keeps the low 12 bits (rule R63). -/
theorem aligned_translate {acc : Access} {va pa : Word} {s : State} (h : (translate acc va s).val = .ok pa) (n : Width) :
    aligned pa n = aligned va n := by
  have h2 := congrArg BitVec.toNat (translate_offset h)
  simp only [pageOffset, BitVec.extractLsb'_toNat, Nat.shiftRight_zero] at h2
  cases n <;> simp only [aligned, widthBytes] <;> congr 1 <;> omega

/-- An aligned translation only reads. -/
theorem translateAligned_read (acc : Access) (va : Word) (n : Width) (s : State) :
    ReadSpec s (translateAligned acc va n s).st := by
  unfold translateAligned
  dsimp only
  split
  · exact translate_read _ _ _
  · split <;> exact translate_read _ _ _

/-- A translation that passes the alignment check gives an aligned address (rule R63). -/
theorem translateAligned_ok {acc : Access} {va pa : Word} {n : Width} {s : State}
    (h : (translateAligned acc va n s).val = .ok pa) : aligned pa n = true ∧ (translate acc va s).val = .ok pa := by
  unfold translateAligned at h
  dsimp only at h
  split at h
  · cases h
  · rename_i q hq
    split at h
    · rename_i ha
      simp only [Except.ok.injEq] at h
      subst h; exact ⟨ha, hq⟩
    · cases h

theorem translateAligned_off (acc : Access) (va : Word) {n : Width} {s : State} (h : s.ptbr = 0#32)
    (ha : aligned va n = true) : translateAligned acc va n s = ⟨.ok va, 0, s⟩ := by
  simp [translateAligned, translate_off acc va h, ha]

/-! ### Virtual reads -/

/-- A virtual read only reads (rules R72, R74). -/
theorem virtualRead_read (acc : Access) (kind : AccessKind) (va : Word) (n : Width) (s : State) :
    ReadSpec s (virtualRead acc kind va n s).st := by
  unfold virtualRead
  dsimp only
  split
  · exact translateAligned_read _ _ _ _
  · exact (translateAligned_read _ _ _ _).trans (physRead_read _ _ _ _)

/-- A virtual read takes at least one cycle (rules R72, R74, R261). -/
theorem virtualRead_lat (acc : Access) (kind : AccessKind) (va : Word) (n : Width) (s : State) :
    1 ≤ (virtualRead acc kind va n s).lat := by
  unfold virtualRead
  dsimp only
  split
  · exact le_max_right _ _
  · exact le_trans (physRead_spec _ _ _ _).latPos (Nat.le_add_left _ _)

/-- A virtual read whose translation succeeds reads at the translated address. -/
theorem virtualRead_ok {acc : Access} {kind : AccessKind} {va pa : Word} {n : Width} {s : State}
    (h : (translateAligned acc va n s).val = .ok pa) :
    (virtualRead acc kind va n s).val = .ok (physRead kind pa n (translateAligned acc va n s).st).val := by
  unfold virtualRead; dsimp only; rw [h]

/-- A virtual read whose translation or alignment check fails reports that fault. -/
theorem virtualRead_error {acc : Access} {kind : AccessKind} {va : Word} {f : FaultRec} {n : Width} {s : State}
    (h : (translateAligned acc va n s).val = .error f) :
    (virtualRead acc kind va n s).val = .error f ∧
      (virtualRead acc kind va n s).st = (translateAligned acc va n s).st := by
  unfold virtualRead; dsimp only; rw [h]; exact ⟨rfl, rfl⟩

/-! ### Writes -/

/-- `t` comes from `s` by physical reads and writes: the frame and the soundness of the store. -/
structure WriteSpec (s t : State) : Prop where
  frame : WriteFrame s t
  retired : t.stats.retired = s.stats.retired
  exitKept : s.exitRequested = true → t.exitRequested = true
  vgaGrows : ∃ e, t.vgaEvents = s.vgaEvents ++ e
  sound : StoreSound s → StoreSound t

theorem WriteSpec.refl (s : State) : WriteSpec s s := ⟨WriteFrame.refl s, rfl, id, ⟨[], by simp⟩, id⟩

theorem WriteSpec.trans {s t u : State} (h : WriteSpec s t) (k : WriteSpec t u) : WriteSpec s u :=
  ⟨h.frame.trans k.frame, k.retired.trans h.retired, fun he => k.exitKept (h.exitKept he), by
    obtain ⟨e, he⟩ := h.vgaGrows
    obtain ⟨e', he'⟩ := k.vgaGrows
    exact ⟨e ++ e', by rw [he', he, List.append_assoc]⟩, fun hs => k.sound (h.sound hs)⟩

theorem ReadSpec.toWrite {s t : State} (h : ReadSpec s t) : WriteSpec s t :=
  ⟨h.frame.toWrite, h.retired, fun he => h.frame.exitRequested.trans he, ⟨[], by simp [h.frame.vgaEvents]⟩, h.sound⟩

theorem PhysWriteSpec.toWrite {pa v : Word} {n : Width} {s : State} {r : Timed Unit} (h : PhysWriteSpec pa n v s r)
    (ha : aligned pa n = true) : WriteSpec s r.st :=
  ⟨h.frame, h.retired, fun he => by rw [h.exitRequested, he]; rfl, by
    rw [h.vgaEvents]; split
    · exact ⟨_, rfl⟩
    · exact ⟨[], by simp⟩, h.sound ha⟩

theorem physWrite_write {pa : Word} {n : Width} (v : Word) (s : State) (ha : aligned pa n = true) :
    WriteSpec s (physWrite pa n v s).st :=
  (physWrite_spec pa n v s).toWrite ha

/-- What a virtual write can do (rule R73). -/
theorem memWrite_write (va : Word) (n : Width) (v : Word) (s : State) : WriteSpec s (memWrite va n v s).st := by
  unfold memWrite
  dsimp only
  split
  · exact (translateAligned_read _ _ _ _).toWrite
  · rename_i pa hpa
    exact (translateAligned_read _ _ _ _).toWrite.trans (physWrite_write v _ (translateAligned_ok hpa).1)

/-- A virtual write takes at least one cycle (rules R73, R261). -/
theorem memWrite_lat (va : Word) (n : Width) (v : Word) (s : State) : 1 ≤ (memWrite va n v s).lat := by
  unfold memWrite
  dsimp only
  split
  · exact le_max_right _ _
  · exact le_trans (physWrite_spec _ _ _ _).latPos (Nat.le_add_left _ _)

/-- A virtual write whose translation succeeds writes at the translated address, and nothing else of the view changes. -/
theorem memWrite_ok {va pa : Word} {n : Width} {v : Word} {s : State}
    (h : (translateAligned .store va n s).val = .ok pa) :
    (memWrite va n v s).val = .ok () ∧
      (memWrite va n v s).st = (physWrite pa n v (translateAligned .store va n s).st).st := by
  unfold memWrite; dsimp only; rw [h]; exact ⟨rfl, rfl⟩

/-- A virtual write that faults writes nothing (rule R73). -/
theorem memWrite_error {va : Word} {f : FaultRec} {n : Width} {v : Word} {s : State}
    (h : (translateAligned .store va n s).val = .error f) :
    (memWrite va n v s).val = .error f ∧ (memWrite va n v s).st = (translateAligned .store va n s).st := by
  unfold memWrite; dsimp only; rw [h]; exact ⟨rfl, rfl⟩

/-! ### The frame (rule R231) -/

/-- The checks of a frame only read (rules R237, R238). -/
theorem translateFrame_read (acc : Access) (sp : Word) (s : State) : ReadSpec s (translateFrame acc sp s).st := by
  unfold translateFrame
  dsimp only
  split
  · exact translate_read _ _ _
  · split
    · exact (translate_read _ _ _).trans (translate_read _ _ _)
    · split <;> exact (translate_read _ _ _).trans (translate_read _ _ _)

/-- The second word of an aligned frame is aligned. -/
theorem aligned_framePc {sp : Word} (h : aligned sp .word = true) : aligned (framePcAddress sp) .word = true := by
  have := sp.isLt
  simp only [aligned, widthBytes, beq_iff_eq, framePcAddress, BitVec.toNat_add] at h ⊢
  simp only [BitVec.toNat_ofNat]
  omega

/-- A frame that passes its checks has two aligned physical words, the translations of `sp` and `sp + 4`. -/
theorem translateFrame_ok {acc : Access} {sp pa0 pa1 : Word} {s : State}
    (h : (translateFrame acc sp s).val = .ok (pa0, pa1)) :
    aligned sp .word = true ∧ aligned pa0 .word = true ∧ aligned pa1 .word = true ∧
      (translate acc sp s).val = .ok pa0 ∧ (translate acc (framePcAddress sp) (translate acc sp s).st).val = .ok pa1 := by
  unfold translateFrame at h
  dsimp only at h
  split at h
  · cases h
  · rename_i q0 h0
    split at h
    · cases h
    · rename_i q1 h1
      split at h
      · rename_i ha
        simp only [Except.ok.injEq, Prod.mk.injEq] at h
        obtain ⟨rfl, rfl⟩ := h
        exact ⟨ha, by rw [aligned_translate h0]; exact ha, by rw [aligned_translate h1]; exact aligned_framePc ha, h0, h1⟩
      · cases h

theorem translateFrame_off (acc : Access) {sp : Word} {s : State} (h : s.ptbr = 0#32) (ha : aligned sp .word = true) :
    translateFrame acc sp s = ⟨.ok (sp, framePcAddress sp), 0, s⟩ := by
  simp [translateFrame, translate_off acc _ h, ha]

/-- The two stores of a frame. -/
theorem writeFrame_write {pa0 pa1 : Word} (flags savedPc : Word) (s : State) (h0 : aligned pa0 .word = true)
    (h1 : aligned pa1 .word = true) : WriteSpec s (writeFrame pa0 pa1 flags savedPc s).st :=
  (physWrite_write flags s h0).trans (physWrite_write savedPc _ h1)

/-- CALL's memory action (rule R237). -/
theorem pushFrame_write (sp savedPc : Word) (s : State) : WriteSpec s (pushFrame sp savedPc s).st := by
  unfold pushFrame
  dsimp only
  split
  · exact (translateFrame_read _ _ _).toWrite
  · rename_i pa0 pa1 hq
    obtain ⟨-, h0, h1, -, -⟩ := translateFrame_ok hq
    exact (translateFrame_read _ _ _).toWrite.trans (writeFrame_write _ _ _ h0 h1)

/-- RET's memory action only reads (rule R238). -/
theorem popFrame_read (sp : Word) (s : State) : ReadSpec s (popFrame sp s).st := by
  unfold popFrame
  dsimp only
  split
  · exact translateFrame_read _ _ _
  · exact ((translateFrame_read _ _ _).trans (physRead_read _ _ _ _)).trans (physRead_read _ _ _ _)

end Sys2Proof.Machine
end

