-- ==== Sys2Proof/Laws/Trap.lean ====
section
/-! SUPPORT. What taking a trap can do, said once (rules R307 to R311): either the machine halts with its registers, its
privilege and its store as they were, or it enters the handler. -/

namespace Sys2Proof.Machine

/-! ### Halting (rule R33) -/

theorem StoreSound.of_frame {s t : State} (h : StoreSound s) (hp : t.params = s.params) (hc : t.cache = s.cache)
    (hm : t.mem = s.mem) : StoreSound t := h.congr hp hc hm

/-- A halt keeps the store sound. -/
theorem StoreSound.halt {s : State} (h : StoreSound s) (cause : HaltCause) : StoreSound (s.halt cause) := h.congr rfl rfl rfl

/-- Counting cycles keeps the store sound. -/
theorem StoreSound.addCycles {s : State} (h : StoreSound s) (n : Nat) : StoreSound (s.addCycles n) := h.congr rfl rfl rfl

/-! ### Trap entry -/

/-- What a trap entry can do to the state. -/
structure TrapSpec (s t : State) : Prop where
  params : t.params = s.params
  reading : t.reading = s.reading
  ptbr : t.ptbr = s.ptbr
  faultInfo : t.faultInfo = s.faultInfo
  retired : t.stats.retired = s.stats.retired
  exitKept : s.exitRequested = true → t.exitRequested = true
  vgaGrows : ∃ e, t.vgaEvents = s.vgaEvents ++ e
  sound : StoreSound s → StoreSound t
  /-- It halts and keeps registers, counters of the program and privilege, or enters a handler. -/
  outcome :
    (t.halted.isSome = true ∧ t.x = s.x ∧ t.pc = s.pc ∧ t.fpc = s.pc ∧ t.priv = s.priv ∧ t.slots = {} ∧
      t.exitRequested = s.exitRequested ∧ t.vgaEvents = s.vgaEvents ∧ (StoreSound s → ∀ a, t.view a = s.view a)) ∨
    (t.halted = s.halted ∧ t.x = (s.setReg spReg (pushedSp (s.reg spReg))).x ∧ t.fpc = t.pc ∧ t.priv = .supervisor ∧
      t.slots = s.squashBehindWb.slots ∧ t.pending = s.squashBehindWb.pending)

theorem squashBehindWb_read (s : State) : StoreSound s → StoreSound s.squashBehindWb := fun h => h.congr rfl rfl rfl

/-- A halt after reads: the first outcome of a trap entry. -/
theorem trapHalt_spec {s u : State} (h : ReadSpec s.squashBehindWb u) (n : Nat) (cause : HaltCause) :
    TrapSpec s ((u.addCycles n).halt cause) where
  params := by rw [State.halt_params, State.addCycles_params, h.frame.params, State.squashBehindWb_params]
  reading := by rw [State.halt_reading, State.addCycles_reading, h.frame.reading, State.squashBehindWb_reading]
  ptbr := by rw [State.halt_ptbr, State.addCycles_ptbr, h.frame.ptbr, State.squashBehindWb_ptbr]
  faultInfo := by rw [State.halt_faultInfo, State.addCycles_faultInfo, h.frame.faultInfo, State.squashBehindWb_faultInfo]
  retired := by rw [State.halt_stats, State.addCycles_stats, h.retired, State.squashBehindWb_stats]
  exitKept he := by
    rw [State.halt_exitRequested, State.addCycles_exitRequested, h.frame.exitRequested,
      State.squashBehindWb_exitRequested, he]
  vgaGrows := ⟨[], by
    rw [State.halt_vgaEvents, State.addCycles_vgaEvents, h.frame.vgaEvents, State.squashBehindWb_vgaEvents,
      List.append_nil]⟩
  sound hs := ((h.sound (squashBehindWb_read s hs)).addCycles n).halt cause
  outcome := by
    refine .inl ⟨by simp, ?_, ?_, ?_, ?_, by simp, ?_, ?_, fun hs a => ?_⟩
    · rw [State.halt_x, State.addCycles_x, h.frame.x, State.squashBehindWb_x]
    · rw [State.halt_pc, State.addCycles_pc, h.frame.pc, State.squashBehindWb_pc]
    · rw [State.halt_fpc, State.addCycles_pc, h.frame.pc, State.squashBehindWb_pc]
    · rw [State.halt_priv, State.addCycles_priv, h.frame.priv, State.squashBehindWb_priv]
    · rw [State.halt_exitRequested, State.addCycles_exitRequested, h.frame.exitRequested,
        State.squashBehindWb_exitRequested]
    · rw [State.halt_vgaEvents, State.addCycles_vgaEvents, h.frame.vgaEvents, State.squashBehindWb_vgaEvents]
    · rw [State.halt_view, State.addCycles_view, h.view (squashBehindWb_read s hs), State.squashBehindWb_view]

/-- A handler entered after reads and writes: the second outcome of a trap entry. -/
theorem trapEnter_spec {s u : State} (h : WriteSpec s.squashBehindWb u) (vec : Word) (n : Nat) :
    TrapSpec s ((enterHandler vec (pushedSp (s.reg spReg)) u).addCycles n) where
  params := by rw [State.addCycles_params]; exact h.frame.params.trans (State.squashBehindWb_params s)
  reading := by rw [State.addCycles_reading]; exact h.frame.reading.trans (State.squashBehindWb_reading s)
  ptbr := by rw [State.addCycles_ptbr]; exact h.frame.ptbr.trans (State.squashBehindWb_ptbr s)
  faultInfo := by rw [State.addCycles_faultInfo]; exact h.frame.faultInfo.trans (State.squashBehindWb_faultInfo s)
  retired := by
    rw [State.addCycles_stats]
    exact h.retired.trans (by rw [State.squashBehindWb_stats])
  exitKept he := by
    rw [State.addCycles_exitRequested]
    exact h.exitKept (by rw [State.squashBehindWb_exitRequested]; exact he)
  vgaGrows := by
    obtain ⟨e, he⟩ := h.vgaGrows
    exact ⟨e, by
      rw [State.addCycles_vgaEvents]
      exact he.trans (by rw [State.squashBehindWb_vgaEvents])⟩
  sound hs :=
    StoreSound.addCycles
      (s := enterHandler vec (pushedSp (s.reg spReg)) u) ((h.sound (squashBehindWb_read s hs)).congr rfl rfl rfl) n
  outcome := by
    refine .inr ⟨?_, ?_, rfl, rfl, ?_, ?_⟩
    · rw [State.addCycles_halted]; exact h.frame.halted.trans (State.squashBehindWb_halted s)
    · rw [State.addCycles_x]
      show (u.setReg spReg (pushedSp (s.reg spReg))).x = _
      rw [State.setReg_x, h.frame.x, State.squashBehindWb_x, State.setReg_x]
    · rw [State.addCycles_slots]; exact h.frame.slots
    · rw [State.addCycles_pending]; exact h.frame.pending

/-- What `TrapEntry` can do (rules R308 to R311). -/
theorem trapEntry_spec (n : Nat) (savedPc : Word) (s : State) : TrapSpec s (trapEntry n savedPc s) := by
  unfold trapEntry
  extract_lets v sp t0 t1 fail
  have hv : ReadSpec s.squashBehindWb v.st := physRead_read _ _ _ _
  have h0 : ReadSpec s.squashBehindWb t0.st := hv.trans (translate_read _ _ _)
  have h1 : ReadSpec s.squashBehindWb t1.st := h0.trans (translate_read _ _ _)
  split
  · exact trapHalt_spec hv _ _
  · split
    · exact trapHalt_spec h1 _ _
    · exact trapHalt_spec h1 _ _
    · rename_i pa0 pa1 e0 e1
      split
      · rename_i ha
        extract_lets w
        have hw : WriteSpec t1.st w.st :=
          writeFrame_write _ _ _ ((aligned_translate e0 .word).trans ha)
            ((aligned_translate e1 .word).trans (aligned_framePc ha))
        exact trapEnter_spec (h1.toWrite.trans hw) _ _
      · exact trapHalt_spec h1 _ _

/-- What taking a fault can do (rules R306, R307): the fault is recorded, then `FaultHalt` or trap entry. -/
theorem takeFault_spec (kind : FaultKind) (ipc info : Word) (s : State) :
    TrapSpec { s with faultInfo := some ⟨kind, ipc, info⟩ } (takeFault kind ipc info s) := by
  unfold takeFault
  dsimp only
  split
  · exact ⟨rfl, rfl, rfl, rfl, rfl, id, ⟨[], by simp⟩, fun h => h.congr rfl rfl rfl,
      .inl ⟨rfl, rfl, rfl, rfl, rfl, rfl, rfl, rfl, fun _ _ => rfl⟩⟩
  · exact trapEntry_spec _ _ _

end Sys2Proof.Machine
end

