-- ==== Sys2Proof/Laws/Meanings.lean ====
section
/-! SUPPORT. What the operations that the meanings share can do, each said once: a result written, a transfer, a load, a
store, a frame pushed and popped (rules R220 to R238, R262). -/

namespace Sys2Proof.Machine

/-! ### Results and transfers -/

theorem addCycles_four (s : State) : (s.addCycles 4).cycles = s.cycles + 4#64 := rfl

/-- A result written (rule R262). -/
theorem writeResult_spec (rd : Reg) (v : Word) (s : State) :
    ∃ t, writeResult rd v s = .next t ∧ RegisterResult s t rd v :=
  ⟨_, rfl,
    { result := by simp
      otherRegisters := fun q hq => by simp [State.setReg_reg_ne _ _ _ hq]
      pc := rfl
      fpc := rfl
      machine := ⟨rfl, rfl, rfl, rfl, rfl, rfl, rfl, rfl⟩
      devices := ⟨rfl, rfl, rfl, rfl⟩
      memory := rfl
      cache := rfl
      cycles := rfl
      counters := rfl }⟩

/-- A transfer of control alone (rule R264). -/
theorem transferTo_spec (target : Word) (s : State) :
    ∃ t, transferTo target s = .next t ∧ ControlResult s t target :=
  ⟨_, rfl,
    { registers := fun _ => rfl
      pc := rfl
      fpc := rfl
      machine := ⟨rfl, rfl, rfl, rfl, rfl, rfl, rfl, rfl⟩
      devices := ⟨rfl, rfl, rfl, rfl⟩
      memory := rfl
      cache := rfl
      cycles := rfl
      counters := rfl }⟩

/-! ### Loads and stores -/

theorem addCycles_addCycles (c : CycleCount) (m n : Nat) :
    c + BitVec.ofNat 64 m + BitVec.ofNat 64 n = c + BitVec.ofNat 64 (m + n) := by
  rw [BitVec.add_assoc, ← BitVec.ofNat_add]

/-- A read serves no tick itself: the statistics of its stages are those of the state before, but for the cache's. -/
theorem physRead_stats (kind : AccessKind) (pa : Word) (n : Width) (s : State) :
    (physRead kind pa n s).st.stats.memCycles = s.stats.memCycles ∧
      (physRead kind pa n s).st.stats.fetchCycles = s.stats.fetchCycles := by
  unfold physRead
  split
  · rw [(devRead_frame pa n s).2.2.2]; exact ⟨rfl, rfl⟩
  · unfold cacheRead
    dsimp only
    split <;> cases kind <;> exact ⟨rfl, rfl⟩

theorem physWrite_stats (pa : Word) (n : Width) (v : Word) (s : State) :
    (physWrite pa n v s).st.stats.memCycles = s.stats.memCycles ∧
      (physWrite pa n v s).st.stats.fetchCycles = s.stats.fetchCycles := by
  unfold physWrite
  split
  · exact ⟨rfl, rfl⟩
  · unfold cacheWrite
    split <;> exact ⟨rfl, rfl⟩

theorem translate_stats (acc : Access) (va : Word) (s : State) :
    (translate acc va s).st.stats.memCycles = s.stats.memCycles ∧
      (translate acc va s).st.stats.fetchCycles = s.stats.fetchCycles := by
  unfold translate
  dsimp only
  split
  · exact ⟨rfl, rfl⟩
  · split
    · exact physRead_stats _ _ _ _
    · exact ⟨(physRead_stats _ _ _ _).1.trans (physRead_stats _ _ _ _).1,
        (physRead_stats _ _ _ _).2.trans (physRead_stats _ _ _ _).2⟩

theorem translateAligned_st (acc : Access) (va : Word) (n : Width) (s : State) :
    (translateAligned acc va n s).st = (translate acc va s).st ∧ (translateAligned acc va n s).lat = (translate acc va s).lat := by
  unfold translateAligned
  dsimp only
  split
  · exact ⟨rfl, rfl⟩
  · split <;> exact ⟨rfl, rfl⟩

/-- A load whose translation and alignment check pass (rules R221 to R223). -/
theorem loadTo_ok {n : Width} {rd : Reg} {ea pa : Word} {s : State}
    (h : (translateAligned .load ea n s.reachMemory).val = .ok pa) (hs : StoreSound s) :
    ∃ t, loadTo n rd ea s = .next t ∧
      LoadResult s (translateAligned .load ea n s.reachMemory).st t rd pa
        (physRead .load pa n (translateAligned .load ea n s.reachMemory).st).val
        (physRead .load pa n (translateAligned .load ea n s.reachMemory).st).st.prngState := by
  have ht := translateAligned_read .load ea n s.reachMemory
  generalize hu : translateAligned .load ea n s.reachMemory = tr at *
  have hr := physRead_spec .load pa n tr.st
  have hread : ReadSpec s.reachMemory (physRead .load pa n tr.st).st := ht.trans hr.toRead
  have hmem : (physRead .load pa n tr.st).st.stats.memCycles = s.stats.memCycles := by
    rw [(physRead_stats _ _ _ _).1, ← hu, (translateAligned_st _ _ _ _).1, (translate_stats _ _ _).1]; rfl
  have hval : memRead ea n s.reachMemory =
      ⟨.ok (physRead .load pa n tr.st).val, tr.lat + (physRead .load pa n tr.st).lat, (physRead .load pa n tr.st).st⟩ := by
    unfold memRead virtualRead; dsimp only; rw [hu, h]
  unfold loadTo
  rw [hval]
  dsimp only
  refine ⟨_, rfl, ?_⟩
  generalize physRead .load pa n tr.st = r at *
  have hsr : StoreSound s.reachMemory := hs.congr rfl rfl rfl
  exact {
    result := by simp
    otherRegisters := fun q hq => by
      rw [State.retireTo_reg, State.setReg_reg_ne _ _ _ hq, State.serveMemory_reg, hread.frame.reg, State.reachMemory_reg]
    pc := by simp [nextAddress]
    fpc := by simp [nextAddress]
    machine := ⟨by simp [hread.frame.params], by simp [hread.frame.reading], by simp [hread.frame.ptbr],
      by simp [hread.frame.priv], by simp [hread.frame.pending], by simp [hread.frame.slots],
      by simp [hread.frame.faultInfo], by simp [hread.frame.halted]⟩
    memory := fun a => by
      rw [State.retireTo_view, State.setReg_view, State.serveMemory_view, hread.view hsr, State.reachMemory_view]
    exitRequested := by simp [hread.frame.exitRequested]
    vgaEvents := by simp [hread.frame.vgaEvents]
    mmioPending := by simp [hr.mmioPending]
    prngState := by simp
    retired := by simp [hread.retired]
    ticks := ⟨tr.lat + r.lat, le_trans hr.latPos (Nat.le_add_left _ _), by
      rw [State.retireTo_cycles, State.setReg_cycles, State.serveMemory_cycles, hread.frame.cycles]
      exact addCycles_addCycles _ _ _, by simp [hmem]⟩ }

/-- A load whose translation or alignment check fails takes that fault (rule R300). -/
theorem loadTo_error {n : Width} {rd : Reg} {ea : Word} {f : FaultRec} {s : State}
    (h : (translateAligned .load ea n s.reachMemory).val = .error f) :
    loadTo n rd ea s = .next (takeFault f.kind s.pc f.info
      ((translateAligned .load ea n s.reachMemory).st.serveMemory (max (translateAligned .load ea n s.reachMemory).lat 1))) := by
  unfold loadTo memRead virtualRead
  dsimp only
  rw [h]

/-- A store whose translation or alignment check passes (rules R224 to R226). -/
theorem storeFrom_ok {n : Width} {v ea pa : Word} {s : State}
    (h : (translateAligned .store ea n s.reachMemory).val = .ok pa) (hs : StoreSound s) :
    ∃ t, storeFrom n v ea s = .next t ∧
      StoreResult s (translateAligned .store ea n s.reachMemory).st t n pa v := by
  have ht := translateAligned_read .store ea n s.reachMemory
  have hal := (translateAligned_ok h).1
  generalize hu : translateAligned .store ea n s.reachMemory = tr at *
  have hw := physWrite_spec pa n v tr.st
  have hsr : StoreSound s.reachMemory := hs.congr rfl rfl rfl
  have hsu := ht.sound hsr
  have hframe : WriteFrame s.reachMemory (physWrite pa n v tr.st).st := ht.frame.toWrite.trans hw.frame
  have hmem : (physWrite pa n v tr.st).st.stats.memCycles = s.stats.memCycles := by
    rw [(physWrite_stats _ _ _ _).1, ← hu, (translateAligned_st _ _ _ _).1, (translate_stats _ _ _).1]; rfl
  have hret : (physWrite pa n v tr.st).st.stats.retired = s.stats.retired := by
    rw [hw.retired, ht.retired]; rfl
  have hval : memWrite ea n v s.reachMemory =
      ⟨.ok (), tr.lat + (physWrite pa n v tr.st).lat, (physWrite pa n v tr.st).st⟩ := by
    unfold memWrite; dsimp only; rw [hu, h]
  have hexit : tr.st.exitRequested = s.exitRequested := ht.frame.exitRequested
  have hvga : tr.st.vgaEvents = s.vgaEvents := ht.frame.vgaEvents
  unfold storeFrom
  rw [hval]
  dsimp only
  generalize physWrite pa n v tr.st = r at *
  have hfirst : ((r.st.serveMemory (tr.lat + r.lat)).exitRequested && !s.exitRequested) = firstExit s pa v := by
    show (r.st.exitRequested && !s.exitRequested) = _
    rw [hw.exitRequested, hexit, firstExit]
    cases s.exitRequested <;> simp
  refine ⟨_, rfl, ?_⟩
  unfold retireStore
  rw [hfirst]
  cases hf : firstExit s pa v with
  | true =>
    simp only [if_true]
    exact {
      registers := fun q => by
        rw [State.halt_reg, State.retireTo_reg, State.serveMemory_reg, hframe.reg, State.reachMemory_reg]
      pc := by simp [nextAddress]
      fpc := by simp [nextAddress]
      stored := fun i hi => by
        rw [State.halt_view, State.retireTo_view, State.serveMemory_view, hw.stored hal hsu i hi]
      elsewhere := fun a ha => by
        rw [State.halt_view, State.retireTo_view, State.serveMemory_view, hw.elsewhere hal hsu a ha, ht.view hsr, State.reachMemory_view]
      params := by simp [hframe.params]
      reading := by simp [hframe.reading]
      ptbr := by simp [hframe.ptbr]
      priv := by simp [hframe.priv]
      faultInfo := by simp [hframe.faultInfo]
      exitRequested := by simp [hw.exitRequested, hexit]
      mmioPending := by simp [hw.mmioPending]
      prngState := by simp [hw.prngState]
      vgaEvents := by simp [hw.vgaEvents, hvga]
      halted := by simp [hf]
      slots := by simp [hf]
      pending := fun h0 => by rw [hf] at h0; cases h0
      retired := by simp [hret]
      ticks := ⟨tr.lat + r.lat, le_trans hw.latPos (Nat.le_add_left _ _), by
        rw [State.halt_cycles, State.retireTo_cycles, State.serveMemory_cycles, hframe.cycles]
        exact addCycles_addCycles _ _ _, by simp [hmem]⟩ }
  | false =>
    simp only [Bool.false_eq_true, if_false]
    exact {
      registers := fun q => by rw [State.retireTo_reg, State.serveMemory_reg, hframe.reg, State.reachMemory_reg]
      pc := by simp [nextAddress]
      fpc := by simp [nextAddress]
      stored := fun i hi => by
        rw [State.retireTo_view, State.serveMemory_view, hw.stored hal hsu i hi]
      elsewhere := fun a ha => by
        rw [State.retireTo_view, State.serveMemory_view, hw.elsewhere hal hsu a ha, ht.view hsr, State.reachMemory_view]
      params := by simp [hframe.params]
      reading := by simp [hframe.reading]
      ptbr := by simp [hframe.ptbr]
      priv := by simp [hframe.priv]
      faultInfo := by simp [hframe.faultInfo]
      exitRequested := by simp [hw.exitRequested, hexit]
      mmioPending := by simp [hw.mmioPending]
      prngState := by simp [hw.prngState]
      vgaEvents := by simp [hw.vgaEvents, hvga]
      halted := by simp [hf, hframe.halted]
      slots := by simp [hf, hframe.slots]
      pending := fun _ => by simp [hframe.pending]
      retired := by simp [hret]
      ticks := ⟨tr.lat + r.lat, le_trans hw.latPos (Nat.le_add_left _ _), by
        rw [State.retireTo_cycles, State.serveMemory_cycles, hframe.cycles]
        exact addCycles_addCycles _ _ _, by simp [hmem]⟩ }

/-- A store whose translation or alignment check fails takes that fault (rule R300). -/
theorem storeFrom_error {n : Width} {v ea : Word} {f : FaultRec} {s : State}
    (h : (translateAligned .store ea n s.reachMemory).val = .error f) :
    storeFrom n v ea s = .next (takeFault f.kind s.pc f.info
      ((translateAligned .store ea n s.reachMemory).st.serveMemory (max (translateAligned .store ea n s.reachMemory).lat 1))) := by
  unfold storeFrom memWrite
  dsimp only
  rw [h]

/-- The information of a translation's or an alignment fault is the virtual address (rules R138, R304). -/
theorem translateAligned_info {acc : Access} {va : Word} {n : Width} {f : FaultRec} {s : State}
    (h : (translateAligned acc va n s).val = .error f) : f.info = va := by
  have key : ∀ g, (translate acc va s).val = .error g → g.info = va := by
    intro g hg
    unfold translate at hg
    dsimp only at hg
    split at hg
    · cases hg
    · split at hg
      · cases hg; rfl
      · unfold leafResult at hg
        split at hg
        · cases hg; rfl
        · split at hg
          · cases hg; rfl
          · split at hg
            · cases hg; rfl
            · cases hg
  unfold translateAligned at h
  dsimp only at h
  split at h
  · rename_i g hg
    cases h; exact key _ hg
  · split at h
    · cases h
    · cases h; rfl

/-! ### The frame (rule R231) -/

/-- The two words of a frame never overlap: their page offsets differ. -/
theorem frame_disjoint {acc : Access} {sp pa0 pa1 : Word} {s u : State} (h0 : (translate acc sp s).val = .ok pa0)
    (h1 : (translate acc (framePcAddress sp) u).val = .ok pa1) (ha0 : aligned pa0 .word = true)
    (ha1 : aligned pa1 .word = true) {a : Word} (hc : Covers pa0 .word a) : ¬ Covers pa1 .word a := by
  rintro ⟨j, hj, he⟩
  obtain ⟨i, hi, rfl⟩ := hc
  have o0 := congrArg BitVec.toNat (translate_offset h0)
  have o1 := congrArg BitVec.toNat (translate_offset h1)
  simp only [pageOffset, BitVec.extractLsb'_toNat, Nat.shiftRight_zero, framePcAddress, BitVec.toNat_add,
    BitVec.toNat_ofNat] at o0 o1
  have e := congrArg BitVec.toNat he
  rw [aligned_add_toNat ha0 hi, aligned_add_toNat ha1 hj] at e
  simp only [aligned, widthBytes, beq_iff_eq] at ha0 ha1 hi hj
  have := sp.isLt
  omega

/-- The flags word is no command (rule R67). -/
theorem flagsWord_command (p : Privilege) (k : Byte) (hk : k = 0x41#8 ∨ k = 0x42#8 ∨ k = 0x43#8) :
    (byteOf (flagsWord p) 0 == k) = false := by
  rcases hk with rfl | rfl | rfl <;> cases p <;> decide

/-- The two stores of a frame whose words translate: what they leave (rules R231, R237, R308). -/
theorem writeFrame_spec {sp pa0 pa1 : Word} {s u : State} {p : Privilege} {savedPc : Word} {acc : Access}
    {s0 s1 : State} (h0 : (translate acc sp s0).val = .ok pa0) (h1 : (translate acc (framePcAddress sp) s1).val = .ok pa1)
    (ha0 : aligned pa0 .word = true) (ha1 : aligned pa1 .word = true) (hu : StoreSound u)
    (hview : ∀ a, u.view a = s.view a) (hexit : u.exitRequested = s.exitRequested) (hvga : u.vgaEvents = s.vgaEvents) :
    FrameStored s (writeFrame pa0 pa1 (flagsWord p) savedPc u).st pa0 pa1 (flagsWord p) savedPc ∧
      (writeFrame pa0 pa1 (flagsWord p) savedPc u).st.prngState = u.prngState ∧
      (writeFrame pa0 pa1 (flagsWord p) savedPc u).st.mmioPending =
        (if isCtrl pa1 && byteOf savedPc 0 == 0x42#8 then some .timestamp
        else if isCtrl pa1 && byteOf savedPc 0 == 0x43#8 then some .random
        else u.mmioPending) := by
  have w0 := physWrite_spec pa0 .word (flagsWord p) u
  have hs0 := w0.sound ha0 hu
  unfold writeFrame
  dsimp only
  generalize physWrite pa0 .word (flagsWord p) u = r0 at *
  have w1 := physWrite_spec pa1 .word savedPc r0.st
  generalize physWrite pa1 .word savedPc r0.st = r1 at *
  have hm0 : r0.st.mmioPending = u.mmioPending := by
    rw [w0.mmioPending, flagsWord_command p _ (by simp), flagsWord_command p _ (by simp)]; simp
  have he0 : r0.st.exitRequested = u.exitRequested := by
    rw [w0.exitRequested, flagsWord_command p _ (by simp)]; simp
  refine ⟨⟨fun i hi => ?_, fun i hi => w1.stored ha1 hs0 i hi, fun a n0 n1 => ?_, ?_, ?_⟩, ?_, ?_⟩
  · rw [w1.elsewhere ha1 hs0 _ (frame_disjoint h0 h1 ha0 ha1 ⟨i, hi, rfl⟩), w0.stored ha0 hu i hi]
  · rw [w1.elsewhere ha1 hs0 a n1, w0.elsewhere ha0 hu a n0, hview]
  · rw [w1.vgaEvents, w0.vgaEvents, hvga]
    unfold vgaOf
    cases inVga pa0 <;> cases inVga pa1 <;> simp [lowBytes]
  · rw [w1.exitRequested, he0, hexit]
  · rw [w1.prngState, w0.prngState]
  · rw [w1.mmioPending, hm0]

/-- CALL's memory action where its frame translates (rule R237). -/
theorem pushFrame_ok {sp savedPc pa0 pa1 : Word} {s : State} (h : (translateFrame .store sp s).val = .ok (pa0, pa1)) :
    (pushFrame sp savedPc s).val = .ok () ∧
      (pushFrame sp savedPc s).st =
        (writeFrame pa0 pa1 (flagsWord s.priv) savedPc (translateFrame .store sp s).st).st := by
  unfold pushFrame; dsimp only; rw [h]; exact ⟨rfl, rfl⟩

/-- CALL's memory action where its frame fails a check: that fault, nothing written (rule R237). -/
theorem pushFrame_error {sp savedPc : Word} {f : FaultRec} {s : State}
    (h : (translateFrame .store sp s).val = .error f) :
    (pushFrame sp savedPc s).val = .error f ∧ (pushFrame sp savedPc s).st = (translateFrame .store sp s).st := by
  unfold pushFrame; dsimp only; rw [h]; exact ⟨rfl, rfl⟩

/-- RET's memory action where its frame translates: the two words, and the state after their reads (rule R238). -/
theorem popFrame_ok {sp pa0 pa1 : Word} {s : State} (h : (translateFrame .load sp s).val = .ok (pa0, pa1)) :
    (popFrame sp s).val = .ok ((physRead .load pa0 .word (translateFrame .load sp s).st).val,
        (physRead .load pa1 .word (physRead .load pa0 .word (translateFrame .load sp s).st).st).val) ∧
      (popFrame sp s).st = (physRead .load pa1 .word (physRead .load pa0 .word (translateFrame .load sp s).st).st).st := by
  unfold popFrame; dsimp only; rw [h]; exact ⟨rfl, rfl⟩

/-- RET's memory action where its frame fails a check: that fault, nothing read (rule R238). -/
theorem popFrame_error {sp : Word} {f : FaultRec} {s : State} (h : (translateFrame .load sp s).val = .error f) :
    (popFrame sp s).val = .error f ∧ (popFrame sp s).st = (translateFrame .load sp s).st := by
  unfold popFrame; dsimp only; rw [h]; exact ⟨rfl, rfl⟩

/-! ### Values and their bytes (rule R60) -/

/-- The low bytes of a value are assembled from its bytes. -/
theorem littleEndian_byteOf (n : Width) (v : Word) : littleEndian n (byteOf v) = lowBytes n v := by
  have e4 : (byteOf v 3 ++ byteOf v 2 ++ byteOf v 1 ++ byteOf v 0 : BitVec (8 + 8 + 8 + 8)) = v := by
    apply BitVec.eq_of_getLsbD_eq
    intro k hk
    simp only [BitVec.getLsbD_append, byteOf, BitVec.getLsbD_extractLsb']
    by_cases h0 : k < 8
    · simp [h0]
    · by_cases h1 : k - 8 < 8
      · simp [h0, h1, show 8 + (k - 8) = k by omega]
      · by_cases h2 : k - 8 - 8 < 8
        · simp [h0, h1, h2, show 16 + (k - 8 - 8) = k by omega]
        · have h3 : k - 8 - 8 - 8 < 8 := by omega
          simp [h0, h1, h2, h3, show 24 + (k - 8 - 8 - 8) = k by omega]
  have e2 : (byteOf v 1 ++ byteOf v 0 : BitVec (8 + 8)) = v.extractLsb' 0 16 := by
    apply BitVec.eq_of_getLsbD_eq
    intro k hk
    simp only [BitVec.getLsbD_append, byteOf, BitVec.getLsbD_extractLsb']
    by_cases h0 : k < 8
    · simp [h0, show k < 16 by omega]
    · have h1 : k - 8 < 8 := by omega
      simp [h0, h1, show k < 16 by omega, show 8 + (k - 8) = k by omega]
  cases n
  · rfl
  · exact congrArg (BitVec.setWidth 32) e2
  · exact e4

/-- A word is assembled from its bytes in the view. -/
theorem viewWord_of_bytes {s : State} {pa v : Word} (h : ∀ i, i < 4 → s.view (pa + BitVec.ofNat 32 i) = byteOf v i) :
    s.viewWord pa = v := by
  unfold State.viewWord
  rw [littleEndian_congr (n := .word) (g := byteOf v) (fun i hi => h i hi), littleEndian_byteOf]; rfl

end Sys2Proof.Machine
end

