-- ==== Sys2Proof/Laws/PerInstr.lean ====
section
/-! SUPPORT. The family `EncodeMatchesRow`: every instruction's encoding has the fixed bits of its
own row of the opcode table (rules R168, R171). -/

namespace Sys2Proof.Laws.EncodeMatchesRow

/-- The encoding has the fixed bits of the instruction's row. -/
def Statement (i : Instr) : Prop := encode i &&& (rowOf i).mask = (rowOf i).pattern

theorem add (rd ra rb : Reg) : Statement (.add rd ra rb) := encodeR_mask 0b000010#6 rd ra rb

theorem sub (rd ra rb : Reg) : Statement (.sub rd ra rb) := encodeR_mask 0b000011#6 rd ra rb

theorem xor (rd ra rb : Reg) : Statement (.xor rd ra rb) := encodeR_mask 0b000100#6 rd ra rb

theorem or (rd ra rb : Reg) : Statement (.or rd ra rb) := encodeR_mask 0b000101#6 rd ra rb

theorem and (rd ra rb : Reg) : Statement (.and rd ra rb) := encodeR_mask 0b000110#6 rd ra rb

theorem shr (rd ra rb : Reg) : Statement (.shr rd ra rb) := encodeR_mask 0b000111#6 rd ra rb

theorem shl (rd ra rb : Reg) : Statement (.shl rd ra rb) := encodeR_mask 0b001000#6 rd ra rb

theorem addi (rd ra : Reg) (imm : Int) : Statement (.addi rd ra imm) := encodeG_mask 0b001001#6 rd ra imm

theorem subi (rd ra : Reg) (imm : Int) : Statement (.subi rd ra imm) := encodeG_mask 0b001010#6 rd ra imm

theorem xori (rd ra : Reg) (imm : Int) : Statement (.xori rd ra imm) := encodeG_mask 0b001011#6 rd ra imm

theorem ori (rd ra : Reg) (imm : Int) : Statement (.ori rd ra imm) := encodeG_mask 0b001100#6 rd ra imm

theorem andi (rd ra : Reg) (imm : Int) : Statement (.andi rd ra imm) := encodeG_mask 0b001101#6 rd ra imm

theorem ldb (rd ra : Reg) (imm : Int) : Statement (.ldb rd ra imm) := encodeG_mask 0b001110#6 rd ra imm

theorem ldh (rd ra : Reg) (imm : Int) : Statement (.ldh rd ra imm) := encodeG_mask 0b001111#6 rd ra imm

theorem ld (rd ra : Reg) (imm : Int) : Statement (.ld rd ra imm) := encodeG_mask 0b010000#6 rd ra imm

theorem stb (rv ra : Reg) (imm : Int) : Statement (.stb rv ra imm) := encodeG_mask 0b010001#6 rv ra imm

theorem sth (rv ra : Reg) (imm : Int) : Statement (.sth rv ra imm) := encodeG_mask 0b010010#6 rv ra imm

theorem st (rv ra : Reg) (imm : Int) : Statement (.st rv ra imm) := encodeG_mask 0b010011#6 rv ra imm

theorem bne (rc ra : Reg) (imm : Int) : Statement (.bne rc ra imm) := encodeG_mask 0b010100#6 rc ra imm

theorem beq (rc ra : Reg) (imm : Int) : Statement (.beq rc ra imm) := encodeG_mask 0b010101#6 rc ra imm

theorem blt (rc ra : Reg) (imm : Int) : Statement (.blt rc ra imm) := encodeG_mask 0b010110#6 rc ra imm

theorem bgt (rc ra : Reg) (imm : Int) : Statement (.bgt rc ra imm) := encodeG_mask 0b010111#6 rc ra imm

theorem jmpr (offset : Int) : Statement (.jmpr offset) := encodeJ_mask 0b011001#6 offset

theorem lui (rd : Reg) (imm : Int) : Statement (.lui rd imm) := encodeG_lui_mask 0b011010#6 rd 0 imm

theorem call (offset : Int) : Statement (.call offset) := encodeJ_mask 0b011011#6 offset

theorem ret : Statement .ret := encodeB_mask 0b011100#6

theorem nop : Statement .nop := encodeB_mask 0b011101#6

theorem mul (rd ra rb : Reg) : Statement (.mul rd ra rb) := encodeR_mask 0b011110#6 rd ra rb

theorem div (rd ra rb : Reg) : Statement (.div rd ra rb) := encodeR_mask 0b011111#6 rd ra rb

theorem int0 : Statement .int0 := encodeB_mask 0b101000#6

end Sys2Proof.Laws.EncodeMatchesRow
end

