-- ==== Sys2Proof/Laws/Sound.lean ====
section
/-! SUPPORT. Two ready ways to a sound state: an empty cache over canonical memory, and an empty pipeline. -/

namespace Sys2Proof.Machine

/-- The way of a set of the empty cache is invalid and clean. -/
theorem emptyCache_way (i : BitVec 5) (w : Fin 4) : ((emptyCache.setAt i).way w) = emptySet.way w := by
  simp [emptyCache, Cache.setAt]

theorem emptySet_invalid (w : Fin 4) : (emptySet.way w).valid = false := by revert w; decide

/-- With nothing cached the view is memory. -/
theorem emptyCache_view {s : State} (hc : s.cache = emptyCache) (a : Word) : s.view a = s.mem.read a.toNat := by
  apply State.view_miss
  cases h : (s.cache.setAt (cacheIndex a)).hit (cacheTag a) with
  | none => rfl
  | some w =>
    obtain ⟨hv, -⟩ := CacheSet.hit_some h
    rw [hc, emptyCache_way, emptySet_invalid] at hv
    cases hv

/-- Canonical memory under an empty cache is sound. -/
theorem emptyCache_storeSound {s : State} (hc : s.cache = emptyCache) (hm : s.mem.wf = true) : StoreSound s where
  memoryWf := hm
  cacheSound i := by
    have h : s.cache.setAt i = emptySet := by simp [hc, emptyCache, Cache.setAt]
    rw [h]; exact emptySet_sound
  cacheCoherent i w h := by rw [hc, emptyCache_way, emptySet_invalid] at h; cases h

/-- Nothing in flight and nothing pending is a sound pipeline. -/
theorem State.Between.pipelineSound {s : State} (h : s.Between) : s.PipelineSound where
  pendingOwned t := by simp [h.empty, h.noPending, ownerCount, owns]
  youngOwnNothing t := by simp [h.empty, owns]
  zeroNotPending := by simp [h.noPending]
  oneAtATime _ := by simp [h.empty, occupied, slotCount]
  haltedEmpty _ := h.empty

end Sys2Proof.Machine
end

