-- ==== Sys2Proof/Machine/Assembler.lean ====
section
/-! DEFINITION. The assembler's text format and the bits it emits (rules R172 to R181): the part of the assembler that is
in the spec's scope (rule R2 (g)). Log entry 12 holds the choices where the rules are silent. -/

namespace Sys2Proof.Machine

/-- A word of the source text. -/
abbrev Token := List Char

/-- An assembly error with its source line, counted from 1 (rule R178). -/
inductive AsmError where
  | unknownMnemonic (line : Nat)
  | labelNotFound (line : Nat)
  | outOfRange (line : Nat)
  | malformedSection (line : Nat)
  | missingEndSection (line : Nat)
  | malformedStatement (line : Nat)
deriving DecidableEq, Repr

/-! ### Lines and tokens (rule R172) -/

/-- A line without its comment, which begins with `#` (rule R172). -/
def stripComment : List Char → List Char
  | [] => []
  | ch :: rest => if ch = '#' then [] else ch :: stripComment rest

/-- The blanks that separate operands (rule R174). -/
def isBlank (ch : Char) : Bool := ch = ' ' || ch = '\t' || ch = '\r'

/-- The tokens of a line; `cur` is the token being read, in reverse. Blanks before the first token are dropped, so that an
indented line is read like one that is not (DESIGN CHOICE, log entry 12). -/
def tokensFrom (cur : Token) : List Char → List Token
  | [] => if cur.isEmpty then [] else [cur.reverse]
  | ch :: rest =>
    if isBlank ch then (if cur.isEmpty then tokensFrom [] rest else cur.reverse :: tokensFrom [] rest)
    else tokensFrom (ch :: cur) rest

/-- The source cut into lines; `cur` is the line being read, in reverse. -/
def linesFrom (cur : List Char) : List Char → List (List Char)
  | [] => [cur.reverse]
  | ch :: rest => if ch = '\n' then cur.reverse :: linesFrom [] rest else linesFrom (ch :: cur) rest

/-- The lines of a source, each as its tokens with its number; blank lines are left out (rule R172). -/
def numberedLines (n : Nat) : List (List Char) → List (Nat × List Token)
  | [] => []
  | l :: rest =>
    match tokensFrom [] (stripComment l) with
    | [] => numberedLines (n + 1) rest
    | toks => (n, toks) :: numberedLines (n + 1) rest

/-! ### Numbers and registers (rule R174) -/

/-- The value of a digit in a base up to 16. -/
def digitValue (base : Nat) (ch : Char) : Option Nat :=
  let n := ch.toNat
  let v :=
    if 48 ≤ n && n ≤ 57 then some (n - 48)
    else if 97 ≤ n && n ≤ 102 then some (n - 87)
    else if 65 ≤ n && n ≤ 70 then some (n - 55)
    else none
  v.filter (· < base)

/-- The digits of a number read onto `acc`. -/
def digitsFrom (base acc : Nat) : List Char → Option Nat
  | [] => some acc
  | ch :: rest =>
    match digitValue base ch with
    | some d => digitsFrom base (acc * base + d) rest
    | none => none

/-- A number of at least one digit. -/
def natToken (base : Nat) : Token → Option Nat
  | [] => none
  | t => digitsFrom base 0 t

/-- Hexadecimal with or without `0x`, as after `.load` (rule R172). -/
def hexToken : Token → Option Nat
  | '0' :: 'x' :: t => natToken 16 t
  | t => natToken 16 t

/-- A number: decimal, optionally negative, or hexadecimal with `0x` (rule R174). -/
def numberToken : Token → Option Int
  | '0' :: 'x' :: t => (natToken 16 t).map Int.ofNat
  | '-' :: t => (natToken 10 t).map fun n => -Int.ofNat n
  | t => (natToken 10 t).map Int.ofNat

/-- A register in one of the sixteen spellings `r0` to `r15`: one digit, or two from 10 on (rules R22, R174). -/
def regToken : Token → Option Reg
  | 'r' :: t =>
    match natToken 10 t with
    | some n =>
      if h : n < 16 then (if t.length = 1 || (t.length = 2 && 10 ≤ n) then some ⟨n, h⟩ else none) else none
    | none => none
  | _ => none

/-! ### Labels (rule R173) -/

/-- A label and the 32-bit virtual address it names (rule R173). -/
abbrev Label := Token × Word

/-- The address of a label. -/
def labelAddress (labels : List Label) (t : Token) : Option Word :=
  match labels with
  | [] => none
  | (l, a) :: rest => if l = t then some a else labelAddress rest t

/-- A label begins with a dot. -/
def isLabelToken : Token → Bool
  | '.' :: _ => true
  | _ => false

/-- How a label operand is resolved (rules R173, R174): to its absolute address, or relative to the instruction. -/
inductive LabelUse where
  | absolute
  | relative
deriving DecidableEq, Repr

/-- The value of an operand that is a number or a label, in the instruction at address `at_` on line `line`. An absolute
label is its address as an unsigned number, a relative one the difference of two words read as a signed number (rules R6,
R173, R174; log entry 12). -/
def valueOperand (labels : List Label) (use : LabelUse) (line : Nat) (at_ : Word) (t : Token) : Except AsmError Int :=
  if isLabelToken t then
    match labelAddress labels t, use with
    | some a, .absolute => .ok (Int.ofNat a.toNat)
    | some a, .relative => .ok (a - at_).toInt
    | none, _ => .error (.labelNotFound line)
  else
    match numberToken t with
    | some v => .ok v
    | none => .error (.malformedStatement line)

/-! ### Statements (rules R174, R175) -/

/-- The operand form of a mnemonic, with the instruction it builds (rules R174, R175). -/
inductive StatementForm where
  | regs (mk : Reg → Reg → Reg → Instr)
  | regsImm (mk : Reg → Reg → Int → Instr)
  | regImm (mk : Reg → Int → Instr)
  | regsTarget (mk : Reg → Reg → Int → Instr)
  | target (mk : Int → Instr)
  | bare (i : Instr)
  | twoRegs (mk : Reg → Reg → Instr)

/-- The 30 mnemonics and the two pseudo-instructions `mov` and `movi`, in lower case (rules R164, R175). -/
def statementForms : List (String × StatementForm) :=
  [("add", .regs .add), ("sub", .regs .sub), ("xor", .regs .xor), ("or", .regs .or), ("and", .regs .and),
    ("shr", .regs .shr), ("shl", .regs .shl), ("mul", .regs .mul), ("div", .regs .div),
    ("addi", .regsImm .addi), ("subi", .regsImm .subi), ("xori", .regsImm .xori), ("ori", .regsImm .ori),
    ("andi", .regsImm .andi), ("lui", .regImm .lui),
    ("ldb", .regsImm .ldb), ("ldh", .regsImm .ldh), ("ld", .regsImm .ld),
    ("stb", .regsImm .stb), ("sth", .regsImm .sth), ("st", .regsImm .st),
    ("bne", .regsTarget .bne), ("beq", .regsTarget .beq), ("blt", .regsTarget .blt), ("bgt", .regsTarget .bgt),
    ("jmpr", .target .jmpr), ("call", .target .call),
    ("ret", .bare .ret), ("nop", .bare .nop), ("int0", .bare .int0),
    ("mov", .twoRegs fun rd ra => .add rd ra 0), ("movi", .regImm fun rd imm => .addi rd 0 imm)]

/-- The form of a mnemonic, in any case (rule R172). -/
def statementForm (t : Token) (forms : List (String × StatementForm)) : Option StatementForm :=
  match forms with
  | [] => none
  | (name, f) :: rest => if name.toList = t.map Char.toLower then some f else statementForm t rest

/-- A register operand, or the error of a malformed statement. -/
def regOperand (line : Nat) (t : Token) : Except AsmError Reg :=
  match regToken t with
  | some r => .ok r
  | none => .error (.malformedStatement line)

/-- The instruction of a statement before the range check (rule R174). -/
def buildInstr (labels : List Label) (line : Nat) (at_ : Word) : StatementForm → List Token → Except AsmError Instr
  | .regs mk, [t0, t1, t2] => do
    .ok (mk (← regOperand line t0) (← regOperand line t1) (← regOperand line t2))
  | .regsImm mk, [t0, t1, t2] => do
    .ok (mk (← regOperand line t0) (← regOperand line t1) (← valueOperand labels .absolute line at_ t2))
  | .regImm mk, [t0, t1] => do
    .ok (mk (← regOperand line t0) (← valueOperand labels .absolute line at_ t1))
  | .regsTarget mk, [t0, t1, t2] => do
    .ok (mk (← regOperand line t0) (← regOperand line t1) (← valueOperand labels .relative line at_ t2))
  | .target mk, [t0] => do
    .ok (mk (← valueOperand labels .relative line at_ t0))
  | .bare i, [] => .ok i
  | .twoRegs mk, [t0, t1] => do
    .ok (mk (← regOperand line t0) (← regOperand line t1))
  | _, _ => .error (.malformedStatement line)

/-- The word of a statement: its mnemonic, its operands, the range check (rules R174 to R177). -/
def assembleStatement (labels : List Label) (line : Nat) (at_ : Word) : List Token → Except AsmError Word
  | [] => .error (.malformedStatement line)
  | m :: operands =>
    match statementForm m statementForms with
    | none => .error (.unknownMnemonic line)
    | some f =>
      match buildInstr labels line at_ f operands with
      | .error e => .error e
      | .ok i => if i.wellFormed then .ok (encode i) else .error (.outOfRange line)

/-! ### Sections and the two passes (rules R172, R173, R176) -/

/-- A statement with its line and the address that pass 1 assigned to it. -/
structure Statement where
  line : Nat
  address : Word
  tokens : List Token
deriving DecidableEq, Repr

/-- A section: its base address and its statements, in order. -/
structure AsmSection where
  base : Word
  statements : List Statement
deriving DecidableEq, Repr

/-- What pass 1 has read so far: the closed sections, newest first, the open one with its statements newest first, and
the labels. -/
structure Pass1 where
  done : List AsmSection := []
  opened : Option AsmSection := none
  labels : List Label := []
deriving DecidableEq, Repr

/-- The address of the next instruction of an open section, modulo 2^32 (rules R173, R176). -/
def nextSlot (sec : AsmSection) : Word := sec.base + BitVec.ofNat 32 (4 * sec.statements.length)

/-- One line of pass 1: a section's begin or end, a label, or a statement (rules R172, R173). A label names the address
`nextSlot`. Rule R173 does not say what a label after the last instruction of its section names, where there is no next
instruction: the model's choice is the same address, the one right after that instruction. A `.load` in a section that is still open is
the error malformedSection at that `.load`, not a missing `.end_section` (rule R178 says neither). Both are DESIGN CHOICE, log
entry 12. -/
def pass1Line (p : Pass1) (line : Nat) (toks : List Token) : Except AsmError Pass1 :=
  match toks, p.opened with
  | [t, a], none =>
    if t = ".load".toList then
      match hexToken a with
      | some base => .ok { p with opened := some ⟨BitVec.ofNat 32 base, []⟩ }
      | none => .error (.malformedSection line)
    else .error (.malformedSection line)
  | _, none => .error (.malformedSection line)
  | t :: rest, some sec =>
    if t = ".load".toList then .error (.malformedSection line)
    else if t = ".end_section".toList then
      if rest.isEmpty then .ok { p with done := sec :: p.done, opened := none } else .error (.malformedSection line)
    else if isLabelToken t then
      if rest.isEmpty && (labelAddress p.labels t).isNone then
        .ok { p with labels := (t, nextSlot sec) :: p.labels }
      else .error (.malformedStatement line)
    else .ok { p with opened := some { sec with statements := ⟨line, nextSlot sec, toks⟩ :: sec.statements } }
  | [], some _ => .ok p

/-- Pass 1 over all lines; a section still open at the end lacks its `.end_section` (rule R178), which is reported at the
source's last line that is not blank, `last` (DESIGN CHOICE, log entry 12). -/
def pass1 (p : Pass1) (last : Nat) : List (Nat × List Token) → Except AsmError Pass1
  | [] => if p.opened.isSome then .error (.missingEndSection last) else .ok p
  | (line, toks) :: rest =>
    match pass1Line p line toks with
    | .ok p' => pass1 p' line rest
    | .error e => .error e

/-- Pass 2 over a section's statements: their words' bytes in order (rules R176, R180). -/
def sectionBytes (labels : List Label) : List Statement → Except AsmError (List Byte)
  | [] => .ok []
  | st :: rest =>
    match assembleStatement labels st.line st.address st.tokens, sectionBytes labels rest with
    | .ok w, .ok bytes => .ok (bytesOfWord w ++ bytes)
    | .error e, _ => .error e
    | .ok _, .error e => .error e

/-- Pass 2: one chunk per section (rule R180). -/
def pass2 (labels : List Label) : List AsmSection → Except AsmError (List ImageChunk)
  | [] => .ok []
  | sec :: rest =>
    match sectionBytes labels sec.statements.reverse, pass2 labels rest with
    | .ok bytes, .ok chunks => .ok (⟨sec.base, bytes⟩ :: chunks)
    | .error e, _ => .error e
    | .ok _, .error e => .error e

/-- The assembler: the image of a source text, or the first error, with no image (rules R176, R178, R180). -/
def assemble (source : List Char) : Except AsmError (List ImageChunk) :=
  match pass1 {} 0 (numberedLines 1 (linesFrom [] source)) with
  | .error e => .error e
  | .ok p => pass2 p.labels p.done.reverse

/-- `load_image`: the source assembled and the machine reset with its image, entered at the first section's base (rules
R180, R275, R342). -/
def loadImage (source : List Char) (args : ResetArgs) : Except AsmError State :=
  match assemble source with
  | .error e => .error e
  | .ok [] => .error (.malformedSection 0)
  | .ok (c :: rest) => .ok (State.resetWith { args with image := c :: rest, entry := c.base })

end Sys2Proof.Machine
end

