-- ==== Sys2Proof/Tests/Slice0.lean ====
section
/-! SUPPORT. The model's own tests: ill-formed terms refused, words written out from the spec decoded, one step of each
instruction on a small state, and for each statement with hypotheses a state that meets them. Expected values come from
the spec: the examples of the instruction rules and 95_test_vectors.md (named T-…). -/

namespace Sys2Proof.Tests

open Sys2Proof Sys2Proof.Machine

/-! ### Helpers -/

/-- What a step's next state shows. -/
def seen {α : Type} (f : State → α) : StepOutcome → Option α
  | .next t => some (f t)
  | .fault _ => none
  | .refused _ => none

/-- The bytes of a word at an address, as memory cells. -/
def cells (a : Nat) (w : Word) : Memory :=
  [(a, byteOf w 0), (a + 1, byteOf w 1), (a + 2, byteOf w 2), (a + 3, byteOf w 3)].filter fun p => p.2 != 0#8

/-- r1 and r2 given, the rest as after reset. -/
def two (a b : Word) : State := (State.reset.setReg 1 a).setReg 2 b

/-- The word 0x11223344 at 0x3000, r1 and r2 given (T-L1). -/
def loaded (a b : Word) : State := { two a b with mem := cells 0x3000 0x11223344#32 }

/-- A stack pointer, and memory. -/
def stacked (sp : Word) (m : Memory) : State := { State.reset.setReg 15 sp with mem := m }

/-- The page tables of T-M1, with paging on at 0x10000. -/
def tables : Memory :=
  cells 0x10000 0x00011001#32 ++ cells 0x11010 0x0000400B#32 ++ cells 0x11018 0x00009003#32 ++
    cells 0x1101C 0x00009007#32 ++ cells 0x11020 0x0000A01F#32

def paged (p : Privilege) : State := { State.reset with ptbr := 0x10000#32, mem := tables, priv := p }

/-- Result and pc after an instruction. -/
def result (r : Reg) (i : Instr) (s : State) : Option (Word × Word) := seen (fun t => (t.reg r, t.pc)) (exec i s)

/-! ### Well-formedness: each check refuses an ill-formed term (rules R171, R177, T-X4) -/

def immediates (imm : Int) : List Instr :=
  [.addi 1 0 imm, .subi 1 0 imm, .xori 1 0 imm, .ori 1 0 imm, .andi 1 0 imm, .lui 1 imm, .ldb 1 0 imm, .ldh 1 0 imm,
    .ld 1 0 imm, .stb 1 0 imm, .sth 1 0 imm, .st 1 0 imm, .bne 1 0 imm, .beq 1 0 imm, .blt 1 0 imm, .bgt 1 0 imm]

theorem test_illformed_immediate_high : (immediates 32768).all (fun i => !i.wellFormed) = true := by decide
theorem test_illformed_immediate_low : (immediates (-32769)).all (fun i => !i.wellFormed) = true := by decide
theorem test_wellformed_immediate_bounds :
    (immediates 32767 ++ immediates (-32768)).all (fun i => i.wellFormed) = true := by decide
theorem test_illformed_jmpr : (Instr.jmpr 1048576).wellFormed = false ∧ (Instr.jmpr (-1048577)).wellFormed = false := by
  decide
theorem test_illformed_call : (Instr.call 1048576).wellFormed = false ∧ (Instr.call (-1048577)).wellFormed = false := by
  decide
theorem test_wellformed_offset_bounds :
    (Instr.jmpr 1048575).wellFormed = true ∧ (Instr.call (-1048576)).wellFormed = true := by decide

/-! ### Decoding: every constructor from a word that the spec prints (T-E1, rules R174 and R200 to R241) -/

theorem test_decode_add : decode 0x08611000#32 = .instr (.add 3 1 2) := by decide
theorem test_decode_sub : decode 0x0DEE6800#32 = .instr (.sub 15 14 13) := by decide
theorem test_decode_xor : decode 0x10611000#32 = .instr (.xor 3 1 2) := by decide
theorem test_decode_or : decode 0x14611000#32 = .instr (.or 3 1 2) := by decide
theorem test_decode_and : decode 0x18611000#32 = .instr (.and 3 1 2) := by decide
theorem test_decode_shr : decode 0x1C611000#32 = .instr (.shr 3 1 2) := by decide
theorem test_decode_shl : decode 0x20611000#32 = .instr (.shl 3 1 2) := by decide
theorem test_decode_mul : decode 0x78611000#32 = .instr (.mul 3 1 2) := by decide
theorem test_decode_div : decode 0x7C611000#32 = .instr (.div 3 1 2) := by decide
theorem test_decode_addi : decode 0x25EF8000#32 = .instr (.addi 15 15 (-32768)) := by decide
theorem test_decode_subi : decode 0x28840001#32 = .instr (.subi 4 4 1) := by decide
theorem test_decode_xori : decode 0x2C4100FF#32 = .instr (.xori 2 1 255) := by decide
theorem test_decode_ori : decode 0x30410F0F#32 = .instr (.ori 2 1 0x0F0F) := by decide
theorem test_decode_andi : decode 0x35EF7FFF#32 = .instr (.andi 15 15 32767) := by decide
theorem test_decode_lui : decode 0x68200012#32 = .instr (.lui 1 0x12) := by decide
theorem test_decode_ldb : decode 0x38410003#32 = .instr (.ldb 2 1 3) := by decide
theorem test_decode_ldh : decode 0x3C410002#32 = .instr (.ldh 2 1 2) := by decide
theorem test_decode_ld : decode 0x4041FFFC#32 = .instr (.ld 2 1 (-4)) := by decide
theorem test_decode_stb : decode 0x44C70000#32 = .instr (.stb 6 7 0) := by decide
theorem test_decode_sth : decode 0x48410002#32 = .instr (.sth 2 1 2) := by decide
theorem test_decode_st : decode 0x4C603000#32 = .instr (.st 3 0 0x3000) := by decide
theorem test_decode_bne : decode 0x50220008#32 = .instr (.bne 1 2 8) := by decide
theorem test_decode_beq : decode 0x5422FFF8#32 = .instr (.beq 1 2 (-8)) := by decide
theorem test_decode_blt : decode 0x5822FFF8#32 = .instr (.blt 1 2 (-8)) := by decide
theorem test_decode_bgt : decode 0x5C22000C#32 = .instr (.bgt 1 2 12) := by decide
theorem test_decode_jmpr : decode 0x64100000#32 = .instr (.jmpr (-1048576)) := by decide
theorem test_decode_call : decode 0x6C1FFFE0#32 = .instr (.call (-32)) := by decide
theorem test_decode_ret : decode 0x70000000#32 = .instr .ret := by decide
theorem test_decode_nop : decode 0x74000000#32 = .instr .nop := by decide
theorem test_decode_int0 : decode 0xA0000000#32 = .instr .int0 := by decide

/-! One word of each format written out bit by bit: op, rs3, rs1, rs2 and the ignored bits (rule R161). -/

theorem test_bits_r : decode (0b011111#6 ++ 0b00011#5 ++ 0b00001#5 ++ 0b00010#5 ++ 0b00000000000#11) =
    .instr (.div 3 1 2) := by decide
theorem test_bits_g : decode (0b010011#6 ++ 0b00011#5 ++ 0b01111#5 ++ 0b1111111111111000#16) =
    .instr (.st 3 15 (-8)) := by decide
theorem test_bits_lui : decode (0b011010#6 ++ 0b00001#5 ++ 0b11111#5 ++ 0b0000000000010010#16) =
    .instr (.lui 1 0x12) := by decide
theorem test_bits_j : decode (0b011011#6 ++ 0b11111#5 ++ 0b000000000000000010000#21) = .instr (.call 16) := by decide
theorem test_bits_b : decode (0b101000#6 ++ 0b00000000000000000000000000#26) = .instr .int0 := by decide

/-- T-E2: the ignored bits do not matter. -/
theorem test_ignored_bits :
    decode 0x086117FF#32 = .instr (.add 3 1 2) ∧ decode 0x68300012#32 = .instr (.lui 1 0x12) ∧
    decode 0x681F0012#32 = .instr (.lui 0 0x12) ∧ decode 0x66000040#32 = .instr (.jmpr 0x40) ∧
    decode 0x64200040#32 = .instr (.jmpr 0x40) ∧ decode 0x77FFFFFF#32 = .instr .nop ∧
    decode 0x73FFFFFF#32 = .instr .ret ∧ decode 0xA3FFFFFF#32 = .instr .int0 := by decide

/-- T-E3: the illegal words. -/
theorem test_illegal_opcodes :
    [0x00000000#32, 0x04000000#32, 0x60000000#32, 0x80000000#32, 0xA4000000#32, 0xFFFFFFFF#32].all
      (fun w => decide (decode w = .illegal .unassignedOpcode)) = true := by decide
theorem test_illegal_registers :
    [0x0A000000#32, 0x08100000#32, 0x08008000#32, 0x6A000012#32, 0x26210001#32, 0x4C703000#32].all
      (fun w => decide (decode w = .illegal .noSuchRegister)) = true := by decide

theorem test_table_word : decodeTableWord 32 0x24200005 = some (.addi 1 0 5) ∧ decodeTableWord 32 0 = none := by decide

/-! ### One step of each instruction -/

theorem test_add_wraps : result 3 (.add 3 1 2) (two 0xFFFFFFFF#32 1#32) = some (0#32, 0x4004#32) := by decide
theorem test_add_to_r0 : result 0 (.add 0 1 2) (two 5#32 7#32) = some (0#32, 0x4004#32) := by decide
theorem test_sub_order : result 3 (.sub 3 1 2) (two 5#32 7#32) = some (0xFFFFFFFE#32, 0x4004#32) := by decide
theorem test_xor : result 3 (.xor 3 1 2) (two 0xFF00FF00#32 0x0FF00FF0#32) = some (0xF0F0F0F0#32, 0x4004#32) := by decide
theorem test_or : result 3 (.or 3 1 2) (two 0xFF00FF00#32 0x0FF00FF0#32) = some (0xFFF0FFF0#32, 0x4004#32) := by decide
theorem test_and : result 3 (.and 3 1 2) (two 0xFF00FF00#32 0x0FF00FF0#32) = some (0x0F000F00#32, 0x4004#32) := by decide
theorem test_shr_logical : result 3 (.shr 3 1 2) (two 0x80000010#32 4#32) = some (0x08000001#32, 0x4004#32) := by decide
theorem test_shr_amount_32 : result 3 (.shr 3 1 2) (two 0x80000000#32 32#32) = some (0x80000000#32, 0x4004#32) := by decide
theorem test_shl_amount_36 : result 3 (.shl 3 1 2) (two 0x12345678#32 0x24#32) = some (0x23456780#32, 0x4004#32) := by decide
theorem test_shl_same_register : result 1 (.shl 1 1 2) (two 0x80000011#32 4#32) = some (0x110#32, 0x4004#32) := by decide
theorem test_mul_signed : result 3 (.mul 3 1 2) (two 0xFFFFFFFD#32 7#32) = some (0xFFFFFFEB#32, 0x4004#32) := by decide
theorem test_mul_low_half : result 3 (.mul 3 1 2) (two 0x10000#32 0x10000#32) = some (0#32, 0x4004#32) := by decide
theorem test_div_toward_zero : result 3 (.div 3 1 2) (two 0xFFFFFFF9#32 2#32) = some (0xFFFFFFFD#32, 0x4004#32) := by decide
/-- R208, R309: the fault is taken at once; vector 4 is empty, so the machine halts at the DIV's address. -/
theorem test_div_by_zero :
    seen (fun t => (t.reg 3, t.pc, t.halted, t.faultInfo, t.stats.retired)) (exec (.div 3 1 0) (two 5#32 0#32)) =
      some (0#32, 0x4000#32, some (.unhandled 4), some ⟨.divideByZero, 0x4000#32, 0#32⟩, 0) := by decide

theorem test_addi_negative : result 2 (.addi 2 1 (-32768)) (two 0x1000#32 0#32) = some (0xFFFF9000#32, 0x4004#32) := by decide
theorem test_subi_negative : result 2 (.subi 2 1 (-32768)) (two 0#32 0#32) = some (0x8000#32, 0x4004#32) := by decide
theorem test_xori_not : result 2 (.xori 2 1 (-1)) (two 0x12345678#32 0#32) = some (0xEDCBA987#32, 0x4004#32) := by decide
theorem test_ori_sign : result 2 (.ori 2 1 (-32768)) (two 0#32 0#32) = some (0xFFFF8000#32, 0x4004#32) := by decide
theorem test_andi_sign : result 2 (.andi 2 1 (-16)) (two 0x12345678#32 0#32) = some (0x12345670#32, 0x4004#32) := by decide
theorem test_lui : result 1 (.lui 1 0x12) State.reset = some (0x12000#32, 0x4004#32) := by decide
theorem test_lui_sign : result 1 (.lui 1 (-32768)) State.reset = some (0xF8000000#32, 0x4004#32) := by decide

theorem test_ldb_top_byte : result 2 (.ldb 2 1 3) (loaded 0x3000#32 0#32) = some (0x11#32, 0x4004#32) := by decide
theorem test_ldb_zero_extends :
    result 2 (.ldb 2 1 0) { two 0x3000#32 0#32 with mem := cells 0x3000 0xFF#32 } = some (0xFF#32, 0x4004#32) := by decide
theorem test_ldh_upper : result 2 (.ldh 2 1 2) (loaded 0x3000#32 0#32) = some (0x1122#32, 0x4004#32) := by decide
theorem test_ldh_misaligned :
    seen (fun t => (t.reg 2, t.faultInfo)) (exec (.ldh 2 1 1) (loaded 0x3000#32 9#32)) =
      some (9#32, some ⟨.alignmentFault, 0x4000#32, 0x3001#32⟩) := by decide
theorem test_ld_negative_offset : result 2 (.ld 2 1 (-4)) (loaded 0x3004#32 0#32) = some (0x11223344#32, 0x4004#32) := by
  decide
/-- D13, R68: a random command is consumed by a load of 0x2000; the value is the second of T-D3. -/
theorem test_ld_random :
    seen (fun t => (t.reg 2, t.mmioPending, t.prngState))
      (exec (.ld 2 1 0) { two 0x2000#32 0#32 with mmioPending := some .random, prngState := 0x3C6EF35F#32 }) =
      some (0x47502932#32, none, 0x47502932#32) := by decide
theorem test_stb :
    seen (fun t => t.viewWord 0x3000#32) (exec (.stb 2 1 1) (loaded 0x3000#32 0xAABBCCDD#32)) = some 0x1122DD44#32 := by
  decide
/-- S5: the exit command halts the machine when its store retires. -/
theorem test_stb_exit :
    seen (fun t => (t.halted, t.exitRequested, t.stats.retired, t.pc)) (exec (.stb 2 1 0) (two 0x2000#32 0x41#32)) =
      some (some .hostExit, true, 1, 0x4004#32) := by decide
theorem test_sth :
    seen (fun t => t.viewWord 0x3000#32) (exec (.sth 2 1 2) (loaded 0x3000#32 0xAABBCCDD#32)) = some 0xCCDD3344#32 := by
  decide
/-- T-D4: the command is the low byte of the stored halfword. -/
theorem test_sth_command :
    seen (fun t => (t.halted, t.mem)) (exec (.sth 2 1 0) (two 0x2000#32 0x4241#32)) =
      some (some .hostExit, [(0x2000, 0x41#8), (0x2001, 0x42#8)]) := by decide
theorem test_st_bytes :
    seen (fun t => t.mem) (exec (.st 2 1 0) (two 0x3000#32 12#32)) = some [(0x3000, 12#8)] := by decide
theorem test_st_vga :
    seen (fun t => t.vgaEvents) (exec (.st 2 1 0) (two 0x1FFC#32 0x48#32)) = some [⟨0x1FFC#32, .word, 0x48#32⟩] := by decide

theorem test_bne_taken : seen (fun t => t.pc) (exec (.bne 1 2 8) (two 1#32 2#32)) = some 0x4008#32 := by decide
theorem test_bne_equal : seen (fun t => t.pc) (exec (.bne 1 2 8) (two 2#32 2#32)) = some 0x4004#32 := by decide
theorem test_beq_back :
    seen (fun t => t.pc) (exec (.beq 1 2 (-8)) { two 3#32 3#32 with pc := 0x4010#32 }) = some 0x4008#32 := by decide
theorem test_blt_signed : seen (fun t => t.pc) (exec (.blt 1 2 (-8)) (two 0x80000000#32 0x7FFFFFFF#32)) = some 0x3FF8#32 := by
  decide
theorem test_blt_first_operand : seen (fun t => t.pc) (exec (.blt 1 2 8) (two 16#32 15#32)) = some 0x4004#32 := by decide
theorem test_bgt_signed : seen (fun t => t.pc) (exec (.bgt 1 2 12) (two 0#32 0xFFFFFFFF#32)) = some 0x400C#32 := by decide
theorem test_jmpr_wraps : seen (fun t => t.pc) (exec (.jmpr (-4)) { State.reset with pc := 0#32 }) = some 0xFFFFFFFC#32 := by
  decide
/-- T-B3. -/
theorem test_call :
    seen (fun t => (t.reg 15, t.pc, t.viewWord 0x6FF8#32, t.viewWord 0x6FFC#32))
      (exec (.call 16) { stacked 0x7000#32 [] with pc := 0x4008#32 }) =
      some (0x6FF8#32, 0x4018#32, 1#32, 0x400C#32) := by decide
/-- T-B5. -/
theorem test_call_misaligned :
    seen (fun t => (t.reg 15, t.pc, t.faultInfo)) (exec (.call 16) (stacked 0x7002#32 [])) =
      some (0x7002#32, 0x4000#32, some ⟨.alignmentFault, 0x4000#32, 0x6FFA#32⟩) := by decide
/-- T-B4. -/
theorem test_ret_to_user :
    seen (fun t => (t.priv, t.reg 15, t.pc))
      (exec .ret (stacked 0x6FF8#32 (cells 0x6FF8 0xFFFFFFFE#32 ++ cells 0x6FFC 0x5000#32))) =
      some (.user, 0x7000#32, 0x5000#32) := by decide
/-- T-Y1. -/
theorem test_nop :
    exec .nop State.reset =
      .next { State.reset with pc := 0x4004#32, fpc := 0x4004#32, cycles := 4#64, stats := { retired := 1 } } := rfl
/-- R241's example. -/
theorem test_int0_handler :
    seen (fun t => (t.reg 15, t.pc, t.viewWord 0x6FF8#32, t.viewWord 0x6FFC#32, t.stats.retired))
      (exec .int0 { stacked 0x7000#32 (cells 0 0x4020#32) with pc := 0x400C#32 }) =
      some (0x6FF8#32, 0x4020#32, 1#32, 0x4010#32, 1) := by decide
theorem test_int0_unhandled :
    seen (fun t => (t.halted, t.pc, t.reg 15)) (exec .int0 State.reset) = some (some (.unhandled 0), 0x4004#32, 0#32) := by
  decide

/-! ### The machine around the instructions -/

/-- R142: the worked example of a walk, and T-M1's faults. -/
theorem test_walk :
    (translate .fetch 0x4ABC#32 (paged .supervisor)).val = .ok 0x4ABC#32 ∧
    (translate .store 0x4ABC#32 (paged .supervisor)).val = .error ⟨.permissionFault, 0x4ABC#32⟩ ∧
    (translate .fetch 0x4ABC#32 (paged .user)).val = .error ⟨.permissionFault, 0x4ABC#32⟩ ∧
    (translate .load 0x6004#32 (paged .supervisor)).val = .ok 0x9004#32 ∧
    (translate .load 0x8123#32 (paged .user)).val = .ok 0xA123#32 := by decide
theorem test_walk_page_faults :
    (translate .load 0x5000#32 (paged .supervisor)).val = .error ⟨.pageFault, 0x5000#32⟩ ∧
    (translate .load 0x5000#32 (paged .supervisor)).lat = 200 ∧
    (translate .load 0x400000#32 (paged .user)).val = .error ⟨.pageFault, 0x400000#32⟩ ∧
    (translate .load 0x400000#32 (paged .user)).lat = 100 := by decide

/-- T-C1, accesses 1 to 4: a miss installs, a hit is dirty, memory stays stale under it. -/
theorem test_cache_install_and_dirty :
    (let s1 := cacheRead .load 0x3000#32 .word { State.reset with mem := cells 0x3000 0x11223344#32 }
     let s2 := cacheWrite 0x3004#32 .word 0xAABBCCDD#32 s1.st
     let s3 := cacheRead .load 0x3004#32 .word s2.st
     (s1.val, s1.lat, s2.lat, s3.val, s3.lat, s3.st.mem.read 0x3004, s3.st.stats.cacheReadHits)) =
      (0x11223344#32, 100, 10, 0xAABBCCDD#32, 10, 0#8, 1) := by decide

/-- T-D3. -/
theorem test_prng : prngNext .lcg 0#32 = 0x3C6EF35F#32 ∧ prngNext .lcg 0x3C6EF35F#32 = 0x47502932#32 := by decide

/-- The placed word is the one that the next step runs. -/
theorem test_fetch_word :
    seen (fun t => (t.reg 1, t.pc, t.stats.retired)) (step (State.reset.withFetchWord 32 0x24200005)) =
      some (5#32, 0x4004#32, 1) := by decide

/-- T-S6 in the sequential reading, the pipeline off: the first fetch faults and no instruction retires. -/
theorem test_fetch_page_fault :
    seen (fun t => (t.halted, t.faultInfo, t.stats.retired, t.pc))
      (step { State.reset with ptbr := 0x10000#32 }) =
      some (some (.unhandled 1), some ⟨.pageFault, 0x4000#32, 0x4000#32⟩, 0, 0x4000#32) := by decide

/-- R274, the first tick: the fetch of 0x4000 is issued, a miss of 100 ticks, and one of them is served. -/
theorem test_first_tick :
    (let t := tick (State.reset.withFetchWord 32 0x24200005)
     (t.cycles, t.fpc, t.slots.ifs.map (fun i => (i.word, i.wait)), t.stats.fetchCycles)) =
      (1#64, 0x4004#32, some (0x24200005#32, 99), 100) := by decide

/-- P1's first lines as source text, with the pseudo-instruction `movi` (rules R172 to R175). -/
theorem test_assemble :
    assemble ".load 4000\nmovi r1 5 # five\n.here\nbeq r0 r0 .here\n.end_section".toList =
      .ok [⟨0x4000#32, [0x05#8, 0x00#8, 0x20#8, 0x24#8, 0x00#8, 0x00#8, 0x00#8, 0x54#8]⟩] := by decide

/-- R22, R174: sixteen spellings and no other. -/
theorem test_register_spellings :
    regToken "r9".toList = some 9 ∧ regToken "r10".toList = some 10 ∧ regToken "r15".toList = some 15 ∧
    ["r05", "r010", "r0015", "r16", "r", "R1", "sp", "lr"].all (fun t => (regToken t.toList).isNone) = true := by decide

/-- R173: the label after the last word of the address space is the 32-bit address 0, which a relative operand reaches by 4
(R23: addition wraps) and an immediate holds. -/
theorem test_label_wraps :
    assemble ".load FFFFFFFC\njmpr .top\n.top\naddi r1 r0 .top\n.end_section".toList =
      .ok [⟨0xFFFFFFFC#32, [0x04#8, 0x00#8, 0x00#8, 0x64#8, 0x00#8, 0x00#8, 0x20#8, 0x24#8]⟩] := by decide

/-! ### Witnesses: for each statement with hypotheses a state and operands that meet them

Named after the statement. Where a statement has several clauses, each has its own, at a boundary value where it has one. -/

theorem outcome_next {o : StepOutcome} (h : o.isNext = true) : ∃ t, o = .next t := by
  cases o with
  | next t => exact ⟨t, rfl⟩
  | fault f => cases h
  | refused r => cases h

/-- A state whose cache is the one after reset is sound where its memory is canonical. -/
theorem fresh {s : State} (hc : s.cache = emptyCache) (hm : s.mem.wf = true) : StoreSound s := emptyCache_storeSound hc hm

theorem fresh_loaded (a b : Word) : StoreSound (loaded a b) := fresh rfl (by show (cells 0x3000 0x11223344#32).wf = true; decide)
theorem fresh_two (a b : Word) : StoreSound (two a b) := fresh rfl rfl
theorem fresh_paged (p : Privilege) : StoreSound (paged p) := fresh rfl (by show tables.wf = true; decide)
theorem fresh_stacked (sp : Word) {m : Memory} (h : m.wf = true) : StoreSound (stacked sp m) := fresh rfl h

theorem witness_DecodeEncodeRoundTrip :
    (Instr.jmpr (-1048576)).wellFormed = true ∧ decode 0x641FFFFC#32 = .instr (.jmpr (-4)) ∧
    0x641FFFFC#32 &&& ignoredBits (.jmpr (-4)) = 0#32 ∧ decode 0x67FFFFFC#32 = .instr (.jmpr (-4)) ∧
    0x67FFFFFC#32 &&& ignoredBits (.jmpr (-4)) ≠ 0#32 := by decide

theorem witness_DecodeAcceptsTableRows :
    decode 0x08611000#32 = .instr (.add 3 1 2) ∧
    0x08611000#32 &&& ~~~(ignoredBits (.add 3 1 2)) = 0x086117FF#32 &&& ~~~(ignoredBits (.add 3 1 2)) := by decide

/-- Opcodes at the ends of the assigned ranges, register fields 15 and 16. -/
theorem witness_DecodeNamesIllegalWords :
    [1, 24, 32, 39, 41, 63].all (fun k => decide (decode (BitVec.ofNat 32 (k * 2 ^ 26)) = .illegal .unassignedOpcode)) ∧
    decode 0x09E00000#32 = .instr (.add 15 0 0) ∧ decode 0x0A000000#32 = .illegal .noSuchRegister ∧
    decode 0x5E000000#32 = .illegal .noSuchRegister ∧ decode 0x6A000000#32 = .illegal .noSuchRegister := by decide

/-- A NOP at the entry, and a NOP at the control register with no command pending. -/
theorem witness_StepRunsDecodedInstruction :
    (∃ s, s = { State.reset with mem := cells 0x4000 0x74000000#32 } ∧ StoreSound s ∧ s.halted = none ∧
      s.reading = .instruction ∧ (fetch s.pc (s.addCycles 1)).val = .ok 0x74000000#32 ∧ decode 0x74000000#32 = .instr .nop ∧
      (translateAligned .fetch s.pc .word (s.addCycles 1)).val = .ok 0x4000#32 ∧ isCtrl 0x4000#32 = false) ∧
    (∃ s, s = { State.reset with mem := cells 0x2000 0x74000000#32, pc := 0x2000#32 } ∧ StoreSound s ∧
      (fetch s.pc (s.addCycles 1)).val = .ok 0x74000000#32 ∧
      (translateAligned .fetch s.pc .word (s.addCycles 1)).val = .ok 0x2000#32 ∧ isCtrl 0x2000#32 = true ∧
      (translateAligned .fetch s.pc .word (s.addCycles 1)).st.mmioPending = none) :=
  ⟨⟨_, rfl, fresh rfl (by decide), by decide⟩, ⟨_, rfl, fresh rfl (by decide), by decide⟩⟩

theorem witness_StepTakesIllegalInstruction :
    State.reset.halted = none ∧ State.reset.reading = .instruction ∧
    (fetch State.reset.pc (State.reset.addCycles 1)).val = .ok 0#32 ∧ decode 0#32 = .illegal .unassignedOpcode := by decide

/-- A misaligned pc with paging off, the last aligned one, and an unmapped one with paging on. -/
theorem witness_StepTakesFetchFault :
    (∃ s : State, s = { State.reset with pc := 0xFFFFFFFF#32 } ∧ s.halted = none ∧ s.reading = .instruction ∧
      s.ptbr = 0#32 ∧ s.pc.toNat % 4 ≠ 0 ∧
      (fetch s.pc (s.addCycles 1)).val = .error ⟨.alignmentFault, 0xFFFFFFFF#32⟩) ∧
    (∃ s : State, s = { State.reset with pc := 0xFFFFFFFC#32 } ∧ s.ptbr = 0#32 ∧ s.pc.toNat % 4 = 0 ∧
      (fetch s.pc (s.addCycles 1)).val = .ok 0#32) ∧
    (∃ s : State, s = { paged .supervisor with pc := 0x5000#32 } ∧ s.halted = none ∧
      (fetch s.pc (s.addCycles 1)).val = .error ⟨.pageFault, 0x5000#32⟩) :=
  ⟨⟨_, rfl, by decide⟩, ⟨_, rfl, by decide⟩, ⟨_, rfl, by decide⟩⟩

theorem witness_HaltedMachineStays :
    (State.reset.halt .hostExit).halted.isSome = true ∧ State.reset.inCycleReading.halted = none ∧
    State.reset.inCycleReading.reading = .cycle := by decide

/-- A divisor that is not 0, the overflow case, each half of its negation, and a zero divisor. -/
theorem witness_DivResults :
    (two 7#32 0xFFFFFFFE#32).reg 2 ≠ 0#32 ∧ (two 7#32 0xFFFFFFFE#32).reg 1 ≠ 0x80000000#32 ∧
    (two 0x80000000#32 0xFFFFFFFF#32).reg 1 = 0x80000000#32 ∧ (two 0x80000000#32 0xFFFFFFFF#32).reg 2 = 0xFFFFFFFF#32 ∧
    (two 0x80000000#32 1#32).reg 2 ≠ 0xFFFFFFFF#32 ∧ (two 0x80000000#32 0#32).reg 2 = 0#32 ∧ (3 : Reg) ≠ spReg := by decide

theorem witness_AddiSubiResults : immInRange (-32768) = true ∧ immInRange 32767 = true := by decide
theorem witness_XoriOriAndiResults : immInRange (-1) = true ∧ immInRange 0x7FFF = true := by decide
theorem witness_LuiResult : immInRange (-32768) = true ∧ immInRange 0x12 = true := by decide

def loadForms (rd ra : Reg) (imm : Int) : List (Instr × Width) :=
  [(.ldb rd ra imm, .byte), (.ldh rd ra imm, .half), (.ld rd ra imm, .word)]

def storeForms (rv ra : Reg) (imm : Int) : List (Instr × Width) :=
  [(.stb rv ra imm, .byte), (.sth rv ra imm, .half), (.st rv ra imm, .word)]

/-- Each width at the last offset it has in the word, the control register with and without a command, and the last word. -/
theorem witness_LoadsComplete :
    StoreSound (loaded 0x3000#32 0#32) ∧
    (Instr.ldb 2 1 3, Width.byte) ∈ loadForms 2 1 3 ∧
    (translateAligned .load ((loaded 0x3000#32 0#32).reg 1 + BitVec.ofInt 32 3) .byte (loaded 0x3000#32 0#32).reachMemory).val =
      .ok 0x3003#32 ∧
    (Instr.ldh 2 1 2, Width.half) ∈ loadForms 2 1 2 ∧
    (translateAligned .load ((loaded 0x3000#32 0#32).reg 1 + BitVec.ofInt 32 2) .half (loaded 0x3000#32 0#32).reachMemory).val =
      .ok 0x3002#32 ∧
    (Instr.ld 2 0 (-4), Width.word) ∈ loadForms 2 0 (-4) ∧
    (translateAligned .load ((loaded 0#32 0#32).reg 0 + BitVec.ofInt 32 (-4)) .word (loaded 0#32 0#32).reachMemory).val =
      .ok 0xFFFFFFFC#32 ∧ isCtrl 0xFFFFFFFC#32 = false ∧
    (∃ s, s = { two 0x2000#32 0#32 with mmioPending := some .timestamp } ∧ StoreSound s ∧
      (translateAligned .load (s.reg 1 + BitVec.ofInt 32 0) .word s.reachMemory).val = .ok 0x2000#32) ∧
    (translateAligned .load ((two 0x2000#32 0#32).reg 1 + BitVec.ofInt 32 0) .word (two 0x2000#32 0#32).reachMemory).st.mmioPending =
      none :=
  ⟨fresh_loaded _ _, by decide, by decide, by decide, by decide, by decide, by decide, by decide,
    ⟨_, rfl, fresh rfl rfl, by decide⟩, by decide⟩

/-- The smallest misalignments of a halfword and a word, and a page that may not be loaded from. -/
theorem witness_LoadsTakeFaults :
    (Instr.ldh 2 1 1, Width.half) ∈ loadForms 2 1 1 ∧
    (translateAligned .load ((two 0x3000#32 0#32).reg 1 + BitVec.ofInt 32 1) .half (two 0x3000#32 0#32).reachMemory).val =
      .error ⟨.alignmentFault, 0x3001#32⟩ ∧
    (Instr.ld 2 1 3, Width.word) ∈ loadForms 2 1 3 ∧
    (translateAligned .load ((two 0x3000#32 0#32).reg 1 + BitVec.ofInt 32 3) .word (two 0x3000#32 0#32).reachMemory).val =
      .error ⟨.alignmentFault, 0x3003#32⟩ ∧
    (Instr.ldb 2 0 0x5000, Width.byte) ∈ loadForms 2 0 0x5000 ∧
    (translateAligned .load ((paged .user).reg 0 + BitVec.ofInt 32 0x5000) .byte (paged .user).reachMemory).val =
      .error ⟨.pageFault, 0x5000#32⟩ := by decide

/-- The two ends of the VGA buffer, the first bytes outside it, the control register, ordinary memory. -/
theorem witness_StoresComplete :
    StoreSound (two 0x1FFF#32 0x41#32) ∧ (Instr.stb 2 1 0, Width.byte) ∈ storeForms 2 1 0 ∧
    (translateAligned .store ((two 0x1FFF#32 0x41#32).reg 1 + BitVec.ofInt 32 0) .byte (two 0x1FFF#32 0x41#32).reachMemory).val =
      .ok 0x1FFF#32 ∧ inVga 0x1FFF#32 = true ∧ inVga 0x1000#32 = true ∧ inVga 0x0FFF#32 = false ∧
    (Instr.sth 2 1 1, Width.half) ∈ storeForms 2 1 1 ∧
    (translateAligned .store ((two 0x1FFF#32 0x41#32).reg 1 + BitVec.ofInt 32 1) .half (two 0x1FFF#32 0x41#32).reachMemory).val =
      .ok 0x2000#32 ∧ inVga 0x2000#32 = false ∧ firstExit (two 0x1FFF#32 0x41#32) 0x2000#32 0x41#32 = true ∧
    (Instr.st 2 1 5, Width.word) ∈ storeForms 2 1 5 ∧
    (translateAligned .store ((two 0x1FFF#32 0x41#32).reg 1 + BitVec.ofInt 32 5) .word (two 0x1FFF#32 0x41#32).reachMemory).val =
      .ok 0x2004#32 ∧ firstExit (two 0x1FFF#32 0x41#32) 0x2004#32 0x41#32 = false :=
  ⟨fresh_two _ _, by decide⟩

theorem witness_StoresTakeFaults :
    (Instr.sth 2 1 1, Width.half) ∈ storeForms 2 1 1 ∧
    (translateAligned .store ((two 0x3000#32 0#32).reg 1 + BitVec.ofInt 32 1) .half (two 0x3000#32 0#32).reachMemory).val =
      .error ⟨.alignmentFault, 0x3001#32⟩ ∧
    (Instr.stb 2 0 0x6004, Width.byte) ∈ storeForms 2 0 0x6004 ∧
    (translateAligned .store ((paged .supervisor).reg 0 + BitVec.ofInt 32 0x6004) .byte (paged .supervisor).reachMemory).val =
      .error ⟨.permissionFault, 0x6004#32⟩ := by decide

/-- The range's ends, and states on both sides of each condition (T-B1). -/
theorem witness_BranchesDecide :
    immInRange (-32768) = true ∧ immInRange 32767 = true ∧
    (two 0x80000000#32 0x7FFFFFFF#32).reg 1 ≠ (two 0x80000000#32 0x7FFFFFFF#32).reg 2 ∧
    ((two 0x80000000#32 0x7FFFFFFF#32).reg 1).toInt < ((two 0x80000000#32 0x7FFFFFFF#32).reg 2).toInt ∧
    (two 5#32 5#32).reg 1 = (two 5#32 5#32).reg 2 := by decide

theorem witness_JmprAndNop : offsetInRange (-1048576) = true ∧ offsetInRange 1048575 = true := by decide

/-- A frame in free memory, and one whose second word is the control register. -/
theorem witness_CallPushesFrame :
    offsetInRange 1048575 = true ∧ StoreSound (stacked 0x7000#32 []) ∧
    (translateFrame .store ((stacked 0x7000#32 []).reg spReg - 8#32) (stacked 0x7000#32 []).reachMemory).val =
      .ok (0x6FF8#32, 0x6FFC#32) ∧ isCtrl 0x6FFC#32 = false ∧
    StoreSound (stacked 0x2004#32 []) ∧
    (translateFrame .store ((stacked 0x2004#32 []).reg spReg - 8#32) (stacked 0x2004#32 []).reachMemory).val =
      .ok (0x1FFC#32, 0x2000#32) ∧ (stacked 0x2004#32 []).pc.toNat % 4 = 0 :=
  ⟨by decide, fresh_stacked _ rfl, by decide, by decide, fresh_stacked _ rfl, by decide, by decide⟩

/-- A frame in free memory with no command pending, and with one pending elsewhere. -/
theorem witness_RetPopsFrame :
    StoreSound (stacked 0x6FF8#32 []) ∧
    (translateFrame .load ((stacked 0x6FF8#32 []).reg spReg) (stacked 0x6FF8#32 []).reachMemory).val =
      .ok (0x6FF8#32, 0x6FFC#32) ∧
    (translateFrame .load ((stacked 0x6FF8#32 []).reg spReg) (stacked 0x6FF8#32 []).reachMemory).st.mmioPending = none ∧
    (∃ s, s = { stacked 0x6FF8#32 [] with mmioPending := some .random } ∧ StoreSound s ∧
      (translateFrame .load (s.reg spReg) s.reachMemory).val = .ok (0x6FF8#32, 0x6FFC#32) ∧
      isCtrl 0x6FF8#32 = false ∧ isCtrl 0x6FFC#32 = false) :=
  ⟨fresh_stacked _ rfl, by decide, by decide, ⟨_, rfl, fresh rfl rfl, by decide⟩⟩

/-- The first word unmapped; the first mapped and the second not; both mapped and misaligned. -/
theorem witness_FrameFaults :
    (translateFrame .store ((paged .supervisor).reg spReg - 8#32) (paged .supervisor).reachMemory).val =
      .error ⟨.pageFault, 0xFFFFFFF8#32⟩ ∧
    (∃ s, s = (paged .supervisor).setReg 15 0x8FFC#32 ∧
      (translateFrame .load (s.reg spReg) s.reachMemory).val = .error ⟨.pageFault, 0x9000#32⟩ ∧
      (translate .load (s.reg spReg) s.reachMemory).val = .ok 0xAFFC#32) ∧
    (∃ s, s = stacked 0x7002#32 [] ∧
      (translateFrame .store (s.reg spReg - 8#32) s.reachMemory).val = .error ⟨.alignmentFault, 0x6FFA#32⟩ ∧
      (s.reg spReg - 8#32).toNat % 4 ≠ 0) :=
  ⟨by decide, ⟨_, rfl, by decide⟩, ⟨_, rfl, by decide⟩⟩

/-- INT0 with vector 0 at 0x4020 (R241's example). -/
theorem witness_Int0EntersHandler :
    ∃ s s0, s = stacked 0x7000#32 (cells 0 0x4020#32) ∧ StoreSound s ∧
      s0 = (s.passStages.retireTo (s.pc + 4#32)).squashBehindWb ∧ s.viewWord 0#32 ≠ 0#32 ∧
      (translate .store (s.reg spReg - 8#32) (physRead .vector 0#32 .word s0).st).val = .ok 0x6FF8#32 ∧
      (translate .store (s.reg spReg - 8#32 + 4#32)
        (translate .store (s.reg spReg - 8#32) (physRead .vector 0#32 .word s0).st).st).val = .ok 0x6FFC#32 ∧
      (s.reg spReg).toNat % 4 = 0 :=
  ⟨_, _, rfl, fresh_stacked _ (by decide), rfl, by decide⟩

/-- INT0 with vector 0 empty. -/
theorem witness_Int0EntersHandler_unregistered : StoreSound State.reset ∧ State.reset.viewWord 0#32 = 0#32 :=
  ⟨fresh rfl rfl, by decide⟩

/-- The last word before the control register. -/
theorem witness_StoreLoadRoundTrip :
    StoreSound (two 0#32 0#32) ∧ (two 0#32 0#32).ptbr = 0#32 ∧ (0x1FFC#32).toNat % widthBytes .word = 0 ∧
    (∀ k, k < widthBytes .word → isCtrl (0x1FFC#32 + BitVec.ofNat 32 k) = false) ∧
    (0x2001#32).toNat % widthBytes .byte = 0 ∧
    (∀ k, k < widthBytes .byte → isCtrl (0x2001#32 + BitVec.ofNat 32 k) = false) :=
  ⟨fresh_two _ _, by decide⟩

/-- A misaligned access to a mapped page, one to an unmapped page, and an aligned one at the end of a block and page. -/
theorem witness_MisalignedAccessesFault :
    (0x7001#32).toNat % widthBytes .half ≠ 0 ∧ (translate .store 0x7001#32 (paged .supervisor)).val = .ok 0x9001#32 ∧
    (translate .load 0x7001#32 (paged .supervisor)).val = .ok 0x9001#32 ∧
    (0x4002#32).toNat % widthBytes .word ≠ 0 ∧ (translate .fetch 0x4002#32 (paged .supervisor)).val = .ok 0x4002#32 ∧
    (translate .load 0x5001#32 (paged .supervisor)).val = .error ⟨.pageFault, 0x5001#32⟩ ∧
    (translate .store 0x6001#32 (paged .supervisor)).val = .error ⟨.permissionFault, 0x6001#32⟩ ∧
    (translate .fetch 0x6001#32 (paged .supervisor)).val = .error ⟨.permissionFault, 0x6001#32⟩ ∧
    (0x4FFC#32).toNat % widthBytes .word = 0 ∧ 3 < widthBytes .word := by decide

theorem witness_VgaBufferStoresAreEvents :
    StoreSound (two 0#32 0#32) ∧ 0x1000 ≤ (0x1000#32).toNat ∧ (0x1FFF#32).toNat < 0x2000 ∧
    (0x1000#32).toNat % widthBytes .word = 0 ∧ (0x1FFF#32).toNat % widthBytes .byte = 0 :=
  ⟨fresh_two _ _, by decide⟩

/-- A timestamp pending in each reading that knows the count, a random word pending, and the region's ends. -/
theorem witness_ControlRegisterReads :
    (∃ s : State, s = { State.reset.inCycleReading with mmioPending := some .timestamp } ∧
      s.mmioPending = some .timestamp ∧ s.reading = .cycle) ∧
    (∃ s : State, s = { State.reset with params := { pipelineEnabled := false }, mmioPending := some .timestamp } ∧
      s.mmioPending = some .timestamp ∧ s.params.pipelineEnabled = false) ∧
    (∃ s : State, s = { State.reset with mmioPending := some .random } ∧ s.mmioPending = some .random) ∧
    0x2000 ≤ (0x2001#32).toNat ∧ (0x2FFF#32).toNat < 0x3000 ∧ 0x2001#32 ≠ 0x2000#32 ∧ State.reset.mmioPending = none :=
  ⟨⟨_, rfl, by decide⟩, ⟨_, rfl, by decide⟩, ⟨_, rfl, by decide⟩, by decide⟩

theorem witness_BypassIsFlat :
    (∃ s : State, s = { State.reset with params := { cacheEnabled := false } } ∧ s.params.cacheEnabled = false) ∧
    0x1000 ≤ (0x1000#32).toNat ∧ (0x2FFF#32).toNat < 0x3000 := ⟨⟨_, rfl, rfl⟩, by decide⟩

/-- The block of 0x3000 cached, by a load. -/
def warm : State := (physRead .load 0x3000#32 .word (loaded 0#32 0#32)).st

theorem warm_sound : StoreSound warm :=
  (physRead_spec .load 0x3000#32 .word (loaded 0#32 0#32)).sound (fresh_loaded _ _)

theorem witness_TouchAndVictim :
    (warm.cache.setAt 0#5).Sound ∧ ((warm.cache.setAt 0#5).way 0).valid = true ∧
    ((warm.cache.setAt 0#5).way 3).valid = false :=
  ⟨warm_sound.cacheSound 0#5, by decide⟩

theorem witness_CacheReadHitAndMiss :
    (warm.cache.setAt (cacheIndex 0x3000#32)).hit (cacheTag 0x3000#32) = some 0 ∧
    ((loaded 0#32 0#32).cache.setAt (cacheIndex 0x3000#32)).hit (cacheTag 0x3000#32) = none ∧
    (loaded 0#32 0#32).mem.wf = true := by decide

/-- `warm` with the block of 0x3000 made dirty and the set's other three ways filled: its victim is valid and dirty. -/
def full : State :=
  (physRead .load 0x4800#32 .word (physRead .load 0x4000#32 .word (physRead .load 0x3800#32 .word
    (physWrite 0x3000#32 .word 5#32 warm).st).st).st).st

/-- A miss whose victim is written back costs 200 (R105, R108). -/
theorem witness_CacheReadHitAndMiss_dirty :
    (full.cache.setAt (cacheIndex 0x5000#32)).hit (cacheTag 0x5000#32) = none ∧ full.mem.wf = true ∧
    full.victimDirty (cacheIndex 0x5000#32) = true ∧ (cacheRead .load 0x5000#32 .word full).lat = 200 := by decide

theorem witness_CacheWriteHitAndMiss :
    (0x3004#32).toNat % widthBytes .word = 0 ∧
    (warm.cache.setAt (cacheIndex 0x3004#32)).hit (cacheTag 0x3004#32) = some 0 ∧
    (warm.cache.setAt (cacheIndex 0x3840#32)).hit (cacheTag 0x3840#32) = none ∧ (0x3840#32).toNat % widthBytes .word = 0 ∧
    uncacheable 0x3840#32 = false ∧ 1#5 ≠ cacheIndex 0x3004#32 := by decide

theorem witness_CacheIsTransparent :
    ∃ s m, s = loaded 0#32 0#32 ∧ m = s.mem ∧ StoreSound s ∧ (0x3004#32).toNat % widthBytes .word = 0 ∧ m.wf = true ∧
      ∀ a : Word, m.read a.toNat = s.view a :=
  ⟨_, _, rfl, rfl, fresh_loaded _ _, by decide, by decide, fun a => (emptyCache_view rfl a).symm⟩

theorem witness_CacheCountersByKind :
    bypassesCache State.reset 0x3000#32 = false ∧ bypassesCache State.reset 0x2FFF#32 = true ∧
    AccessKind.walk ≠ .load := by decide

/-- The two entries that a walk for `va` reads: their addresses and their words. -/
abbrev entries (s : State) (va dir pde tbl pte : Word) : Prop :=
  dir = (s.ptbr &&& 0xFFFFF000#32) + BitVec.ofNat 32 (4 * (va.toNat / 2 ^ 22)) ∧ pde = s.viewWord dir ∧
    tbl = (pde &&& 0xFFFFF000#32) + BitVec.ofNat 32 (4 * (va.toNat / 2 ^ 12 % 2 ^ 10)) ∧ pte = s.viewWord tbl

/-- Paging off; T-M1's pages: the directory's last entry, an absent page, a page without W and X, a page without U. -/
theorem witness_TranslationFaults :
    State.reset.ptbr = 0#32 ∧ StoreSound (paged .user) ∧ (paged .user).ptbr ≠ 0#32 ∧ (paged .user).mmioPending = none ∧
    entries (paged .user) 0xFFFFFFF8#32 0x10FFC#32 0#32 0xFFC#32 0#32 ∧
    entries (paged .user) 0x5000#32 0x10000#32 0x11001#32 0x11014#32 0#32 ∧
    entries (paged .user) 0x6004#32 0x10000#32 0x11001#32 0x11018#32 0x9003#32 ∧
    entries (paged .user) 0x4ABC#32 0x10000#32 0x11001#32 0x11010#32 0x400B#32 :=
  ⟨rfl, fresh_paged _, by decide, by decide, by decide, by decide, by decide, by decide⟩

/-- T-M1's page 8 in user mode for each access, its entry granting all three rights and U. -/
theorem witness_TranslationRoundTrip :
    StoreSound (paged .user) ∧ (paged .user).ptbr ≠ 0#32 ∧ (paged .user).mmioPending = none ∧
    entries (paged .user) 0x8FFF#32 0x10000#32 0x11001#32 0x11020#32 0xA01F#32 ∧
    (0x11001#32).getLsbD 0 = true ∧ (0xA01F#32).getLsbD 0 = true ∧ (0xA01F#32).getLsbD 1 = true ∧
    (0xA01F#32).getLsbD 2 = true ∧ (0xA01F#32).getLsbD 3 = true ∧ (0xA01F#32).getLsbD 4 = true :=
  ⟨fresh_paged _, by decide, by decide, by decide, by decide⟩

/-- A registered vector with its frame in free memory; the last vector of the table. -/
def trapped : State := stacked 0x7000#32 (cells 0xFFC 0x4020#32)

theorem witness_TrapEntersHandler :
    1023 < 1024 ∧ StoreSound trapped ∧
    (translate .store (trapped.reg spReg - 8#32) (physRead .vector (BitVec.ofNat 32 (4 * 1023)) .word
      trapped.squashBehindWb).st).val = .ok 0x6FF8#32 ∧
    (translate .store (trapped.reg spReg - 8#32 + 4#32) (translate .store (trapped.reg spReg - 8#32)
      (physRead .vector (BitVec.ofNat 32 (4 * 1023)) .word trapped.squashBehindWb).st).st).val = .ok 0x6FFC#32 ∧
    (trapped.reg spReg).toNat % 4 = 0 ∧ trapped.viewWord (BitVec.ofNat 32 (4 * 1023)) ≠ 0#32 :=
  ⟨by decide, fresh_stacked _ (by decide), by decide⟩

theorem witness_UnregisteredVectorHalts :
    1023 < 1024 ∧ StoreSound State.reset ∧ State.reset.viewWord (BitVec.ofNat 32 (4 * 1023)) = 0#32 :=
  ⟨by decide, fresh rfl rfl, by decide⟩

/-- The page tables of T-M1 and vector 2, with a stack pointer. -/
def pagedTrap (sp : Word) : State := { (paged .supervisor).setReg 15 sp with mem := cells 8 0x4018#32 ++ tables }

/-- The first word unmapped (T-M2), the second word unmapped, and a misaligned stack pointer. -/
theorem witness_DoubleFaultHalts :
    (∀ sp, StoreSound (pagedTrap sp)) ∧ (pagedTrap 0#32).viewWord (BitVec.ofNat 32 (4 * 2)) ≠ 0#32 ∧
    (let v := physRead .vector (BitVec.ofNat 32 (4 * 2)) .word (pagedTrap 0#32).squashBehindWb
     (translate .store ((pagedTrap 0#32).reg spReg - 8#32) v.st).val = .error ⟨.pageFault, 0xFFFFFFF8#32⟩) ∧
    (let v := physRead .vector (BitVec.ofNat 32 (4 * 2)) .word (pagedTrap 0x9004#32).squashBehindWb
     let t0 := translate .store ((pagedTrap 0x9004#32).reg spReg - 8#32) v.st
     t0.val = .ok 0xAFFC#32 ∧
     (translate .store ((pagedTrap 0x9004#32).reg spReg - 8#32 + 4#32) t0.st).val = .error ⟨.pageFault, 0x9000#32⟩) ∧
    (let v := physRead .vector (BitVec.ofNat 32 (4 * 2)) .word (pagedTrap 0x8002#32).squashBehindWb
     let t0 := translate .store ((pagedTrap 0x8002#32).reg spReg - 8#32) v.st
     t0.val = .ok 0x9FFA#32 ∧
     (translate .store ((pagedTrap 0x8002#32).reg spReg - 8#32 + 4#32) t0.st).val = .ok 0x9FFE#32 ∧
     ((pagedTrap 0x8002#32).reg spReg).toNat % 4 ≠ 0) :=
  ⟨fun _ => fresh rfl (by show (cells 8 0x4018#32 ++ tables).wf = true; decide), by decide⟩

theorem witness_FaultPolicyDecides :
    (∃ s : State, s = { State.reset with params := { faultPolicy := .halt } } ∧ s.params.faultPolicy = .halt) ∧
    FaultKind.alignmentFault ∈ [FaultKind.alignmentFault, .divideByZero, .illegalInstruction] ∧
    (FaultKind.permissionFault, 2) ∈ [(FaultKind.pageFault, 1), (.permissionFault, 2), (.alignmentFault, 3),
      (.divideByZero, 4), (.illegalInstruction, 5)] ∧ State.reset.params.faultPolicy = .vector :=
  ⟨⟨_, rfl, rfl⟩, by decide⟩

theorem witness_TrapThenReturnResumes :
    1023 < 1024 ∧ StoreSound trapped ∧ trapped.ptbr = 0#32 ∧ trapped.viewWord (BitVec.ofNat 32 (4 * 1023)) ≠ 0#32 ∧
    (trapped.reg spReg).toNat % 4 = 0 ∧ isCtrl (trapped.reg spReg - 8#32) = false ∧
    isCtrl (trapped.reg spReg - 4#32) = false :=
  ⟨by decide, fresh_stacked _ (by decide), by decide⟩

/-- A frame that ends right below the control register. -/
theorem witness_CallThenReturnResumes :
    StoreSound (stacked 0x2000#32 []) ∧ (stacked 0x2000#32 []).ptbr = 0#32 ∧
    ((stacked 0x2000#32 []).reg spReg).toNat % 4 = 0 ∧ isCtrl ((stacked 0x2000#32 []).reg spReg - 8#32) = false ∧
    isCtrl ((stacked 0x2000#32 []).reg spReg - 4#32) = false :=
  ⟨fresh_stacked _ rfl, by decide⟩

/-- A step in each reading. -/
theorem reset_steps : (∃ t, step State.reset = .next t) ∧ (∃ t, step State.reset.inCycleReading = .next t) :=
  ⟨outcome_next (by decide), ⟨_, rfl⟩⟩

theorem witness_StepKeepsStoreSound :
    StoreSound State.reset ∧ StoreSound State.reset.inCycleReading ∧
    (∃ t, step State.reset = .next t) ∧ (∃ t, step State.reset.inCycleReading = .next t) :=
  ⟨fresh rfl rfl, fresh rfl rfl, reset_steps⟩

/-- An ADD to r3 in writeback, a reader of r3 in decode; the fault that the ADD carries is given. -/
def busy (fault : Option FaultRec) : State :=
  { State.reset.inCycleReading with
    pending := (Vector.replicate 16 false).set 3 true
    slots :=
      { wbs := some { ipc := 0x4000#32, word := 0x08611000#32, fault := fault, wait := 0, instr := some (.add 3 1 2),
                      dest := some 3, marked := true, result := 9#32, issued := true }
        ids := some { ipc := 0x4004#32, word := 0x08831800#32, fault := none, wait := 0 } } }

/-- R275, R253: the host's step ticks until one instruction has retired; the ADD in writeback does in the first tick. -/
theorem test_host_step :
    (let t := hostStep 5 { busy none with reading := .instruction }
     (t.stats.retired, t.cycles, t.reading, t.reg 3)) = (1, 1#64, .cycle, 9#32) := by decide

theorem busy_pending : ∀ t : Reg, ownerCount t (busy none).slots = ((busy none).pending[t.val]).toNat := by decide

theorem busy_young : ∀ t : Reg, owns t (busy none).slots.ids = false ∧ owns t (busy none).slots.ifs = false := by decide

theorem busy_zero : (busy none).pending[0] = false := by decide

theorem busy_sound (fault : Option FaultRec) : (busy fault).PipelineSound where
  pendingOwned := busy_pending
  youngOwnNothing := busy_young
  zeroNotPending := busy_zero
  oneAtATime h := by cases h
  haltedEmpty h := by cases h

theorem busy_pcs (fault : Option FaultRec) : (busy fault).PcSound where
  empty _ := rfl
  inFlight h := by cases h
  completed h := by cases h
  sequential h := by cases h

/-- The pipeline off, an instruction in memory and nothing else: its accesses not yet made. -/
def alone (i : Instr) : State :=
  { State.reset.inCycleReading with
    params := { pipelineEnabled := false }
    fpc := 0x4004#32
    slots := { mems := some { ipc := 0x4000#32, word := encode i, fault := none, wait := 0, instr := some i } } }

theorem alone_sound (i : Instr) : (alone i).PipelineSound where
  pendingOwned t := by simp [alone, ownerCount, owns, State.inCycleReading, State.reset]
  youngOwnNothing t := ⟨rfl, rfl⟩
  zeroNotPending := rfl
  oneAtATime _ := by simp [alone, occupied, slotCount]
  haltedEmpty h := by cases h

theorem alone_pcs (i : Instr) : (alone i).PcSound where
  empty h := by cases h
  inFlight _ j h := by
    rcases h with h | h | h | h <;> cases h
    rfl
  completed _ j h := by cases h
  sequential h := by cases h

theorem witness_StepKeepsPipelineSound :
    (busy none).PipelineSound ∧ (∃ t, step (busy none) = .next t) ∧ State.reset.PipelineSound ∧
    (∃ t, step State.reset = .next t) :=
  ⟨busy_sound none, ⟨_, rfl⟩, State.Between.pipelineSound ⟨rfl, rfl, rfl⟩, reset_steps.1⟩

theorem witness_StepKeepsZeroRegister :
    State.reset.ZeroRegister ∧ (∃ t, step State.reset = .next t) := ⟨rfl, reset_steps.1⟩

/-- Two chunks that overlap: the byte at 0x4000 is the first chunk's, the one at 0x4001 the second's. -/
def overlapping : ResetArgs := { image := [⟨0x4000#32, [1#8, 2#8]⟩, ⟨0x4001#32, [3#8]⟩] }

theorem witness_ResetValues :
    (∀ chunk ∈ overlapping.image, ∀ k, k < chunk.bytes.length → chunk.base + BitVec.ofNat 32 k ≠ 0x4002#32) ∧
    overlapping.image = [] ++ (⟨0x4000#32, [1#8, 2#8]⟩ : ImageChunk) :: [⟨0x4001#32, [3#8]⟩] ∧
    (∀ later ∈ [(⟨0x4001#32, [3#8]⟩ : ImageChunk)], ∀ j, j < later.bytes.length →
      later.base + BitVec.ofNat 32 j ≠ 0x4000#32 + BitVec.ofNat 32 0) ∧
    (State.resetWith overlapping).mem = [(0x4000, 1#8), (0x4001, 3#8)] := by decide

theorem seen_some {α : Type} {f : State → α} {o : StepOutcome} {a : α} (h : seen f o = some a) :
    ∃ t, o = .next t ∧ f t = a := by
  cases o with
  | next t => exact ⟨t, rfl, Option.some.inj h⟩
  | fault r => cases h
  | refused r => cases h

/-- T-B4: RET pops a flags word whose bit 0 is 0. -/
theorem witness_OnlyReturnLowersPrivilege :
    ∃ s t, exec .ret s = .next t ∧ t.priv = .user ∧ s.priv = .supervisor ∧
      s = stacked 0x6FF8#32 (cells 0x6FFC 0x5000#32) := by
  obtain ⟨t, ht, hp⟩ := seen_some (f := State.priv) (a := .user)
    (o := exec .ret (stacked 0x6FF8#32 (cells 0x6FFC 0x5000#32))) (by decide)
  exact ⟨_, t, ht, hp, rfl, rfl⟩

/-- A running state whose exit latch is set, and a halted one. -/
theorem witness_StepKeepsConfigurationAndLatches :
    (∃ t, step State.reset = .next t) ∧ (∃ t, step { State.reset with exitRequested := true } = .next t) ∧
    (State.reset.halt .hostExit).halted = some .hostExit ∧ step (State.reset.halt .hostExit) = .next (State.reset.halt .hostExit) :=
  ⟨reset_steps.1, outcome_next (by decide), rfl, rfl⟩

/-- A NOP at the entry. -/
def nopAtEntry : State := { State.reset with mem := cells 0x4000 0x74000000#32 }

/-- A step that goes on and one that halts (the word 0, vector 5 empty); a tick of a busy pipeline, on, and of one that is
off. -/
theorem witness_ProgramCountersAgree :
    (nopAtEntry.halted = none ∧ nopAtEntry.reading = .instruction ∧ ∃ t, step nopAtEntry = .next t ∧ t.halted = none) ∧
    (State.reset.halted = none ∧ State.reset.reading = .instruction ∧
      ∃ t, step State.reset = .next t ∧ t.halted = some (.unhandled 5)) ∧
    ((busy none).PipelineSound ∧ (busy none).PcSound ∧ ∃ t, step (busy none) = .next t) ∧
    ((alone .nop).PipelineSound ∧ (alone .nop).PcSound ∧ ∃ t, step (alone .nop) = .next t) := by
  obtain ⟨t, ht, hh⟩ := seen_some (f := State.halted) (a := none) (o := step nopAtEntry) (by decide)
  obtain ⟨u, hu, hv⟩ := seen_some (f := State.halted) (a := some (.unhandled 5)) (o := step State.reset) (by decide)
  exact ⟨⟨rfl, rfl, t, ht, hh⟩, ⟨rfl, rfl, u, hu, hv⟩, ⟨busy_sound none, busy_pcs none, _, rfl⟩,
    ⟨alone_sound _, alone_pcs _, _, rfl⟩⟩

/-- The pipeline off. -/
theorem witness_TicksRefineInstruction :
    ∃ s, s = { nopAtEntry with params := { pipelineEnabled := false } } ∧ s.params.pipelineEnabled = false ∧
      s.halted = none ∧ s.Between ∧ (∃ t, instructionStep s = .next t) :=
  ⟨_, rfl, rfl, rfl, ⟨rfl, rfl, rfl⟩, outcome_next (by decide)⟩

theorem witness_HostOnlyStateIsInvisible : ∃ t, step State.reset = .next t := reset_steps.1

/-- A reader of r3 stalls behind the ADD to r3; a reader of r1 and r2 that writes r4 moves on. -/
theorem witness_DecodeInterlock :
    ((busy none).params.pipelineEnabled = true ∧ (busy none).slots.ids.isSome = true ∧ (busy none).slots.exs = none ∧
      decode 0x08831800#32 = .instr (.add 4 3 3) ∧ 3 ∈ sources (.add 4 3 3) ∧ (busy none).isPending 3 = true) ∧
    ∃ s i, s = { busy none with slots := { ids := some i } } ∧
      i = { ipc := 0x4004#32, word := 0x08811000#32, fault := none, wait := 0 } ∧ s.params.pipelineEnabled = true ∧
      s.slots.exs = none ∧ decode i.word = .instr (.add 4 1 2) ∧ (∀ r ∈ sources (.add 4 1 2), s.isPending r = false) ∧
      (∀ r, destination (.add 4 1 2) = some r → s.isPending r = false) :=
  ⟨by decide, _, _, rfl, rfl, by decide⟩

/-- A faulted record, an illegal word, and a record behind an occupied execute stage. -/
theorem witness_DecodeInterlock_moves :
    (∃ s i, s = { State.reset with slots := { ids := some i } } ∧
      i = { ipc := 0x4000#32, word := 0#32, fault := some ⟨.pageFault, 0x4000#32⟩, wait := 0 } ∧ s.slots.ids = some i ∧
      s.slots.exs = none ∧ i.fault.isSome = true) ∧
    (∃ s i, s = { State.reset with slots := { ids := some i } } ∧
      i = { ipc := 0x4000#32, word := 0#32, fault := none, wait := 0 } ∧ s.slots.ids = some i ∧ s.slots.exs = none ∧
      ∀ d, decode i.word ≠ .instr d) ∧
    (∃ s i, s = { State.reset with slots := { ids := some i, exs := some i } } ∧
      i = { ipc := 0x4000#32, word := 0#32, fault := none, wait := 0 } ∧ s.slots.exs ≠ none) := by
  refine ⟨⟨_, _, rfl, rfl, rfl, rfl, rfl⟩, ⟨_, _, rfl, rfl, rfl, rfl, fun d h => ?_⟩, ⟨_, _, rfl, rfl, fun h => ?_⟩⟩
  · have e : decode 0#32 = .illegal .unassignedOpcode := by decide
    exact absurd (e.symm.trans h) (fun h => by cases h)
  · cases h

theorem witness_RedirectSquashes : (busy none).PipelineSound := busy_sound none

/-- A stage record at 0x4000 of a decoded instruction. -/
def record (i : Instr) (wait : Nat := 0) (issued : Bool := false) (fault : Option FaultRec := none)
    (taken : Bool := false) : InFlight :=
  { ipc := 0x4000#32, word := encode i, fault := fault, wait := wait, instr := some i, issued := issued, taken := taken,
    ea := 0x3000#32, result := 0x7000#32, sp := 0x7000#32 }

/-- A record in execute, which a free or an occupied memory stage follows; a fetch stage that is empty, with the pipeline on
and with it off, and one that is busy, done, or held. -/
theorem witness_ExecuteAndFetchStages :
    (∃ s : State, s = { State.reset with slots := { exs := some (record (.div 3 1 2)), mems := some (record .nop) } } ∧
      s.slots.mems ≠ none) ∧
    (∃ s : State, s = { State.reset with slots := { exs := some (record (.div 3 1 2)) } } ∧
      s.slots.exs = some (record (.div 3 1 2)) ∧ s.slots.mems = none) ∧
    ((alone .nop).slots.ifs = none ∧ (alone .nop).params.pipelineEnabled = false) ∧
    (State.reset.slots.ifs = none ∧ State.reset.params.pipelineEnabled = true) ∧
    (∃ s : State, s = { State.reset with slots := { ifs := some (record .nop 2) } } ∧
      s.slots.ifs = some (record .nop 2) ∧ 1 < (record .nop 2).wait) ∧
    (∃ s : State, s = { State.reset with slots := { ifs := some (record .nop 1), ids := some (record .nop) } } ∧
      s.slots.ifs = some (record .nop 1) ∧ s.slots.ids ≠ none) ∧
    (∃ s : State, s = { State.reset with slots := { ifs := some (record .nop 1) } } ∧
      s.slots.ifs = some (record .nop 1) ∧ (record .nop 1).wait ≤ 1 ∧ s.slots.ids = none) := by
  refine ⟨⟨_, rfl, ?_⟩, ⟨_, rfl, ?_⟩, ?_, ?_, ⟨_, rfl, ?_⟩, ⟨_, rfl, ?_⟩, ⟨_, rfl, ?_⟩⟩ <;> decide

/-- A record in memory in each state of its service: not issued, waiting, in its last tick unfaulted (taken or not) and
faulted; and for each row of R261 a record whose access succeeds or fails. -/
theorem witness_MemoryStage :
    State.reset.slots.mems = none ∧
    ((alone (.ld 2 1 0)).slots.mems.isSome = true ∧ (record (.ld 2 1 0)).issued = false) ∧
    ((record (.ld 2 1 0) 2 true).issued = true ∧ 1 < (record (.ld 2 1 0) 2 true).wait) ∧
    ((record .ret 1 true none true).wait ≤ 1 ∧ (record .ret 1 true none true).taken = true) ∧
    ((record .nop 1 true).fault = none ∧ (record .nop 1 true).taken = false) ∧
    (record .nop 1 true (some ⟨.divideByZero, 0#32⟩)).fault.isSome = true ∧
    (∃ v, (memRead 0x3000#32 .word (loaded 0#32 0#32)).val = .ok v) ∧
    (∃ f, (memRead 0x3000#32 .word (paged .user)).val = .error f) ∧
    (memWrite 0x3000#32 .half 1#32 (loaded 0#32 0#32)).val = .ok () ∧
    (∃ f, (memWrite 0x3000#32 .half 1#32 (paged .user)).val = .error f) ∧
    (translate .store 0x7000#32 State.reset).val = .ok 0x7000#32 ∧ (0x7000#32).toNat % 4 = 0 ∧
    (translate .store 0x7002#32 (paged .supervisor)).val = .ok 0x9002#32 ∧ (0x7002#32).toNat % 4 ≠ 0 ∧
    (translate .load 0x8FFC#32 (paged .supervisor)).val = .ok 0xAFFC#32 ∧
    (∃ f, (translate .load (0x8FFC#32 + 4#32) (paged .supervisor)).val = .error f) := by
  refine ⟨rfl, by decide, by decide, by decide, by decide, by decide, ⟨_, rfl⟩, ⟨⟨.pageFault, 0x3000#32⟩, ?_⟩, by decide,
    ⟨⟨.pageFault, 0x3000#32⟩, ?_⟩, by decide, by decide, by decide, by decide, by decide, ⟨⟨.pageFault, 0x9000#32⟩, ?_⟩⟩ <;>
    decide

/-- An instruction in writeback, the rest as after reset. -/
def retiring (i : InFlight) : State := { State.reset.inCycleReading with slots := { wbs := some i } }

theorem retiring_sound {i : InFlight} (h : i.marked = false) : (retiring i).PipelineSound where
  pendingOwned t := by simp [retiring, ownerCount, owns, State.inCycleReading, State.reset, h]
  youngOwnNothing t := ⟨rfl, rfl⟩
  zeroNotPending := rfl
  oneAtATime h := by cases h
  haltedEmpty h := by cases h

/-- An ADD to r3, a store that latched the exit command, an INT0, and nothing in writeback. -/
theorem witness_WritebackCommits :
    State.reset.slots.wbs = none ∧
    ((busy none).PipelineSound ∧ ∃ i, (busy none).slots.wbs = some i ∧ i.fault = none ∧ i.exit = false ∧
      i.instr ≠ some .int0 ∧ i.dest = some 3 ∧ (3 : Reg) ≠ 0) ∧
    (∃ i : InFlight, i = { record (.stb 2 1 0) with exit := true } ∧ (retiring i).PipelineSound ∧
      (retiring i).slots.wbs = some i ∧ i.fault = none ∧ i.exit = true) ∧
    ((retiring (record .int0)).PipelineSound ∧ (retiring (record .int0)).slots.wbs = some (record .int0) ∧
      (record .int0).fault = none ∧ (record .int0).exit = false ∧ (record .int0).instr = some .int0) :=
  ⟨rfl, ⟨busy_sound none, _, rfl, by decide⟩, ⟨_, rfl, retiring_sound rfl, rfl, rfl, rfl⟩,
    ⟨retiring_sound rfl, rfl, rfl, rfl, rfl⟩⟩

/-- A running machine whose writeback halts it, and one whose writeback does not. -/
theorem witness_HaltedMachineStays_tick :
    (∃ s u : State, s = retiring { record (.stb 2 1 0) with exit := true } ∧ s.halted = none ∧
      u = wbStep { s with cycles := s.cycles + 1#64 } ∧ u.halted.isSome = true) ∧
    (∃ s u : State, s = retiring (record .nop) ∧ s.halted = none ∧ u = wbStep { s with cycles := s.cycles + 1#64 } ∧
      u.halted = none) :=
  ⟨⟨_, _, rfl, rfl, rfl, rfl⟩, ⟨_, _, rfl, rfl, rfl, rfl⟩⟩

/-- A DIV by zero with vector 4 empty, where the tick halts the machine, and with vector 4 registered. -/
theorem witness_FaultsArePrecise :
    ((busy (some ⟨.divideByZero, 0#32⟩)).PipelineSound ∧ (busy (some ⟨.divideByZero, 0#32⟩)).halted = none ∧
      (∃ i f, (busy (some ⟨.divideByZero, 0#32⟩)).slots.wbs = some i ∧ i.fault = some f) ∧
      (tick (busy (some ⟨.divideByZero, 0#32⟩))).halted.isSome = true) ∧
    ∃ s : State, s = { busy (some ⟨.divideByZero, 0#32⟩) with mem := cells 16 0x4020#32 } ∧ s.PipelineSound ∧ StoreSound s ∧
      s.halted = none ∧ (tick s).halted = none ∧ (FaultKind.divideByZero, 4) ∈ [(FaultKind.pageFault, 1),
        (.permissionFault, 2), (.alignmentFault, 3), (.divideByZero, 4), (.illegalInstruction, 5)] ∧
      s.viewWord (BitVec.ofNat 32 (4 * 4)) = 0x4020#32 :=
  ⟨⟨busy_sound _, rfl, ⟨_, _, rfl, rfl⟩, by decide⟩,
    ⟨_, rfl, ⟨busy_pending, busy_young, busy_zero, (by intro h; cases h), (by intro h; cases h)⟩, fresh rfl (by decide), rfl,
      by decide⟩⟩

end Sys2Proof.Tests
end

