-- ==== Sys2Proof/Proofs/Fetch.lean ====
section
/-! SUPPORT. The fetch of the sequential reading: what it can do, and the step that follows from it (rules R9, R74, R258);
with it the obligation `StepRunsDecodedInstruction`. -/

namespace Sys2Proof.Machine

/-! ### Reads without a pending command -/

/-- A physical read finds no command where none is pending (rule R68). -/
theorem physRead_noCommand (kind : AccessKind) (pa : Word) (n : Width) {s : State} (h : s.mmioPending = none) :
    (physRead kind pa n s).st.mmioPending = none ∧ (physRead kind pa n s).st.prngState = s.prngState :=
  ⟨(physRead_read kind pa n s).noCommand h, (physRead_spec kind pa n s).prngState (.inr (by simp [h]))⟩

theorem translate_noCommand (acc : Access) (va : Word) {s : State} (h : s.mmioPending = none) :
    (translate acc va s).st.mmioPending = none ∧ (translate acc va s).st.prngState = s.prngState := by
  unfold translate
  dsimp only
  split
  · exact ⟨h, rfl⟩
  · have hd := physRead_noCommand .walk (entryAddress s.ptbr (dirIndex va)) .word h
    split
    · exact hd
    · obtain ⟨hm, hp⟩ := physRead_noCommand .walk (entryAddress (readDirectory va s).val (tableIndex va)) .word hd.1
      exact ⟨hm, hp.trans hd.2⟩

theorem virtualRead_noCommand (acc : Access) (kind : AccessKind) (va : Word) (n : Width) {s : State}
    (h : s.mmioPending = none) :
    (virtualRead acc kind va n s).st.mmioPending = none ∧ (virtualRead acc kind va n s).st.prngState = s.prngState := by
  have ht := translate_noCommand acc va h
  rw [← (translateAligned_st acc va n s).1] at ht
  unfold virtualRead
  dsimp only
  split
  · exact ht
  · rename_i pa _
    obtain ⟨hm, hp⟩ := physRead_noCommand kind pa n ht.1
    exact ⟨hm, hp.trans ht.2⟩

/-- The counter `fetch_cycles` is not the reads' business: the stage counts it (rule R270). -/
theorem virtualRead_fetchCycles (acc : Access) (kind : AccessKind) (va : Word) (n : Width) (s : State) :
    (virtualRead acc kind va n s).st.stats.fetchCycles = s.stats.fetchCycles := by
  have ht := (translate_stats acc va s).2
  rw [← (translateAligned_st acc va n s).1] at ht
  unfold virtualRead
  dsimp only
  split
  · exact ht
  · exact (physRead_stats _ _ _ _).2.trans ht

/-- A virtual read returns the view's bytes at the translated address, where no command is pending there (rules R72, R74,
R82). -/
theorem virtualRead_view {acc : Access} {kind : AccessKind} {va pa : Word} {n : Width} {s : State} (hs : StoreSound s)
    (h : (translateAligned acc va n s).val = .ok pa)
    (hp : isCtrl pa = false ∨ (translateAligned acc va n s).st.mmioPending = none) :
    (virtualRead acc kind va n s).val = .ok (littleEndian n (fun i => s.view (pa + BitVec.ofNat 32 i))) := by
  have ht := translateAligned_read acc va n s
  rw [virtualRead_ok h, physRead_val kind (ht.sound hs) (translateAligned_ok h).1 hp]
  exact congrArg Except.ok (littleEndian_congr fun i _ => ht.view hs _)

/-! ### The fetch of an instruction -/

theorem fetchInstruction_val (s : State) : (fetchInstruction s).val = (fetch s.pc (s.addCycles 1)).val := by
  unfold fetchInstruction
  rfl

theorem fetchInstruction_lat (s : State) : (fetchInstruction s).lat = (fetch s.pc (s.addCycles 1)).lat := by
  unfold fetchInstruction
  rfl

theorem fetchInstruction_latPos (s : State) : 1 ≤ (fetchInstruction s).lat := by
  rw [fetchInstruction_lat]
  exact virtualRead_lat _ _ _ _ _

/-- The fetch takes its latency, and moves the fetch pointer (rules R258, R268). -/
theorem fetchInstruction_frame (s : State) :
    ReadFrame { s.addCycles (fetchInstruction s).lat with fpc := nextAddress s.pc } (fetchInstruction s).st := by
  have hread : ReadFrame (s.addCycles 1) (fetch s.pc (s.addCycles 1)).st := (virtualRead_read _ _ _ _ _).frame
  have hlat : 1 ≤ (fetch s.pc (s.addCycles 1)).lat := virtualRead_lat _ _ _ _ _
  unfold fetchInstruction
  generalize fetch s.pc (s.addCycles 1) = r at *
  have hcycles : r.st.cycles + BitVec.ofNat 64 (r.lat - 1) = s.cycles + BitVec.ofNat 64 r.lat := by
    rw [hread.cycles, State.addCycles_cycles, addCycles_addCycles, Nat.add_sub_cancel' hlat]
  exact ⟨hread.params, hread.reading, hread.x, hread.pc, rfl, hread.priv, hread.ptbr, hread.pending, hread.slots,
    hread.exitRequested, hread.vgaEvents, hread.halted, hread.faultInfo, hcycles⟩

/-- The fetch does what the claims about the step say of it (rules R74, R258, R268). -/
theorem fetchInstruction_fetched (s : State) : Fetched s (fetchInstruction s).st := by
  have hframe := fetchInstruction_frame s
  have hlat := fetchInstruction_latPos s
  have hread : ReadSpec (s.addCycles 1) (fetch s.pc (s.addCycles 1)).st := virtualRead_read _ _ _ _ _
  have hcommand : s.mmioPending = none → (fetch s.pc (s.addCycles 1)).st.mmioPending = none ∧
      (fetch s.pc (s.addCycles 1)).st.prngState = s.prngState :=
    fun h => virtualRead_noCommand _ _ _ _ (s := s.addCycles 1) h
  have hcount : (fetch s.pc (s.addCycles 1)).st.stats.fetchCycles = s.stats.fetchCycles :=
    virtualRead_fetchCycles _ _ _ _ (s.addCycles 1)
  unfold fetchInstruction at *
  generalize fetch s.pc (s.addCycles 1) = r at *
  exact {
    registers := hframe.reg
    pc := hframe.pc
    fpc := hframe.fpc
    machine := ⟨hframe.params, hframe.reading, hframe.ptbr, hframe.priv, hframe.pending, hframe.slots, hframe.faultInfo,
      hframe.halted⟩
    memory := fun hs a => hread.view (hs.addCycles 1) a
    sound := fun hs => (hread.sound (hs.addCycles 1)).congr rfl rfl rfl
    exitRequested := hframe.exitRequested
    vgaEvents := hframe.vgaEvents
    noCommand := hcommand
    retired := hread.retired
    ticks := ⟨r.lat, hlat, hframe.cycles, congrArg (· + r.lat) hcount⟩ }

theorem instructionStep_error {s : State} {f : FaultRec} (h : (fetchInstruction s).val = .error f) :
    instructionStep s = .next (faultWithoutAccess f.kind f.info (fetchInstruction s).st) := by
  unfold instructionStep
  simp only [h]

theorem instructionStep_ok {s : State} {w : Word} (h : (fetchInstruction s).val = .ok w) :
    instructionStep s = runWord w (fetchInstruction s).st := by
  unfold instructionStep
  simp only [h]

theorem step_instruction {s : State} (hh : s.halted = none) (hr : s.reading = .instruction) :
    step s = instructionStep s := by
  simp [step, hh, hr]

/-- Settles O5: the step is the fetch, then the meaning of what the word decodes to; the word is the view's because a
fetch is a virtual read. -/
theorem stepRunsDecodedInstruction : Obligations.StepRunsDecodedInstruction := by
  intro s w i hh hr hw hd
  refine ⟨⟨_, ?_, fetchInstruction_fetched s⟩, fun pa hs hpa hp => ?_⟩
  · rw [step_instruction hh hr, instructionStep_ok ((fetchInstruction_val s).trans hw), runWord, hd]
  · have hview : (fetch s.pc (s.addCycles 1)).val = .ok (s.viewWord pa) := virtualRead_view (hs.addCycles 1) hpa hp
    rw [hw] at hview
    exact Except.ok.inj hview

end Sys2Proof.Machine
end

