-- ==== Sys2Proof/Proofs/InFlight.lean ====
section
/-! SUPPORT. The scoreboard and the slots are invisible to memory: every operation of the memory stage commutes with a
change of them. That is why an instruction in a slot makes the accesses that it makes in the sequential reading. -/

namespace Sys2Proof.Machine

/-- The state with another scoreboard and other slots. -/
def State.inFlight (s : State) (p : Vector Bool 16) (sl : Slots) : State := { s with pending := p, slots := sl }

/-- The outcome of a transaction, its state with another scoreboard and other slots. -/
def Timed.inFlight {α : Type} (r : Timed α) (p : Vector Bool 16) (sl : Slots) : Timed α :=
  ⟨r.val, r.lat, r.st.inFlight p sl⟩

section
variable (s : State) (p : Vector Bool 16) (sl : Slots)

@[simp] theorem State.inFlight_params : (s.inFlight p sl).params = s.params := rfl
@[simp] theorem State.inFlight_ptbr : (s.inFlight p sl).ptbr = s.ptbr := rfl
@[simp] theorem State.inFlight_slots : (s.inFlight p sl).slots = sl := rfl
@[simp] theorem State.inFlight_cache : (s.inFlight p sl).cache = s.cache := rfl
@[simp] theorem State.inFlight_mem : (s.inFlight p sl).mem = s.mem := rfl
@[simp] theorem State.inFlight_mmioPending : (s.inFlight p sl).mmioPending = s.mmioPending := rfl
@[simp] theorem State.inFlight_halted : (s.inFlight p sl).halted = s.halted := rfl
@[simp] theorem State.inFlight_addCycles (n : Nat) : (s.inFlight p sl).addCycles n = (s.addCycles n).inFlight p sl := rfl

@[simp] theorem Timed.inFlight_val {α : Type} (r : Timed α) : (r.inFlight p sl).val = r.val := rfl
@[simp] theorem Timed.inFlight_st {α : Type} (r : Timed α) : (r.inFlight p sl).st = r.st.inFlight p sl := rfl

/-! ### Physical accesses -/

theorem devRead_inFlight (pa : Word) (n : Width) :
    devRead pa n (s.inFlight p sl) = ((devRead pa n s).1, (devRead pa n s).2.inFlight p sl) := by
  cases hc : isCtrl pa with
  | false => simp [devRead, hc]
  | true =>
    cases hm : s.mmioPending with
    | none => simp [devRead, hc, hm]
    | some m =>
      cases m with
      | timestamp => simp only [devRead, hc, hm, State.inFlight_mmioPending, if_true]; rfl
      | random => simp only [devRead, hc, hm, State.inFlight_mmioPending, if_true]; rfl

theorem cacheRead_inFlight (kind : AccessKind) (pa : Word) (n : Width) :
    cacheRead kind pa n (s.inFlight p sl) = (cacheRead kind pa n s).inFlight p sl := by
  unfold cacheRead
  simp only [State.inFlight_cache]
  cases (s.cache.setAt (cacheIndex pa)).hit (cacheTag pa) <;> cases kind <;> rfl

theorem physRead_inFlight (kind : AccessKind) (pa : Word) (n : Width) :
    physRead kind pa n (s.inFlight p sl) = (physRead kind pa n s).inFlight p sl := by
  have hb : bypassesCache (s.inFlight p sl) pa = bypassesCache s pa := rfl
  unfold physRead
  rw [hb, devRead_inFlight, cacheRead_inFlight]
  split <;> rfl

theorem cacheWrite_inFlight (pa : Word) (n : Width) (v : Word) :
    cacheWrite pa n v (s.inFlight p sl) = (cacheWrite pa n v s).inFlight p sl := by
  unfold cacheWrite
  simp only [State.inFlight_cache]
  cases (s.cache.setAt (cacheIndex pa)).hit (cacheTag pa) <;> rfl

theorem physWrite_inFlight (pa : Word) (n : Width) (v : Word) :
    physWrite pa n v (s.inFlight p sl) = (physWrite pa n v s).inFlight p sl := by
  have hb : bypassesCache (s.inFlight p sl) pa = bypassesCache s pa := rfl
  unfold physWrite
  rw [hb, cacheWrite_inFlight]
  split <;> rfl

/-! ### Virtual accesses -/

theorem translate_inFlight (acc : Access) (va : Word) :
    translate acc va (s.inFlight p sl) = (translate acc va s).inFlight p sl := by
  have hd : readDirectory va (s.inFlight p sl) = (readDirectory va s).inFlight p sl := physRead_inFlight _ _ _ _ _ _
  have ht (pde : Word) (u : State) : readTable pde va (u.inFlight p sl) = (readTable pde va u).inFlight p sl :=
    physRead_inFlight _ _ _ _ _ _
  unfold translate
  simp only [hd, ht, State.inFlight_ptbr, Timed.inFlight_val, Timed.inFlight_st]
  split
  · rfl
  · split <;> rfl

theorem translateAligned_inFlight (acc : Access) (va : Word) (n : Width) :
    translateAligned acc va n (s.inFlight p sl) = (translateAligned acc va n s).inFlight p sl := by
  unfold translateAligned
  simp only [translate_inFlight, Timed.inFlight_val]
  split
  · rfl
  · split <;> rfl

theorem memRead_inFlight (va : Word) (n : Width) :
    memRead va n (s.inFlight p sl) = (memRead va n s).inFlight p sl := by
  unfold memRead virtualRead
  simp only [translateAligned_inFlight, Timed.inFlight_val]
  split
  · rfl
  · simp only [Timed.inFlight_st, physRead_inFlight]; rfl

theorem memWrite_inFlight (va : Word) (n : Width) (v : Word) :
    memWrite va n v (s.inFlight p sl) = (memWrite va n v s).inFlight p sl := by
  unfold memWrite
  simp only [translateAligned_inFlight, Timed.inFlight_val]
  split
  · rfl
  · simp only [Timed.inFlight_st, physWrite_inFlight]; rfl

/-! ### The frame -/

theorem translateFrame_inFlight (acc : Access) (sp : Word) :
    translateFrame acc sp (s.inFlight p sl) = (translateFrame acc sp s).inFlight p sl := by
  unfold translateFrame
  simp only [translate_inFlight, Timed.inFlight_val, Timed.inFlight_st]
  split
  · rfl
  · split
    · rfl
    · split <;> rfl

theorem writeFrame_inFlight (pa0 pa1 flags savedPc : Word) :
    writeFrame pa0 pa1 flags savedPc (s.inFlight p sl) = (writeFrame pa0 pa1 flags savedPc s).inFlight p sl := by
  unfold writeFrame
  simp only [physWrite_inFlight, Timed.inFlight_st]
  rfl

theorem pushFrame_inFlight (sp savedPc : Word) :
    pushFrame sp savedPc (s.inFlight p sl) = (pushFrame sp savedPc s).inFlight p sl := by
  unfold pushFrame
  simp only [translateFrame_inFlight, Timed.inFlight_val]
  split
  · rfl
  · simp only [Timed.inFlight_st, writeFrame_inFlight]; rfl

theorem popFrame_inFlight (sp : Word) :
    popFrame sp (s.inFlight p sl) = (popFrame sp s).inFlight p sl := by
  unfold popFrame
  simp only [translateFrame_inFlight, Timed.inFlight_val]
  split
  · rfl
  · simp only [Timed.inFlight_st, physRead_inFlight]; rfl

/-! ### The memory stage -/

theorem memAction_inFlight (i : InFlight) :
    memAction i (s.inFlight p sl) = (memAction i s).inFlight p sl := by
  unfold memAction
  cases recordForm i with
  | noAction => rfl
  | load n => simp only [memRead_inFlight, Timed.inFlight_val]; split <;> rfl
  | store n => simp only [memWrite_inFlight, Timed.inFlight_val]; split <;> rfl
  | push => simp only [pushFrame_inFlight, Timed.inFlight_val]; split <;> rfl
  | pop => simp only [popFrame_inFlight, Timed.inFlight_val]; split <;> rfl

theorem memIssue_inFlight (i : InFlight) :
    memIssue i (s.inFlight p sl) = ((memIssue i s).1, (memIssue i s).2.inFlight p sl) := by
  unfold memIssue
  rw [memAction_inFlight]
  split <;> rfl

end

end Sys2Proof.Machine
end

