-- ==== Sys2Proof/Proofs/Alone.lean ====
section
/-! SUPPORT. One instruction alone in the machine with the pipeline off: what the ticks of each of its stages do (rules
R252 to R258, R268). -/

namespace Sys2Proof.Machine

/-! ### Counting ticks -/

theorem ticks_add (m n : Nat) (s : State) : ticks (m + n) s = ticks n (ticks m s) := by
  induction m generalizing s with
  | zero => rw [Nat.zero_add]; rfl
  | succ m ih => rw [Nat.succ_add]; exact ih (tick s)

theorem State.addCycles_add (s : State) (m n : Nat) : (s.addCycles m).addCycles n = s.addCycles (m + n) := by
  unfold State.addCycles
  rw [addCycles_addCycles]

theorem State.addCycles_zero (s : State) : s.addCycles 0 = s := by
  simp [State.addCycles]

/-! ### A running machine without a pipeline -/

/-- The machine runs and its pipeline is off. -/
structure State.Alone (s : State) : Prop where
  off : s.params.pipelineEnabled = false
  running : s.halted = none

theorem State.Alone.addCycles {s : State} (h : s.Alone) (n : Nat) : (s.addCycles n).Alone := ⟨h.off, h.running⟩

theorem State.Alone.of_write {s t : State} (h : s.Alone) (k : WriteFrame s t) : t.Alone :=
  ⟨by rw [k.params]; exact h.off, k.halted.trans h.running⟩

/-- While an instruction is in flight no fetch is issued (rule R268). -/
theorem ifStep_off {s : State} (h : s.params.pipelineEnabled = false) : ifStep false s = advanceFetch s := by
  simp [ifStep, h]

/-- A tick with an instruction in flight and nothing in writeback. -/
theorem tick_alone {s : State} (h : s.Alone) (p : Vector Bool 16) {sl : Slots} (hw : sl.wbs = none) (hi : sl ≠ {}) :
    tick (s.inFlight p sl) = ifStep false (idStep (exStep (memStep ((s.addCycles 1).inFlight p sl)))) := by
  have hwb : wbStep ((s.addCycles 1).inFlight p sl) = (s.addCycles 1).inFlight p sl := by simp [wbStep, hw]
  have hidle : (s.inFlight p sl).idle = false := by simp [State.idle, hi]
  simp [tick, runningTick, h.running, hwb, hidle]

/-! ### Fetch (rule R258) -/

theorem tick_fetching {s : State} (h : s.Alone) (p : Vector Bool 16) (i : InFlight) :
    tick (s.inFlight p { ifs := some i }) = advanceFetch ((s.addCycles 1).inFlight p { ifs := some i }) := by
  rw [tick_alone h p rfl (by simp)]
  exact ifStep_off h.off

/-- A fetch with `k + 1` ticks to serve, the first of them under way, is in decode after `k` more. -/
theorem ticks_fetching (k : Nat) {s : State} (h : s.Alone) (p : Vector Bool 16) (i : InFlight) (hw : i.wait = k + 1) :
    ticks k (advanceFetch (s.inFlight p { ifs := some i })) =
      (s.addCycles k).inFlight p { ids := some { i with wait := 0 } } := by
  induction k generalizing s i with
  | zero =>
    rw [State.addCycles_zero]
    simp [ticks, advanceFetch, hw, State.inFlight]
  | succ k ih =>
    have hserve : advanceFetch (s.inFlight p { ifs := some i }) =
        s.inFlight p { ifs := some { i with wait := k + 1 } } := by
      simp [advanceFetch, hw, State.inFlight]
    rw [hserve, ticks, tick_fetching h, ih (h.addCycles 1) _ rfl, State.addCycles_add, Nat.add_comm 1 k]

/-- The first tick of an instruction issues its fetch. -/
theorem tick_between {s : State} (h : s.Alone) (hb : s.Between) :
    tick s = advanceFetch (issueFetch (s.addCycles 1)) := by
  have hidle : s.idle = true := by simp [State.idle, hb.empty]
  simp [tick, runningTick, wbStep, memStep, exStep, idStep, ifStep, h.running, hb.empty, hidle]

/-- The fetched instruction reaches decode after the fetch's latency, in the state in which the sequential reading runs
it (rules R258, R268). -/
theorem ticks_fetch {s : State} (h : s.Alone) (hb : s.Between) :
    ticks (fetchInstruction s).lat s =
      (fetchInstruction s).st.inFlight s.pending
        { ids := some (fetchRecord s.pc 0 (Config.undefinedWord (s.addCycles 1).cycles.toNat)
          (fetchInstruction s).val) } := by
  have hread : ReadSpec (s.addCycles 1) (fetch s.pc (s.addCycles 1)).st := virtualRead_read _ _ _ _ _
  obtain ⟨k, hk⟩ : ∃ k, (fetch s.pc (s.addCycles 1)).lat = k + 1 :=
    Nat.exists_eq_add_of_le' (virtualRead_lat .fetch .fetch s.pc .word (s.addCycles 1))
  unfold fetchInstruction
  dsimp only
  generalize hr : fetch s.pc (s.addCycles 1) = r at *
  have hissue : issueFetch (s.addCycles 1) =
      { r.st.countFetchCycles r.lat with fpc := nextAddress s.pc }.inFlight s.pending
        { ifs := some (fetchRecord s.pc r.lat (Config.undefinedWord (s.addCycles 1).cycles.toNat) r.val) } := by
    have hs : r.st.slots = {} := hread.frame.slots.trans hb.empty
    have hp : r.st.pending = s.pending := hread.frame.pending
    simp [issueFetch, hb.onePc, hr, State.inFlight, State.countFetchCycles, hs, hp]
  have halone : { r.st.countFetchCycles r.lat with fpc := nextAddress s.pc }.Alone :=
    ⟨by simp [hread.frame.params, h.off], by simp [hread.frame.halted, h.running]⟩
  have hwait : (fetchRecord s.pc r.lat (Config.undefinedWord (s.addCycles 1).cycles.toNat) r.val).wait = k + 1 := by
    rw [← hk]; cases r.val <;> rfl
  rw [hk] at hissue halone hwait ⊢
  rw [ticks, tick_between h hb, hissue, ticks_fetching k halone _ _ hwait]
  cases r.val <;> rfl

/-! ### Decode (rules R256, R257) -/

/-- The record that decode hands on, the pipeline being off: with its fault, as an illegal word, or with its operands. -/
def decoded (i : InFlight) (s : State) : InFlight :=
  if i.fault.isSome then i
  else
    match decode i.word with
    | .illegal _ => i.withFault ⟨.illegalInstruction, i.word⟩
    | .instr d => readOperands i d s

/-- An instruction that owns no pending bit gives up none. -/
theorem releasePending_unmarked (p : Vector Bool 16) {i : InFlight} (h : i.marked = false) :
    releasePending p (some i) = p := by
  simp [releasePending, h]

/-- The mark that decode sets on an empty scoreboard is the one that writeback clears. -/
theorem releasePending_markPending (i : InFlight) (d : Instr) (s : State) :
    releasePending (markPending (Vector.replicate 16 false) (destination d)) (some (readOperands i d s)) =
      Vector.replicate 16 false := by
  cases hd : destination d with
  | none => simp [releasePending, readOperands, markPending, hd]
  | some r =>
    by_cases hr : r = 0
    · simp [releasePending, readOperands, markPending, hd, hr]
    · have hne : (r != 0) = true := by simp [hr]
      simp [releasePending, readOperands, markPending, hd, hr, hne]

theorem tick_decoding {s : State} (h : s.Alone) (i : InFlight) (hm : i.marked = false) :
    ∃ p, releasePending p (some (decoded i s)) = Vector.replicate 16 false ∧
      tick (s.inFlight (Vector.replicate 16 false) { ids := some i }) =
        (s.addCycles 1).inFlight p { exs := some (decoded i s) } := by
  have htick : tick (s.inFlight (Vector.replicate 16 false) { ids := some i }) =
      ifStep false (decodeStage i ((s.addCycles 1).inFlight (Vector.replicate 16 false) { ids := some i })) :=
    tick_alone h _ rfl (by simp)
  rw [htick]
  unfold decodeStage decoded
  split
  · exact ⟨_, releasePending_unmarked _ hm, ifStep_off h.off⟩
  · cases hd : decode i.word with
    | illegal why => exact ⟨_, releasePending_unmarked _ hm, ifStep_off h.off⟩
    | instr d =>
      refine ⟨_, releasePending_markPending i d s, ?_⟩
      simp only [State.inFlight_params, State.addCycles_params, h.off, Bool.false_and, Bool.false_eq_true, if_false]
      exact ifStep_off h.off

/-! ### Execute (rule R255) -/

/-- The record that execute hands on. -/
def executed (i : InFlight) : InFlight := if i.fault.isSome then i else exAction i

theorem tick_executing {s : State} (h : s.Alone) (p : Vector Bool 16) (i : InFlight) :
    tick (s.inFlight p { exs := some i }) = (s.addCycles 1).inFlight p { mems := some (executed i) } := by
  rw [tick_alone h p rfl (by simp)]
  exact ifStep_off h.off

/-! ### What the stages keep of a record (rules R256, R261, R263) -/

/-- `j` is the record `i` later: its address and its claim on a register as they were. -/
structure InFlight.SameOrigin (i j : InFlight) : Prop where
  ipc : j.ipc = i.ipc
  dest : j.dest = i.dest
  marked : j.marked = i.marked

theorem InFlight.SameOrigin.release {i j : InFlight} (h : i.SameOrigin j) (p : Vector Bool 16) :
    releasePending p (some j) = releasePending p (some i) := by
  unfold releasePending
  simp only [h.dest, h.marked]

theorem exAction_origin (i : InFlight) : i.SameOrigin (exAction i) ∧ (exAction i).issued = i.issued := by
  unfold exAction
  cases i.instr with
  | none => exact ⟨⟨rfl, rfl, rfl⟩, rfl⟩
  | some d =>
    cases d with
    | div rd ra rb => dsimp only; split <;> exact ⟨⟨rfl, rfl, rfl⟩, rfl⟩
    | _ => exact ⟨⟨rfl, rfl, rfl⟩, rfl⟩

theorem executed_origin (i : InFlight) : i.SameOrigin (executed i) ∧ (executed i).issued = i.issued := by
  unfold executed
  split
  · exact ⟨⟨rfl, rfl, rfl⟩, rfl⟩
  · exact exAction_origin i

theorem decoded_origin (i : InFlight) (s : State) :
    (decoded i s).ipc = i.ipc ∧ (decoded i s).issued = i.issued := by
  unfold decoded
  split
  · exact ⟨rfl, rfl⟩
  · split <;> exact ⟨rfl, rfl⟩

/-- CALL's memory action takes at least one cycle (rule R261). -/
theorem pushFrame_lat (sp savedPc : Word) (s : State) : 1 ≤ (pushFrame sp savedPc s).lat := by
  unfold pushFrame
  dsimp only
  split
  · exact le_max_right _ _
  · exact le_trans (physWrite_spec _ _ _ _).latPos ((Nat.le_add_right _ _).trans (Nat.le_add_left _ _))

/-- RET's memory action takes at least one cycle (rule R261). -/
theorem popFrame_lat (sp : Word) (s : State) : 1 ≤ (popFrame sp s).lat := by
  unfold popFrame
  dsimp only
  split
  · exact le_max_right _ _
  · exact le_trans (physRead_spec _ _ _ _).latPos (Nat.le_add_left _ _)

/-- What the accesses of the memory stage can do: reads and writes, at least one cycle, and the record keeps its origin
(rule R261). -/
structure MemActionSpec (i : InFlight) (s : State) (r : Timed InFlight) : Prop where
  origin : i.SameOrigin r.val
  frame : WriteFrame s r.st
  latPos : 1 ≤ r.lat

theorem memAction_spec (i : InFlight) (s : State) : MemActionSpec i s (memAction i s) := by
  unfold memAction
  cases recordForm i with
  | noAction => exact ⟨⟨rfl, rfl, rfl⟩, WriteFrame.refl s, le_rfl⟩
  | load n =>
    have hf := (virtualRead_read .load .load i.ea n s).frame.toWrite
    have hl := virtualRead_lat .load .load i.ea n s
    dsimp only
    split <;> exact ⟨⟨rfl, rfl, rfl⟩, hf, hl⟩
  | store n =>
    have hf := (memWrite_write i.ea n i.c s).frame
    have hl := memWrite_lat i.ea n i.c s
    dsimp only
    split <;> exact ⟨⟨rfl, rfl, rfl⟩, hf, hl⟩
  | push =>
    have hf := (pushFrame_write i.result (nextAddress i.ipc) s).frame
    have hl := pushFrame_lat i.result (nextAddress i.ipc) s
    dsimp only
    split <;> exact ⟨⟨rfl, rfl, rfl⟩, hf, hl⟩
  | pop =>
    have hf := (popFrame_read i.sp s).frame.toWrite
    have hl := popFrame_lat i.sp s
    dsimp only
    split <;> exact ⟨⟨rfl, rfl, rfl⟩, hf, hl⟩

/-- What the first memory tick of a record can do (rule R254). -/
structure MemIssueSpec (i : InFlight) (s : State) (r : InFlight × State) : Prop where
  origin : i.SameOrigin r.1
  frame : WriteFrame s r.2
  issued : r.1.issued = true
  waitPos : 1 ≤ r.1.wait

theorem memIssue_spec (i : InFlight) (s : State) : MemIssueSpec i s (memIssue i s) := by
  unfold memIssue
  split
  · exact ⟨⟨rfl, rfl, rfl⟩, WriteFrame.refl s, rfl, le_rfl⟩
  · obtain ⟨ho, hf, hl⟩ := memAction_spec i s
    exact ⟨⟨ho.ipc, ho.dest, ho.marked⟩,
      hf.trans ⟨rfl, rfl, rfl, rfl, rfl, rfl, rfl, rfl, rfl, rfl, rfl, rfl⟩, rfl, hl⟩

/-! ### Memory (rules R254, R264) -/

/-- The state after the last memory tick of record `i`, whose successor is where fetch stands (rule R254). -/
def State.afterMemory (s : State) (i : InFlight) : State :=
  match i.fault with
  | some _ => s
  | none => { s with priv := i.newpriv.getD s.priv }.setPcs (if i.taken then i.target else nextAddress i.ipc)

/-- A redirect finds nothing to squash, and without one fetch stands at the successor already (rules R254, R264). -/
theorem memComplete_alone {s : State} {i : InFlight} (hf : s.fpc = nextAddress i.ipc) (p : Vector Bool 16) (m w : Slot) :
    memComplete i (s.inFlight p { mems := m, wbs := w }) = (s.afterMemory i).inFlight p { mems := m, wbs := w } := by
  unfold memComplete State.afterMemory
  cases i.fault with
  | some f => rfl
  | none =>
    dsimp only
    cases i.taken with
    | true => rfl
    | false => simp [State.inFlight, State.setPcs, hf]

/-- The young stages have nothing to do while the instruction is in memory or in writeback. -/
theorem youngStages_alone {s : State} (h : s.Alone) (p : Vector Bool 16) (m w : Slot) :
    ifStep false (idStep (exStep (s.inFlight p { mems := m, wbs := w }))) = s.inFlight p { mems := m, wbs := w } :=
  ifStep_off h.off

theorem State.Alone.afterMemory {s : State} (h : s.Alone) (i : InFlight) : (s.afterMemory i).Alone := by
  unfold State.afterMemory
  split
  · exact h
  · exact ⟨h.off, h.running⟩

/-- One tick of record `i` in memory, `j` and `u` being the record and the state after its accesses, which are made in its
first tick (rule R254). -/
theorem memStep_alone {s u : State} {i j : InFlight} (hj : (if i.issued then (i, s) else memIssue i s) = (j, u))
    (hf : u.fpc = nextAddress j.ipc) (p : Vector Bool 16) :
    memStep (s.inFlight p { mems := some i }) =
      if j.wait - 1 = 0 then (u.afterMemory j).inFlight p { wbs := some { j with wait := j.wait - 1 } }
      else u.inFlight p { mems := some { j with wait := j.wait - 1 } } := by
  have hissue : (if i.issued then (i, s.inFlight p { mems := some i })
      else memIssue i (s.inFlight p { mems := some i })) = (j, u.inFlight p { mems := some i }) := by
    rw [memIssue_inFlight]
    split at hj <;> simp_all
  have hcomplete := memComplete_alone (i := { j with wait := j.wait - 1 }) hf p (some i) none
  unfold memStep
  simp only [State.inFlight_slots, hissue]
  rw [hcomplete]
  rfl

/-- An access with `k + 1` ticks to serve, the first of them under way, is in writeback after `k` more. -/
theorem ticks_serving (k : Nat) {s u : State} {i j : InFlight}
    (hj : (if i.issued then (i, s) else memIssue i s) = (j, u)) (hu : u.Alone) (hissued : j.issued = true)
    (hf : u.fpc = nextAddress j.ipc) (hw : j.wait = k + 1) (p : Vector Bool 16) :
    ticks k (ifStep false (idStep (exStep (memStep (s.inFlight p { mems := some i }))))) =
      ((u.addCycles k).afterMemory j).inFlight p { wbs := some { j with wait := 0 } } := by
  rw [memStep_alone hj hf, hw, Nat.add_sub_cancel]
  induction k generalizing s u i j with
  | zero =>
    rw [if_pos rfl, youngStages_alone (hu.afterMemory j), State.addCycles_zero]
    rfl
  | succ k ih =>
    have hnext : (if ({ j with wait := k + 1 } : InFlight).issued then ({ j with wait := k + 1 }, u.addCycles 1)
        else memIssue { j with wait := k + 1 } (u.addCycles 1)) =
        (({ j with wait := k + 1 } : InFlight), u.addCycles 1) := if_pos hissued
    have hstep := memStep_alone (j := { j with wait := k + 1 }) hnext hf p
    have hrest := ih hnext (hu.addCycles 1) hissued hf rfl
    rw [Nat.add_sub_cancel] at hstep
    rw [if_neg (Nat.succ_ne_zero k), youngStages_alone hu, ticks, tick_alone hu p rfl (by simp), hstep, hrest,
      State.addCycles_add, Nat.add_comm 1 k]
    rfl

/-- The instruction leaves memory after its latency (rules R254, R261). -/
theorem ticks_memory {s u : State} {i j : InFlight} (h : s.Alone) (hi : i.issued = false)
    (hj : memIssue i (s.addCycles 1) = (j, u)) (hf : s.fpc = nextAddress i.ipc) (p : Vector Bool 16) :
    ticks j.wait (s.inFlight p { mems := some i }) =
      ((u.addCycles (j.wait - 1)).afterMemory j).inFlight p { wbs := some { j with wait := 0 } } := by
  have hspec := memIssue_spec i (s.addCycles 1)
  rw [hj] at hspec
  obtain ⟨horigin, hframe, hissued, hpos⟩ := hspec
  obtain ⟨k, hk⟩ : ∃ k, j.wait = k + 1 := Nat.exists_eq_add_of_le' hpos
  have hfpc : u.fpc = nextAddress j.ipc := by rw [hframe.fpc, horigin.ipc]; exact hf
  have hserved := ticks_serving k (s := s.addCycles 1) (i := i) (by simp [hi, hj]) ((h.addCycles 1).of_write hframe)
    hissued hfpc hk p
  rw [hk, ticks, tick_alone h p rfl (by simp), hserved, Nat.add_sub_cancel]

/-! ### Writeback (rule R253) -/

/-- What writeback leaves of an otherwise empty machine: an empty machine of the same configuration, and, unless it has
halted, one between two instructions. -/
structure WritebackSpec (s t : State) : Prop where
  params : t.params = s.params
  empty : t.slots = {}
  noPending : s.pending = Vector.replicate 16 false → t.halted = none → t.pending = Vector.replicate 16 false
  onePc : t.halted = none → t.fpc = t.pc

theorem TrapSpec.writeback {s t : State} (h : TrapSpec s t) (hs : s.slots = {}) : WritebackSpec s t := by
  obtain ⟨hh, -, -, -, -, hsl, -⟩ | ⟨-, -, hpc, -, hsl, hp⟩ := h.outcome
  · exact ⟨h.params, hsl, fun _ hn => by simp [hn] at hh, fun hn => by simp [hn] at hh⟩
  · refine ⟨h.params, by simp [hsl, hs], fun hclean _ => ?_, fun _ => hpc⟩
    simp [hp, hs, hclean, releasePending]

/-- Only the configuration and the scoreboard before writeback matter. -/
theorem WritebackSpec.congr {s s' t : State} (h : WritebackSpec s t) (hpar : s.params = s'.params)
    (hp : s.pending = s'.pending) : WritebackSpec s' t :=
  ⟨h.params.trans hpar, h.empty, fun hc => h.noPending (hp.trans hc), h.onePc⟩

theorem State.halt_writeback (s : State) (cause : HaltCause) : WritebackSpec s (s.halt cause) :=
  ⟨rfl, rfl, by simp, by simp⟩

theorem clearWb_empty {s : State} (hs : s.slots = {}) : clearWb s = s := by
  obtain ⟨⟩ := s
  cases hs
  rfl

theorem commitResult_frame (i : InFlight) (s : State) :
    (commitResult i s).params = s.params ∧ (commitResult i s).slots = s.slots ∧
      (commitResult i s).pending = s.pending ∧ (commitResult i s).fpc = s.fpc ∧ (commitResult i s).pc = s.pc := by
  unfold commitResult
  split <;> exact ⟨rfl, rfl, rfl, rfl, rfl⟩

theorem writeback_spec {i : InFlight} {s : State} (hs : s.slots = {}) (hpc : i.fault = none → s.fpc = s.pc) :
    WritebackSpec s (writeback i s) := by
  unfold writeback
  rw [clearWb_empty hs]
  cases hfault : i.fault with
  | some f =>
    dsimp only
    exact ((takeFault_spec f.kind i.ipc f.info s).writeback hs).congr rfl rfl
  | none =>
    obtain ⟨cpar, csl, cp, cf, cpc⟩ := commitResult_frame i s
    dsimp only
    split
    · exact ((commitResult i s).countRetired.halt_writeback .hostExit).congr cpar cp
    · split
      · exact ((trapEntry_spec _ _ (commitResult i s).countRetired).writeback (csl.trans hs)).congr cpar cp
      · exact ⟨cpar, csl.trans hs, fun hp _ => cp.trans hp, fun _ => cf.trans ((hpc hfault).trans cpc.symm)⟩

/-- The writeback tick is the last: after it nothing is in flight (rules R253, R268). -/
theorem tick_writeback {s : State} (h : s.Alone) (p : Vector Bool 16) {i : InFlight}
    (hpc : i.fault = none → s.fpc = s.pc) :
    tick (s.inFlight p { wbs := some i }) =
      writeback i ((s.addCycles 1).inFlight (releasePending p (some i)) {}) := by
  have hspec := writeback_spec (i := i) (s := (s.addCycles 1).inFlight (releasePending p (some i)) {}) rfl hpc
  have hwb : wbStep ((s.inFlight p { wbs := some i }).addCycles 1) =
      writeback i ((s.addCycles 1).inFlight (releasePending p (some i)) {}) := rfl
  have hidle : (s.inFlight p { wbs := some i }).idle = false := by simp [State.idle]
  unfold tick runningTick
  rw [hwb, hidle, State.inFlight_halted, h.running]
  generalize writeback i ((s.addCycles 1).inFlight (releasePending p (some i)) {}) = t at *
  have hoff : t.params.pipelineEnabled = false := by rw [hspec.params]; exact h.off
  simp [memStep, exStep, idStep, ifStep, advanceFetch, hspec.empty, hoff]

end Sys2Proof.Machine
end

