-- ==== Sys2Proof/Proofs/TicksRefine.lean ====
section
/-! SUPPORT. The sequential meaning of every instruction is what its record does in memory and writeback when it is alone
in the machine (rules R9, R268), and with it the obligation `TicksRefineInstruction`. -/

namespace Sys2Proof.Machine

/-! ### The last two stages in one step -/

/-- The effect of the last memory tick and of writeback on a record that is alone (rules R253, R254). -/
def retireAlone (i : InFlight) (s : State) : State := writeback i (s.afterMemory i)

/-- A record that leaves execute, from the state at the end of fetch: its accesses, their ticks, and its retirement. -/
def runAlone (i : InFlight) (s : State) : State :=
  retireAlone (memIssue i s.reachMemory).1 ((memIssue i s.reachMemory).2.addCycles (memIssue i s.reachMemory).1.wait)

theorem State.afterMemory_addCycles (s : State) (i : InFlight) (n : Nat) :
    (s.addCycles n).afterMemory i = (s.afterMemory i).addCycles n := by
  unfold State.afterMemory
  cases i.fault <;> rfl

theorem State.afterMemory_flight (s : State) (i : InFlight) :
    (s.afterMemory i).slots = s.slots ∧ (s.afterMemory i).pending = s.pending ∧
      (s.afterMemory i).params = s.params := by
  unfold State.afterMemory
  cases i.fault <;> exact ⟨rfl, rfl, rfl⟩

theorem State.afterMemory_onePc (s : State) {i : InFlight} (h : i.fault = none) :
    (s.afterMemory i).fpc = (s.afterMemory i).pc := by
  simp [State.afterMemory, h]

theorem retireAlone_spec {s : State} (i : InFlight) (hs : s.slots = {}) : WritebackSpec s (retireAlone i s) := by
  obtain ⟨hsl, hp, hpar⟩ := s.afterMemory_flight i
  have h := writeback_spec (hsl.trans hs) (fun hf => s.afterMemory_onePc (i := i) hf)
  exact ⟨h.params.trans hpar, h.empty, fun hc => h.noPending (hp.trans hc), h.onePc⟩

/-- An instruction alone leaves the machine between two instructions, or halted. -/
theorem runAlone_between {s : State} (i : InFlight) (hs : s.slots = {}) (hp : s.pending = Vector.replicate 16 false)
    (hrun : (runAlone i s).halted = none) : (runAlone i s).Between := by
  have hframe := (memIssue_spec i s.reachMemory).frame
  have h := retireAlone_spec (s := (memIssue i s.reachMemory).2.addCycles (memIssue i s.reachMemory).1.wait)
    (memIssue i s.reachMemory).1 (hframe.slots.trans hs)
  exact ⟨h.empty, h.noPending (hframe.pending.trans hp) hrun, h.onePc hrun⟩

/-! ### From decode to the end, tick by tick -/

theorem State.inFlight_eq {s : State} {p : Vector Bool 16} {sl : Slots} (hp : s.pending = p) (hs : s.slots = sl) :
    s.inFlight p sl = s := by
  subst hp hs
  rfl

/-- The ticks of a record in memory and in writeback do what it does alone (rules R253, R254). -/
theorem ticks_executed {s : State} {i : InFlight} (h : s.Alone) (hs : s.slots = {})
    (hp : s.pending = Vector.replicate 16 false) (hf : s.fpc = nextAddress i.ipc) (hi : i.issued = false)
    {p : Vector Bool 16} (hrelease : releasePending p (some i) = Vector.replicate 16 false) :
    ∃ n, ticks n ((s.addCycles 2).inFlight p { mems := some i }) = runAlone i s := by
  have hthird : (s.addCycles 2).addCycles 1 = s.reachMemory := s.addCycles_add 2 1
  have hspec := memIssue_spec i s.reachMemory
  unfold runAlone
  rcases hj : memIssue i s.reachMemory with ⟨j, u⟩
  rw [hj] at hspec
  obtain ⟨horigin, hframe, -, hpos⟩ := hspec
  have hserve := ticks_memory (h.addCycles 2) hi (j := j) (u := u) (by rw [hthird]; exact hj) hf p
  have hu : u.Alone := (h.addCycles 3).of_write hframe
  have hlast := tick_writeback ((hu.addCycles (j.wait - 1)).afterMemory j) p (i := { j with wait := 0 })
    (fun hn => State.afterMemory_onePc _ hn)
  have hfree : releasePending p (some { j with wait := 0 }) = Vector.replicate 16 false :=
    (horigin.release p).trans hrelease
  obtain ⟨hsl, hpen, -⟩ := (u.addCycles j.wait).afterMemory_flight j
  have hidle : ((u.addCycles j.wait).afterMemory j).inFlight (Vector.replicate 16 false) {} =
      (u.addCycles j.wait).afterMemory j :=
    State.inFlight_eq (hpen.trans (hframe.pending.trans hp)) (hsl.trans (hframe.slots.trans hs))
  refine ⟨j.wait + 1, ?_⟩
  rw [ticks_add, hserve]
  show tick _ = _
  rw [hlast, hfree, ← State.afterMemory_addCycles, State.addCycles_add, Nat.sub_add_cancel hpos, hidle]
  rfl

/-- The ticks of a record from decode on do what it does alone (rules R252 to R257). -/
theorem ticks_decoded {s : State} {i : InFlight} (h : s.Alone) (hs : s.slots = {})
    (hp : s.pending = Vector.replicate 16 false) (hf : s.fpc = nextAddress i.ipc) (hm : i.marked = false)
    (hi : i.issued = false) :
    ∃ n, ticks n (s.inFlight s.pending { ids := some i }) = runAlone (executed (decoded i s)) s := by
  obtain ⟨hipc, hissued⟩ := decoded_origin i s
  obtain ⟨hexec, hkept⟩ := executed_origin (decoded i s)
  obtain ⟨p, hrelease, hdecode⟩ := tick_decoding h i hm
  have hexecute := tick_executing (h.addCycles 1) p (decoded i s)
  rw [State.addCycles_add] at hexecute
  obtain ⟨n, hn⟩ := ticks_executed h hs hp (by rw [hexec.ipc, hipc]; exact hf) (hkept.trans (hissued.trans hi))
    ((hexec.release p).trans hrelease)
  refine ⟨2 + n, ?_⟩
  rw [ticks_add, hp]
  show ticks n (tick (tick _)) = _
  rw [hdecode, hexecute, hn]

/-! ### The sequential meanings -/

/-- The record of the instruction `d` at `pc` as it leaves decode; `w` is its word. -/
def operandRecord (w : Word) (d : Instr) (s : State) : InFlight := readOperands (fetchRecord s.pc 0 w (.ok w)) d s

/-- The state after an unfaulted record has written its register, its privilege and the program counters, and has
retired. -/
def committed (i : InFlight) (s : State) : State :=
  (commitResult i { s with priv := i.newpriv.getD s.priv }).retireTo (if i.taken then i.target else nextAddress i.ipc)

theorem retireAlone_fault {i : InFlight} {s : State} {f : FaultRec} (hs : s.slots = {}) (hf : i.fault = some f) :
    retireAlone i s = takeFault f.kind i.ipc f.info s := by
  simp only [retireAlone, writeback, State.afterMemory, hf, clearWb_empty hs]

theorem retireAlone_ok {i : InFlight} {s : State} (hs : s.slots = {}) (hf : i.fault = none) :
    retireAlone i s =
      if i.exit then (committed i s).halt .hostExit
      else if i.instr = some .int0 then trapEntry int0Vector (nextAddress i.ipc) (committed i s)
      else committed i s := by
  have hcommit : (commitResult i (s.afterMemory i)).countRetired = committed i s := by
    unfold State.afterMemory committed commitResult
    rw [hf]
    cases i.dest <;> rfl
  have hidle : (s.afterMemory i).slots = {} := (s.afterMemory_flight i).1.trans hs
  simp only [retireAlone, writeback, hf, clearWb_empty hidle, hcommit]

/-- A record other than INT0's retires, and halts the machine where it latched the exit request. -/
theorem retireAlone_untrapped {i : InFlight} {s : State} (hs : s.slots = {}) (hf : i.fault = none)
    (hi : i.instr ≠ some .int0) :
    retireAlone i s = if i.exit then (committed i s).halt .hostExit else committed i s := by
  rw [retireAlone_ok hs hf, if_neg hi]

theorem retireAlone_next {i : InFlight} {s : State} (hs : s.slots = {}) (hf : i.fault = none)
    (hi : i.instr ≠ some .int0) (he : i.exit = false) : retireAlone i s = committed i s := by
  rw [retireAlone_untrapped hs hf hi, he, if_neg (by simp)]

theorem committed_result {i : InFlight} {rd : Reg} (s : State) (hd : i.dest = some rd) (hn : i.newpriv = none) :
    committed i s = (s.setReg rd i.result).retireTo (if i.taken then i.target else nextAddress i.ipc) := by
  simp only [committed, commitResult, hd, hn, Option.getD_none]

theorem committed_noResult {i : InFlight} (s : State) (hd : i.dest = none) (hn : i.newpriv = none) :
    committed i s = s.retireTo (if i.taken then i.target else nextAddress i.ipc) := by
  simp only [committed, commitResult, hd, hn, Option.getD_none]

/-- A record without a memory action passes the memory stage in one tick (rule R254). -/
theorem runAlone_passing {i : InFlight} (s : State) (h : i.fault.isSome = true ∨ recordForm i = .noAction) :
    runAlone i s = retireAlone i s.passStages := by
  have hissue : memIssue i s.reachMemory = ({ i with issued := true, wait := 1 }, s.reachMemory) := by
    unfold memIssue
    rw [if_pos (by simpa using h)]
  unfold runAlone
  rw [hissue]
  show retireAlone i ((s.addCycles 3).addCycles 1) = _
  rw [State.addCycles_add]
  rfl

/-- A record with a memory action serves its latency (rules R254, R261). -/
theorem runAlone_access {i : InFlight} (s : State) (hf : i.fault = none) (hform : recordForm i ≠ .noAction) :
    runAlone i s =
      retireAlone (memAction i s.reachMemory).val
        ((memAction i s.reachMemory).st.serveMemory (memAction i s.reachMemory).lat) := by
  unfold runAlone memIssue
  rw [if_neg (by simp [hf, hform])]
  rfl

theorem runAlone_fault {i : InFlight} {s : State} {f : FaultRec} (hs : s.slots = {}) (hf : i.fault = some f) :
    runAlone i s = takeFault f.kind i.ipc f.info s.passStages := by
  rw [runAlone_passing s (.inl (by rw [hf]; rfl))]
  exact retireAlone_fault hs hf

section
variable {s : State} {d : Instr} (w : Word)

/-- A result without a memory action (rules R200 to R216). -/
theorem writeResult_runAlone (hs : s.slots = {}) {rd : Reg} (hd : destination d = some rd) (hm : memForm d = .noAction)
    (v : Word) : writeResult rd v s = .next (runAlone { operandRecord w d s with result := v } s) := by
  have hint : some d ≠ some .int0 := by rintro ⟨⟩; cases hd
  rw [runAlone_passing (i := { operandRecord w d s with result := v }) s (.inr hm),
    retireAlone_next (s := s.passStages) hs rfl hint rfl, committed_result _ hd rfl]
  rfl

/-- A transfer of control, or none (rules R232 to R236, R240). -/
theorem transferTo_runAlone (hs : s.slots = {}) (hd : destination d = none) (hm : memForm d = .noAction)
    (hint : some d ≠ some .int0) (b : Bool) (target : Word) :
    transferTo (if b then target else nextAddress s.pc) s =
      .next (runAlone { operandRecord w d s with taken := b, target := target } s) := by
  rw [runAlone_passing (i := { operandRecord w d s with taken := b, target := target }) s (.inr hm),
    retireAlone_next (s := s.passStages) hs rfl hint rfl, committed_noResult _ hd rfl]
  rfl

/-- A load (rules R221 to R223). -/
theorem loadTo_runAlone (hs : s.slots = {}) {rd : Reg} {n : Width} (hd : destination d = some rd)
    (hm : memForm d = .load n) (ea : Word) :
    loadTo n rd ea s = .next (runAlone { operandRecord w d s with ea := ea } s) := by
  have hint : some d ≠ some .int0 := by rintro ⟨⟩; cases hd
  have hform : recordForm { operandRecord w d s with ea := ea } = .load n := hm
  have hslots : (memRead ea n s.reachMemory).st.slots = {} :=
    (virtualRead_read .load .load ea n s.reachMemory).frame.slots.trans hs
  rw [runAlone_access s rfl (by rw [hform]; simp), loadTo, memAction, hform]
  dsimp only
  generalize memRead ea n s.reachMemory = r at *
  cases r.val with
  | ok v =>
    rw [retireAlone_next (s := r.st.serveMemory r.lat) hslots rfl hint rfl, committed_result _ hd rfl]
    rfl
  | error f => rw [retireAlone_fault (s := r.st.serveMemory r.lat) hslots rfl]; rfl

/-- A store, which halts the machine where it latched the exit request (rules R224 to R226, R253). -/
theorem storeFrom_runAlone (hs : s.slots = {}) {n : Width} {v : Word} (hd : destination d = none)
    (hm : memForm d = .store n) (hv : (operandRecord w d s).c = v) (ea : Word) :
    storeFrom n v ea s = .next (runAlone { operandRecord w d s with ea := ea } s) := by
  have hint : some d ≠ some .int0 := by rintro ⟨⟩; cases hm
  have hform : recordForm { operandRecord w d s with ea := ea } = .store n := hm
  have hslots : (memWrite ea n v s.reachMemory).st.slots = {} :=
    (memWrite_write ea n v s.reachMemory).frame.slots.trans hs
  rw [runAlone_access s rfl (by rw [hform]; simp), storeFrom, memAction, hform]
  dsimp only
  rw [hv]
  generalize memWrite ea n v s.reachMemory = r at *
  cases r.val with
  | ok _ =>
    dsimp only
    rw [retireAlone_untrapped (s := r.st.serveMemory r.lat) hslots rfl hint, committed_noResult _ hd rfl]
    unfold retireStore
    rfl
  | error f => rw [retireAlone_fault (s := r.st.serveMemory r.lat) hslots rfl]; rfl

/-- CALL (rule R237). -/
theorem execCall_runAlone (hs : s.slots = {}) (offset : Int) :
    execCall offset s = .next (runAlone (exAction (operandRecord w (.call offset) s)) s) := by
  have hform : recordForm (exAction (operandRecord w (.call offset) s)) = .push := rfl
  have hslots : (pushFrame (pushedSp (s.reg spReg)) (nextAddress s.pc) s.reachMemory).st.slots = {} :=
    (pushFrame_write _ _ s.reachMemory).frame.slots.trans hs
  have hpush : pushFrame (exAction (operandRecord w (.call offset) s)).result
      (nextAddress (exAction (operandRecord w (.call offset) s)).ipc) s.reachMemory =
      pushFrame (pushedSp (s.reg spReg)) (nextAddress s.pc) s.reachMemory := rfl
  rw [runAlone_access s rfl (by rw [hform]; simp), execCall, memAction, hform]
  dsimp only
  rw [hpush]
  generalize pushFrame (pushedSp (s.reg spReg)) (nextAddress s.pc) s.reachMemory = r at *
  cases hv : r.val with
  | ok _ => rw [retireAlone_ok (s := r.st.serveMemory r.lat) hslots rfl]; rfl
  | error f => rw [retireAlone_fault (s := r.st.serveMemory r.lat) hslots rfl]; rfl

/-- RET (rule R238). -/
theorem execRet_runAlone (hs : s.slots = {}) :
    execRet s = .next (runAlone (exAction (operandRecord w .ret s)) s) := by
  have hform : recordForm (exAction (operandRecord w .ret s)) = .pop := rfl
  have hslots : (popFrame (s.reg spReg) s.reachMemory).st.slots = {} :=
    (popFrame_read _ s.reachMemory).frame.slots.trans hs
  have hpop : popFrame (exAction (operandRecord w .ret s)).sp s.reachMemory = popFrame (s.reg spReg) s.reachMemory := rfl
  rw [runAlone_access s rfl (by rw [hform]; simp), execRet, memAction, hform]
  dsimp only
  rw [hpop]
  generalize popFrame (s.reg spReg) s.reachMemory = r at *
  cases hv : r.val with
  | ok p => rw [retireAlone_ok (s := r.st.serveMemory r.lat) hslots rfl]; rfl
  | error f => rw [retireAlone_fault (s := r.st.serveMemory r.lat) hslots rfl]; rfl

/-- DIV: its quotient, or its fault (rule R208). -/
theorem execDiv_runAlone (hs : s.slots = {}) (rd ra rb : Reg) :
    execDiv rd ra rb s = .next (runAlone (exAction (operandRecord w (.div rd ra rb) s)) s) := by
  have hdiv : divResult (operandRecord w (.div rd ra rb) s).a (operandRecord w (.div rd ra rb) s).b =
      divResult (s.reg ra) (s.reg rb) := rfl
  have hinstr : (operandRecord w (.div rd ra rb) s).instr = some (.div rd ra rb) := rfl
  unfold execDiv exAction
  rw [hinstr]
  dsimp only
  rw [hdiv]
  cases divResult (s.reg ra) (s.reg rb) with
  | some q => exact writeResult_runAlone w hs rfl rfl q
  | none => rw [runAlone_fault hs rfl]; rfl

/-- INT0: it retires, then the trap is entered (rule R241). -/
theorem execInt0_runAlone (hs : s.slots = {}) :
    execInt0 s = .next (runAlone (exAction (operandRecord w .int0 s)) s) := by
  rw [runAlone_passing s (.inr rfl), retireAlone_ok (s := s.passStages) hs rfl]
  rfl

/-- The sequential meaning of an instruction is what its record does alone (rules R9, R268). -/
theorem exec_runAlone (hs : s.slots = {}) (d : Instr) :
    exec d s = .next (runAlone (exAction (operandRecord w d s)) s) := by
  cases d with
  | add | sub | xor | or | and | shr | shl | mul | addi | subi | xori | ori | andi | lui =>
    exact writeResult_runAlone w hs rfl rfl _
  | div rd ra rb => exact execDiv_runAlone w hs rd ra rb
  | ldb | ldh | ld => exact loadTo_runAlone w hs rfl rfl _
  | stb rv ra imm => exact storeFrom_runAlone (d := .stb rv ra imm) (v := s.reg rv) w hs rfl rfl rfl _
  | sth rv ra imm => exact storeFrom_runAlone (d := .sth rv ra imm) (v := s.reg rv) w hs rfl rfl rfl _
  | st rv ra imm => exact storeFrom_runAlone (d := .st rv ra imm) (v := s.reg rv) w hs rfl rfl rfl _
  | bne | beq | blt | bgt => exact transferTo_runAlone w hs rfl rfl (by simp) _ _
  | jmpr offset => exact transferTo_runAlone w hs rfl rfl (by simp) true _
  | nop => exact transferTo_runAlone w hs rfl rfl (by simp) false 0#32
  | call offset => exact execCall_runAlone w hs offset
  | ret => exact execRet_runAlone w hs
  | int0 => exact execInt0_runAlone w hs

end

/-! ### The whole instruction -/

/-- The word at `pc` in the sequential reading does what its fetched record does alone. -/
theorem runWord_runAlone {s : State} (hs : s.slots = {}) (w undefinedWord : Word) :
    runWord w s = .next (runAlone (executed (decoded (fetchRecord s.pc 0 undefinedWord (.ok w)) s)) s) := by
  have hdecoded : decoded (fetchRecord s.pc 0 undefinedWord (.ok w)) s =
      match decode w with
      | .illegal _ => (fetchRecord s.pc 0 undefinedWord (.ok w)).withFault ⟨.illegalInstruction, w⟩
      | .instr d => operandRecord w d s := rfl
  rw [hdecoded]
  unfold runWord
  cases decode w with
  | illegal why => rw [runAlone_fault (f := ⟨.illegalInstruction, w⟩) hs rfl]; rfl
  | instr d => exact exec_runAlone w hs d

/-- One instruction of the sequential reading is what its fetched record does alone, whatever word a failed fetch has. -/
theorem instructionStep_runAlone {s : State} (hs : s.slots = {}) (undefinedWord : Word) :
    instructionStep s = .next (runAlone
      (executed (decoded (fetchRecord s.pc 0 undefinedWord (fetchInstruction s).val) (fetchInstruction s).st))
      (fetchInstruction s).st) := by
  have hframe := fetchInstruction_frame s
  have hslots : (fetchInstruction s).st.slots = {} := hframe.slots.trans hs
  have hpc : (fetchInstruction s).st.pc = s.pc := hframe.pc
  rw [← hpc]
  cases hv : (fetchInstruction s).val with
  | error f =>
    rw [instructionStep_error hv, runAlone_fault (f := f) hslots rfl]
    rfl
  | ok w => rw [instructionStep_ok hv, runWord_runAlone hslots]

theorem fetchRecord_fresh (pc w : Word) (v : Except FaultRec Word) :
    (fetchRecord pc 0 w v).ipc = pc ∧ (fetchRecord pc 0 w v).marked = false ∧
      (fetchRecord pc 0 w v).issued = false := by
  cases v <;> exact ⟨rfl, rfl, rfl⟩

/-- Settles O53: the ticks of fetch lead to the fetched record in decode, the ticks of the later stages do what that
record does alone, and that is the sequential step. -/
theorem ticksRefineInstruction : Obligations.TicksRefineInstruction := by
  intro s t hoff hrun hb hstep
  have h : s.Alone := ⟨hoff, hrun⟩
  have hframe := fetchInstruction_frame s
  have halone : (fetchInstruction s).st.Alone := ⟨by rw [hframe.params]; exact hoff, hframe.halted.trans hrun⟩
  have hslots : (fetchInstruction s).st.slots = {} := hframe.slots.trans hb.empty
  have hpending : (fetchInstruction s).st.pending = s.pending := hframe.pending
  have hclean := hpending.trans hb.noPending
  have hfetch := ticks_fetch h hb
  rw [instructionStep_runAlone hb.empty (Config.undefinedWord (s.addCycles 1).cycles.toNat)] at hstep
  obtain ⟨hipc, hmarked, hissued⟩ :=
    fetchRecord_fresh s.pc (Config.undefinedWord (s.addCycles 1).cycles.toNat) (fetchInstruction s).val
  obtain ⟨n, hn⟩ :=
    ticks_decoded halone hslots hclean (hframe.fpc.trans (congrArg nextAddress hipc.symm)) hmarked hissued
  rw [hpending, ← hfetch, ← ticks_add] at hn
  cases hstep
  exact ⟨⟨_, (fetchInstruction_latPos s).trans (Nat.le_add_right _ _), hn⟩, runAlone_between _ hslots hclean⟩

end Sys2Proof.Machine
end

