-- ==== Sys2Proof/Proofs/Ends.lean ====
section
/-! SUPPORT. What a step keeps whatever it does (`Keeps`), and the ways in which an instruction of the sequential reading
can end (`Ended`), each said once (rules R9, R306 to R311). -/

namespace Sys2Proof.Machine

/-! ### What every operation keeps -/

/-- What no operation of the machine changes, or changes in one direction only: the configuration, `PTBR`, r0, the exit
latch, the event stream, the retirement counter (rules R21, R26, R31, R32, R36, R38). -/
structure Keeps (s t : State) : Prop where
  params : t.params = s.params
  reading : t.reading = s.reading
  ptbr : t.ptbr = s.ptbr
  zeroRegister : s.ZeroRegister → t.ZeroRegister
  exitKept : s.exitRequested = true → t.exitRequested = true
  vgaGrows : ∃ e, t.vgaEvents = s.vgaEvents ++ e
  retired : s.stats.retired ≤ t.stats.retired

theorem Keeps.trans {s t u : State} (h : Keeps s t) (k : Keeps t u) : Keeps s u where
  params := k.params.trans h.params
  reading := k.reading.trans h.reading
  ptbr := k.ptbr.trans h.ptbr
  zeroRegister hz := k.zeroRegister (h.zeroRegister hz)
  exitKept he := k.exitKept (h.exitKept he)
  vgaGrows := by
    obtain ⟨e, he⟩ := h.vgaGrows
    obtain ⟨e', he'⟩ := k.vgaGrows
    exact ⟨e ++ e', by rw [he', he, List.append_assoc]⟩
  retired := h.retired.trans k.retired

/-- An update of other fields, which may count a retirement. -/
theorem Keeps.of_eq {s t : State} (hparams : t.params = s.params) (hreading : t.reading = s.reading)
    (hptbr : t.ptbr = s.ptbr) (hx : t.x = s.x) (hexit : t.exitRequested = s.exitRequested)
    (hvga : t.vgaEvents = s.vgaEvents) (hretired : s.stats.retired ≤ t.stats.retired) : Keeps s t where
  params := hparams
  reading := hreading
  ptbr := hptbr
  zeroRegister hz := by unfold State.ZeroRegister; rw [hx]; exact hz
  exitKept he := hexit.trans he
  vgaGrows := ⟨[], by rw [hvga, List.append_nil]⟩
  retired := hretired

theorem Keeps.refl (s : State) : Keeps s s := .of_eq rfl rfl rfl rfl rfl rfl le_rfl

theorem WriteSpec.keeps {s t : State} (h : WriteSpec s t) : Keeps s t where
  params := h.frame.params
  reading := h.frame.reading
  ptbr := h.frame.ptbr
  zeroRegister hz := by unfold State.ZeroRegister; rw [h.frame.x]; exact hz
  exitKept := h.exitKept
  vgaGrows := h.vgaGrows
  retired := h.retired.ge

/-- A write to r0 is discarded, one to another register leaves r0 (rule R21). -/
theorem State.ZeroRegister.setReg {s : State} (h : s.ZeroRegister) (r : Reg) (v : Word) : (s.setReg r v).ZeroRegister := by
  unfold State.ZeroRegister at h ⊢
  rw [State.setReg_x]
  split
  · exact h
  · rename_i hr
    have hne : r.val ≠ 0 := fun h0 => hr (Fin.ext h0)
    rw [Vector.getElem_set_ne (by omega) (by omega) hne]
    exact h

theorem State.setReg_keeps (s : State) (r : Reg) (v : Word) : Keeps s (s.setReg r v) :=
  { Keeps.refl s with zeroRegister := fun h => h.setReg r v }

theorem State.priv_keeps (s : State) (p : Privilege) : Keeps s { s with priv := p } :=
  .of_eq rfl rfl rfl rfl rfl rfl le_rfl

theorem State.retireTo_keeps (s : State) (next : Word) : Keeps s (s.retireTo next) :=
  .of_eq rfl rfl rfl rfl rfl rfl (Nat.le_succ _)

theorem State.halt_keeps (s : State) (cause : HaltCause) : Keeps s (s.halt cause) :=
  .of_eq rfl rfl rfl rfl rfl rfl le_rfl

theorem TrapSpec.keeps {s t : State} (h : TrapSpec s t) : Keeps s t where
  params := h.params
  reading := h.reading
  ptbr := h.ptbr
  zeroRegister hz := by
    obtain ⟨-, hx, -⟩ | ⟨-, hx, -⟩ := h.outcome
    · unfold State.ZeroRegister; rw [hx]; exact hz
    · unfold State.ZeroRegister; rw [hx]; exact hz.setReg _ _
  exitKept := h.exitKept
  vgaGrows := h.vgaGrows
  retired := h.retired.ge

theorem trapEntry_keeps (n : Nat) (savedPc : Word) (s : State) : Keeps s (trapEntry n savedPc s) :=
  (trapEntry_spec n savedPc s).keeps

theorem takeFault_keeps (kind : FaultKind) (ipc info : Word) (s : State) : Keeps s (takeFault kind ipc info s) :=
  (Keeps.of_eq (s := s) (t := { s with faultInfo := some ⟨kind, ipc, info⟩ }) rfl rfl rfl rfl rfl rfl le_rfl).trans
    (takeFault_spec kind ipc info s).keeps

/-! ### What a trap leaves in flight -/

/-- After a trap the two program counters agree: at the handler, or where a halt puts them (rules R308 to R311, R23). -/
theorem TrapSpec.onePc {s t : State} (h : TrapSpec s t) : t.fpc = t.pc := by
  obtain ⟨-, -, hpc, hfpc, -⟩ | ⟨-, -, hpc, -⟩ := h.outcome
  · rw [hfpc, hpc]
  · exact hpc

/-- A trap never lowers the privilege (rule R318). -/
theorem TrapSpec.priv {s t : State} (h : TrapSpec s t) (hs : s.priv = .supervisor) : t.priv = .supervisor := by
  obtain ⟨-, -, -, -, hp, -⟩ | ⟨-, -, -, hp, -⟩ := h.outcome
  · exact hp.trans hs
  · exact hp

/-- What the end of an instruction does to the slots, the scoreboard and the run state: nothing, the squash of a trap
entry, or that of a halt; the last two leave one program counter (rules R23, R33, R265, R308). -/
inductive FlightOutcome (s t : State) : Prop where
  | kept (slots : t.slots = s.slots) (pending : t.pending = s.pending) (halted : t.halted = s.halted)
  | entered (slots : t.slots = s.squashBehindWb.slots) (pending : t.pending = s.squashBehindWb.pending)
      (halted : t.halted = s.halted) (onePc : t.fpc = t.pc)
  | halted (slots : t.slots = {}) (pending : t.pending = s.squashAll.pending) (halted : t.halted.isSome = true)
      (onePc : t.fpc = t.pc)

/-- Only the slots, the scoreboard and the run state before matter. -/
theorem FlightOutcome.congr {s s' t : State} (h : FlightOutcome s' t) (hs : s'.slots = s.slots)
    (hp : s'.pending = s.pending) (hh : s'.halted = s.halted) : FlightOutcome s t := by
  cases h with
  | kept slots pending halted => exact .kept (slots.trans hs) (pending.trans hp) (halted.trans hh)
  | entered slots pending halted onePc =>
    exact .entered (by simp [slots, hs]) (by simp [pending, hs, hp]) (halted.trans hh) onePc
  | halted slots pending halted onePc => exact .halted slots (by simp [pending, hs, hp]) halted onePc

theorem State.halt_flight (s : State) (cause : HaltCause) : FlightOutcome s (s.halt cause) := .halted rfl rfl rfl rfl

/-- The ends of a trap entry: a halt after reads alone, or the handler after the frame's writes (rules R308 to R310). -/
theorem trapEntry_cases (n : Nat) (savedPc : Word) (s : State) :
    (∃ u lat cause, ReadSpec s.squashBehindWb u ∧ trapEntry n savedPc s = (u.addCycles lat).halt cause) ∨
      ∃ u vec lat, WriteSpec s.squashBehindWb u ∧
        trapEntry n savedPc s = (enterHandler vec (pushedSp (s.reg spReg)) u).addCycles lat := by
  unfold trapEntry
  extract_lets v sp t0 t1 fail
  have hv : ReadSpec s.squashBehindWb v.st := physRead_read _ _ _ _
  have h1 : ReadSpec s.squashBehindWb t1.st := (hv.trans (translate_read _ _ _)).trans (translate_read _ _ _)
  split
  · exact .inl ⟨v.st, _, _, hv, rfl⟩
  · split
    · exact .inl ⟨t1.st, _, _, h1, rfl⟩
    · exact .inl ⟨t1.st, _, _, h1, rfl⟩
    · rename_i pa0 pa1 e0 e1
      split
      · rename_i ha
        have hw := writeFrame_write (flagsWord s.priv) savedPc t1.st ((aligned_translate e0 .word).trans ha)
          ((aligned_translate e1 .word).trans (aligned_framePc ha))
        exact .inr ⟨_, _, _, h1.toWrite.trans hw, rfl⟩
      · exact .inl ⟨t1.st, _, _, h1, rfl⟩

theorem trapEntry_flight (n : Nat) (savedPc : Word) (s : State) : FlightOutcome s (trapEntry n savedPc s) := by
  obtain ⟨u, lat, cause, hu, he⟩ | ⟨u, vec, lat, hu, he⟩ := trapEntry_cases n savedPc s
  · rw [he]
    refine .halted rfl ?_ rfl rfl
    simp [hu.frame.slots, hu.frame.pending, releasePending]
  · rw [he]
    exact .entered hu.frame.slots hu.frame.pending hu.frame.halted rfl

theorem takeFault_flight (kind : FaultKind) (ipc info : Word) (s : State) :
    FlightOutcome s (takeFault kind ipc info s) := by
  unfold takeFault
  dsimp only
  split
  · exact .halted rfl rfl rfl rfl
  · exact (trapEntry_flight _ _ { s with faultInfo := some ⟨kind, ipc, info⟩ }).congr rfl rfl rfl

/-! ### The ends of an instruction -/

/-- `u` is `s` while an instruction is at work: its accesses, its ticks and its counts have changed nothing that its end
reads of the pipeline and the privilege. -/
structure Worked (s u : State) : Prop where
  keeps : Keeps s u
  priv : u.priv = s.priv
  pending : u.pending = s.pending
  slots : u.slots = s.slots
  halted : u.halted = s.halted

theorem Worked.trans {s t u : State} (h : Worked s t) (k : Worked t u) : Worked s u :=
  ⟨h.keeps.trans k.keeps, k.priv.trans h.priv, k.pending.trans h.pending, k.slots.trans h.slots,
    k.halted.trans h.halted⟩

theorem WriteSpec.worked {s t : State} (h : WriteSpec s t) : Worked s t :=
  ⟨h.keeps, h.frame.priv, h.frame.pending, h.frame.slots, h.frame.halted⟩

theorem State.passStages_worked (s : State) : Worked s s.passStages :=
  ⟨.of_eq rfl rfl rfl rfl rfl rfl le_rfl, rfl, rfl, rfl, rfl⟩

theorem State.retireTo_worked (s : State) (next : Word) : Worked s (s.retireTo next) :=
  ⟨s.retireTo_keeps next, rfl, rfl, rfl, rfl⟩

theorem State.reachMemory_worked (s : State) : Worked s s.reachMemory :=
  ⟨.of_eq rfl rfl rfl rfl rfl rfl le_rfl, rfl, rfl, rfl, rfl⟩

theorem State.serveMemory_worked (s : State) (lat : Nat) : Worked s (s.serveMemory lat) :=
  ⟨.of_eq rfl rfl rfl rfl rfl rfl le_rfl, rfl, rfl, rfl, rfl⟩

/-- The accesses of the memory stage, with the ticks before and after them (rules R254, R268). -/
theorem WriteSpec.served {s u : State} (h : WriteSpec s.reachMemory u) (lat : Nat) : Worked s (u.serveMemory lat) :=
  (s.reachMemory_worked.trans h.worked).trans (u.serveMemory_worked lat)

/-- How the work of an instruction `d` ends, `none` standing for a word that is no instruction or was not fetched: it
retires, writing a register (r0 for none) and, RET alone, the privilege; it halts the machine with the exit command; it
enters a trap; it takes a fault (rules R253, R306). -/
inductive Ended (d : Option Instr) (s : State) : State → Prop where
  | retired {u : State} (h : Worked s u) (p : Privilege) (rd : Reg) (v next : Word) (hp : p = u.priv ∨ d = some .ret) :
      Ended d s (({ u with priv := p }.setReg rd v).retireTo next)
  | exited {u : State} (h : Worked s u) (next : Word) : Ended d s ((u.retireTo next).halt .hostExit)
  | trapped {u : State} (h : Worked s u) (n : Nat) (savedPc : Word) : Ended d s (trapEntry n savedPc u)
  | faulted {u : State} (h : Worked s u) (kind : FaultKind) (ipc info : Word) : Ended d s (takeFault kind ipc info u)

theorem Ended.keeps {d : Option Instr} {s t : State} (h : Ended d s t) : Keeps s t := by
  cases h with
  | retired h p rd v next hp =>
    exact ((h.keeps.trans (State.priv_keeps _ p)).trans (State.setReg_keeps _ rd v)).trans (State.retireTo_keeps _ next)
  | exited h next => exact h.keeps.trans ((State.retireTo_keeps _ next).trans (State.halt_keeps _ _))
  | trapped h n savedPc => exact h.keeps.trans (trapEntry_keeps n savedPc _)
  | faulted h kind ipc info => exact h.keeps.trans (takeFault_keeps kind ipc info _)

theorem Ended.flight {d : Option Instr} {s t : State} (h : Ended d s t) : FlightOutcome s t := by
  cases h with
  | retired h p rd v next hp => exact .kept h.slots h.pending h.halted
  | exited h next => exact (State.halt_flight _ _).congr h.slots h.pending h.halted
  | trapped h n savedPc => exact (trapEntry_flight n savedPc _).congr h.slots h.pending h.halted
  | faulted h kind ipc info => exact (takeFault_flight kind ipc info _).congr h.slots h.pending h.halted

/-- An instruction of the sequential reading leaves both program counters at one address (rule R23). -/
theorem Ended.onePc {d : Option Instr} {s t : State} (h : Ended d s t) : t.fpc = t.pc := by
  cases h with
  | retired | exited => rfl
  | trapped h n savedPc => exact (trapEntry_spec n savedPc _).onePc
  | faulted h kind ipc info => exact (takeFault_spec kind ipc info _).onePc

/-- Only RET lowers the privilege (rule R318). -/
theorem Ended.lowers {d : Option Instr} {s t : State} (h : Ended d s t) (hs : s.priv = .supervisor)
    (ht : t.priv = .user) : d = some .ret := by
  have raised {t : State} (hp : t.priv = .supervisor) (ht : t.priv = .user) : d = some .ret := by
    rw [hp] at ht; cases ht
  cases h with
  | retired h p rd v next hp =>
    obtain hp | hd := hp
    · exact raised (hp.trans (h.priv.trans hs)) ht
    · exact hd
  | exited h next => exact raised (h.priv.trans hs) ht
  | trapped h n savedPc => exact raised ((trapEntry_spec n savedPc _).priv (h.priv.trans hs)) ht
  | faulted h kind ipc info => exact raised ((takeFault_spec kind ipc info _).priv (h.priv.trans hs)) ht

/-- An instruction that writes a register and goes on at `next`. -/
theorem Ended.written {d : Option Instr} {s u : State} (h : Worked s u) (rd : Reg) (v next : Word) :
    Ended d s ((u.setReg rd v).retireTo next) :=
  .retired h u.priv rd v next (.inl rfl)

/-- An instruction that only goes on at `next`. -/
theorem Ended.advanced {d : Option Instr} {s u : State} (h : Worked s u) (next : Word) : Ended d s (u.retireTo next) := by
  have hend := Ended.written (d := d) h 0 0#32 next
  rwa [State.setReg_zero] at hend

theorem Ended.of_worked {d : Option Instr} {s u t : State} (h : Worked s u) (k : Ended d u t) : Ended d s t := by
  cases k with
  | retired k p rd v next hp => exact .retired (h.trans k) p rd v next hp
  | exited k next => exact .exited (h.trans k) next
  | trapped k n savedPc => exact .trapped (h.trans k) n savedPc
  | faulted k kind ipc info => exact .faulted (h.trans k) kind ipc info

/-! ### How each meaning ends -/

section
variable (d : Option Instr) (s : State)

theorem writeResult_ended (rd : Reg) (v : Word) : ∃ t, writeResult rd v s = .next t ∧ Ended d s t :=
  ⟨_, rfl, .written s.passStages_worked rd v _⟩

theorem transferTo_ended (target : Word) : ∃ t, transferTo target s = .next t ∧ Ended d s t :=
  ⟨_, rfl, .advanced s.passStages_worked target⟩

theorem faultWithoutAccess_ended (kind : FaultKind) (info : Word) : Ended d s (faultWithoutAccess kind info s) :=
  .faulted s.passStages_worked _ _ _

theorem loadTo_ended (n : Width) (rd : Reg) (ea : Word) : ∃ t, loadTo n rd ea s = .next t ∧ Ended d s t := by
  have hw := (virtualRead_read .load .load ea n s.reachMemory).toWrite.served (memRead ea n s.reachMemory).lat
  unfold loadTo
  dsimp only
  split
  · exact ⟨_, rfl, .written hw rd _ _⟩
  · exact ⟨_, rfl, .faulted hw _ _ _⟩

theorem storeFrom_ended (n : Width) (v ea : Word) : ∃ t, storeFrom n v ea s = .next t ∧ Ended d s t := by
  have hw := (memWrite_write ea n v s.reachMemory).served (memWrite ea n v s.reachMemory).lat
  unfold storeFrom
  dsimp only
  split
  · unfold retireStore
    split
    · exact ⟨_, rfl, .exited hw _⟩
    · exact ⟨_, rfl, .advanced hw _⟩
  · exact ⟨_, rfl, .faulted hw _ _ _⟩

theorem execDiv_ended (rd ra rb : Reg) : ∃ t, execDiv rd ra rb s = .next t ∧ Ended d s t := by
  unfold execDiv
  split
  · exact writeResult_ended d s _ _
  · exact ⟨_, rfl, faultWithoutAccess_ended d s _ _⟩

theorem execCall_ended (offset : Int) : ∃ t, execCall offset s = .next t ∧ Ended d s t := by
  have hw := (pushFrame_write (pushedSp (s.reg spReg)) (nextAddress s.pc) s.reachMemory).served
    (pushFrame (pushedSp (s.reg spReg)) (nextAddress s.pc) s.reachMemory).lat
  unfold execCall
  dsimp only
  split
  · exact ⟨_, rfl, .written hw spReg _ _⟩
  · exact ⟨_, rfl, .faulted hw _ _ _⟩

theorem execRet_ended : ∃ t, execRet s = .next t ∧ Ended (some .ret) s t := by
  have hw := (popFrame_read (s.reg spReg) s.reachMemory).toWrite.served (popFrame (s.reg spReg) s.reachMemory).lat
  unfold execRet
  dsimp only
  split
  · exact ⟨_, rfl, .retired hw _ spReg _ _ (.inr rfl)⟩
  · exact ⟨_, rfl, .faulted hw _ _ _⟩

theorem execInt0_ended : ∃ t, execInt0 s = .next t ∧ Ended d s t :=
  ⟨_, rfl, .trapped (s.passStages_worked.trans (State.retireTo_worked _ _)) _ _⟩

end

/-- Every instruction answers a next state, by one of the four ends. -/
theorem exec_ended (d : Instr) (s : State) : ∃ t, exec d s = .next t ∧ Ended (some d) s t := by
  cases d with
  | add | sub | xor | or | and | shr | shl | mul | addi | subi | xori | ori | andi | lui =>
    exact writeResult_ended _ s _ _
  | div rd ra rb => exact execDiv_ended _ s rd ra rb
  | ldb | ldh | ld => exact loadTo_ended _ s _ _ _
  | stb | sth | st => exact storeFrom_ended _ s _ _ _
  | bne | beq | blt | bgt | jmpr | nop => exact transferTo_ended _ s _
  | call offset => exact execCall_ended _ s offset
  | ret => exact execRet_ended s
  | int0 => exact execInt0_ended _ s

theorem fetchInstruction_worked (s : State) : Worked s (fetchInstruction s).st := by
  obtain ⟨-, -, -, hm, -, -, hexit, hvga, -, hret, -⟩ := fetchInstruction_fetched s
  exact ⟨.of_eq hm.params hm.reading hm.ptbr (fetchInstruction_frame s).x hexit hvga hret.ge, hm.priv, hm.pending,
    hm.slots, hm.halted⟩

/-- A step of the sequential reading is a fetch, then one of the four ends. -/
theorem instructionStep_ended {s t : State} (h : instructionStep s = .next t) : ∃ d, Ended d s t := by
  have hf := fetchInstruction_worked s
  cases hv : (fetchInstruction s).val with
  | error f =>
    rw [instructionStep_error hv] at h
    cases h
    exact ⟨none, .of_worked hf (faultWithoutAccess_ended none _ _ _)⟩
  | ok w =>
    rw [instructionStep_ok hv, runWord] at h
    cases hd : decode w with
    | illegal why =>
      rw [hd] at h
      cases h
      exact ⟨none, .of_worked hf (faultWithoutAccess_ended none _ _ _)⟩
    | instr d =>
      rw [hd] at h
      obtain ⟨t', ht, hend⟩ := exec_ended d (fetchInstruction s).st
      cases ht.symm.trans h
      exact ⟨some d, .of_worked hf hend⟩

theorem step_halted {s : State} (h : s.halted.isSome = true) : step s = .next s := by simp [step, h]

theorem step_cycle {s : State} (hh : s.halted = none) (hr : s.reading = .cycle) : step s = .next (tick s) := by
  simp [step, hh, hr]

/-- The three kinds of step (rules R9, R33, R252). -/
theorem step_cases {s t : State} (h : step s = .next t) :
    (s.halted.isSome = true ∧ t = s) ∨
      (s.halted = none ∧ s.reading = .instruction ∧ ∃ d, Ended d s t) ∨
      (s.halted = none ∧ s.reading = .cycle ∧ t = runningTick s) := by
  cases hh : s.halted with
  | some cause =>
    have hs : s.halted.isSome = true := by rw [hh]; rfl
    rw [step_halted hs] at h
    cases h
    exact .inl ⟨rfl, rfl⟩
  | none =>
    cases hr : s.reading with
    | instruction =>
      rw [step_instruction hh hr] at h
      exact .inr (.inl ⟨rfl, rfl, instructionStep_ended h⟩)
    | cycle =>
      rw [step_cycle hh hr] at h
      cases h
      exact .inr (.inr ⟨rfl, rfl, by simp [tick, hh]⟩)

/-- Settles O50: of the ends of an instruction only RET's retirement writes a lower privilege. -/
theorem onlyReturnLowersPrivilege : Obligations.OnlyReturnLowersPrivilege := by
  intro i s t hexec hs ht
  obtain ⟨t', ht', hend⟩ := exec_ended i s
  cases ht'.symm.trans hexec
  exact Option.some.inj (hend.lowers hs ht)

end Sys2Proof.Machine
end

