-- ==== Sys2Proof/Proofs/Stages.lean ====
section
/-! SUPPORT. What each stage of a tick can do, said once (rules R253 to R258): the inversion lemmas `memStep_moved`,
`exStep_cases`, `idStep_moved` and `ifStep_moved`; with them what every step keeps. -/

namespace Sys2Proof.Machine

/-! ### Writeback (rule R253) -/

theorem clearWb_keeps (s : State) : Keeps s (clearWb s) := .of_eq rfl rfl rfl rfl rfl rfl le_rfl

theorem State.countRetired_keeps (s : State) : Keeps s s.countRetired :=
  .of_eq rfl rfl rfl rfl rfl rfl (Nat.le_succ _)

theorem commitResult_keeps (i : InFlight) (s : State) : Keeps s (commitResult i s) := by
  unfold commitResult
  split
  · exact s.setReg_keeps _ _
  · exact Keeps.refl s

theorem writeback_keeps (i : InFlight) (s : State) : Keeps s (writeback i s) := by
  have hcommit : Keeps s (commitResult i (clearWb s)).countRetired :=
    ((clearWb_keeps s).trans (commitResult_keeps i _)).trans (State.countRetired_keeps _)
  unfold writeback
  split
  · exact (clearWb_keeps s).trans (takeFault_keeps _ _ _ _)
  · dsimp only
    split
    · exact hcommit.trans (State.halt_keeps _ _)
    · split
      · exact hcommit.trans (trapEntry_keeps _ _ _)
      · exact hcommit

theorem commitResult_halted (i : InFlight) (s : State) : (commitResult i s).halted = s.halted := by
  unfold commitResult
  split <;> rfl

/-- Writeback empties its slot; what else is in flight stays, or is squashed by a trap entry or a halt. -/
theorem writeback_flight (i : InFlight) (s : State) : FlightOutcome (clearWb s) (writeback i s) := by
  obtain ⟨-, hsl, hp, -, -⟩ := commitResult_frame i (clearWb s)
  have hh := commitResult_halted i (clearWb s)
  unfold writeback
  split
  · exact takeFault_flight _ _ _ _
  · dsimp only
    split
    · exact (State.halt_flight _ _).congr hsl hp hh
    · split
      · exact (trapEntry_flight _ _ _).congr hsl hp hh
      · exact .kept hsl hp hh

/-- Writeback moves the program counters only together. -/
theorem writeback_onePc {i : InFlight} {s : State} (h : i.fault = none → s.fpc = s.pc) :
    (writeback i s).fpc = (writeback i s).pc := by
  obtain ⟨-, -, -, hfpc, hpc⟩ := commitResult_frame i (clearWb s)
  unfold writeback
  cases hf : i.fault with
  | some f => exact (takeFault_spec _ _ _ _).onePc
  | none =>
    dsimp only
    split
    · rfl
    · split
      · exact (trapEntry_spec _ _ _).onePc
      · exact hfpc.trans ((h hf).trans hpc.symm)

theorem wbStep_empty {s : State} (h : s.slots.wbs = none) : wbStep s = s := by simp [wbStep, h]

theorem wbStep_occupied {s : State} {i : InFlight} (h : s.slots.wbs = some i) : wbStep s = writeback i s := by
  simp [wbStep, h]

theorem wbStep_keeps (s : State) : Keeps s (wbStep s) := by
  cases h : s.slots.wbs with
  | none => rw [wbStep_empty h]; exact Keeps.refl s
  | some i => rw [wbStep_occupied h]; exact writeback_keeps i s

/-! ### Memory (rules R254, R261, R264) -/

/-- An instruction handed from memory to writeback. -/
def State.leaveMemory (s : State) (j : InFlight) : State :=
  { s with slots := { s.slots with wbs := some j, mems := none } }

/-- An instruction that stays in memory. -/
def State.holdMemory (s : State) (j : InFlight) : State := { s with slots := { s.slots with mems := some j } }

/-- The accesses of the memory stage only read and write (rule R261). -/
theorem memAction_write (i : InFlight) (s : State) : WriteSpec s (memAction i s).st := by
  have hload (n : Width) : WriteSpec s (memRead i.ea n s).st := (virtualRead_read .load .load i.ea n s).toWrite
  have hstore (n : Width) := memWrite_write i.ea n i.c s
  have hpush := pushFrame_write i.result (nextAddress i.ipc) s
  have hpop := (popFrame_read i.sp s).toWrite
  unfold memAction
  cases recordForm i with
  | noAction => exact WriteSpec.refl s
  | load n => dsimp only; split <;> exact hload n
  | store n => dsimp only; split <;> exact hstore n
  | push => dsimp only; split <;> exact hpush
  | pop => dsimp only; split <;> exact hpop

theorem State.countMemCycles_write (s : State) (n : Nat) : WriteSpec s (s.countMemCycles n) :=
  ⟨⟨rfl, rfl, rfl, rfl, rfl, rfl, rfl, rfl, rfl, rfl, rfl, rfl⟩, rfl, id, ⟨[], by simp⟩, fun h => h.congr rfl rfl rfl⟩

theorem memIssue_write (i : InFlight) (s : State) : WriteSpec s (memIssue i s).2 := by
  unfold memIssue
  split
  · exact WriteSpec.refl s
  · exact (memAction_write i s).trans (State.countMemCycles_write _ _)

/-- What a tick of the memory stage can do: nothing, a tick served, or the last tick, in which a faulted record moves on
alone, a taken transfer redirects, and any other instruction sets `pc` (rule R254). -/
inductive MemMoved (s : State) : State → Prop where
  | empty (h : s.slots.mems = none) : MemMoved s s
  | serving {u : State} {i j : InFlight} (h : s.slots.mems = some i) (hw : WriteSpec s u) (ho : i.SameOrigin j) :
      MemMoved s (u.holdMemory j)
  | faulted {u : State} {i j : InFlight} (h : s.slots.mems = some i) (hw : WriteSpec s u) (ho : i.SameOrigin j)
      (hf : j.fault.isSome = true) : MemMoved s (u.leaveMemory j)
  | redirected {u : State} {i j : InFlight} (h : s.slots.mems = some i) (hw : WriteSpec s u) (ho : i.SameOrigin j)
      (p : Privilege) (target : Word) : MemMoved s ((redirect target { u with priv := p }).leaveMemory j)
  | advanced {u : State} {i j : InFlight} (h : s.slots.mems = some i) (hw : WriteSpec s u) (ho : i.SameOrigin j)
      (p : Privilege) : MemMoved s (State.leaveMemory { u with priv := p, pc := nextAddress j.ipc } j)

/-- The record and the state after the accesses, which are made in the first tick only. -/
theorem memTick_spec (i : InFlight) (s : State) :
    i.SameOrigin (if i.issued then (i, s) else memIssue i s).1 ∧
      WriteSpec s (if i.issued then (i, s) else memIssue i s).2 := by
  split
  · exact ⟨⟨rfl, rfl, rfl⟩, WriteSpec.refl s⟩
  · exact ⟨(memIssue_spec i s).origin, memIssue_write i s⟩

theorem memComplete_moved {s u : State} {i j : InFlight} (h : s.slots.mems = some i) (hw : WriteSpec s u)
    (ho : i.SameOrigin j) : MemMoved s ((memComplete j u).leaveMemory j) := by
  unfold memComplete
  cases hf : j.fault with
  | some f => exact .faulted h hw ho (by rw [hf]; rfl)
  | none =>
    dsimp only
    split
    · exact .redirected h hw ho _ _
    · exact .advanced h hw ho _

theorem memStep_moved (s : State) : MemMoved s (memStep s) := by
  unfold memStep
  cases hm : s.slots.mems with
  | none => exact .empty hm
  | some i =>
    obtain ⟨ho, hw⟩ := memTick_spec i s
    dsimp only
    generalize (if i.issued then (i, s) else memIssue i s) = r at *
    obtain ⟨j, u⟩ := r
    have ho' : i.SameOrigin { j with wait := j.wait - 1 } := ⟨ho.ipc, ho.dest, ho.marked⟩
    split
    · exact memComplete_moved hm hw ho'
    · exact .serving hm hw ho'

theorem MemMoved.keeps {s t : State} (h : MemMoved s t) : Keeps s t := by
  cases h with
  | empty => exact Keeps.refl s
  | serving h hw ho => exact hw.keeps.trans (.of_eq rfl rfl rfl rfl rfl rfl le_rfl)
  | faulted h hw ho hf => exact hw.keeps.trans (.of_eq rfl rfl rfl rfl rfl rfl le_rfl)
  | redirected h hw ho p target => exact hw.keeps.trans (.of_eq rfl rfl rfl rfl rfl rfl le_rfl)
  | advanced h hw ho p => exact hw.keeps.trans (.of_eq rfl rfl rfl rfl rfl rfl le_rfl)

theorem MemMoved.halted {s t : State} (h : MemMoved s t) : t.halted = s.halted := by
  cases h with
  | empty => rfl
  | serving h hw | faulted h hw | redirected h hw | advanced h hw => exact hw.frame.halted

/-! ### Execute (rule R255) -/

/-- An instruction handed from execute to memory. -/
def State.leaveExecute (s : State) (j : InFlight) : State :=
  { s with slots := { s.slots with mems := some j, exs := none } }

theorem exStep_cases (s : State) :
    exStep s = s ∨ ∃ i j, s.slots.exs = some i ∧ s.slots.mems = none ∧ i.SameOrigin j ∧ exStep s = s.leaveExecute j := by
  unfold exStep
  split
  · rename_i i he hm
    exact .inr ⟨i, executed i, he, hm, (executed_origin i).1, rfl⟩
  · exact .inl rfl

theorem exStep_keeps (s : State) : Keeps s (exStep s) := by
  obtain h | ⟨i, j, -, -, -, h⟩ := exStep_cases s
  · rw [h]; exact Keeps.refl s
  · rw [h]; exact .of_eq rfl rfl rfl rfl rfl rfl le_rfl

theorem exStep_halted (s : State) : (exStep s).halted = s.halted := by
  obtain h | ⟨i, j, -, -, -, h⟩ := exStep_cases s <;> rw [h]
  rfl

/-! ### Decode (rules R256, R257) -/

/-- What a tick of decode can do: nothing, a faulted or illegal record moved on, a stall, or an instruction issued with
its operands read, which with the pipeline on has no hazard (rules R256, R257). -/
inductive DecodeMoved (s : State) : State → Prop where
  | held : DecodeMoved s s
  | passed {i j : InFlight} (hi : s.slots.ids = some i) (he : s.slots.exs = none) (ho : i.SameOrigin j) :
      DecodeMoved s (s.leaveDecode j)
  | stalled {i : InFlight} (hi : s.slots.ids = some i) (d : Instr) :
      DecodeMoved s (State.countDataStall { s with slots := { s.slots with ids := some { i with instr := some d } } })
  | issued {i : InFlight} (hi : s.slots.ids = some i) (he : s.slots.exs = none) (d : Instr)
      (hz : s.params.pipelineEnabled = true → hazard d s = false) :
      DecodeMoved s (State.leaveDecode { s with pending := markPending s.pending (destination d) } (readOperands i d s))

theorem idStep_moved (s : State) : DecodeMoved s (idStep s) := by
  unfold idStep
  split
  · rename_i i hi he
    unfold decodeStage
    split
    · exact .passed hi he ⟨rfl, rfl, rfl⟩
    · split
      · exact .passed hi he ⟨rfl, rfl, rfl⟩
      · rename_i d _
        split
        · exact .stalled hi d
        · rename_i hz
          exact .issued hi he d (by simpa using hz)
  · exact .held

theorem DecodeMoved.keeps {s t : State} (h : DecodeMoved s t) : Keeps s t := by
  cases h with
  | held => exact Keeps.refl s
  | passed | stalled | issued => exact .of_eq rfl rfl rfl rfl rfl rfl le_rfl

theorem DecodeMoved.halted {s t : State} (h : DecodeMoved s t) : t.halted = s.halted := by
  cases h <;> rfl

/-! ### Fetch (rule R258) -/

/-- A record put into fetch. -/
def State.holdFetch (s : State) (j : InFlight) : State := { s with slots := { s.slots with ifs := some j } }

/-- A record handed from fetch to decode. -/
def State.leaveFetch (s : State) (j : InFlight) : State :=
  { s with slots := { s.slots with ids := some j, ifs := none } }

theorem issueFetch_eq (s : State) :
    issueFetch s =
      State.holdFetch { (fetch s.fpc s).st.countFetchCycles (fetch s.fpc s).lat with fpc := nextAddress s.fpc }
        (fetchRecord s.fpc (fetch s.fpc s).lat (Config.undefinedWord s.cycles.toNat) (fetch s.fpc s).val) := rfl

/-- An issued fetch reads, moves the fetch pointer and leaves a new record, which owns nothing. -/
theorem issueFetch_spec (s : State) :
    ∃ u j, ReadSpec s u ∧ j.ipc = s.fpc ∧ j.marked = false ∧
      issueFetch s = State.holdFetch { u with fpc := nextAddress s.fpc } j := by
  have hr : ReadSpec s (fetch s.fpc s).st := virtualRead_read _ _ _ _ _
  refine ⟨(fetch s.fpc s).st.countFetchCycles (fetch s.fpc s).lat, fetchRecord s.fpc (fetch s.fpc s).lat
    (Config.undefinedWord s.cycles.toNat) (fetch s.fpc s).val, ?_, ?_, ?_, issueFetch_eq s⟩
  · exact hr.trans ⟨⟨rfl, rfl, rfl, rfl, rfl, rfl, rfl, rfl, rfl, rfl, rfl, rfl, rfl, rfl⟩, rfl, id,
      fun h => h.congr rfl rfl rfl, fun _ _ => rfl⟩
  · cases (fetch s.fpc s).val <;> rfl
  · cases (fetch s.fpc s).val <;> rfl

/-- What a tick of fetch does with the record in its slot: one more tick there, or the move to decode (rule R258). -/
inductive FetchMoved (s : State) : State → Prop where
  | empty (h : s.slots.ifs = none) : FetchMoved s s
  | serving {i j : InFlight} (h : s.slots.ifs = some i) (ho : i.SameOrigin j) : FetchMoved s (s.holdFetch j)
  | left {i j : InFlight} (h : s.slots.ifs = some i) (hd : s.slots.ids = none) (ho : i.SameOrigin j) :
      FetchMoved s (s.leaveFetch j)

theorem advanceFetch_moved (s : State) : FetchMoved s (advanceFetch s) := by
  unfold advanceFetch
  cases h : s.slots.ifs with
  | none => exact .empty h
  | some i =>
    dsimp only
    split
    · rename_i hd
      simp only [Bool.and_eq_true, Option.isNone_iff_eq_none] at hd
      exact .left h hd.2 ⟨rfl, rfl, rfl⟩
    · exact .serving h ⟨rfl, rfl, rfl⟩

theorem FetchMoved.keeps {s t : State} (h : FetchMoved s t) : Keeps s t := by
  cases h with
  | empty => exact Keeps.refl s
  | serving | left => exact .of_eq rfl rfl rfl rfl rfl rfl le_rfl

theorem FetchMoved.halted {s t : State} (h : FetchMoved s t) : t.halted = s.halted := by
  cases h <;> rfl

/-- A fetch is issued into an empty slot, with the pipeline on always, with it off only from an idle machine (rules R258,
R268); then its slot serves a tick. -/
theorem ifStep_moved (idle0 : Bool) (s : State) :
    (s.slots.ifs = none → s.params.pipelineEnabled = false) ∧ FetchMoved s (ifStep idle0 s) ∨
      s.slots.ifs = none ∧ (s.params.pipelineEnabled = true ∨ idle0 = true) ∧
        ∃ u j, ReadSpec s u ∧ j.ipc = s.fpc ∧ j.marked = false ∧
          FetchMoved (State.holdFetch { u with fpc := nextAddress s.fpc } j) (ifStep idle0 s) := by
  unfold ifStep
  split
  · rename_i hc
    simp only [Bool.and_eq_true, Option.isNone_iff_eq_none, Bool.or_eq_true] at hc
    obtain ⟨u, j, hu, hipc, hm, he⟩ := issueFetch_spec s
    rw [he]
    exact .inr ⟨hc.1, hc.2, u, j, hu, hipc, hm, advanceFetch_moved _⟩
  · rename_i hc
    refine .inl ⟨fun hi => ?_, advanceFetch_moved s⟩
    simp only [hi, Option.isNone_none, Bool.true_and, Bool.or_eq_true, not_or, Bool.not_eq_true] at hc
    exact hc.1

theorem ifStep_keeps (idle0 : Bool) (s : State) : Keeps s (ifStep idle0 s) := by
  obtain ⟨-, h⟩ | ⟨-, -, u, j, hu, -, -, h⟩ := ifStep_moved idle0 s
  · exact h.keeps
  · have hissue : Keeps u (State.holdFetch { u with fpc := nextAddress s.fpc } j) :=
      .of_eq rfl rfl rfl rfl rfl rfl le_rfl
    exact (hu.toWrite.keeps.trans hissue).trans h.keeps

theorem ifStep_halted (idle0 : Bool) (s : State) : (ifStep idle0 s).halted = s.halted := by
  obtain ⟨-, h⟩ | ⟨-, -, u, j, hu, -, -, h⟩ := ifStep_moved idle0 s
  · exact h.halted
  · exact h.halted.trans hu.frame.halted

/-! ### The tick (rule R252) -/

/-- The stages behind writeback, oldest first. -/
def youngStages (idle0 : Bool) (s : State) : State := ifStep idle0 (idStep (exStep (memStep s)))

/-- A tick is writeback, and the younger stages unless that halted the machine. -/
theorem runningTick_eq (s : State) :
    runningTick s = if (wbStep (s.addCycles 1)).halted.isSome then wbStep (s.addCycles 1)
      else youngStages s.idle (wbStep (s.addCycles 1)) := rfl

theorem youngStages_keeps (idle0 : Bool) (s : State) : Keeps s (youngStages idle0 s) :=
  (((memStep_moved s).keeps.trans (exStep_keeps _)).trans (idStep_moved _).keeps).trans (ifStep_keeps _ _)

/-- Only writeback halts the machine. -/
theorem youngStages_halted (idle0 : Bool) (s : State) : (youngStages idle0 s).halted = s.halted := by
  unfold youngStages
  rw [ifStep_halted, (idStep_moved _).halted, exStep_halted, (memStep_moved s).halted]

theorem runningTick_keeps (s : State) : Keeps s (runningTick s) := by
  have hcount : Keeps s (s.addCycles 1) := .of_eq rfl rfl rfl rfl rfl rfl le_rfl
  have hwb : Keeps s (wbStep (s.addCycles 1)) := hcount.trans (wbStep_keeps _)
  rw [runningTick_eq]
  split
  · exact hwb
  · exact hwb.trans (youngStages_keeps _ _)

theorem ticks_halted {s : State} (h : s.halted.isSome = true) (n : Nat) : ticks n s = s := by
  induction n with
  | zero => rfl
  | succ n ih => rw [ticks, tick, if_pos h, ih]

/-- Every step of either reading keeps the configuration, r0 and what has been latched. -/
theorem step_keeps {s t : State} (h : step s = .next t) : Keeps s t := by
  obtain ⟨-, rfl⟩ | ⟨-, -, d, hend⟩ | ⟨-, -, rfl⟩ := step_cases h
  · exact Keeps.refl t
  · exact hend.keeps
  · exact runningTick_keeps s

/-! ### The obligations -/

/-- Settles O47: no operation writes another value into r0's cell, and r0 reads 0 in every state. -/
theorem stepKeepsZeroRegister : Obligations.StepKeepsZeroRegister :=
  fun _ t hz h => ⟨(step_keeps h).zeroRegister hz, t.reg_zero⟩

/-- Settles O51: what every operation keeps, and that a halted machine does not step. -/
theorem stepKeepsConfigurationAndLatches : Obligations.StepKeepsConfigurationAndLatches := by
  intro s t h
  have hk := step_keeps h
  refine ⟨hk.ptbr, hk.params, hk.reading, hk.exitKept, fun cause hc => ?_, hk.vgaGrows, hk.retired⟩
  rw [step_halted (by rw [hc]; rfl)] at h
  cases h
  exact hc

/-- Settles O8: a halted machine neither steps nor ticks; a tick is writeback, then the younger stages. -/
theorem haltedMachineStays : Obligations.HaltedMachineStays := by
  refine ⟨fun s hs => ⟨step_halted hs, ticks_halted hs⟩, fun s hh hr => step_cycle hh hr, fun s u hh hu => ?_⟩
  have htick : tick s = if u.halted.isSome then u else youngStages s.idle u := by
    have hrun : tick s = runningTick s := by rw [tick, if_neg (by simp [hh])]
    rw [hu]
    exact hrun.trans (runningTick_eq s)
  rw [htick]
  exact ⟨fun h => if_pos h, fun h => if_neg (by simp [h])⟩

end Sys2Proof.Machine
end

