-- ==== Sys2Proof/Proofs/Traps.lean ====
section
/-! SUPPORT. The traps that halt the machine: an unregistered vector, a frame that cannot be stored, `FAULT_POLICY = Halt`
(rules R307, R309, R310). -/

namespace Sys2Proof.Machine

/-! ### The vector read (rules R65, R308) -/

/-- The vector table lies in the cacheable words below the VGA buffer (rules R64, R65). -/
theorem vectorAddress_plain {n : Nat} (h : n < 1024) :
    aligned (vectorAddress n) .word = true ∧ isCtrl (vectorAddress n) = false := by
  have hn : (vectorAddress n).toNat = 4 * n := by
    simp only [vectorAddress, BitVec.toNat_ofNat]
    exact Nat.mod_eq_of_lt (by omega)
  constructor
  · simp only [aligned, widthBytes, hn, beq_iff_eq]
    omega
  · have hne : vectorAddress n ≠ ctrlBase := fun he => by
      rw [he] at hn
      have hc : ctrlBase.toNat = 8192 := rfl
      omega
    simpa [isCtrl] using hne

/-- The vector that a trap entry reads is the view's (rules R82, R308). -/
theorem vectorRead_val {n : Nat} {s : State} (hn : n < 1024) (hs : StoreSound s) :
    (physRead .vector (vectorAddress n) .word s.squashBehindWb).val = s.viewWord (vectorAddress n) :=
  have ⟨ha, hc⟩ := vectorAddress_plain hn
  physRead_val .vector (squashBehindWb_read s hs) ha (.inl hc)

/-! ### Halts -/

/-- A trap entry that halts after reads has changed nothing but the ticks (rules R309 to R311). -/
theorem trapHalt_haltedWith {s u : State} (hs : StoreSound s) (h : ReadSpec s.squashBehindWb u) (lat : Nat)
    (cause : HaltCause) :
    HaltedWith s ((u.addCycles lat).halt cause) cause ∧
      ((u.addCycles lat).halt cause).cycles = s.cycles + BitVec.ofNat 64 lat := by
  have hspec := trapHalt_spec h lat cause
  constructor
  · exact {
      halted := rfl
      registers := fun q => by rw [State.halt_reg, State.addCycles_reg, h.frame.reg, State.squashBehindWb_reg]
      pc := by rw [State.halt_pc, State.addCycles_pc, h.frame.pc, State.squashBehindWb_pc]
      fpc := rfl
      priv := by rw [State.halt_priv, State.addCycles_priv, h.frame.priv, State.squashBehindWb_priv]
      ptbr := hspec.ptbr
      memory := fun a => by
        rw [State.halt_view, State.addCycles_view, h.view (squashBehindWb_read s hs), State.squashBehindWb_view]
      slots := rfl
      exitRequested := by
        rw [State.halt_exitRequested, State.addCycles_exitRequested, h.frame.exitRequested,
          State.squashBehindWb_exitRequested]
      vgaEvents := by
        rw [State.halt_vgaEvents, State.addCycles_vgaEvents, h.frame.vgaEvents, State.squashBehindWb_vgaEvents]
      retired := hspec.retired }
  · rw [State.halt_cycles, State.addCycles_cycles, h.frame.cycles, State.squashBehindWb_cycles]

/-- Settles O40: the vector read gives the view's word, which is 0, so that the entry halts after that read. -/
theorem unregisteredVectorHalts : Obligations.UnregisteredVectorHalts := by
  intro n savedPc s hn hs hzero
  have hval := (vectorRead_val hn hs).trans hzero
  have hentry : trapEntry n savedPc s =
      ((physRead .vector (vectorAddress n) .word s.squashBehindWb).st.addCycles
        (physRead .vector (vectorAddress n) .word s.squashBehindWb).lat).halt (.unhandled n) := by
    unfold trapEntry
    exact if_pos hval
  rw [hentry]
  exact trapHalt_haltedWith hs (physRead_read _ _ _ _) _ _

/-- The first check of a frame that fails names the double fault (rule R310). -/
theorem trapEntry_doubleFault {n : Nat} {savedPc sp : Word} {s : State} {v : Timed Word}
    {t0 t1 : Timed (Except FaultRec Word)} {kind : FaultKind}
    (hv : v = physRead .vector (vectorAddress n) .word s.squashBehindWb) (hsp : sp = pushedSp (s.reg spReg))
    (h0 : t0 = translate .store sp v.st) (h1 : t1 = translate .store (framePcAddress sp) t0.st) (hne : v.val ≠ 0#32)
    (hfail : (∃ f, t0.val = .error f ∧ kind = f.kind) ∨ (∃ pa0 f, t0.val = .ok pa0 ∧ t1.val = .error f ∧ kind = f.kind) ∨
      ∃ pa0 pa1, t0.val = .ok pa0 ∧ t1.val = .ok pa1 ∧ aligned sp .word = false ∧ kind = .alignmentFault) :
    trapEntry n savedPc s = (t1.st.addCycles (v.lat + t0.lat + t1.lat)).halt (.doubleFault n kind) := by
  unfold trapEntry
  dsimp only
  rw [← hv, ← hsp, ← h0, ← h1, if_neg hne]
  obtain ⟨f, e0, rfl⟩ | ⟨pa0, f, e0, e1, rfl⟩ | ⟨pa0, pa1, e0, e1, ha, rfl⟩ := hfail
  · rw [e0]
  · rw [e0, e1]
  · rw [e0, e1, ha]
    rfl

/-- A frame is aligned where `r15` is (rule R308). -/
theorem aligned_pushedSp (sp : Word) : aligned (pushedSp sp) .word = aligned sp .word := by
  have h : (pushedSp sp).toNat % 4 = sp.toNat % 4 := by
    unfold pushedSp
    bv_omega
  simp only [aligned, widthBytes, h]

/-- Settles O41: the vector is registered, so that the first failing check of the frame halts the machine, after reads
alone. -/
theorem doubleFaultHalts : Obligations.DoubleFaultHalts := by
  intro n savedPc s v t0 t1 kind hn hs hv h0 h1 hne hfail
  have hval : v.val ≠ 0#32 := by
    rw [hv]
    exact fun h => hne ((vectorRead_val hn hs).symm.trans h)
  have hreads : ReadSpec s.squashBehindWb t1.st := by
    rw [h1, h0, hv]
    exact ((physRead_read _ _ _ _).trans (translate_read _ _ _)).trans (translate_read _ _ _)
  have hmisaligned (h : (s.reg spReg).toNat % 4 ≠ 0) : aligned (pushedSp (s.reg spReg)) .word = false := by
    rw [aligned_pushedSp]
    simpa [aligned, widthBytes] using h
  have hentry := trapEntry_doubleFault (savedPc := savedPc) hv rfl h0 h1 hval
    (hfail.imp_right (Or.imp_right fun ⟨pa0, pa1, e0, e1, h, hk⟩ => ⟨pa0, pa1, e0, e1, hmisaligned h, hk⟩))
  rw [hentry]
  exact trapHalt_haltedWith hs hreads _ _

/-! ### The fault policy (rule R307) -/

theorem policyGoverns_iff (kind : FaultKind) :
    policyGoverns kind = true ↔ kind ∈ [.alignmentFault, .divideByZero, .illegalInstruction] := by
  cases kind <;> decide

/-- The vector column of the table of faults (rule R301). -/
theorem faultVector_row {kind : FaultKind} {n : Nat} :
    (kind, n) ∈ [(FaultKind.pageFault, 1), (.permissionFault, 2), (.alignmentFault, 3), (.divideByZero, 4),
      (.illegalInstruction, 5)] ↔ n = faultVector kind := by
  cases kind <;> simp [faultVector]

/-- The faults of translation are those that no policy governs (rule R307). -/
theorem faultVector_le_two {kind : FaultKind} : faultVector kind ≤ 2 ↔ policyGoverns kind = false := by
  cases kind <;> decide

/-- Under `FAULT_POLICY = Halt` the configurable faults halt at once. -/
theorem takeFault_halts {kind : FaultKind} {ipc info : Word} {s : State} (hp : s.params.faultPolicy = .halt)
    (hk : policyGoverns kind = true) :
    takeFault kind ipc info s = State.halt { s with faultInfo := some ⟨kind, ipc, info⟩ } (.faultHalt kind ipc info) := by
  unfold takeFault
  exact if_pos (by simp [hp, hk])

/-- Every other fault enters the trap of its vector. -/
theorem takeFault_vectors {kind : FaultKind} {ipc info : Word} {s : State}
    (h : s.params.faultPolicy = .vector ∨ policyGoverns kind = false) :
    takeFault kind ipc info s = trapEntry (faultVector kind) ipc { s with faultInfo := some ⟨kind, ipc, info⟩ } := by
  unfold takeFault
  refine if_neg ?_
  obtain h | h := h <;> simp [h]

/-- Settles O42: the fault is recorded first, then the policy decides between the halt and the trap entry. -/
theorem faultPolicyDecides : Obligations.FaultPolicyDecides := by
  rintro kind ipc info s s' rfl
  refine ⟨(takeFault_spec kind ipc info s).faultInfo, fun hp hk => ?_, fun n hn h => ?_⟩
  · rw [takeFault_halts hp ((policyGoverns_iff kind).2 hk)]
    exact ⟨⟨State.halt_halted _ _, State.halt_reg _ _, State.halt_pc _ _, State.halt_fpc _ _, State.halt_priv _ _,
      State.halt_ptbr _ _, State.halt_view _ _, State.halt_slots _ _, State.halt_exitRequested _ _,
      State.halt_vgaEvents _ _, congrArg Stats.retired (State.halt_stats _ _)⟩, State.halt_cycles _ _, State.halt_mem _ _⟩
  · obtain rfl := faultVector_row.1 hn
    exact takeFault_vectors (h.imp_right faultVector_le_two.1)

end Sys2Proof.Machine
end

