-- ==== Sys2Proof/Proofs/Reset.lean ====
section
/-! SUPPORT. The state after reset: what an image leaves in memory, and the table of rule R37 (rules R37, R340, R341). -/

namespace Sys2Proof.Machine

/-! ### Images (rule R341) -/

/-- The address of byte `k + 1` of a chunk is that of byte `k` of its tail. -/
theorem address_succ (pa : Word) (k : Nat) : pa + BitVec.ofNat 32 (k + 1) = pa + 1#32 + BitVec.ofNat 32 k := by
  rw [Nat.add_comm k 1, BitVec.ofNat_add, BitVec.add_assoc]

/-- A chunk leaves every byte outside it as it was. -/
theorem Memory.writeList_read_ne {bs : List Byte} (m : Memory) {pa a : Word}
    (h : ∀ k, k < bs.length → pa + BitVec.ofNat 32 k ≠ a) : (m.writeList pa bs).read a.toNat = m.read a.toNat := by
  induction bs generalizing m pa with
  | nil => rfl
  | cons b rest ih =>
    have hhead : a.toNat ≠ pa.toNat := fun he =>
      h 0 (Nat.zero_lt_succ _) (by rw [BitVec.eq_of_toNat_eq he]; exact BitVec.add_zero pa)
    have htail (k : Nat) (hk : k < rest.length) : pa + 1#32 + BitVec.ofNat 32 k ≠ a := by
      rw [← address_succ]
      exact h (k + 1) (Nat.succ_lt_succ hk)
    rw [Memory.writeList, ih _ htail, Memory.read_write_ne _ _ hhead]

/-- A chunk no longer than memory puts byte `k` at the address `k` above its base. -/
theorem Memory.writeList_read {bs : List Byte} {m : Memory} (hm : m.wf = true) (pa : Word) (hlen : bs.length ≤ 2 ^ 32)
    {k : Nat} (hk : k < bs.length) : (m.writeList pa bs).read (pa + BitVec.ofNat 32 k).toNat = bs[k] := by
  induction bs generalizing m pa k with
  | nil => cases hk
  | cons b rest ih =>
    rw [List.length_cons] at hlen
    rw [Memory.writeList]
    cases k with
    | zero =>
      have hrest (j : Nat) (hj : j < rest.length) : pa + 1#32 + BitVec.ofNat 32 j ≠ pa + BitVec.ofNat 32 0 := by
        bv_omega
      rw [Memory.writeList_read_ne _ hrest]
      exact (congrArg (fun a : Word => (m.write pa.toNat b).read a.toNat) (BitVec.add_zero pa)).trans
        (Memory.read_write_self hm _ _)
    | succ k =>
      rw [address_succ pa k]
      exact ih (Memory.write_wf hm pa.isLt b) (pa + 1#32) (by omega) (Nat.lt_of_succ_lt_succ hk)

/-- An image leaves every byte outside its chunks as it was. -/
theorem Memory.load_read_ne {image : List ImageChunk} (m : Memory) {a : Word}
    (h : ∀ c ∈ image, ∀ k, k < c.bytes.length → c.base + BitVec.ofNat 32 k ≠ a) :
    (m.load image).read a.toNat = m.read a.toNat := by
  induction image generalizing m with
  | nil => rfl
  | cons c rest ih =>
    rw [Memory.load, ih _ fun d hd => h d (List.mem_cons_of_mem _ hd),
      Memory.writeList_read_ne _ (h c List.mem_cons_self)]

/-- Chunks are loaded in list order. -/
theorem Memory.load_append (m : Memory) (before after : List ImageChunk) :
    m.load (before ++ after) = (m.load before).load after := by
  induction before generalizing m with
  | nil => rfl
  | cons c rest ih => exact ih _

/-- A byte of a chunk that no later chunk covers is what memory holds (rule R341). -/
theorem Memory.load_read {m : Memory} (hm : m.wf = true) (before : List ImageChunk) {after : List ImageChunk}
    {c : ImageChunk} {k : Nat} (hk : k < c.bytes.length) (hlen : c.bytes.length ≤ 2 ^ 32)
    (hafter : ∀ later ∈ after, ∀ j, j < later.bytes.length →
      later.base + BitVec.ofNat 32 j ≠ c.base + BitVec.ofNat 32 k) :
    (m.load (before ++ c :: after)).read (c.base + BitVec.ofNat 32 k).toNat = c.bytes[k] := by
  rw [Memory.load_append, Memory.load, Memory.load_read_ne _ hafter,
    Memory.writeList_read (Memory.load_wf hm before) c.base hlen hk]

/-! ### The state after reset (rule R37) -/

/-- A way of a set after reset. -/
theorem emptySet_way (w : Fin 4) : emptySet.way w = emptyWay (BitVec.ofNat 2 (3 - w.val)) := by
  fin_cases w <;> rfl

theorem emptyWay_byte (age : BitVec 2) (o : BitVec 6) : (emptyWay age).data.byte o = 0#8 := by
  simp [emptyWay, Block.byte]

theorem resetAge_toNat (w : Fin 4) : (BitVec.ofNat 2 (3 - w.val)).toNat = 3 - w.val := by
  revert w; decide

theorem resetWith_reg (args : ResetArgs) (r : Reg) : (State.resetWith args).reg r = 0#32 := by
  simp [State.reg, State.resetWith, State.reset]

/-- Settles O49: each row of the table is the record of `State.resetWith`, but for memory, which is the image loaded. -/
theorem resetValues : Obligations.ResetValues := by
  rintro args s rfl
  refine ⟨resetWith_reg args, rfl, rfl, rfl, rfl, fun r => ?_, rfl, fun i w => ?_, fun a h => ?_,
    fun before after c k hk himage hlen hafter => ?_, rfl, rfl, rfl, rfl, rfl, rfl, rfl, rfl⟩
  · simp [State.resetWith, State.reset]
  · have hway : ((State.resetWith args).cache.setAt i).way w = emptyWay (BitVec.ofNat 2 (3 - w.val)) :=
      (emptyCache_way i w).trans (emptySet_way w)
    rw [hway]
    exact ⟨rfl, rfl, resetAge_toNat w, rfl, emptyWay_byte _⟩
  · exact Memory.load_read_ne [] h
  · have hload : (State.resetWith args).mem = Memory.load [] (before ++ c :: after) := congrArg (Memory.load []) himage
    rw [hload]
    exact Memory.load_read rfl before hk hlen hafter

theorem resetWith_between (args : ResetArgs) : (State.resetWith args).Between := ⟨rfl, rfl, rfl⟩

/-- With every slot empty and one program counter, rule R23 holds of a state. -/
theorem State.PcSound.of_empty {s : State} (hs : s.slots = {}) (h : s.fpc = s.pc) : s.PcSound where
  empty _ := h
  inFlight _ i hi := by simp [hs] at hi
  completed _ _ _ _ := h
  sequential _ := hs

/-- Settles O48: an image keeps memory canonical, the cache is empty, and nothing is in flight. -/
theorem resetIsSound : Obligations.ResetIsSound := by
  refine ⟨fun args => ?_, rfl⟩
  have hb := resetWith_between args
  obtain ⟨hwf, hsound, hcoherent⟩ : StoreSound (State.resetWith args) :=
    emptyCache_storeSound rfl (Memory.load_wf rfl args.image)
  have hzero : (State.resetWith args).ZeroRegister := by simp [State.ZeroRegister, State.resetWith, State.reset]
  exact ⟨⟨hwf, hzero, hsound, hcoherent, hb.pipelineSound⟩, State.PcSound.of_empty hb.empty hb.onePc, hb⟩

end Sys2Proof.Machine
end

