-- ==== Sys2Proof/Proofs/Scoreboard.lean ====
section
/-! SUPPORT. The scoreboard through the slots: each stage of a tick, a squash and a halt keep a pending bit set exactly
while one instruction owns it (rules R27, R265, R276); with it the obligation `StepKeepsPipelineSound`. -/

namespace Sys2Proof.Machine

/-! ### The scoreboard of given slots -/

/-- Clauses (b) and (c) of rule R276 for slots and a scoreboard. -/
structure Scoreboard (sl : Slots) (p : Vector Bool 16) : Prop where
  owned : ∀ t : Reg, ownerCount t sl = (p[t.val]).toNat
  young : ∀ t : Reg, owns t sl.ids = false ∧ owns t sl.ifs = false
  zero : p[0] = false

theorem State.PipelineSound.scoreboard {s : State} (h : s.PipelineSound) : Scoreboard s.slots s.pending :=
  ⟨h.pendingOwned, h.youngOwnNothing, h.zeroNotPending⟩

/-- A squash or writeback of a slot clears the bits that the slot owns (rule R265). -/
theorem releasePending_getElem (p : Vector Bool 16) (sl : Slot) (t : Reg) :
    (releasePending p sl)[t.val] = (p[t.val] && !owns t sl) := by
  cases sl with
  | none => simp [releasePending, owns]
  | some i =>
    cases hm : i.marked with
    | false => simp [releasePending, owns, hm]
    | true =>
      cases hd : i.dest with
      | none => simp [releasePending, owns, hm, hd]
      | some d =>
        by_cases htd : d = t
        · subst htd; simp [releasePending, owns, hm, hd]
        · have hne : d.val ≠ t.val := fun h => htd (Fin.ext h)
          simp [releasePending, owns, hm, hd, htd, Vector.getElem_set_ne _ _ hne]

theorem releasePending_zero {p : Vector Bool 16} (h : p[0] = false) (sl : Slot) : (releasePending p sl)[0] = false := by
  have hget := releasePending_getElem p sl 0
  simpa [h] using hget

/-- Decode sets the bit of the destination, r0's never (rules R27, R256). -/
theorem markPending_getElem (p : Vector Bool 16) (d : Option Reg) (t : Reg) :
    (markPending p d)[t.val] = (p[t.val] || (d.any (· != 0) && d == some t)) := by
  cases d with
  | none => simp [markPending]
  | some r =>
    by_cases hr : r = 0
    · simp [markPending, hr]
    · by_cases hrt : r = t
      · subst hrt; simp [markPending, hr]
      · have hne : r.val ≠ t.val := fun h => hrt (Fin.ext h)
        simp [markPending, hr, hrt, Vector.getElem_set_ne _ _ hne]

/-- A record owns what it owned before a stage that keeps its destination and its mark. -/
theorem InFlight.SameOrigin.owns {i j : InFlight} (h : i.SameOrigin j) (t : Reg) :
    owns t (some j) = owns t (some i) := by
  simp [Machine.owns, h.dest, h.marked]

/-- An issued record owns its destination, r0 never (rule R256). -/
theorem owns_readOperands (i : InFlight) (d : Instr) (s : State) (t : Reg) :
    owns t (some (readOperands i d s)) = ((destination d).any (· != 0) && destination d == some t) := rfl

theorem slotCount_eq_zero {x : Slot} : slotCount x = 0 ↔ x = none := by
  cases x <;> simp [slotCount]

/-- No slot is occupied exactly when all are empty. -/
theorem occupied_eq_zero {sl : Slots} : occupied sl = 0 ↔ sl = {} := by
  obtain ⟨a, b, c, d, e⟩ := sl
  simp only [occupied, Nat.add_eq_zero_iff, slotCount_eq_zero, Slots.mk.injEq, and_assoc]

section
variable {sl : Slots} {p : Vector Bool 16}

/-! ### Slots emptied -/

theorem Scoreboard.releaseExs (h : Scoreboard sl p) : Scoreboard { sl with exs := none } (releasePending p sl.exs) where
  owned t := by
    have key : ∀ e m w b : Bool, e.toNat + m.toNat + w.toNat = b.toNat →
        false.toNat + m.toNat + w.toNat = (b && !e).toNat := by decide
    rw [releasePending_getElem]
    exact key _ _ _ _ (h.owned t)
  young := h.young
  zero := releasePending_zero h.zero _

theorem Scoreboard.releaseMems (h : Scoreboard sl p) :
    Scoreboard { sl with mems := none } (releasePending p sl.mems) where
  owned t := by
    have key : ∀ e m w b : Bool, e.toNat + m.toNat + w.toNat = b.toNat →
        e.toNat + false.toNat + w.toNat = (b && !m).toNat := by decide
    rw [releasePending_getElem]
    exact key _ _ _ _ (h.owned t)
  young := h.young
  zero := releasePending_zero h.zero _

theorem Scoreboard.releaseWbs (h : Scoreboard sl p) : Scoreboard { sl with wbs := none } (releasePending p sl.wbs) where
  owned t := by
    have key : ∀ e m w b : Bool, e.toNat + m.toNat + w.toNat = b.toNat →
        e.toNat + m.toNat + false.toNat = (b && !w).toNat := by decide
    rw [releasePending_getElem]
    exact key _ _ _ _ (h.owned t)
  young := h.young
  zero := releasePending_zero h.zero _

/-- A slot that owns nothing releases nothing. -/
theorem Scoreboard.releaseNothing (h : Scoreboard sl p) {x : Slot} (hx : ∀ t, owns t x = false) :
    Scoreboard sl (releasePending p x) where
  owned t := by rw [releasePending_getElem, hx, h.owned t]; simp
  young := h.young
  zero := releasePending_zero h.zero x

/-- The slots behind execute own nothing, whatever becomes of them there. -/
theorem Scoreboard.setYoung (h : Scoreboard sl p) {x y : Slot} (hx : ∀ t, owns t x = false)
    (hy : ∀ t, owns t y = false) : Scoreboard { sl with ids := x, ifs := y } p :=
  ⟨h.owned, fun t => ⟨hx t, hy t⟩, h.zero⟩

/-- `Squash({EX, ID, IF})` (rule R264). -/
theorem Scoreboard.squashYoung (h : Scoreboard sl p) :
    Scoreboard { sl with exs := none, ids := none, ifs := none }
      (releasePending (releasePending (releasePending p sl.exs) sl.ids) sl.ifs) :=
  ((h.releaseExs.releaseNothing fun t => (h.young t).1).releaseNothing fun t => (h.young t).2).setYoung
    (fun _ => rfl) (fun _ => rfl)

/-- `Squash({IF, ID, EX, MEM})` (rule R308). -/
theorem Scoreboard.squashBehindWb {s : State} (h : Scoreboard s.slots s.pending) :
    Scoreboard s.squashBehindWb.slots s.squashBehindWb.pending :=
  h.squashYoung.releaseMems

/-- `Squash` of all five stages (rule R33). -/
theorem Scoreboard.squashAll {s : State} (h : Scoreboard s.slots s.pending) : Scoreboard {} s.squashAll.pending :=
  h.squashBehindWb.releaseWbs

/-! ### Instructions moved on -/

/-- An instruction held in memory. -/
theorem Scoreboard.holdMemory (h : Scoreboard sl p) {i j : InFlight} (hm : sl.mems = some i) (ho : i.SameOrigin j) :
    Scoreboard { sl with mems := some j } p where
  owned t := by rw [← h.owned t, ownerCount, ownerCount, ho.owns, hm]
  young := h.young
  zero := h.zero

/-- An instruction moved from memory to a free writeback. -/
theorem Scoreboard.leaveMemory (h : Scoreboard sl p) {i j : InFlight} (hm : sl.mems = some i) (hw : sl.wbs = none)
    (ho : i.SameOrigin j) : Scoreboard { sl with wbs := some j, mems := none } p where
  owned t := by
    rw [← h.owned t, ownerCount, ownerCount, ho.owns, hm, hw]
    simp [owns]
  young := h.young
  zero := h.zero

/-- An instruction moved from execute to a free memory stage. -/
theorem Scoreboard.leaveExecute (h : Scoreboard sl p) {i j : InFlight} (he : sl.exs = some i) (hm : sl.mems = none)
    (ho : i.SameOrigin j) : Scoreboard { sl with mems := some j, exs := none } p where
  owned t := by
    rw [← h.owned t, ownerCount, ownerCount, ho.owns, he, hm]
    simp [owns]
  young := h.young
  zero := h.zero

/-- A faulted instruction moved from decode to a free execute stage: it owns nothing. -/
theorem Scoreboard.leaveDecode (h : Scoreboard sl p) {i j : InFlight} (hi : sl.ids = some i) (he : sl.exs = none)
    (ho : i.SameOrigin j) : Scoreboard { sl with exs := some j, ids := none } p where
  owned t := by
    have hyoung := (h.young t).1
    rw [hi] at hyoung
    rw [← h.owned t, ownerCount, ownerCount, ho.owns, hyoung, he]
    simp [owns]
  young t := ⟨rfl, (h.young t).2⟩
  zero := h.zero

/-- An instruction issued to a free execute stage owns the bit that it sets, which was clear. -/
theorem Scoreboard.issue {s : State} (h : Scoreboard sl p) (i : InFlight) (d : Instr) (he : sl.exs = none)
    (hfree : ∀ t, destination d = some t → p[t.val] = false) :
    Scoreboard { sl with exs := some (readOperands i d s), ids := none } (markPending p (destination d)) where
  owned t := by
    have key : ∀ o m w b : Bool, (o = true → b = false) → false.toNat + m.toNat + w.toNat = b.toNat →
        o.toNat + m.toNat + w.toNat = (b || o).toNat := by decide
    have hcount := h.owned t
    rw [ownerCount, he] at hcount
    rw [markPending_getElem]
    refine key _ _ _ _ (fun ho => hfree t ?_) hcount
    rw [owns_readOperands, Bool.and_eq_true] at ho
    exact eq_of_beq ho.2
  young t := ⟨rfl, (h.young t).2⟩
  zero := by
    have hget := markPending_getElem p (destination d) 0
    cases hd : destination d <;> simp_all [h.zero]

end

/-! ### The ends of an instruction -/

theorem FlightOutcome.scoreboard {s t : State} (h : FlightOutcome s t) (hb : Scoreboard s.slots s.pending) :
    Scoreboard t.slots t.pending := by
  cases h with
  | kept slots pending halted => rw [slots, pending]; exact hb
  | entered slots pending halted onePc => rw [slots, pending]; exact hb.squashBehindWb
  | halted slots pending halted onePc => rw [slots, pending]; exact hb.squashAll

theorem occupied_squashBehindWb (s : State) : occupied s.squashBehindWb.slots ≤ occupied s.slots := by
  simp only [State.squashBehindWb_slots, occupied, slotCount]
  omega

theorem occupied_empty : occupied {} = 0 := rfl

theorem FlightOutcome.occupied {s t : State} (h : FlightOutcome s t) : occupied t.slots ≤ occupied s.slots := by
  cases h with
  | kept slots pending halted => rw [slots]
  | entered slots pending halted onePc => rw [slots]; exact occupied_squashBehindWb s
  | halted slots pending halted onePc => rw [slots, occupied_empty]; exact Nat.zero_le _

theorem FlightOutcome.haltedEmpty {s t : State} (h : FlightOutcome s t)
    (hs : s.halted.isSome = true → s.slots = {}) (ht : t.halted.isSome = true) : t.slots = {} := by
  cases h with
  | kept slots pending halted => rw [slots]; exact hs (halted ▸ ht)
  | entered slots pending halted onePc => rw [slots, State.squashBehindWb_slots, hs (halted ▸ ht)]
  | halted slots pending halted onePc => exact slots

/-- The end of an instruction keeps the pipeline sound. -/
theorem FlightOutcome.pipelineSound {s t : State} (h : FlightOutcome s t) (hp : t.params = s.params)
    (hs : s.PipelineSound) : t.PipelineSound :=
  have hb := h.scoreboard hs.scoreboard
  ⟨hb.owned, hb.young, hb.zero, fun hoff => h.occupied.trans (hs.oneAtATime (hp ▸ hoff)), h.haltedEmpty hs.haltedEmpty⟩

/-! ### The stages of a tick -/

theorem wbStep_flight (s : State) : FlightOutcome (clearWb s) (wbStep s) := by
  cases h : s.slots.wbs with
  | none =>
    rw [wbStep_empty h]
    exact .kept (by simp [clearWb, ← h]) (by simp [clearWb, h, releasePending]) rfl
  | some i => rw [wbStep_occupied h]; exact writeback_flight i s

theorem FlightOutcome.wbs {s t : State} (h : FlightOutcome s t) (hs : s.slots.wbs = none) : t.slots.wbs = none := by
  cases h with
  | kept slots pending halted => rw [slots]; exact hs
  | entered slots pending halted onePc => rw [slots]; exact hs
  | halted slots pending halted onePc => rw [slots]

/-- After writeback its slot is empty. -/
theorem wbStep_wbs (s : State) : (wbStep s).slots.wbs = none := (wbStep_flight s).wbs rfl

theorem occupied_clearWb (s : State) : occupied (clearWb s).slots ≤ occupied s.slots := by
  simp only [clearWb, occupied, slotCount]
  omega

theorem wbStep_occupied_le (s : State) : occupied (wbStep s).slots ≤ occupied s.slots :=
  (wbStep_flight s).occupied.trans (occupied_clearWb s)

theorem wbStep_scoreboard {s : State} (h : Scoreboard s.slots s.pending) :
    Scoreboard (wbStep s).slots (wbStep s).pending :=
  (wbStep_flight s).scoreboard h.releaseWbs

theorem MemMoved.scoreboard {s t : State} (h : MemMoved s t) (hw : s.slots.wbs = none)
    (hb : Scoreboard s.slots s.pending) : Scoreboard t.slots t.pending := by
  cases h with
  | empty => exact hb
  | @serving u i j hm k ho =>
    rw [← k.frame.slots] at hb hm
    rw [← k.frame.pending] at hb
    exact hb.holdMemory hm ho
  | @faulted u i j hm k ho =>
    rw [← k.frame.slots] at hb hm hw
    rw [← k.frame.pending] at hb
    exact hb.leaveMemory hm hw ho
  | @redirected u i j hm k ho =>
    rw [← k.frame.slots] at hb hm hw
    rw [← k.frame.pending] at hb
    exact hb.squashYoung.leaveMemory hm hw ho
  | @advanced u i j hm k ho =>
    rw [← k.frame.slots] at hb hm hw
    rw [← k.frame.pending] at hb
    exact hb.leaveMemory hm hw ho

theorem MemMoved.occupied {s t : State} (h : MemMoved s t) : occupied t.slots ≤ occupied s.slots := by
  cases h with
  | empty => exact le_rfl
  | @serving u i j hm k ho => simp [State.holdMemory, k.frame.slots, Machine.occupied, slotCount, hm]
  | @faulted u i j hm k ho =>
    simp only [State.leaveMemory, k.frame.slots, Machine.occupied, slotCount, hm]
    omega
  | @redirected u i j hm k ho =>
    simp only [State.leaveMemory, redirect, State.setPcs_slots, State.squashYoung_slots, State.countSquashed_slots,
      k.frame.slots, Machine.occupied, slotCount, hm]
    omega
  | @advanced u i j hm k ho =>
    simp only [State.leaveMemory, k.frame.slots, Machine.occupied, slotCount, hm]
    omega

theorem exStep_scoreboard {s : State} (h : Scoreboard s.slots s.pending) :
    Scoreboard (exStep s).slots (exStep s).pending := by
  obtain he | ⟨i, j, hi, hm, ho, he⟩ := exStep_cases s
  · rw [he]; exact h
  · rw [he]; exact h.leaveExecute hi hm ho

theorem exStep_occupied (s : State) : occupied (exStep s).slots ≤ occupied s.slots := by
  obtain he | ⟨i, j, hi, hm, ho, he⟩ := exStep_cases s
  · rw [he]
  · simp [he, State.leaveExecute, occupied, slotCount, hi, hm]

/-- The destination of an instruction without a hazard is not pending (rule R257). -/
theorem hazard_destination {d : Instr} {s : State} (h : hazard d s = false) {t : Reg} (ht : destination d = some t) :
    s.pending[t.val] = false := by
  simp only [hazard, ht, Option.any_some, Bool.or_eq_false_iff] at h
  exact h.2

/-- Where only decode is occupied nothing is pending. -/
theorem Scoreboard.nonePending {sl : Slots} {p : Vector Bool 16} (h : Scoreboard sl p) {i : InFlight}
    (hi : sl.ids = some i) (hone : occupied sl ≤ 1) (t : Reg) : p[t.val] = false := by
  have hids : slotCount sl.ids = 1 := by rw [hi]; rfl
  have hempty : sl.exs = none ∧ sl.mems = none ∧ sl.wbs = none := by
    unfold occupied at hone
    exact ⟨slotCount_eq_zero.1 (by omega), slotCount_eq_zero.1 (by omega), slotCount_eq_zero.1 (by omega)⟩
  obtain ⟨he, hm, hw⟩ := hempty
  have hcount := h.owned t
  simp only [ownerCount, he, hm, hw, owns, Bool.toNat_false, Nat.add_zero] at hcount
  cases hp : p[t.val] with
  | false => rfl
  | true => rw [hp] at hcount; cases hcount

theorem DecodeMoved.scoreboard {s t : State} (h : DecodeMoved s t)
    (hone : s.params.pipelineEnabled = false → occupied s.slots ≤ 1) (hb : Scoreboard s.slots s.pending) :
    Scoreboard t.slots t.pending := by
  cases h with
  | held => exact hb
  | passed hi he ho => exact hb.leaveDecode hi he ho
  | @stalled i hi d =>
    have hyoung (t : Reg) : owns t (some { i with instr := some d }) = false := by
      have := (hb.young t).1
      rwa [hi] at this
    exact hb.setYoung hyoung fun t => (hb.young t).2
  | @issued i hi he d hz =>
    refine hb.issue i d he fun t ht => ?_
    cases hon : s.params.pipelineEnabled with
    | true => exact hazard_destination (hz hon) ht
    | false => exact hb.nonePending hi (hone hon) t

theorem DecodeMoved.occupied {s t : State} (h : DecodeMoved s t) : occupied t.slots ≤ occupied s.slots := by
  cases h with
  | held => exact le_rfl
  | passed hi he ho => simp [State.leaveDecode, Machine.occupied, slotCount, hi, he]
  | stalled hi d => simp [Machine.occupied, slotCount, hi]
  | issued hi he d hz => simp [State.leaveDecode, Machine.occupied, slotCount, hi, he]

theorem FetchMoved.scoreboard {s t : State} (h : FetchMoved s t) (hb : Scoreboard s.slots s.pending) :
    Scoreboard t.slots t.pending := by
  cases h with
  | empty => exact hb
  | serving h ho => exact hb.setYoung (fun t => (hb.young t).1) fun t => (ho.owns t).trans (h ▸ (hb.young t).2)
  | left h hd ho => exact hb.setYoung (fun t => (ho.owns t).trans (h ▸ (hb.young t).2)) fun _ => rfl

theorem FetchMoved.occupied {s t : State} (h : FetchMoved s t) : occupied t.slots = occupied s.slots := by
  cases h with
  | empty => rfl
  | serving h ho => simp [State.holdFetch, Machine.occupied, slotCount, h]
  | left h hd ho => simp [State.leaveFetch, Machine.occupied, slotCount, h, hd]

theorem ifStep_scoreboard {idle0 : Bool} {s : State} (hb : Scoreboard s.slots s.pending) :
    Scoreboard (ifStep idle0 s).slots (ifStep idle0 s).pending := by
  obtain ⟨-, h⟩ | ⟨-, -, u, j, hu, -, hm, h⟩ := ifStep_moved idle0 s
  · exact h.scoreboard hb
  · rw [← hu.frame.slots, ← hu.frame.pending] at hb
    exact h.scoreboard (hb.setYoung (fun t => (hb.young t).1) fun t => by simp [owns, hm])

/-- A fetch adds an instruction only with the pipeline on or from an idle machine (rule R268). -/
theorem ifStep_occupied_off {idle0 : Bool} {s : State} (hoff : s.params.pipelineEnabled = false)
    (hidle : idle0 = true → occupied s.slots = 0) (hone : occupied s.slots ≤ 1) :
    occupied (ifStep idle0 s).slots ≤ 1 := by
  obtain ⟨-, h⟩ | ⟨hi, hor, u, j, hu, -, -, h⟩ := ifStep_moved idle0 s
  · rw [h.occupied]; exact hone
  · have hzero : occupied s.slots = 0 := hidle (by simpa [hoff] using hor)
    rw [h.occupied]
    simp only [State.holdFetch, hu.frame.slots]
    simp only [occupied, slotCount, hi] at hzero ⊢
    omega

/-- The younger stages keep the scoreboard, writeback being free; with the pipeline off they keep one instruction at a
time. -/
theorem youngStages_sound {idle0 : Bool} {s : State} (hw : s.slots.wbs = none) (hb : Scoreboard s.slots s.pending)
    (hone : s.params.pipelineEnabled = false → occupied s.slots ≤ 1)
    (hidle : idle0 = true → occupied s.slots = 0) :
    Scoreboard (youngStages idle0 s).slots (youngStages idle0 s).pending ∧
      (s.params.pipelineEnabled = false → occupied (youngStages idle0 s).slots ≤ 1) := by
  have hmem := memStep_moved s
  have hdecode := idStep_moved (exStep (memStep s))
  have hexecuted : (exStep (memStep s)).params = s.params := (hmem.keeps.trans (exStep_keeps _)).params
  have hdecoded : (idStep (exStep (memStep s))).params = s.params := hdecode.keeps.params.trans hexecuted
  have hle : occupied (exStep (memStep s)).slots ≤ occupied s.slots := (exStep_occupied _).trans hmem.occupied
  have hle' : occupied (idStep (exStep (memStep s))).slots ≤ occupied s.slots := hdecode.occupied.trans hle
  refine ⟨ifStep_scoreboard (hdecode.scoreboard (fun hoff => hle.trans (hone (hexecuted ▸ hoff)))
    (exStep_scoreboard (hmem.scoreboard hw hb))), fun hoff => ?_⟩
  exact ifStep_occupied_off (hdecoded ▸ hoff) (fun h => Nat.le_zero.1 (hle'.trans (hidle h).le)) (hle'.trans (hone hoff))

theorem idle_occupied {s : State} (h : s.idle = true) : occupied s.slots = 0 :=
  occupied_eq_zero.2 (by simpa [State.idle] using h)

theorem runningTick_pipelineSound {s : State} (hrun : s.halted = none) (h : s.PipelineSound) :
    (runningTick s).PipelineSound := by
  have hparams : (wbStep (s.addCycles 1)).params = s.params := (wbStep_keeps (s.addCycles 1)).params
  have hb : Scoreboard (wbStep (s.addCycles 1)).slots (wbStep (s.addCycles 1)).pending :=
    wbStep_scoreboard (s := s.addCycles 1) h.scoreboard
  have hle : occupied (wbStep (s.addCycles 1)).slots ≤ occupied s.slots := wbStep_occupied_le (s.addCycles 1)
  have hkept := runningTick_keeps s
  rw [runningTick_eq] at hkept ⊢
  split
  · rename_i hhalt
    have hempty : (wbStep (s.addCycles 1)).slots = {} :=
      (wbStep_flight (s.addCycles 1)).haltedEmpty (fun hs => by simp [clearWb, hrun] at hs) hhalt
    exact ⟨hb.owned, hb.young, hb.zero, fun _ => by rw [hempty, occupied_empty]; exact Nat.zero_le 1, fun _ => hempty⟩
  · rename_i hhalt
    obtain ⟨hboard, hone⟩ := youngStages_sound (idle0 := s.idle) (wbStep_wbs _) hb
      (fun hoff => hle.trans (h.oneAtATime (hparams ▸ hoff))) (fun hi => Nat.le_zero.1 (hle.trans (idle_occupied hi).le))
    refine ⟨hboard.owned, hboard.young, hboard.zero, fun hoff => hone ?_, fun hs => ?_⟩
    · rw [(youngStages_keeps _ _).params] at hoff
      exact hoff
    · rw [youngStages_halted] at hs
      exact absurd hs hhalt

/-- Settles O46: an instruction of the sequential reading ends by one of the outcomes that keep the pipeline sound, and
each stage of a tick keeps the scoreboard. -/
theorem stepKeepsPipelineSound : Obligations.StepKeepsPipelineSound := by
  intro s t h hstep
  obtain ⟨-, rfl⟩ | ⟨-, -, d, hend⟩ | ⟨hrun, -, rfl⟩ := step_cases hstep
  · exact h
  · exact hend.flight.pipelineSound hend.keeps.params h
  · exact runningTick_pipelineSound hrun h

end Sys2Proof.Machine
end

