-- ==== Sys2Proof/Proofs/ProgramCounters.lean ====
section
/-! SUPPORT. The two program counters (rule R23): the sequential reading and every halt set both; with the pipeline off each
stage keeps the fetch pointer at the successor of the instruction in flight. With it the obligation
`ProgramCountersAgree`. -/

namespace Sys2Proof.Machine

/-- The fetch pointer stands behind the instruction in a slot, if there is one. -/
def FetchedPast (fpc : Word) (x : Slot) : Prop := ∀ i, x = some i → fpc = i.ipc + 4#32

theorem FetchedPast.bubble (fpc : Word) : FetchedPast fpc none := by
  rintro i ⟨⟩

theorem FetchedPast.holds {fpc : Word} {i : InFlight} (h : fpc = i.ipc + 4#32) : FetchedPast fpc (some i) := by
  rintro j ⟨⟩
  exact h

/-- A stage that keeps a record's address may move it. -/
theorem FetchedPast.moved {fpc : Word} {x : Slot} {i j : InFlight} (h : FetchedPast fpc x) (hx : x = some i)
    (hj : j.ipc = i.ipc) : FetchedPast fpc (some j) :=
  .holds (by rw [hj]; exact h i hx)

/-- With an instruction in some stage the slots are not empty. -/
theorem Slots.ne_empty {sl : Slots} (stage : Slots → Slot) {j : InFlight} (hstage : stage {} = none)
    (h : stage sl = some j) : sl ≠ {} := by
  rintro rfl
  rw [hstage] at h
  cases h

/-- What rule R23 says of the program counters while the pipeline is off, whatever slot is occupied. -/
structure State.PcTracks (s : State) : Prop where
  empty : s.slots = {} → s.fpc = s.pc
  ifs : FetchedPast s.fpc s.slots.ifs
  ids : FetchedPast s.fpc s.slots.ids
  exs : FetchedPast s.fpc s.slots.exs
  mems : FetchedPast s.fpc s.slots.mems
  completed : ∀ i, s.slots.wbs = some i → i.fault = none → s.fpc = s.pc

theorem State.PcSound.tracks {s : State} (h : s.PcSound) (hoff : s.params.pipelineEnabled = false) : s.PcTracks where
  empty := h.empty
  ifs i hi := h.inFlight hoff i (.inl hi)
  ids i hi := h.inFlight hoff i (.inr (.inl hi))
  exs i hi := h.inFlight hoff i (.inr (.inr (.inl hi)))
  mems i hi := h.inFlight hoff i (.inr (.inr (.inr hi)))
  completed := h.completed hoff

theorem State.PcTracks.of_empty {s : State} (hs : s.slots = {}) (h : s.fpc = s.pc) : s.PcTracks where
  empty _ := h
  ifs := by rw [hs]; exact .bubble _
  ids := by rw [hs]; exact .bubble _
  exs := by rw [hs]; exact .bubble _
  mems := by rw [hs]; exact .bubble _
  completed _ _ _ := h

theorem State.PcTracks.of_occupied {s : State} (stage : Slots → Slot) {j : InFlight} (hstage : stage {} = none)
    (h : stage s.slots = some j) (hifs : FetchedPast s.fpc s.slots.ifs) (hids : FetchedPast s.fpc s.slots.ids)
    (hexs : FetchedPast s.fpc s.slots.exs) (hmems : FetchedPast s.fpc s.slots.mems)
    (hdone : ∀ i, s.slots.wbs = some i → i.fault = none → s.fpc = s.pc) : s.PcTracks :=
  ⟨fun he => absurd he (Slots.ne_empty stage hstage h), hifs, hids, hexs, hmems, hdone⟩

/-! ### The stages with the pipeline off -/

/-- Writeback of the one instruction in flight leaves an empty machine and one program counter. -/
theorem wbStep_tracks {s : State} (hone : occupied s.slots ≤ 1) (h : s.PcTracks) : (wbStep s).PcTracks := by
  cases hw : s.slots.wbs with
  | none => rw [wbStep_empty hw]; exact h
  | some i =>
    have hclear : occupied (clearWb s).slots = 0 := by
      simp only [occupied, hw, slotCount, clearWb] at hone ⊢
      omega
    have hempty : occupied (writeback i s).slots = 0 := Nat.le_zero.1 ((writeback_flight i s).occupied.trans hclear.le)
    rw [wbStep_occupied hw]
    exact .of_empty (occupied_eq_zero.1 hempty) (writeback_onePc (h.completed i hw))

theorem MemMoved.tracks {s t : State} (h : MemMoved s t) (hs : s.PcTracks) : t.PcTracks := by
  cases h with
  | empty => exact hs
  | @serving u i j hm k ho =>
    obtain ⟨-, hifs, hids, hexs, hmems, hdone⟩ := hs
    rw [← k.frame.fpc, ← k.frame.slots] at *
    rw [← k.frame.pc] at hdone
    exact .of_occupied Slots.mems rfl rfl hifs hids hexs (hmems.moved hm ho.ipc) hdone
  | @faulted u i j hm k ho hf =>
    obtain ⟨-, hifs, hids, hexs, -, -⟩ := hs
    rw [← k.frame.fpc, ← k.frame.slots] at *
    exact .of_occupied Slots.wbs rfl rfl hifs hids hexs (.bubble _) (by rintro _ ⟨⟩ hn; simp [hn] at hf)
  | redirected =>
    exact .of_occupied Slots.wbs rfl rfl (.bubble _) (.bubble _) (.bubble _) (.bubble _) (fun _ _ _ => rfl)
  | @advanced u i j hm k ho =>
    obtain ⟨-, hifs, hids, hexs, hmems, -⟩ := hs
    rw [← k.frame.fpc, ← k.frame.slots] at *
    exact .of_occupied Slots.wbs rfl rfl hifs hids hexs (.bubble _) (fun _ _ _ => hmems.moved hm ho.ipc j rfl)

theorem exStep_tracks {s : State} (hs : s.PcTracks) : (exStep s).PcTracks := by
  obtain h | ⟨i, j, hi, -, ho, h⟩ := exStep_cases s
  · rw [h]; exact hs
  · rw [h]
    exact .of_occupied Slots.mems rfl rfl hs.ifs hs.ids (.bubble _) (hs.exs.moved hi ho.ipc) hs.completed

theorem DecodeMoved.tracks {s t : State} (h : DecodeMoved s t) (hs : s.PcTracks) : t.PcTracks := by
  cases h with
  | held => exact hs
  | passed hi he ho =>
    exact .of_occupied Slots.exs rfl rfl hs.ifs (.bubble _) (hs.ids.moved hi ho.ipc) hs.mems hs.completed
  | stalled hi d =>
    exact .of_occupied Slots.ids rfl rfl hs.ifs (hs.ids.moved hi rfl) hs.exs hs.mems hs.completed
  | issued hi he d hz =>
    exact .of_occupied Slots.exs rfl rfl hs.ifs (.bubble _) (hs.ids.moved hi rfl) hs.mems hs.completed

theorem FetchMoved.tracks {s t : State} (h : FetchMoved s t) (hs : s.PcTracks) : t.PcTracks := by
  cases h with
  | empty => exact hs
  | serving hi ho =>
    exact .of_occupied Slots.ifs rfl rfl (hs.ifs.moved hi ho.ipc) hs.ids hs.exs hs.mems hs.completed
  | left hi hd ho =>
    exact .of_occupied Slots.ids rfl rfl (.bubble _) (hs.ifs.moved hi ho.ipc) hs.exs hs.mems hs.completed

/-- A fetch from an idle machine is the one instruction in flight (rule R268). -/
theorem ifStep_tracks {idle0 : Bool} {s : State} (hoff : s.params.pipelineEnabled = false)
    (hidle : idle0 = true → occupied s.slots = 0) (hs : s.PcTracks) : (ifStep idle0 s).PcTracks := by
  obtain ⟨-, h⟩ | ⟨-, hor, u, j, hu, hipc, -, h⟩ := ifStep_moved idle0 s
  · exact h.tracks hs
  · have hempty : u.slots = {} := by
      rw [hu.frame.slots]
      exact occupied_eq_zero.1 (hidle (by simpa [hoff] using hor))
    have hslots : (State.holdFetch { u with fpc := nextAddress s.fpc } j).slots = { ifs := some j } := by
      rw [State.holdFetch, hempty]
    refine h.tracks ⟨?_, ?_, ?_, ?_, ?_, ?_⟩ <;> rw [hslots]
    · exact fun he => absurd he (Slots.ne_empty Slots.ifs rfl rfl)
    · exact .holds (by rw [hipc]; rfl)
    · exact .bubble _
    · exact .bubble _
    · exact .bubble _
    · rintro _ ⟨⟩

/-- With the pipeline off a tick keeps the fetch pointer where rule R23 has it. -/
theorem runningTick_tracks {s : State} (hoff : s.params.pipelineEnabled = false) (hone : occupied s.slots ≤ 1)
    (hs : s.PcTracks) : (runningTick s).PcTracks := by
  have hwb : (wbStep (s.addCycles 1)).PcTracks :=
    wbStep_tracks (s := s.addCycles 1) hone ⟨hs.empty, hs.ifs, hs.ids, hs.exs, hs.mems, hs.completed⟩
  have hle : occupied (wbStep (s.addCycles 1)).slots ≤ occupied s.slots := wbStep_occupied_le (s.addCycles 1)
  have hparams : (wbStep (s.addCycles 1)).params = s.params := (wbStep_keeps (s.addCycles 1)).params
  rw [runningTick_eq]
  split
  · exact hwb
  · generalize wbStep (s.addCycles 1) = u at *
    have hmem := memStep_moved u
    have hdecode := idStep_moved (exStep (memStep u))
    have hkept := (hmem.keeps.trans (exStep_keeps _)).trans hdecode.keeps
    have hle' := ((hdecode.occupied.trans (exStep_occupied _)).trans hmem.occupied).trans hle
    exact ifStep_tracks (by rw [hkept.params, hparams]; exact hoff)
      (fun hi => Nat.le_zero.1 (hle'.trans (idle_occupied hi).le)) (hdecode.tracks (exStep_tracks (hmem.tracks hwb)))

/-! ### The tick with the pipeline on -/

theorem FetchMoved.notEmpty {s t : State} (h : FetchMoved s t) (hs : s.slots.ifs ≠ none) : t.slots ≠ {} := by
  cases h with
  | empty h => exact absurd h hs
  | serving => exact Slots.ne_empty Slots.ifs rfl rfl
  | left => exact Slots.ne_empty Slots.ids rfl rfl

/-- With the pipeline on fetch is never idle (rule R258). -/
theorem ifStep_notEmpty {idle0 : Bool} {s : State} (hon : s.params.pipelineEnabled = true) :
    (ifStep idle0 s).slots ≠ {} := by
  obtain ⟨hi, h⟩ | ⟨-, -, u, j, -, -, -, h⟩ := ifStep_moved idle0 s
  · exact h.notEmpty fun hn => by simp [hi hn] at hon
  · exact h.notEmpty (by simp [State.holdFetch])

/-- A writeback that halts the machine leaves one program counter (rule R33). -/
theorem wbStep_halted_onePc {s : State} (hrun : s.halted = none) (h : (wbStep s).halted.isSome = true) :
    (wbStep s).fpc = (wbStep s).pc := by
  cases wbStep_flight s with
  | kept slots pending halted =>
    have hnone : (wbStep s).halted = none := halted.trans hrun
    simp [hnone] at h
  | entered slots pending halted onePc => exact onePc
  | halted slots pending halted onePc => exact onePc

/-- With the pipeline on only a halt empties the slots in a tick. -/
theorem runningTick_empty_on {s : State} (hon : s.params.pipelineEnabled = true) (hrun : s.halted = none)
    (h : (runningTick s).slots = {}) : (runningTick s).fpc = (runningTick s).pc := by
  have hparams : (wbStep (s.addCycles 1)).params = s.params := (wbStep_keeps (s.addCycles 1)).params
  rw [runningTick_eq] at h ⊢
  split at h
  · rename_i hhalt
    rw [if_pos hhalt]
    exact wbStep_halted_onePc (s := s.addCycles 1) hrun hhalt
  · refine absurd h (ifStep_notEmpty ?_)
    rw [(((memStep_moved _).keeps.trans (exStep_keeps _)).trans (idStep_moved _).keeps).params, hparams]
    exact hon

theorem runningTick_pcSound {s : State} (hrun : s.halted = none) (hr : s.reading = .cycle) (hp : s.PipelineSound)
    (hs : s.PcSound) : (runningTick s).PcSound := by
  have hk := runningTick_keeps s
  have hcycle : (runningTick s).reading ≠ .instruction := by rw [hk.reading, hr]; nofun
  cases hon : s.params.pipelineEnabled with
  | true =>
    have hnotOff : (runningTick s).params.pipelineEnabled ≠ false := by rw [hk.params, hon]; nofun
    exact ⟨runningTick_empty_on hon hrun, fun hoff => absurd hoff hnotOff, fun hoff => absurd hoff hnotOff,
      fun hseq => absurd hseq hcycle⟩
  | false =>
    obtain ⟨hempty, hifs, hids, hexs, hmems, hdone⟩ := runningTick_tracks hon (hp.oneAtATime hon) (hs.tracks hon)
    refine ⟨hempty, fun _ i hi => ?_, fun _ => hdone, fun hseq => absurd hseq hcycle⟩
    obtain hi | hi | hi | hi := hi
    · exact hifs i hi
    · exact hids i hi
    · exact hexs i hi
    · exact hmems i hi

/-- Settles O52: an instruction of the sequential reading ends with both counters at one address and an empty machine
stays empty; a tick keeps rule R23, with the pipeline off by way of the one instruction in flight. -/
theorem programCountersAgree : Obligations.ProgramCountersAgree := by
  constructor
  · intro s t hrun hr hstep
    obtain ⟨hh, -⟩ | ⟨-, -, d, hend⟩ | ⟨-, hc, -⟩ := step_cases hstep
    · simp [hrun] at hh
    · exact hend.onePc
    · rw [hr] at hc; cases hc
  · intro s t hp hs hstep
    obtain ⟨-, rfl⟩ | ⟨-, hr, d, hend⟩ | ⟨hrun, hr, rfl⟩ := step_cases hstep
    · exact hs
    · have hzero : occupied s.slots = 0 := occupied_eq_zero.2 (hs.sequential hr)
      exact .of_empty (occupied_eq_zero.1 (Nat.le_zero.1 (hend.flight.occupied.trans hzero.le))) hend.onePc
    · exact runningTick_pcSound hrun hr hp hs

end Sys2Proof.Machine
end

