-- ==== Sys2Proof/Proofs/HostOnly.lean ====
section
/-! SUPPORT. The statistics and the fault record are invisible to the machine: every operation takes states that are equal
up to them to states that are equal up to them, with equal values and latencies (rules R34, R36, R270). With it the
obligation `HostOnlyStateIsInvisible`. -/

namespace Sys2Proof.Machine

/-! ### States equal up to the host's fields -/

/-- Two states that differ at most in the statistics and the fault record. -/
def SameMachine (s t : State) : Prop := s.forgetHostOnly = t.forgetHostOnly

namespace SameMachine

variable {s t : State}

/-- A function that does not read the host's fields. -/
theorem eq {α : Type} (h : SameMachine s t) (f : State → α) (hf : ∀ s, f s.forgetHostOnly = f s) : f s = f t := by
  rw [← hf s, ← hf t, h]

theorem params (h : SameMachine s t) : s.params = t.params := h.eq State.params fun _ => rfl
theorem reading (h : SameMachine s t) : s.reading = t.reading := h.eq State.reading fun _ => rfl
theorem x (h : SameMachine s t) : s.x = t.x := h.eq State.x fun _ => rfl
theorem pc (h : SameMachine s t) : s.pc = t.pc := h.eq State.pc fun _ => rfl
theorem fpc (h : SameMachine s t) : s.fpc = t.fpc := h.eq State.fpc fun _ => rfl
theorem priv (h : SameMachine s t) : s.priv = t.priv := h.eq State.priv fun _ => rfl
theorem ptbr (h : SameMachine s t) : s.ptbr = t.ptbr := h.eq State.ptbr fun _ => rfl
theorem slots (h : SameMachine s t) : s.slots = t.slots := h.eq State.slots fun _ => rfl
theorem cache (h : SameMachine s t) : s.cache = t.cache := h.eq State.cache fun _ => rfl
theorem exitRequested (h : SameMachine s t) : s.exitRequested = t.exitRequested := h.eq State.exitRequested fun _ => rfl
theorem halted (h : SameMachine s t) : s.halted = t.halted := h.eq State.halted fun _ => rfl
theorem cycles (h : SameMachine s t) : s.cycles = t.cycles := h.eq State.cycles fun _ => rfl

theorem reg (h : SameMachine s t) (r : Reg) : s.reg r = t.reg r := by
  unfold State.reg
  rw [h.x]

/-- An update that reads the host's fields for nothing but themselves. -/
theorem map (h : SameMachine s t) (f : State → State)
    (hf : ∀ s, (f s.forgetHostOnly).forgetHostOnly = (f s).forgetHostOnly) : SameMachine (f s) (f t) :=
  h.eq (fun s => (f s).forgetHostOnly) hf

/-! The updates that the stages share. -/

theorem addCycles (h : SameMachine s t) (n : Nat) : SameMachine (s.addCycles n) (t.addCycles n) :=
  h.map (State.addCycles · n) fun _ => rfl

theorem serveMemory (h : SameMachine s t) (lat : Nat) : SameMachine (s.serveMemory lat) (t.serveMemory lat) :=
  h.map (State.serveMemory · lat) fun _ => rfl

theorem reachMemory (h : SameMachine s t) : SameMachine s.reachMemory t.reachMemory :=
  h.map State.reachMemory fun _ => rfl

theorem passStages (h : SameMachine s t) : SameMachine s.passStages t.passStages := h.map State.passStages fun _ => rfl

theorem setReg (h : SameMachine s t) (r : Reg) (v : Word) : SameMachine (s.setReg r v) (t.setReg r v) :=
  h.map (State.setReg · r v) fun _ => rfl

theorem setPriv (h : SameMachine s t) (p : Privilege) : SameMachine { s with priv := p } { t with priv := p } :=
  h.map (fun s => { s with priv := p }) fun _ => rfl

theorem setFpc (h : SameMachine s t) (a : Word) : SameMachine { s with fpc := a } { t with fpc := a } :=
  h.map (fun s => { s with fpc := a }) fun _ => rfl

theorem retireTo (h : SameMachine s t) (next : Word) : SameMachine (s.retireTo next) (t.retireTo next) :=
  h.map (State.retireTo · next) fun _ => rfl

theorem halt (h : SameMachine s t) (cause : HaltCause) : SameMachine (s.halt cause) (t.halt cause) :=
  h.map (State.halt · cause) fun _ => rfl

theorem countFetchCycles (h : SameMachine s t) (n : Nat) : SameMachine (s.countFetchCycles n) (t.countFetchCycles n) :=
  h.map (State.countFetchCycles · n) fun _ => rfl

theorem countMemCycles (h : SameMachine s t) (n : Nat) : SameMachine (s.countMemCycles n) (t.countMemCycles n) :=
  h.map (State.countMemCycles · n) fun _ => rfl

theorem holdFetch (h : SameMachine s t) (j : InFlight) : SameMachine (s.holdFetch j) (t.holdFetch j) :=
  h.map (State.holdFetch · j) fun _ => rfl

theorem holdMemory (h : SameMachine s t) (j : InFlight) : SameMachine (s.holdMemory j) (t.holdMemory j) :=
  h.map (State.holdMemory · j) fun _ => rfl

theorem leaveMemory (h : SameMachine s t) (j : InFlight) : SameMachine (s.leaveMemory j) (t.leaveMemory j) :=
  h.map (State.leaveMemory · j) fun _ => rfl

theorem redirect (h : SameMachine s t) (a : Word) : SameMachine (redirect a s) (redirect a t) :=
  h.map (Machine.redirect a) fun _ => rfl

end SameMachine

/-- Two transactions with one value and one latency that leave the same machine. -/
structure SameTimed {α : Type} (r q : Timed α) : Prop where
  val : r.val = q.val
  lat : r.lat = q.lat
  st : SameMachine r.st q.st

section
variable {s t : State} (h : SameMachine s t)
include h

/-! ### Physical accesses -/

theorem devRead_same (pa : Word) (n : Width) :
    (devRead pa n s).1 = (devRead pa n t).1 ∧ SameMachine (devRead pa n s).2 (devRead pa n t).2 := by
  have key (s : State) : (devRead pa n s.forgetHostOnly).1 = (devRead pa n s).1 ∧
      (devRead pa n s.forgetHostOnly).2.forgetHostOnly = (devRead pa n s).2.forgetHostOnly := by
    have hm : s.forgetHostOnly.mmioPending = s.mmioPending := rfl
    unfold devRead
    rw [hm]
    split
    · split <;> exact ⟨rfl, rfl⟩
    · exact ⟨rfl, rfl⟩
  exact ⟨h.eq (fun s => (devRead pa n s).1) fun s => (key s).1,
    h.map (fun s => (devRead pa n s).2) fun s => (key s).2⟩

theorem countRead_same (kind : AccessKind) (hit : Bool) : SameMachine (countRead kind hit s) (countRead kind hit t) := by
  cases kind with
  | load => exact h.map _ fun _ => rfl
  | store | fetch | walk | vector => exact h

theorem cacheRead_same (kind : AccessKind) (pa : Word) (n : Width) :
    SameTimed (cacheRead kind pa n s) (cacheRead kind pa n t) := by
  have hfill : SameMachine (s.fillBlock pa) (t.fillBlock pa) := h.map (State.fillBlock · pa) fun _ => rfl
  unfold cacheRead
  dsimp only
  rw [h.cache]
  split
  · exact ⟨rfl, rfl, countRead_same (h.map (State.touchWay · (cacheIndex pa) _) fun _ => rfl) kind true⟩
  · exact ⟨by rw [hfill.cache], h.eq (State.missLatency · (cacheIndex pa)) fun _ => rfl, countRead_same hfill kind false⟩

theorem physRead_same (kind : AccessKind) (pa : Word) (n : Width) :
    SameTimed (physRead kind pa n s) (physRead kind pa n t) := by
  have hb : bypassesCache s pa = bypassesCache t pa := h.eq (bypassesCache · pa) fun _ => rfl
  obtain ⟨hval, hst⟩ := devRead_same h pa n
  unfold physRead
  rw [hb]
  split
  · exact ⟨hval, rfl, hst⟩
  · exact cacheRead_same h kind pa n

theorem cacheWrite_same (pa : Word) (n : Width) (v : Word) : SameTimed (cacheWrite pa n v s) (cacheWrite pa n v t) := by
  unfold cacheWrite
  rw [h.cache]
  split
  · exact ⟨rfl, rfl, h.map (fun s => countWrite true (s.updateWay _ pa n v)) fun _ => rfl⟩
  · exact ⟨rfl, rfl, h.map (fun s => countWrite false (devWrite pa n v s)) fun _ => rfl⟩

theorem physWrite_same (pa : Word) (n : Width) (v : Word) : SameTimed (physWrite pa n v s) (physWrite pa n v t) := by
  have hb : bypassesCache s pa = bypassesCache t pa := h.eq (bypassesCache · pa) fun _ => rfl
  unfold physWrite
  rw [hb]
  split
  · exact ⟨rfl, rfl, h.map (devWrite pa n v) fun _ => rfl⟩
  · exact cacheWrite_same h pa n v

/-! ### Virtual accesses -/

theorem translate_same (acc : Access) (va : Word) : SameTimed (translate acc va s) (translate acc va t) := by
  have hd : SameTimed (readDirectory va s) (readDirectory va t) := by
    unfold readDirectory
    rw [h.ptbr]
    exact physRead_same h _ _ _
  have ht (pde : Word) : SameTimed (readTable pde va (readDirectory va s).st) (readTable pde va (readDirectory va t).st) :=
    physRead_same hd.st _ _ _
  unfold translate
  dsimp only
  rw [h.ptbr, hd.val, h.priv]
  split
  · exact ⟨rfl, rfl, h⟩
  · split
    · exact ⟨rfl, hd.lat, hd.st⟩
    · have htable := ht (readDirectory va t).val
      exact ⟨by rw [htable.val], by rw [hd.lat, htable.lat], htable.st⟩

theorem translateAligned_same (acc : Access) (va : Word) (n : Width) :
    SameTimed (translateAligned acc va n s) (translateAligned acc va n t) := by
  obtain ⟨hval, hlat, hst⟩ := translate_same h acc va
  unfold translateAligned
  dsimp only
  rw [hval]
  split
  · exact ⟨rfl, hlat, hst⟩
  · split <;> exact ⟨rfl, hlat, hst⟩

theorem virtualRead_same (acc : Access) (kind : AccessKind) (va : Word) (n : Width) :
    SameTimed (virtualRead acc kind va n s) (virtualRead acc kind va n t) := by
  obtain ⟨hval, hlat, hst⟩ := translateAligned_same h acc va n
  unfold virtualRead
  dsimp only
  rw [hval]
  split
  · exact ⟨rfl, by rw [hlat], hst⟩
  · rename_i pa _
    have hr := physRead_same hst kind pa n
    exact ⟨by rw [hr.val], by rw [hlat, hr.lat], hr.st⟩

theorem memWrite_same (va : Word) (n : Width) (v : Word) : SameTimed (memWrite va n v s) (memWrite va n v t) := by
  obtain ⟨hval, hlat, hst⟩ := translateAligned_same h .store va n
  unfold memWrite
  dsimp only
  rw [hval]
  split
  · exact ⟨rfl, by rw [hlat], hst⟩
  · rename_i pa _
    have hw := physWrite_same hst pa n v
    exact ⟨rfl, by rw [hlat, hw.lat], hw.st⟩

/-! ### The frame -/

theorem translateFrame_same (acc : Access) (sp : Word) :
    SameTimed (translateFrame acc sp s) (translateFrame acc sp t) := by
  obtain ⟨hval0, hlat0, hst0⟩ := translate_same h acc sp
  obtain ⟨hval1, hlat1, hst1⟩ := translate_same hst0 acc (framePcAddress sp)
  unfold translateFrame
  dsimp only
  rw [hval0, hval1, hlat0, hlat1]
  split
  · exact ⟨rfl, rfl, hst0⟩
  · split
    · exact ⟨rfl, rfl, hst1⟩
    · split <;> exact ⟨rfl, rfl, hst1⟩

theorem writeFrame_same (pa0 pa1 flags savedPc : Word) :
    SameTimed (writeFrame pa0 pa1 flags savedPc s) (writeFrame pa0 pa1 flags savedPc t) := by
  have h0 := physWrite_same h pa0 .word flags
  have h1 := physWrite_same h0.st pa1 .word savedPc
  exact ⟨rfl, congrArg₂ (· + ·) h0.lat h1.lat, h1.st⟩

theorem pushFrame_same (sp savedPc : Word) : SameTimed (pushFrame sp savedPc s) (pushFrame sp savedPc t) := by
  obtain ⟨hval, hlat, hst⟩ := translateFrame_same h .store sp
  unfold pushFrame
  dsimp only
  rw [hval, hlat, h.priv]
  split
  · exact ⟨rfl, rfl, hst⟩
  · rename_i pa0 pa1 _
    have hw := writeFrame_same hst pa0 pa1 (flagsWord t.priv) savedPc
    exact ⟨rfl, by rw [hw.lat], hw.st⟩

theorem popFrame_same (sp : Word) : SameTimed (popFrame sp s) (popFrame sp t) := by
  obtain ⟨hval, hlat, hst⟩ := translateFrame_same h .load sp
  unfold popFrame
  dsimp only
  rw [hval, hlat]
  split
  · exact ⟨rfl, rfl, hst⟩
  · rename_i pa0 pa1 _
    have h0 := physRead_same hst .load pa0 .word
    have h1 := physRead_same h0.st .load pa1 .word
    exact ⟨by rw [h0.val, h1.val], by rw [h0.lat, h1.lat], h1.st⟩

/-! ### Traps -/

theorem trapEntry_same (n : Nat) (savedPc : Word) : SameMachine (trapEntry n savedPc s) (trapEntry n savedPc t) := by
  have hv := physRead_same (h.map State.squashBehindWb fun _ => rfl) .vector (vectorAddress n) .word
  have h0 := translate_same hv.st .store (pushedSp (t.reg spReg))
  have h1 := translate_same h0.st .store (framePcAddress (pushedSp (t.reg spReg)))
  have hfail (kind : FaultKind) (lat : Nat) := (h1.st.addCycles lat).halt (.doubleFault n kind)
  unfold trapEntry
  dsimp only
  rw [hv.val, hv.lat, h.reg, h0.val, h0.lat, h1.val, h1.lat, h.priv]
  split
  · exact (hv.st.addCycles _).halt _
  · split
    · exact hfail _ _
    · exact hfail _ _
    · rename_i pa0 pa1 _ _
      split
      · have hw := writeFrame_same h1.st pa0 pa1 (flagsWord t.priv) savedPc
        rw [hw.lat]
        exact (hw.st.map (enterHandler (physRead .vector (vectorAddress n) .word t.squashBehindWb).val
          (pushedSp (t.reg spReg))) fun _ => rfl).addCycles _
      · exact hfail _ _

theorem takeFault_same (kind : FaultKind) (ipc info : Word) :
    SameMachine (takeFault kind ipc info s) (takeFault kind ipc info t) := by
  have hrecord : SameMachine { s with faultInfo := some ⟨kind, ipc, info⟩ } { t with faultInfo := some ⟨kind, ipc, info⟩ } :=
    h
  have hpolicy : (policyGoverns kind && decide (s.params.faultPolicy = .halt)) =
      (policyGoverns kind && decide (t.params.faultPolicy = .halt)) := by rw [h.params]
  unfold takeFault
  dsimp only
  rw [hpolicy]
  split
  · exact hrecord.halt _
  · exact trapEntry_same hrecord _ _

/-! ### The sequential reading -/

/-- Two outcomes that are next states of one machine. -/
def SameNext (o p : StepOutcome) : Prop := ∃ u v, o = .next u ∧ p = .next v ∧ SameMachine u v

theorem SameMachine.next : SameNext (.next s) (.next t) := ⟨s, t, rfl, rfl, h⟩

theorem writeResult_same (rd : Reg) {v v' : Word} (hv : v = v') : SameNext (writeResult rd v s) (writeResult rd v' t) := by
  unfold writeResult
  rw [hv, h.pc]
  exact ((h.passStages.setReg rd v').retireTo (nextAddress t.pc)).next

theorem transferTo_same {a a' : Word} (ha : a = a') : SameNext (transferTo a s) (transferTo a' t) := by
  rw [ha]
  exact (h.passStages.retireTo a').next

theorem branchIf_same {b b' : Bool} (hb : b = b') (imm : Int) : SameNext (branchIf b imm s) (branchIf b' imm t) :=
  transferTo_same h (by rw [hb, h.pc])

theorem faultWithoutAccess_same (kind : FaultKind) (info : Word) :
    SameMachine (faultWithoutAccess kind info s) (faultWithoutAccess kind info t) := by
  unfold faultWithoutAccess
  rw [h.pc]
  exact takeFault_same h.passStages _ _ _

/-- The fault of an access is taken with its ticks counted. -/
theorem accessFault_same (kind : FaultKind) (ipc info : Word) (lat : Nat) :
    SameNext (.next (takeFault kind ipc info (s.serveMemory lat))) (.next (takeFault kind ipc info (t.serveMemory lat))) :=
  (takeFault_same (h.serveMemory lat) kind ipc info).next

theorem loadTo_same (n : Width) (rd : Reg) {ea ea' : Word} (hea : ea = ea') :
    SameNext (loadTo n rd ea s) (loadTo n rd ea' t) := by
  subst hea
  have hr : SameTimed (memRead ea n s.reachMemory) (memRead ea n t.reachMemory) :=
    virtualRead_same h.reachMemory _ _ _ _
  unfold loadTo
  dsimp only
  rw [hr.val, hr.lat, h.pc]
  split
  · exact (((hr.st.serveMemory _).setReg rd _).retireTo _).next
  · exact accessFault_same hr.st _ _ _ _

theorem retireStore_same {u v : State} (hu : SameMachine u v) (next : Word) :
    SameMachine (retireStore s u next) (retireStore t v next) := by
  have hretired := hu.retireTo next
  unfold retireStore
  rw [h.exitRequested, hu.exitRequested]
  split
  · exact hretired.halt _
  · exact hretired

theorem storeFrom_same (n : Width) {v v' ea ea' : Word} (hv : v = v') (hea : ea = ea') :
    SameNext (storeFrom n v ea s) (storeFrom n v' ea' t) := by
  subst hv hea
  have hw := memWrite_same h.reachMemory ea n v
  unfold storeFrom
  dsimp only
  rw [hw.val, hw.lat, h.pc]
  split
  · exact (retireStore_same h (hw.st.serveMemory _) _).next
  · exact accessFault_same hw.st _ _ _ _

theorem execDiv_same (rd ra rb : Reg) : SameNext (execDiv rd ra rb s) (execDiv rd ra rb t) := by
  unfold execDiv
  rw [h.reg ra, h.reg rb]
  split
  · exact writeResult_same h rd rfl
  · exact (faultWithoutAccess_same h _ _).next

theorem execCall_same (offset : Int) : SameNext (execCall offset s) (execCall offset t) := by
  have hr := pushFrame_same h.reachMemory (pushedSp (t.reg spReg)) (nextAddress t.pc)
  unfold execCall
  dsimp only
  rw [h.reg, h.pc, hr.val, hr.lat]
  split
  · exact (((hr.st.serveMemory _).setReg spReg _).retireTo _).next
  · exact accessFault_same hr.st _ _ _ _

theorem execRet_same : SameNext (execRet s) (execRet t) := by
  have hr := popFrame_same h.reachMemory (t.reg spReg)
  unfold execRet
  dsimp only
  rw [h.reg, h.pc, hr.val, hr.lat]
  split
  · rename_i flags target _
    exact ((((hr.st.serveMemory _).setPriv (privilegeOfFlags flags)).setReg spReg _).retireTo target).next
  · exact accessFault_same hr.st _ _ _ _

theorem execInt0_same : SameNext (execInt0 s) (execInt0 t) := by
  unfold execInt0
  rw [h.pc]
  exact (trapEntry_same (h.passStages.retireTo _) _ _).next

theorem exec_same (d : Instr) : SameNext (exec d s) (exec d t) := by
  cases d with
  | add rd ra rb | sub rd ra rb | xor rd ra rb | or rd ra rb | and rd ra rb | shr rd ra rb | shl rd ra rb | mul rd ra rb =>
    exact writeResult_same h rd (congrArg₂ _ (h.reg ra) (h.reg rb))
  | addi rd ra imm | subi rd ra imm | xori rd ra imm | ori rd ra imm | andi rd ra imm =>
    exact writeResult_same h rd (congrArg₂ _ (h.reg ra) rfl)
  | lui rd imm => exact writeResult_same h rd rfl
  | div rd ra rb => exact execDiv_same h rd ra rb
  | ldb rd ra imm | ldh rd ra imm | ld rd ra imm => exact loadTo_same h _ rd (congrArg₂ _ (h.reg ra) rfl)
  | stb rv ra imm | sth rv ra imm | st rv ra imm =>
    exact storeFrom_same h _ (h.reg rv) (congrArg₂ _ (h.reg ra) rfl)
  | bne rc ra imm | beq rc ra imm | blt rc ra imm | bgt rc ra imm =>
    exact branchIf_same h (congrArg₂ _ (h.reg rc) (h.reg ra)) imm
  | jmpr offset => exact transferTo_same h (congrArg₂ _ h.pc rfl)
  | nop => exact transferTo_same h (congrArg _ h.pc)
  | call offset => exact execCall_same h offset
  | ret => exact execRet_same h
  | int0 => exact execInt0_same h

theorem fetchInstruction_same : SameTimed (fetchInstruction s) (fetchInstruction t) := by
  have hr : SameTimed (fetch t.pc (s.addCycles 1)) (fetch t.pc (t.addCycles 1)) :=
    virtualRead_same (h.addCycles 1) _ _ _ _
  unfold fetchInstruction
  dsimp only
  rw [h.pc, hr.lat]
  exact ⟨hr.val, rfl, ((hr.st.countFetchCycles _).addCycles _).setFpc _⟩

theorem instructionStep_same : SameNext (instructionStep s) (instructionStep t) := by
  have hr := fetchInstruction_same h
  unfold instructionStep
  dsimp only
  rw [hr.val]
  split
  · unfold runWord
    split
    · exact exec_same hr.st _
    · exact (faultWithoutAccess_same hr.st _ _).next
  · exact (faultWithoutAccess_same hr.st _ _).next

/-! ### The stages of a tick -/

theorem commitResult_same (i : InFlight) : SameMachine (commitResult i s) (commitResult i t) := by
  unfold commitResult
  split
  · exact h.setReg _ _
  · exact h

theorem wbStep_same : SameMachine (wbStep s) (wbStep t) := by
  have hclear : SameMachine (clearWb s) (clearWb t) := h.map clearWb fun _ => rfl
  unfold wbStep
  rw [h.slots]
  split
  · exact h
  · rename_i i _
    have hcommit := (commitResult_same hclear i).map State.countRetired fun _ => rfl
    unfold writeback
    split
    · exact takeFault_same hclear _ _ _
    · dsimp only
      split
      · exact hcommit.halt _
      · split
        · exact trapEntry_same hcommit _ _
        · exact hcommit

theorem memAction_same (i : InFlight) : SameTimed (memAction i s) (memAction i t) := by
  unfold memAction
  cases recordForm i with
  | noAction => exact ⟨rfl, rfl, h⟩
  | load n =>
    obtain ⟨hval, hlat, hst⟩ := virtualRead_same h .load .load i.ea n
    simp only [memRead, hval]
    split <;> exact ⟨rfl, hlat, hst⟩
  | store n =>
    obtain ⟨hval, hlat, hst⟩ := memWrite_same h i.ea n i.c
    simp only [hval, h.exitRequested, hst.exitRequested]
    split <;> exact ⟨rfl, hlat, hst⟩
  | push =>
    obtain ⟨hval, hlat, hst⟩ := pushFrame_same h i.result (nextAddress i.ipc)
    simp only [hval]
    split <;> exact ⟨rfl, hlat, hst⟩
  | pop =>
    obtain ⟨hval, hlat, hst⟩ := popFrame_same h i.sp
    simp only [hval]
    split <;> exact ⟨rfl, hlat, hst⟩

theorem memIssue_same (i : InFlight) :
    (memIssue i s).1 = (memIssue i t).1 ∧ SameMachine (memIssue i s).2 (memIssue i t).2 := by
  obtain ⟨hval, hlat, hst⟩ := memAction_same h i
  unfold memIssue
  dsimp only
  rw [hval, hlat]
  split
  · exact ⟨rfl, h⟩
  · exact ⟨rfl, hst.countMemCycles _⟩

/-- The record and the state after the accesses of a memory tick. -/
theorem memTick_same (i : InFlight) :
    (if i.issued then (i, s) else memIssue i s).1 = (if i.issued then (i, t) else memIssue i t).1 ∧
      SameMachine (if i.issued then (i, s) else memIssue i s).2 (if i.issued then (i, t) else memIssue i t).2 := by
  split
  · exact ⟨rfl, h⟩
  · exact memIssue_same h i

theorem memComplete_same (i : InFlight) : SameMachine (memComplete i s) (memComplete i t) := by
  unfold memComplete
  rw [h.priv]
  split
  · exact h
  · dsimp only
    split
    · exact (h.setPriv _).redirect _
    · exact h.map (fun s => { s with priv := i.newpriv.getD t.priv, pc := nextAddress i.ipc }) fun _ => rfl

theorem memStep_same : SameMachine (memStep s) (memStep t) := by
  unfold memStep
  rw [h.slots]
  split
  · exact h
  · rename_i i _
    have hst := memTick_same h i
    dsimp only
    generalize (if i.issued then (i, s) else memIssue i s) = r at *
    generalize (if i.issued then (i, t) else memIssue i t) = q at *
    obtain ⟨j, u⟩ := r
    obtain ⟨k, v⟩ := q
    obtain ⟨rfl, hst⟩ : j = k ∧ SameMachine u v := hst
    split
    · exact (memComplete_same hst _).leaveMemory _
    · exact hst.holdMemory _

theorem exStep_same : SameMachine (exStep s) (exStep t) := by
  refine h.map exStep fun s => ?_
  have hs : s.forgetHostOnly.slots = s.slots := rfl
  unfold exStep
  rw [hs]
  split <;> rfl

theorem decodeStage_same (i : InFlight) : SameMachine (decodeStage i s) (decodeStage i t) := by
  refine h.map (decodeStage i) fun s => ?_
  have hp : s.forgetHostOnly.params = s.params := rfl
  have hz (d : Instr) : hazard d s.forgetHostOnly = hazard d s := rfl
  unfold decodeStage
  split
  · rfl
  · split
    · rfl
    · rw [hp, hz]
      split <;> rfl

theorem idStep_same : SameMachine (idStep s) (idStep t) := by
  unfold idStep
  rw [h.slots]
  split
  · exact decodeStage_same h _
  · exact h

theorem issueFetch_same : SameMachine (issueFetch s) (issueFetch t) := by
  have hr : SameTimed (fetch t.fpc s) (fetch t.fpc t) := virtualRead_same h _ _ _ _
  rw [issueFetch_eq, issueFetch_eq, h.fpc, h.cycles, hr.val, hr.lat]
  exact ((hr.st.countFetchCycles _).setFpc _).holdFetch _

theorem advanceFetch_same : SameMachine (advanceFetch s) (advanceFetch t) := by
  refine h.map advanceFetch fun s => ?_
  have hs : s.forgetHostOnly.slots = s.slots := rfl
  unfold advanceFetch
  rw [hs]
  split
  · rfl
  · dsimp only
    split <;> rfl

theorem ifStep_same (idle0 : Bool) : SameMachine (ifStep idle0 s) (ifStep idle0 t) := by
  unfold ifStep
  rw [h.slots, h.params]
  split
  · exact advanceFetch_same (issueFetch_same h)
  · exact advanceFetch_same h

theorem runningTick_same : SameMachine (runningTick s) (runningTick t) := by
  have hwb := wbStep_same (h.addCycles 1)
  have hidle : s.idle = t.idle := h.eq State.idle fun _ => rfl
  rw [runningTick_eq, runningTick_eq, hwb.halted, hidle]
  split
  · exact hwb
  · exact ifStep_same (idStep_same (exStep_same (memStep_same hwb))) _

/-- A step of either reading does not see the host's fields. -/
theorem step_same : SameNext (step s) (step t) := by
  unfold step tick
  rw [h.halted, h.reading]
  split
  · exact h.next
  · split
    · exact instructionStep_same h
    · exact (runningTick_same h).next

end

/-- Settles O54: the state with other statistics and another fault record is the same machine, and steps to the same. -/
theorem hostOnlyStateIsInvisible : Obligations.HostOnlyStateIsInvisible := by
  intro s t stats faultInfo hstep
  have h : SameMachine s { s with stats := stats, faultInfo := faultInfo } := rfl
  obtain ⟨u, t', hu, ht', hsame⟩ := step_same h
  cases hstep.symm.trans hu
  exact ⟨t', ht', hsame.symm⟩

end Sys2Proof.Machine
end

