-- ==== Sys2Proof/Proofs/PhysicalAccess.lean ====
section
/-! SUPPORT. The two ways of a physical access, said exactly: past the cache to the devices, and the cached write (rules R66
to R71, R75, R83, R107, R111). -/

namespace Sys2Proof.Machine

/-! ### Past the cache (rules R69 to R71) -/

theorem aligned_iff (pa : Word) (n : Width) : aligned pa n = true ↔ pa.toNat % widthBytes n = 0 := by
  simp [aligned]

theorem bypassesCache_iff (s : State) (pa : Word) :
    bypassesCache s pa = true ↔ s.params.cacheEnabled = false ∨ (0x1000 ≤ pa.toNat ∧ pa.toNat < 0x3000) := by
  simp [bypassesCache, uncacheable_iff]

theorem physRead_bypass {s : State} {pa : Word} (kind : AccessKind) (n : Width) (h : bypassesCache s pa = true) :
    physRead kind pa n s = ⟨(devRead pa n s).1, latMiss, (devRead pa n s).2⟩ := by
  unfold physRead
  exact if_pos h

theorem physWrite_bypass {s : State} {pa : Word} (n : Width) (v : Word) (h : bypassesCache s pa = true) :
    physWrite pa n v s = ⟨(), latMiss, devWrite pa n v s⟩ := by
  unfold physWrite
  exact if_pos h

/-- A read past the cache, where no command is pending, is a read of memory without a side effect (rules R66, R68). -/
theorem physRead_bypass_plain {s : State} {pa : Word} (kind : AccessKind) (n : Width) (h : bypassesCache s pa = true)
    (hp : isCtrl pa = false ∨ s.mmioPending = none) :
    physRead kind pa n s = ⟨s.mem.readValue pa n, latMiss, s⟩ := by
  rw [physRead_bypass kind n h, devRead_plain n hp]

theorem isCtrl_eq_false_iff (pa : Word) : isCtrl pa = false ↔ pa.toNat ≠ 0x2000 := by
  have hne : pa.toNat = 0x2000 ↔ pa = ctrlBase := ⟨fun h => BitVec.eq_of_toNat_eq h, fun h => h ▸ rfl⟩
  simp [isCtrl, hne]

theorem inVga_iff (pa : Word) : inVga pa = true ↔ 0x1000 ≤ pa.toNat ∧ pa.toNat < 0x2000 := by
  simp [inVga, vgaBase, ctrlBase, BitVec.le_def, BitVec.lt_def]

/-- Settles O31: such an access goes to the devices, which know no cache and no counter. -/
theorem bypassIsFlat : Obligations.BypassIsFlat := by
  intro s pa v n kind h
  have hb := (bypassesCache_iff s pa).2 h
  obtain ⟨-, hcache, hmem, hstats⟩ := devRead_frame pa n s
  rw [physRead_bypass kind n hb, physWrite_bypass n v hb]
  exact ⟨rfl, hcache, hstats, hmem, rfl, rfl, rfl, rfl⟩

/-- Settles O29: the buffer lies past the cache and apart from the control register, so that a store there is the device
write with its event, and a load a read of memory. -/
theorem vgaBufferStoresAreEvents : Obligations.VgaBufferStoresAreEvents := by
  intro s pa v n kind hs hlo hhi hal
  have ha := (aligned_iff pa n).2 hal
  have hb : bypassesCache s pa = true := (bypassesCache_iff s pa).2 (.inr ⟨hlo, by omega⟩)
  have hvga : inVga pa = true := (inVga_iff pa).2 ⟨hlo, hhi⟩
  have hctrl : isCtrl pa = false := (isCtrl_eq_false_iff pa).2 (by omega)
  rw [physWrite_bypass n v hb, physRead_bypass_plain kind n hb (.inl hctrl)]
  refine ⟨?_, fun k hk => ?_, ?_, rfl⟩
  · simp [devWrite, hvga]
  · rw [← aligned_add_toNat ha hk]
    exact Memory.writeValue_read hs.memoryWf pa v hk
  · change littleEndian n (fun k => s.mem.read (pa + BitVec.ofNat 32 k).toNat) = _
    exact littleEndian_congr fun k hk => by rw [aligned_add_toNat ha hk]

/-! ### The control register (rules R68, R83) -/

/-- A read of the control register goes to the device, whatever the configuration (rule R69). -/
theorem physRead_ctrl (kind : AccessKind) (n : Width) (s : State) :
    physRead kind ctrlBase n s = ⟨(devRead ctrlBase n s).1, latMiss, (devRead ctrlBase n s).2⟩ :=
  physRead_bypass kind n ((bypassesCache_iff s ctrlBase).2 (.inr (by decide)))

/-- Where the model knows the cycle count, the timestamp is its low half (rule R68). -/
theorem State.timestamp_exact {s : State} (h : s.reading = .cycle ∨ s.params.pipelineEnabled = false) :
    s.timestamp = s.cycles.setWidth 32 := by
  unfold State.timestamp
  split
  · rename_i hr hp
    rw [hr, hp] at h
    simp at h
  · rfl

/-- The default stream is the linear congruential generator of rule R83. -/
theorem prngNext_lcg (p : Word) : prngNext .lcg p = BitVec.ofNat 32 ((1664525 * p.toNat + 1013904223) % 2 ^ 32) := by
  have hmod : ∀ k, BitVec.ofNat 32 (k % 2 ^ 32) = BitVec.ofNat 32 k := fun k =>
    BitVec.eq_of_toNat_eq (by rw [BitVec.toNat_ofNat, BitVec.toNat_ofNat, Nat.mod_mod])
  rw [hmod, BitVec.ofNat_add, BitVec.ofNat_mul, BitVec.ofNat_toNat, BitVec.setWidth_eq]
  rfl

/-- Settles O30: the device read, one pending command after the other, and a plain read elsewhere. -/
theorem controlRegisterReads : Obligations.ControlRegisterReads := by
  have hctrl : isCtrl ctrlBase = true := by decide
  refine ⟨fun s n kind hp hknown => ?_, fun s n kind hp => ?_, fun s pa n kind hlo hhi hplain => ?_, prngNext_lcg⟩
  · change (physRead kind ctrlBase n s).val = _ ∧ (physRead kind ctrlBase n s).st = _
    rw [physRead_ctrl, ← State.timestamp_exact hknown]
    simp [devRead, hctrl, hp]
  · change (physRead kind ctrlBase n s).val = _ ∧ (physRead kind ctrlBase n s).st = _
    rw [physRead_ctrl]
    simp [devRead, hctrl, hp]
  · have hb : bypassesCache s pa = true := (bypassesCache_iff s pa).2 (.inr ⟨by omega, hhi⟩)
    have hnone : isCtrl pa = false ∨ s.mmioPending = none := hplain.imp_left beq_false_of_ne
    rw [physRead_bypass_plain kind n hb hnone]
    exact ⟨rfl, rfl⟩

/-! ### The cached write (rule R107) -/

theorem cacheWrite_hit {s : State} {pa : Word} {w : Fin 4} (n : Width) (v : Word)
    (h : (s.cache.setAt (cacheIndex pa)).hit (cacheTag pa) = some w) :
    cacheWrite pa n v s = ⟨(), latHit, countWrite true (s.updateWay w pa n v)⟩ := by
  unfold cacheWrite
  rw [h]

theorem cacheWrite_miss {s : State} {pa : Word} (n : Width) (v : Word)
    (h : (s.cache.setAt (cacheIndex pa)).hit (cacheTag pa) = none) :
    cacheWrite pa n v s = ⟨(), latMiss, countWrite false (devWrite pa n v s)⟩ := by
  unfold cacheWrite
  rw [h]

/-- The ages after a write hit are those of Touch (rules R104, R107). -/
theorem State.updateWay_age (s : State) (w : Fin 4) (pa : Word) (n : Width) (v : Word) (u : Fin 4) :
    (((s.updateWay w pa n v).cache.setAt (cacheIndex pa)).way u).age =
      (((s.cache.setAt (cacheIndex pa)).touch w).way u).age := by
  have hage : ∀ x, (((s.cache.setAt (cacheIndex pa)).setWay w
      (((s.cache.setAt (cacheIndex pa)).way w).update pa n v)).way x).age = ((s.cache.setAt (cacheIndex pa)).way x).age := by
    intro x
    rw [CacheSet.way_setWay]
    split
    · rename_i h; subst h; rfl
    · rfl
  simp only [State.updateWay, State.putSet_cache, Cache.setAt_putSet_self, CacheSet.touch_age, hage]

/-- A write hit touches the other ways of its set and changes nothing else of them (rules R104, R107). -/
theorem State.updateWay_others (s : State) (w : Fin 4) (pa : Word) (n : Width) (v : Word) :
    OtherWaysTouched (s.cache.setAt (cacheIndex pa)) ((s.updateWay w pa n v).cache.setAt (cacheIndex pa)) w where
  contents u hu := by
    obtain ⟨htag, hvalid, hdirty, hdata⟩ := State.updateWay_way s w pa n v (cacheIndex pa) u
    rw [if_neg fun h => hu h.2] at hdirty hdata
    exact ⟨htag, hvalid, hdirty, hdata⟩
  ages u hu := by rw [State.updateWay_age, CacheSet.touch_age, if_neg hu]

/-- A block's byte at the offset of an access's byte is that byte of the value (rule R107). -/
theorem Block.setBytes_covered (d : Block) (pa v : Word) {k m : Nat} (hk : k < m) (hm : m ≤ 64) :
    (d.setBytes pa v m).byte (blockOffset (pa + BitVec.ofNat 32 k)) = byteOf v k := by
  have hoff : (blockOffset (pa + BitVec.ofNat 32 k) - blockOffset pa).toNat = k := by
    rw [BitVec.toNat_sub, blockOffset_toNat, blockOffset_toNat, BitVec.toNat_add, BitVec.toNat_ofNat]
    omega
  rw [Block.setBytes_byte d pa v m hm, hoff, if_pos hk]

/-- Every other byte of the block stays (rule R107). -/
theorem Block.setBytes_uncovered (d : Block) (pa v : Word) {m : Nat} (hm : m ≤ 64) {o : BitVec 6}
    (h : ∀ k, k < m → o ≠ blockOffset (pa + BitVec.ofNat 32 k)) : (d.setBytes pa v m).byte o = d.byte o := by
  rw [Block.setBytes_byte d pa v m hm, if_neg]
  intro hlt
  apply h _ hlt
  apply BitVec.eq_of_toNat_eq
  rw [blockOffset_toNat, BitVec.toNat_add, BitVec.toNat_ofNat, BitVec.toNat_sub, blockOffset_toNat]
  omega

/-- A write that does not go past the cache meets no device (rule R75). -/
theorem devWrite_cacheable {pa : Word} (n : Width) (v : Word) (s : State) (h : uncacheable pa = false) :
    DevicesUnchanged s (devWrite pa n v s) := by
  have hrange : ¬ (0x1000 ≤ pa.toNat ∧ pa.toNat < 0x3000) := by
    rw [← uncacheable_iff, h]
    decide
  have hctrl : isCtrl pa = false := (isCtrl_eq_false_iff pa).2 (by omega)
  have hvga : inVga pa = false := by
    rw [← Bool.not_eq_true, inVga_iff]
    omega
  exact ⟨by simp [devWrite, hctrl], by simp [devWrite, hctrl], rfl, by simp [devWrite, hvga]⟩

/-- Settles O34: a hit is the update of its way, a miss the device write. -/
theorem cacheWriteHitAndMiss : Obligations.CacheWriteHitAndMiss := by
  rintro s pa v n cs rfl -
  have hwidth : widthBytes n ≤ 64 := (widthBytes_le n).trans (by decide)
  refine ⟨fun w hw => ?_, fun hmiss => ?_⟩
  · obtain ⟨htag, hvalid, hdirty, hdata⟩ := State.updateWay_way s w pa n v (cacheIndex pa) w
    rw [if_pos ⟨rfl, rfl⟩] at hdirty hdata
    have hage := State.updateWay_age s w pa n v w
    rw [CacheSet.touch_age, if_pos rfl] at hage
    rw [cacheWrite_hit n v hw]
    refine ⟨rfl, rfl, htag, hvalid, hdirty, hage, fun k hk => ?_, fun o ho => ?_, State.updateWay_others s w pa n v,
      fun j hj => ?_, rfl⟩
    · exact (congrArg (Block.byte · _) hdata).trans (Block.setBytes_covered _ pa v hk hwidth)
    · exact (congrArg (Block.byte · _) hdata).trans (Block.setBytes_uncovered _ pa v hwidth ho)
    · exact (Cache.setAt_putSet _ _ _ _).trans (if_neg hj)
  · rw [cacheWrite_miss n v hmiss]
    refine ⟨rfl, rfl, rfl, rfl, fun hu => ?_⟩
    obtain ⟨hexit, hcommand, hprng, hvga⟩ := devWrite_cacheable n v s hu
    exact ⟨hexit, hcommand, hprng, hvga⟩

end Sys2Proof.Machine
end

