-- ==== Sys2Proof/Proofs/VirtualAccess.lean ====
section
/-! SUPPORT. Loads, stores and fetches by virtual address: where they complete, where they fault, and what a load reads back
after a store (rules R60, R63, R72 to R74, R220 to R226, R300). -/

namespace Sys2Proof.Machine

/-! ### Alignment (rule R63) -/

theorem aligned_eq_false_iff (pa : Word) (n : Width) : aligned pa n = false ↔ pa.toNat % widthBytes n ≠ 0 := by
  simp [aligned]

/-- A misaligned address that translates is an AlignmentFault (rule R63). -/
theorem translateAligned_misaligned {acc : Access} {va pa : Word} {n : Width} {s : State}
    (h : (translate acc va s).val = .ok pa) (ha : aligned va n = false) :
    (translateAligned acc va n s).val = .error ⟨.alignmentFault, va⟩ := by
  have hpa : aligned pa n = false := (aligned_translate h n).trans ha
  unfold translateAligned
  simp [h, hpa]

/-- A fault of the translation comes before the alignment check (rule R63). -/
theorem translateAligned_fault {acc : Access} {va : Word} {f : FaultRec} {s : State} (n : Width)
    (h : (translate acc va s).val = .error f) : (translateAligned acc va n s).val = .error f := by
  unfold translateAligned
  simp [h]

/-- A misaligned virtual read performs nothing after its translation (rules R63, R72, R74). -/
theorem virtualRead_misaligned {acc : Access} {kind : AccessKind} {va pa : Word} {n : Width} {s : State}
    (h : (translate acc va s).val = .ok pa) (ha : aligned va n = false) :
    (virtualRead acc kind va n s).val = .error ⟨.alignmentFault, va⟩ ∧
      (virtualRead acc kind va n s).st = (translate acc va s).st := by
  have hread := virtualRead_error (kind := kind) (translateAligned_misaligned h ha)
  rwa [(translateAligned_st acc va n s).1] at hread

/-- A misaligned virtual write performs nothing after its translation (rules R63, R73). -/
theorem memWrite_misaligned {va pa : Word} {n : Width} {s : State} (v : Word) (h : (translate .store va s).val = .ok pa)
    (ha : aligned va n = false) :
    (memWrite va n v s).val = .error ⟨.alignmentFault, va⟩ ∧ (memWrite va n v s).st = (translate .store va s).st := by
  have hwrite := memWrite_error (v := v) (translateAligned_misaligned h ha)
  rwa [(translateAligned_st .store va n s).1] at hwrite

/-- An aligned access lies in one block and one page (rule R63). -/
theorem aligned_block_page {pa : Word} {n : Width} (ha : aligned pa n = true) {k : Nat} (hk : k < widthBytes n) :
    (pa + BitVec.ofNat 32 k).toNat / 64 = pa.toNat / 64 ∧ (pa + BitVec.ofNat 32 k).toNat / 4096 = pa.toNat / 4096 := by
  rw [aligned_add_toNat ha hk]
  rw [aligned_iff] at ha
  cases n <;> simp only [widthBytes] at ha hk <;> omega

/-- Settles O28: the alignment check stands between the translation and the access. -/
theorem misalignedAccessesFault : Obligations.MisalignedAccessesFault := by
  refine ⟨fun s va v pa n hne => ?_, fun s va v n f => ⟨fun h => ?_, fun h => ?_, fun h => ?_⟩, fun va => Nat.mod_one _,
    fun pa n k hal hk => aligned_block_page ((aligned_iff pa n).2 hal) hk⟩
  · have ha := (aligned_eq_false_iff va n).2 hne
    refine ⟨fun h => virtualRead_misaligned h ha, fun h => memWrite_misaligned v h ha, ?_⟩
    rintro rfl h
    exact virtualRead_misaligned h ha
  · exact (virtualRead_error (translateAligned_fault n h)).1
  · exact (memWrite_error (translateAligned_fault n h)).1
  · exact (virtualRead_error (translateAligned_fault .word h)).1

/-! ### The fetch that faults (rules R74, R304) -/

/-- With paging off an access faults exactly where its address is misaligned (rules R63, R130). -/
theorem translateAligned_off_error_iff (acc : Access) (va : Word) (n : Width) {s : State} (h : s.ptbr = 0#32)
    (f : FaultRec) :
    (translateAligned acc va n s).val = .error f ↔ aligned va n = false ∧ f = ⟨.alignmentFault, va⟩ := by
  cases ha : aligned va n with
  | true => simp [translateAligned_off acc va h ha]
  | false =>
    rw [translateAligned_misaligned (congrArg Timed.val (translate_off acc va h)) ha]
    simp [eq_comm]

theorem virtualRead_error_iff (acc : Access) (kind : AccessKind) (va : Word) (n : Width) (s : State) (f : FaultRec) :
    (virtualRead acc kind va n s).val = .error f ↔ (translateAligned acc va n s).val = .error f := by
  cases h : (translateAligned acc va n s).val with
  | error g => rw [(virtualRead_error h).1]
  | ok pa => simp [virtualRead_ok h]

/-- Settles O7: the step takes the fetch's fault at the instruction's own address; with paging off only the alignment
check can fail. -/
theorem stepTakesFetchFault : Obligations.StepTakesFetchFault := by
  intro s hh hr
  refine ⟨fun f hf => ⟨(fetchInstruction s).st, ?_, fetchInstruction_fetched s⟩, fun hoff => ?_⟩
  · rw [step_instruction hh hr, instructionStep_error ((fetchInstruction_val s).trans hf), faultWithoutAccess,
      (fetchInstruction_fetched s).pc]
  · have hfetch : ∀ f, (fetch s.pc (s.addCycles 1)).val = .error f ↔
        aligned s.pc .word = false ∧ f = ⟨.alignmentFault, s.pc⟩ := fun f =>
      (virtualRead_error_iff .fetch .fetch s.pc .word (s.addCycles 1) f).trans
        (translateAligned_off_error_iff .fetch s.pc .word (s := s.addCycles 1) hoff f)
    refine ⟨?_, fun f hf => ((hfetch f).1 hf).2⟩
    rw [hfetch, aligned_eq_false_iff]
    exact and_iff_left rfl

/-! ### The meanings of loads and stores (rules R220 to R226) -/

/-- A load instruction is the load of its width at its effective address. -/
theorem exec_load {rd ra : Reg} {imm : Int} {i : Instr} {n : Width} (s : State)
    (h : (i, n) ∈ [(Instr.ldb rd ra imm, Width.byte), (Instr.ldh rd ra imm, Width.half), (Instr.ld rd ra imm, Width.word)]) :
    exec i s = loadTo n rd (s.reg ra + BitVec.ofInt 32 imm) s := by
  simp only [List.mem_cons, Prod.mk.injEq, List.not_mem_nil, or_false] at h
  obtain ⟨rfl, rfl⟩ | ⟨rfl, rfl⟩ | ⟨rfl, rfl⟩ := h <;> rfl

/-- A store instruction is the store of its width at its effective address. -/
theorem exec_store {rv ra : Reg} {imm : Int} {i : Instr} {n : Width} (s : State)
    (h : (i, n) ∈ [(Instr.stb rv ra imm, Width.byte), (Instr.sth rv ra imm, Width.half), (Instr.st rv ra imm, Width.word)]) :
    exec i s = storeFrom n (s.reg rv) (s.reg ra + BitVec.ofInt 32 imm) s := by
  simp only [List.mem_cons, Prod.mk.injEq, List.not_mem_nil, or_false] at h
  obtain ⟨rfl, rfl⟩ | ⟨rfl, rfl⟩ | ⟨rfl, rfl⟩ := h <;> rfl

/-- Settles O17: the load's value is that of the physical read, which without a pending command is the view's. -/
theorem loadsComplete : Obligations.LoadsComplete := by
  intro rd ra imm s i n pa hi hs hpa
  obtain ⟨t, ht, hload⟩ := loadTo_ok (rd := rd) hpa hs
  refine ⟨t, (exec_load s hi).trans ht, _, _, _, rfl, rfl, rfl, hload, fun hplain => ?_⟩
  have hsr : StoreSound s.reachMemory := hs.congr rfl rfl rfl
  have hwalk := translateAligned_read .load (s.reg ra + BitVec.ofInt 32 imm) n s.reachMemory
  constructor
  · rw [physRead_val .load (hwalk.sound hsr) (translateAligned_ok hpa).1 hplain]
    exact littleEndian_congr fun k _ => hwalk.view hsr _
  · exact (physRead_spec .load pa n _).prngState (hplain.imp_right fun h => by simp [h])

/-- Settles O19: the store of its width at the translated address. -/
theorem storesComplete : Obligations.StoresComplete := by
  intro rv ra imm s i n pa hi hs hpa
  obtain ⟨t, ht, hstore⟩ := storeFrom_ok (v := s.reg rv) hpa hs
  exact ⟨t, (exec_store s hi).trans ht, hstore⟩

/-! ### Accesses that fault (rules R72, R73, R314) -/

/-- `u` is `s` after a memory stage of `lat` ticks that made the reads of the walk `walk` and no access: the state in which
the fault of a load or store is taken (rules R261, R300, R314). -/
structure WalkServed (s walk u : State) (lat : Nat) : Prop where
  x : u.x = s.x
  pc : u.pc = s.pc
  priv : u.priv = s.priv
  halted : u.halted = s.halted
  retired : u.stats.retired = s.stats.retired
  exitRequested : u.exitRequested = s.exitRequested
  vgaEvents : u.vgaEvents = s.vgaEvents
  view : StoreSound s → ∀ a, u.view a = s.view a
  mmioPending : u.mmioPending = walk.mmioPending
  prngState : u.prngState = walk.prngState
  cycles : u.cycles = s.cycles + BitVec.ofNat 64 (3 + lat)

theorem serveMemory_walkServed {s walk : State} (h : ReadSpec s.reachMemory walk) (lat : Nat) :
    WalkServed s walk (walk.serveMemory lat) lat where
  x := h.frame.x
  pc := h.frame.pc
  priv := h.frame.priv
  halted := h.frame.halted
  retired := h.retired
  exitRequested := h.frame.exitRequested
  vgaEvents := h.frame.vgaEvents
  view hs a := h.view (hs.congr rfl rfl rfl) a
  mmioPending := rfl
  prngState := rfl
  cycles := by
    rw [State.serveMemory_cycles, h.frame.cycles]
    exact addCycles_addCycles s.cycles 3 lat

/-- Settles O18: the load takes the fault after the walk's reads alone. -/
theorem loadsTakeFaults : Obligations.LoadsTakeFaults := by
  intro rd ra imm s i n f hi hf
  have hserved := serveMemory_walkServed (translateAligned_read .load (s.reg ra + BitVec.ofInt 32 imm) n s.reachMemory)
    (max (translateAligned .load (s.reg ra + BitVec.ofInt 32 imm) n s.reachMemory).lat 1)
  exact ⟨translateAligned_info hf, _, (exec_load s hi).trans (loadTo_error hf), hserved.x, hserved.pc, hserved.priv,
    hserved.halted, hserved.retired, hserved.view, hserved.exitRequested, hserved.vgaEvents, hserved.mmioPending,
    hserved.prngState, hserved.cycles⟩

/-- Settles O20: the store takes the fault after the walk's reads alone. -/
theorem storesTakeFaults : Obligations.StoresTakeFaults := by
  intro rv ra imm s i n f hi hf
  have hserved := serveMemory_walkServed (translateAligned_read .store (s.reg ra + BitVec.ofInt 32 imm) n s.reachMemory)
    (max (translateAligned .store (s.reg ra + BitVec.ofInt 32 imm) n s.reachMemory).lat 1)
  exact ⟨translateAligned_info hf, _, (exec_store s hi).trans (storeFrom_error hf), hserved.x, hserved.pc, hserved.priv,
    hserved.halted, hserved.retired, hserved.exitRequested, hserved.vgaEvents, hserved.view, hserved.mmioPending,
    hserved.prngState⟩

/-! ### A load after a store (rule R60) -/

/-- Byte `i` of a word shifted down by `k` bytes is its byte `k + i`. -/
theorem byteOf_shiftRight (v : Word) (k i : Nat) : byteOf (v >>> (8 * k)) i = byteOf v (k + i) := by
  apply BitVec.eq_of_getLsbD_eq
  intro j hj
  simp only [byteOf, BitVec.getLsbD_extractLsb', BitVec.getLsbD_ushiftRight]
  congr 2
  omega

/-- Byte `k` of a word is the low byte of the word shifted down by `k` bytes. -/
theorem lowBytes_byteAt (v : Word) (k : Nat) : lowBytes .byte (v >>> (8 * k)) = (byteOf v k).setWidth 32 :=
  congrArg (BitVec.setWidth 32) (byteOf_shiftRight v k 0)

/-- The upper half of a word fits in a halfword (rule R60). -/
theorem lowBytes_upperHalf (v : Word) : lowBytes .half (v >>> (8 * 2)) = v >>> 16 := by
  apply BitVec.eq_of_toNat_eq
  simp only [lowBytes, BitVec.toNat_setWidth, BitVec.extractLsb'_toNat, BitVec.toNat_ushiftRight,
    Nat.shiftRight_eq_div_pow]
  omega

/-- With paging off an aligned store writes at its own address (rules R73, R130). -/
theorem memWrite_off {va : Word} {n : Width} {s : State} (v : Word) (hoff : s.ptbr = 0#32) (ha : aligned va n = true) :
    (memWrite va n v s).val = .ok () ∧ (memWrite va n v s).st = (physWrite va n v s).st := by
  have htr := translateAligned_off .store va hoff ha
  have hwrite := memWrite_ok (v := v) (congrArg Timed.val htr)
  rwa [htr] at hwrite

/-- With paging off, what a store of `n` bytes wrote, a read of `m` bytes at the offset `k` inside it reads back,
little-endian (rules R60, R72 to R74). -/
theorem virtualRead_memWrite {acc : Access} {kind : AccessKind} {va v : Word} {n m : Width} {k : Nat} {s : State}
    (hs : StoreSound s) (hoff : s.ptbr = 0#32) (ha : aligned va n = true) (hk : k + widthBytes m ≤ widthBytes n)
    (hal : aligned (va + BitVec.ofNat 32 k) m = true) (hctrl : isCtrl (va + BitVec.ofNat 32 k) = false) :
    (virtualRead acc kind (va + BitVec.ofNat 32 k) m (memWrite va n v s).st).val = .ok (lowBytes m (v >>> (8 * k))) := by
  have hstored := physWrite_spec va n v s
  rw [(memWrite_off v hoff ha).2]
  have htr := translateAligned_off acc (va + BitVec.ofNat 32 k) (hstored.frame.ptbr.trans hoff) hal
  rw [virtualRead_view (hstored.sound ha hs) (congrArg Timed.val htr) (.inl hctrl), ← littleEndian_byteOf]
  refine congrArg Except.ok (littleEndian_congr fun i hi => ?_)
  rw [byteOf_shiftRight, BitVec.add_assoc, ← BitVec.ofNat_add]
  exact hstored.stored ha hs (k + i) (by omega)

/-- Settles O27: each read is one inside the stored bytes. -/
theorem storeLoadRoundTrip : Obligations.StoreLoadRoundTrip := by
  intro s va v n hs hoff hal hctrl
  have ha := (aligned_iff va n).2 hal
  have hpos : 0 < widthBytes n := by cases n <;> decide
  have hself : va + BitVec.ofNat 32 0 = va := BitVec.add_zero va
  have hwhole : ∀ acc kind, (virtualRead acc kind va n (memWrite va n v s).st).val = .ok (lowBytes n v) := fun acc kind => by
    have hread := virtualRead_memWrite (acc := acc) (kind := kind) (v := v) (m := n) (k := 0) hs hoff ha (by omega)
      (hself.symm ▸ ha) (hctrl 0 hpos)
    rwa [hself] at hread
  refine ⟨(memWrite_off v hoff ha).1, hwhole _ _, fun k hk => ?_, ?_⟩
  · exact (virtualRead_memWrite hs hoff ha hk ((aligned_iff _ .byte).2 (Nat.mod_one _)) (hctrl k hk)).trans
      (congrArg Except.ok (lowBytes_byteAt v k))
  · rintro rfl
    have hhalf : aligned (va + BitVec.ofNat 32 2) .half = true := by
      rw [aligned_iff, aligned_add_toNat ha (by decide)]
      simp only [widthBytes] at hal ⊢
      omega
    exact ⟨(virtualRead_memWrite hs hoff ha (by decide) hhalf (hctrl 2 (by decide))).trans
      (congrArg Except.ok (lowBytes_upperHalf v)), hwhole _ _⟩

end Sys2Proof.Machine
end

/-! SUPPORT. Every step keeps memory canonical and the cache sound and coherent (rules R30, R109, R112): each meaning of the
sequential reading and each stage of a tick is built of accesses that keep it and of updates that touch neither. -/

namespace Sys2Proof.Machine

/-! ### The ends of an instruction -/

theorem StoreSound.trapEntry {s : State} (hs : StoreSound s) (n : Nat) (savedPc : Word) :
    StoreSound (trapEntry n savedPc s) :=
  (trapEntry_spec n savedPc s).sound hs

/-- Recording the fault touches neither memory nor cache, and a trap keeps both sound (rules R306, R307). -/
theorem StoreSound.takeFault {s : State} (hs : StoreSound s) (kind : FaultKind) (ipc info : Word) :
    StoreSound (takeFault kind ipc info s) :=
  (takeFault_spec kind ipc info s).sound (hs.congr rfl rfl rfl)

theorem StoreSound.setReg {s : State} (hs : StoreSound s) (r : Reg) (v : Word) : StoreSound (s.setReg r v) :=
  hs.congr rfl rfl rfl

theorem StoreSound.retireTo {s : State} (hs : StoreSound s) (next : Word) : StoreSound (s.retireTo next) :=
  hs.congr rfl rfl rfl

theorem StoreSound.passStages {s : State} (hs : StoreSound s) : StoreSound s.passStages := hs.congr rfl rfl rfl

/-- The accesses of the memory stage, with the ticks before and after them (rules R254, R268). -/
theorem WriteSpec.served_sound {s u : State} (h : WriteSpec s.reachMemory u) (hs : StoreSound s) (lat : Nat) :
    StoreSound (u.serveMemory lat) :=
  (h.sound (hs.congr rfl rfl rfl)).congr rfl rfl rfl

/-! ### The meanings -/

/-- A step or a meaning that answers does so with a sound store. -/
def AnswersSound (o : StepOutcome) : Prop := ∀ t, o = .next t → StoreSound t

theorem AnswersSound.next {t : State} (ht : StoreSound t) : AnswersSound (.next t) := by
  rintro _ ⟨⟩
  exact ht

section
variable {s : State} (hs : StoreSound s)
include hs

theorem writeResult_sound (rd : Reg) (v : Word) : AnswersSound (writeResult rd v s) :=
  .next ((hs.passStages.setReg rd v).retireTo _)

theorem transferTo_sound (target : Word) : AnswersSound (transferTo target s) := .next (hs.passStages.retireTo target)

theorem faultWithoutAccess_sound (kind : FaultKind) (info : Word) : StoreSound (faultWithoutAccess kind info s) :=
  hs.passStages.takeFault kind s.pc info

theorem loadTo_sound (n : Width) (rd : Reg) (ea : Word) : AnswersSound (loadTo n rd ea s) := by
  have hread := (virtualRead_read .load .load ea n s.reachMemory).toWrite.served_sound hs (memRead ea n s.reachMemory).lat
  unfold loadTo
  dsimp only
  split
  · exact .next ((hread.setReg rd _).retireTo _)
  · exact .next (hread.takeFault _ _ _)

theorem storeFrom_sound (n : Width) (v ea : Word) : AnswersSound (storeFrom n v ea s) := by
  have hwrite := (memWrite_write ea n v s.reachMemory).served_sound hs (memWrite ea n v s.reachMemory).lat
  unfold storeFrom
  dsimp only
  split
  · unfold retireStore
    split
    · exact .next ((hwrite.retireTo _).halt _)
    · exact .next (hwrite.retireTo _)
  · exact .next (hwrite.takeFault _ _ _)

theorem execDiv_sound (rd ra rb : Reg) : AnswersSound (execDiv rd ra rb s) := by
  unfold execDiv
  split
  · exact writeResult_sound hs _ _
  · exact .next (faultWithoutAccess_sound hs _ _)

theorem execCall_sound (offset : Int) : AnswersSound (execCall offset s) := by
  have hpush := (pushFrame_write (pushedSp (s.reg spReg)) (nextAddress s.pc) s.reachMemory).served_sound hs
    (pushFrame (pushedSp (s.reg spReg)) (nextAddress s.pc) s.reachMemory).lat
  unfold execCall
  dsimp only
  split
  · exact .next ((hpush.setReg spReg _).retireTo _)
  · exact .next (hpush.takeFault _ _ _)

theorem execRet_sound : AnswersSound (execRet s) := by
  have hpop := (popFrame_read (s.reg spReg) s.reachMemory).toWrite.served_sound hs (popFrame (s.reg spReg) s.reachMemory).lat
  unfold execRet
  dsimp only
  split
  · exact .next (hpop.congr rfl rfl rfl)
  · exact .next (hpop.takeFault _ _ _)

theorem execInt0_sound : AnswersSound (execInt0 s) := .next ((hs.passStages.retireTo _).trapEntry _ _)

theorem exec_sound (d : Instr) : AnswersSound (exec d s) := by
  cases d with
  | add | sub | xor | or | and | shr | shl | mul | addi | subi | xori | ori | andi | lui => exact writeResult_sound hs _ _
  | div rd ra rb => exact execDiv_sound hs rd ra rb
  | ldb | ldh | ld => exact loadTo_sound hs _ _ _
  | stb | sth | st => exact storeFrom_sound hs _ _ _
  | bne | beq | blt | bgt | jmpr | nop => exact transferTo_sound hs _
  | call offset => exact execCall_sound hs offset
  | ret => exact execRet_sound hs
  | int0 => exact execInt0_sound hs

theorem runWord_sound (w : Word) : AnswersSound (runWord w s) := by
  unfold runWord
  split
  · exact exec_sound hs _
  · exact .next (faultWithoutAccess_sound hs _ _)

theorem instructionStep_sound : AnswersSound (instructionStep s) := by
  have hfetch : StoreSound (fetchInstruction s).st := (fetchInstruction_fetched s).sound hs
  cases hv : (fetchInstruction s).val with
  | error f => rw [instructionStep_error hv]; exact .next (faultWithoutAccess_sound hfetch _ _)
  | ok w => rw [instructionStep_ok hv]; exact runWord_sound hfetch w

/-! ### The stages of a tick -/

theorem commitResult_sound (i : InFlight) : StoreSound (commitResult i s) := by
  unfold commitResult
  split
  · exact hs.setReg _ _
  · exact hs

theorem writeback_sound (i : InFlight) : StoreSound (writeback i s) := by
  have hclear : StoreSound (clearWb s) := hs.congr rfl rfl rfl
  have hcommit : StoreSound (commitResult i (clearWb s)).countRetired := (commitResult_sound hclear i).congr rfl rfl rfl
  unfold writeback
  split
  · exact hclear.takeFault _ _ _
  · dsimp only
    split
    · exact hcommit.halt _
    · split
      · exact hcommit.trapEntry _ _
      · exact hcommit

theorem wbStep_sound : StoreSound (wbStep s) := by
  cases h : s.slots.wbs with
  | none => rw [wbStep_empty h]; exact hs
  | some i => rw [wbStep_occupied h]; exact writeback_sound hs i

theorem MemMoved.sound {t : State} (h : MemMoved s t) : StoreSound t := by
  cases h with
  | empty => exact hs
  | serving h hw | faulted h hw | redirected h hw | advanced h hw => exact (hw.sound hs).congr rfl rfl rfl

theorem exStep_sound : StoreSound (exStep s) := by
  obtain h | ⟨i, j, -, -, -, h⟩ := exStep_cases s
  · rw [h]; exact hs
  · rw [h]; exact hs.congr rfl rfl rfl

theorem DecodeMoved.sound {t : State} (h : DecodeMoved s t) : StoreSound t := by
  cases h with
  | held => exact hs
  | passed | stalled | issued => exact hs.congr rfl rfl rfl

theorem FetchMoved.sound {t : State} (h : FetchMoved s t) : StoreSound t := by
  cases h with
  | empty => exact hs
  | serving | left => exact hs.congr rfl rfl rfl

theorem ifStep_sound (idle0 : Bool) : StoreSound (ifStep idle0 s) := by
  obtain ⟨-, h⟩ | ⟨-, -, u, j, hu, -, -, h⟩ := ifStep_moved idle0 s
  · exact h.sound hs
  · have hissue : StoreSound (State.holdFetch { u with fpc := nextAddress s.fpc } j) := (hu.sound hs).congr rfl rfl rfl
    exact h.sound hissue

theorem youngStages_storeSound (idle0 : Bool) : StoreSound (youngStages idle0 s) :=
  ifStep_sound ((idStep_moved _).sound (exStep_sound ((memStep_moved s).sound hs))) idle0

theorem runningTick_sound : StoreSound (runningTick s) := by
  have hwb : StoreSound (wbStep (s.addCycles 1)) := wbStep_sound (hs.addCycles 1)
  rw [runningTick_eq]
  split
  · exact hwb
  · exact youngStages_storeSound hwb _

end

/-- Settles O45: a halted machine stays, an instruction keeps the store sound, and so does each stage of a tick. -/
theorem stepKeepsStoreSound : Obligations.StepKeepsStoreSound := by
  intro s t hs hstep
  cases hh : s.halted with
  | some cause =>
    rw [step_halted (by rw [hh]; rfl)] at hstep
    cases hstep
    exact hs
  | none =>
    cases hr : s.reading with
    | instruction =>
      rw [step_instruction hh hr] at hstep
      exact instructionStep_sound hs t hstep
    | cycle =>
      rw [step_cycle hh hr] at hstep
      cases hstep
      rw [tick, if_neg (by simp [hh])]
      exact runningTick_sound hs

end Sys2Proof.Machine

/-! SUPPORT. The cache's behaviour, said exactly: Touch and Victim on a sound set, the cached read, its counters, and the
cache against one flat memory (rules R104 to R106, R108, R111 to R113). -/

namespace Sys2Proof.Machine

/-! ### Touch and Victim (rules R104, R106) -/

@[simp] theorem CacheSet.touch_age_self (cs : CacheSet) (w : Fin 4) : ((cs.touch w).way w).age = 0#2 := by
  rw [CacheSet.touch_age, if_pos rfl]

theorem CacheSet.touch_age_ne (cs : CacheSet) {w v : Fin 4} (h : v ≠ w) :
    ((cs.touch w).way v).age = if (cs.way v).age < (cs.way w).age then (cs.way v).age + 1#2 else (cs.way v).age := by
  rw [CacheSet.touch_age, if_neg h]

/-- An age below another does not wrap when it grows; one that is not below it is above it, hence not 0. -/
theorem CacheSet.Sound.touch_age_ne_zero {cs : CacheSet} (hs : cs.Sound) {v w : Fin 4} (h : v ≠ w) :
    ((cs.touch w).way v).age ≠ 0#2 := by
  have hne := hs.agesDistinct v w h
  rw [CacheSet.touch_age_ne cs h]
  split <;> bv_omega

/-- Touch permutes the ages: an age grows only into the gap below the touched way's. -/
theorem CacheSet.Sound.touch_agesDistinct {cs : CacheSet} (hs : cs.Sound) (w : Fin 4) {v u : Fin 4} (h : v ≠ u) :
    ((cs.touch w).way v).age ≠ ((cs.touch w).way u).age := by
  by_cases hv : v = w
  · subst hv
    rw [CacheSet.touch_age_self]
    exact (hs.touch_age_ne_zero h.symm).symm
  · by_cases hu : u = w
    · subst hu
      rw [CacheSet.touch_age_self]
      exact hs.touch_age_ne_zero h
    · have hvu := hs.agesDistinct v u h
      have hvw := hs.agesDistinct v w hv
      have huw := hs.agesDistinct u w hu
      rw [CacheSet.touch_age_ne cs hv, CacheSet.touch_age_ne cs hu]
      split <;> split <;> bv_omega

/-- In a sound set the victim is the one way of age 3. -/
theorem CacheSet.Sound.age_eq_three_iff {cs : CacheSet} (hs : cs.Sound) (v : Fin 4) :
    (cs.way v).age = 3#2 ↔ v = cs.victim := by
  constructor
  · intro hv
    by_contra hne
    exact hs.agesDistinct v cs.victim hne (hv.trans hs.victim_age.symm)
  · rintro rfl
    exact hs.victim_age

/-- No age is above 3, so that a valid victim leaves no invalid way. -/
theorem CacheSet.Sound.victim_invalid {cs : CacheSet} (hs : cs.Sound) {v : Fin 4} (hv : (cs.way v).valid = false) :
    (cs.way cs.victim).valid = false := by
  cases hvalid : (cs.way cs.victim).valid with
  | false => rfl
  | true =>
    have hlt := hs.invalidOlder cs.victim v hvalid hv
    rw [hs.victim_age] at hlt
    bv_omega

/-- Settles O32: the ages that Touch gives, their distinctness, and the victim as the oldest way. -/
theorem touchAndVictim : Obligations.TouchAndVictim := by
  intro cs w hs
  refine ⟨cs.touch_age_self w, fun v hv => ⟨hs.touch_age_ne_zero hv, fun hlt => ?_, fun hge => ?_⟩,
    fun v u hvu => hs.touch_agesDistinct w hvu, hs.age_eq_three_iff, ?_⟩
  · rw [cs.touch_age_ne hv, if_pos hlt]
  · rw [cs.touch_age_ne hv, if_neg hge]
  · rintro ⟨v, hv⟩
    exact hs.victim_invalid hv

/-! ### The cached read (rule R105) -/

theorem cacheRead_hit {s : State} {pa : Word} {w : Fin 4} (kind : AccessKind) (n : Width)
    (h : (s.cache.setAt (cacheIndex pa)).hit (cacheTag pa) = some w) :
    cacheRead kind pa n s =
      ⟨((s.cache.setAt (cacheIndex pa)).way w).readValue pa n, latHit, countRead kind true (s.touchWay (cacheIndex pa) w)⟩ := by
  unfold cacheRead
  simp only [h]

theorem cacheRead_miss {s : State} {pa : Word} (kind : AccessKind) (n : Width)
    (h : (s.cache.setAt (cacheIndex pa)).hit (cacheTag pa) = none) :
    cacheRead kind pa n s =
      ⟨(((s.fillBlock pa).cache.setAt (cacheIndex pa)).way (s.cache.setAt (cacheIndex pa)).victim).readValue pa n,
        s.missLatency (cacheIndex pa), countRead kind false (s.fillBlock pa)⟩ := by
  unfold cacheRead
  simp only [h]

@[simp] theorem countRead_cache (kind : AccessKind) (isHit : Bool) (s : State) :
    (countRead kind isHit s).cache = s.cache :=
  (countRead_frame kind isHit s).2.1

@[simp] theorem countRead_mem (kind : AccessKind) (isHit : Bool) (s : State) : (countRead kind isHit s).mem = s.mem :=
  (countRead_frame kind isHit s).2.2.1

/-- A cached read changes nothing but the cache, memory under it and the counters (rule R105). -/
theorem cacheRead_st (kind : AccessKind) (pa : Word) (n : Width) (s : State) :
    (cacheRead kind pa n s).st = { s with
      cache := (cacheRead kind pa n s).st.cache
      mem := (cacheRead kind pa n s).st.mem
      stats := (cacheRead kind pa n s).st.stats } := by
  cases h : (s.cache.setAt (cacheIndex pa)).hit (cacheTag pa) with
  | some w => rw [cacheRead_hit kind n h]; cases kind <;> rfl
  | none => rw [cacheRead_miss kind n h]; cases kind <;> rfl

/-- What the write-back of a victim leaves in canonical memory: the block of a valid and dirty victim, and every other byte as
it was (rules R75, R105). -/
theorem State.writeBackVictim_mem_read {s : State} (hm : s.mem.wf = true) (i : BitVec 5) (a : Word) :
    (s.writeBackVictim i).mem.read a.toNat =
      if s.victimDirty i ∧ cacheTag a = (s.victimWay i).tag ∧ cacheIndex a = i
      then (s.victimWay i).data.byte (blockOffset a) else s.mem.read a.toNat := by
  unfold State.writeBackVictim
  cases hd : s.victimDirty i with
  | true => simp [Memory.writeBlock_read hm, State.victimWay]
  | false => simp

/-- After a miss the victim way is the most recently used one, and the set's others are as Touch leaves them (rules R104,
R105). -/
theorem State.fillBlock_ages (s : State) (pa : Word) (v : Fin 4) :
    (((s.fillBlock pa).cache.setAt (cacheIndex pa)).way v).age =
      (((s.cache.setAt (cacheIndex pa)).touch (s.cache.setAt (cacheIndex pa)).victim).way v).age := by
  have hage : ∀ u, (((s.cache.setAt (cacheIndex pa)).setWay (s.cache.setAt (cacheIndex pa)).victim
      ((s.victimWay (cacheIndex pa)).install (cacheTag pa)
        ((s.writeBackVictim (cacheIndex pa)).mem.readBlock (cacheTag pa) (cacheIndex pa)))).way u).age =
      ((s.cache.setAt (cacheIndex pa)).way u).age := by
    intro u
    rw [CacheSet.way_setWay]
    split
    · rename_i h; subst h; rfl
    · rfl
  rw [State.fillBlock_cache, if_pos rfl]
  simp only [CacheSet.touch_age, hage]

theorem State.fillBlock_others (s : State) (pa : Word) :
    OtherWaysTouched (s.cache.setAt (cacheIndex pa)) ((s.fillBlock pa).cache.setAt (cacheIndex pa))
      (s.cache.setAt (cacheIndex pa)).victim where
  contents v hv := by
    have hway := State.fillBlock_way s pa (cacheIndex pa) v
    rwa [if_neg fun h => hv h.2] at hway
  ages v hv := by rw [State.fillBlock_ages, CacheSet.touch_age_ne _ hv]

/-- Settles O33: a hit is a Touch, a miss the write-back of the victim and the install. -/
theorem cacheReadHitAndMiss : Obligations.CacheReadHitAndMiss := by
  rintro s pa n kind cs rfl
  refine ⟨cacheRead_st kind pa n s, fun w hw => ?_, fun hmiss hwf => ?_⟩
  · rw [cacheRead_hit kind n hw]
    exact ⟨rfl, rfl, countRead_cache _ _ _, countRead_mem _ _ _⟩
  · have hway := State.fillBlock_way s pa (cacheIndex pa) (s.cache.setAt (cacheIndex pa)).victim
    rw [if_pos ⟨rfl, rfl⟩] at hway
    obtain ⟨htag, hvalid, hdirty, hdata⟩ := hway
    have hage := State.fillBlock_ages s pa (s.cache.setAt (cacheIndex pa)).victim
    rw [CacheSet.touch_age_self] at hage
    rw [cacheRead_miss kind n hmiss]
    simp only [countRead_cache, countRead_mem]
    refine ⟨?_, State.writeBackVictim_mem_read hwf _, ⟨htag, hvalid, hdirty, hage, fun o => ?_⟩,
      State.fillBlock_others s pa, fun j hj => ?_, rfl⟩
    · unfold State.missLatency State.victimDirty
      split <;> rfl
    · rw [hdata, Memory.readBlock_byte]
      rfl
    · rw [State.fillBlock_cache, if_neg hj]

/-! ### The counters (rules R111, R113) -/

theorem physRead_cached {s : State} {pa : Word} (kind : AccessKind) (n : Width) (h : bypassesCache s pa = false) :
    physRead kind pa n s = cacheRead kind pa n s := by
  unfold physRead
  simp [h]

theorem physWrite_cached {s : State} {pa : Word} (n : Width) (v : Word) (h : bypassesCache s pa = false) :
    physWrite pa n v s = cacheWrite pa n v s := by
  unfold physWrite
  simp [h]

/-- Only reads of kind load count (rule R113). -/
theorem countRead_other {kind : AccessKind} (h : kind ≠ .load) (isHit : Bool) (s : State) : countRead kind isHit s = s := by
  cases kind with
  | load => exact absurd rfl h
  | store | fetch | walk | vector => rfl

theorem cacheRead_stats_other {kind : AccessKind} (h : kind ≠ .load) (pa : Word) (n : Width) (s : State) :
    (cacheRead kind pa n s).st.stats = s.stats := by
  cases hhit : (s.cache.setAt (cacheIndex pa)).hit (cacheTag pa) with
  | some w => rw [cacheRead_hit kind n hhit, countRead_other h]; rfl
  | none => rw [cacheRead_miss kind n hhit, countRead_other h]; rfl

/-- Settles O36: the device accesses know no counter; a cached access counts by the outcome of its lookup. -/
theorem cacheCountersByKind : Obligations.CacheCountersByKind := by
  intro s pa v n kind isHit
  refine ⟨fun hkind => ?_, fun hb => ?_, fun hb => ?_, fun hb => ?_⟩
  · cases hb : bypassesCache s pa with
    | true =>
      rw [physRead_bypass kind n hb]
      exact (devRead_frame pa n s).2.2.2
    | false =>
      rw [physRead_cached kind n hb]
      exact cacheRead_stats_other (hkind.resolve_right (by simp [hb])) pa n s
  · rw [physRead_cached .load n hb]
    cases hhit : (s.cache.setAt (cacheIndex pa)).hit (cacheTag pa) with
    | some w => rw [cacheRead_hit .load n hhit]; simp [isHit, hhit, countRead]
    | none => rw [cacheRead_miss .load n hhit]; simp [isHit, hhit, countRead]
  · rw [physWrite_bypass n v hb]
    rfl
  · rw [physWrite_cached n v hb]
    cases hhit : (s.cache.setAt (cacheIndex pa)).hit (cacheTag pa) with
    | some w => rw [cacheWrite_hit n v hhit]; simp [isHit, hhit, countWrite]
    | none => rw [cacheWrite_miss n v hhit]; simp [isHit, hhit, countWrite, devWrite]

/-! ### One flat memory (rules R82, R112) -/

/-- A flat memory reads as the view that it equals. -/
theorem readValue_flat {m : Memory} {s : State} (h : ∀ a : Word, m.read a.toNat = s.view a) (pa : Word) (n : Width) :
    m.readValue pa n = littleEndian n (fun k => s.view (pa + BitVec.ofNat 32 k)) :=
  littleEndian_congr fun _ _ => h _

/-- At the control register a pending command's value does not depend on memory (rule R68). -/
theorem devRead_pending {s : State} (m : Memory) (pa : Word) (n : Width) (hc : isCtrl pa = true)
    (hp : s.mmioPending ≠ none) : (devRead pa n s).1 = (devRead pa n { s with mem := m }).1 := by
  unfold devRead
  rw [if_pos hc, if_pos hc]
  cases hq : s.mmioPending with
  | none => exact absurd hq hp
  | some command => cases command <;> rfl

/-- A physical read returns what a machine without a cache reads from a flat memory that equals the view (rule R112). -/
theorem physRead_val_flat (kind : AccessKind) {s : State} {m : Memory} {pa : Word} {n : Width} (hs : StoreSound s)
    (ha : aligned pa n = true) (hflat : ∀ a : Word, m.read a.toNat = s.view a) :
    (physRead kind pa n s).val = (devRead pa n { s with mem := m }).1 := by
  by_cases hp : isCtrl pa = false ∨ s.mmioPending = none
  · rw [physRead_val kind hs ha hp, devRead_plain n (s := { s with mem := m }) hp]
    exact (readValue_flat hflat pa n).symm
  · obtain ⟨hc, hpending⟩ := not_or.1 hp
    have hctrl : isCtrl pa = true := by simpa using hc
    have hb : bypassesCache s pa = true := by simp [bypassesCache, isCtrl_uncacheable hctrl]
    rw [physRead_bypass kind n hb]
    exact devRead_pending m pa n hctrl hpending

/-- A physical write changes the view as it changes a flat memory that equals it (rule R112). -/
theorem physWrite_view_flat {s : State} {m : Memory} {pa : Word} {n : Width} (v : Word) (hs : StoreSound s)
    (ha : aligned pa n = true) (hm : m.wf = true) (hflat : ∀ a : Word, m.read a.toNat = s.view a) (a : Word) :
    (m.writeValue pa n v).read a.toNat = (physWrite pa n v s).st.view a := by
  have hstored := physWrite_spec pa n v s
  by_cases hc : Covers pa n a
  · obtain ⟨k, hk, rfl⟩ := hc
    rw [hstored.stored ha hs k hk, Memory.writeValue_read hm pa v hk]
  · have hne : ∀ k, k < widthBytes n → a.toNat ≠ (pa + BitVec.ofNat 32 k).toNat :=
      fun k hk heq => hc ⟨k, hk, BitVec.eq_of_toNat_eq heq⟩
    rw [hstored.elsewhere ha hs a hc, Memory.writeValue_read_ne m pa n v hne, hflat]

/-- Settles O35: the value read, the view after a read and the view after a write, each against the flat memory. -/
theorem cacheIsTransparent : Obligations.CacheIsTransparent := by
  intro s m pa v n kind hs hal hm hflat
  have ha := (aligned_iff pa n).2 hal
  exact ⟨physRead_val_flat kind hs ha hflat, (physRead_spec kind pa n s).view hs, physWrite_view_flat v hs ha hm hflat⟩

end Sys2Proof.Machine

/-! SUPPORT. The walk of a translation: the addresses and the values of its two entries, the verdict on them, and the latency of
its reads (rules R130 to R141). -/

namespace Sys2Proof.Machine

/-! ### The entries' addresses (rules R131, R133, R135) -/

theorem dirIndex_toNat (va : Word) : (dirIndex va).toNat = va.toNat / 2 ^ 22 := by
  have := va.isLt
  simp only [dirIndex, BitVec.extractLsb'_toNat, Nat.shiftRight_eq_div_pow]
  omega

theorem tableIndex_toNat (va : Word) : (tableIndex va).toNat = va.toNat / 2 ^ 12 % 2 ^ 10 := by
  simp only [tableIndex, BitVec.extractLsb'_toNat, Nat.shiftRight_eq_div_pow]

/-- The low 12 bits of a page's base are 0. -/
theorem pageBase_mod (base : Word) : (base &&& 0xFFFFF000#32).toNat % 2 ^ 12 = 0 := by
  have hlow : (base &&& 0xFFFFF000#32).extractLsb' 0 12 = 0#12 := by
    rw [BitVec.extractLsb'_and]
    exact BitVec.and_zero
  simpa using congrArg BitVec.toNat hlow

/-- A walk reads whole words at multiples of 4 (rule R135). -/
theorem aligned_entryAddress (base : Word) (idx : BitVec 10) : aligned (entryAddress base idx) .word = true := by
  have hbase := pageBase_mod base
  have hidx := idx.isLt
  simp only [aligned, entryAddress, widthBytes, BitVec.toNat_add, BitVec.toNat_ofNat, beq_iff_eq]
  omega

/-! ### The two reads of a walk (rules R133, R135, R140) -/

/-- `pde` and `pte` are the entries of the coherent view that a walk for `va` reads, none at a pending command. -/
structure WalkReads (s : State) (va pde pte : Word) : Prop where
  sound : StoreSound s
  directory : pde = s.viewWord (entryAddress s.ptbr (dirIndex va))
  table : pte = s.viewWord (entryAddress pde (tableIndex va))
  noCommand : s.mmioPending = none ∨
    isCtrl (entryAddress s.ptbr (dirIndex va)) = false ∧ isCtrl (entryAddress pde (tableIndex va)) = false

/-- The walk's entries, from their addresses as rule R133 writes them. -/
theorem WalkReads.of_addresses {s : State} {va dir tbl pde pte : Word} (hs : StoreSound s)
    (hdir : dir = (s.ptbr &&& 0xFFFFF000#32) + BitVec.ofNat 32 (4 * (va.toNat / 2 ^ 22))) (hpde : pde = s.viewWord dir)
    (htbl : tbl = (pde &&& 0xFFFFF000#32) + BitVec.ofNat 32 (4 * (va.toNat / 2 ^ 12 % 2 ^ 10)))
    (hpte : pte = s.viewWord tbl) (hcmd : s.mmioPending = none ∨ (dir ≠ 0x2000#32 ∧ tbl ≠ 0x2000#32)) :
    WalkReads s va pde pte := by
  have hd : entryAddress s.ptbr (dirIndex va) = dir := by rw [entryAddress, dirIndex_toNat, hdir]
  have ht : entryAddress pde (tableIndex va) = tbl := by rw [entryAddress, tableIndex_toNat, htbl]
  refine ⟨hs, by rw [hd, hpde], by rw [ht, hpte], ?_⟩
  rw [hd, ht]
  simpa [isCtrl, ctrlBase] using hcmd

/-- The directory entry read is the view's. -/
theorem WalkReads.readDirectory_val {s : State} {va pde pte : Word} (h : WalkReads s va pde pte) :
    (readDirectory va s).val = pde := by
  rw [h.directory]
  exact physRead_val .walk h.sound (aligned_entryAddress _ _) (h.noCommand.symm.imp_left And.left)

/-- The table entry read, after the directory's, is the view's. -/
theorem WalkReads.readTable_val {s : State} {va pde pte : Word} (h : WalkReads s va pde pte) :
    (readTable pde va (readDirectory va s).st).val = pte := by
  have hd : ReadSpec s (readDirectory va s).st := physRead_read _ _ _ _
  rw [h.table]
  calc (readTable pde va (readDirectory va s).st).val
      = (readDirectory va s).st.viewWord (entryAddress pde (tableIndex va)) :=
        physRead_val .walk (hd.sound h.sound) (aligned_entryAddress _ _) (h.noCommand.symm.imp And.right hd.noCommand)
    _ = s.viewWord (entryAddress pde (tableIndex va)) := littleEndian_congr fun _ _ => hd.view h.sound _

/-- A read takes between a hit and a dirty miss (rules R105, R108, R111). -/
theorem physRead_lat (kind : AccessKind) (pa : Word) (n : Width) (s : State) :
    latHit ≤ (physRead kind pa n s).lat ∧ (physRead kind pa n s).lat ≤ latMiss + latWriteback := by
  cases hb : bypassesCache s pa with
  | true => simp [physRead_bypass kind n hb, latHit, latMiss]
  | false =>
    rw [physRead_cached kind n hb]
    cases hh : (s.cache.setAt (cacheIndex pa)).hit (cacheTag pa) with
    | some w => simp [cacheRead_hit kind n hh, latHit, latMiss, latWriteback]
    | none =>
      rw [cacheRead_miss kind n hh]
      cases hd : s.victimDirty (cacheIndex pa) <;> simp [State.missLatency, hd, latHit, latMiss, latWriteback]

/-! ### The verdict on the entries (rules R133, R134, R136 to R138) -/

/-- What a walk answers from its two entries: the directory entry's presence, then the table entry's verdict. -/
def walkResult (acc : Access) (p : Privilege) (va pde pte : Word) : Except FaultRec Word :=
  if entryPresent pde = false then .error ⟨.pageFault, va⟩ else leafResult acc p va pte

/-- Both entries present, the access and the privilege permitted: the frame with the address's offset (rules R133, R141). -/
theorem walkResult_ok {acc : Access} {p : Privilege} {va pde pte : Word} (hd : entryPresent pde = true)
    (ht : entryPresent pte = true) (hacc : accessAllowed acc pte = true) (hpriv : privilegeAllowed p pte = true) :
    walkResult acc p va pde pte = .ok (entryFrame pte ++ pageOffset va) := by
  simp [walkResult, leafResult, hd, ht, hacc, hpriv]

/-- A walk ends in one of three ways: an entry is absent, a right or the privilege is missing, or all is permitted (rules R133,
R138). -/
theorem walkResult_cases (acc : Access) (p : Privilege) (va pde pte : Word) :
    ((entryPresent pde = false ∨ entryPresent pte = false) ∧ walkResult acc p va pde pte = .error ⟨.pageFault, va⟩) ∨
    (entryPresent pde = true ∧ entryPresent pte = true ∧ (accessAllowed acc pte = false ∨ privilegeAllowed p pte = false) ∧
      walkResult acc p va pde pte = .error ⟨.permissionFault, va⟩) ∨
    (entryPresent pde = true ∧ entryPresent pte = true ∧ accessAllowed acc pte = true ∧ privilegeAllowed p pte = true ∧
      walkResult acc p va pde pte = .ok (entryFrame pte ++ pageOffset va)) := by
  unfold walkResult leafResult
  cases entryPresent pde
  case false => exact .inl ⟨.inl rfl, rfl⟩
  cases entryPresent pte
  case false => exact .inl ⟨.inr rfl, rfl⟩
  cases accessAllowed acc pte
  case false => exact .inr (.inl ⟨rfl, rfl, .inl rfl, rfl⟩)
  cases privilegeAllowed p pte
  case false => exact .inr (.inl ⟨rfl, rfl, .inr rfl, rfl⟩)
  case true => exact .inr (.inr ⟨rfl, rfl, rfl, rfl, rfl⟩)

/-- Only user mode looks at `U` (rule R137). -/
theorem privilegeAllowed_eq_false_iff (p : Privilege) (pte : Word) :
    privilegeAllowed p pte = false ↔ p = .user ∧ pte.getLsbD 4 = false := by
  cases p <;> simp [privilegeAllowed, entryUser]

theorem privilegeAllowed_iff (p : Privilege) (pte : Word) :
    privilegeAllowed p pte = true ↔ p = .supervisor ∨ pte.getLsbD 4 = true := by
  cases p <;> simp [privilegeAllowed, entryUser]

/-- `(FRAME << 12) | offset` in numbers (rules R132, R133). -/
theorem frame_append_offset (pte va : Word) :
    entryFrame pte ++ pageOffset va = BitVec.ofNat 32 (pte.toNat / 2 ^ 12 * 2 ^ 12 + va.toNat % 2 ^ 12) := by
  apply BitVec.eq_of_toNat_eq
  have hpte := pte.isLt
  have hframe : (entryFrame pte).toNat = pte.toNat / 2 ^ 12 := by
    simp only [entryFrame, BitVec.extractLsb'_toNat, Nat.shiftRight_eq_div_pow]
    omega
  have hoffset : (pageOffset va).toNat = va.toNat % 2 ^ 12 := by
    simp only [pageOffset, BitVec.extractLsb'_toNat, Nat.shiftRight_zero]
  rw [BitVec.toNat_append, ← Nat.shiftLeft_add_eq_or_of_lt (pageOffset va).isLt, hframe, hoffset, Nat.shiftLeft_eq,
    BitVec.toNat_ofNat]
  omega

/-! ### The translation with paging on -/

/-- An absent directory entry ends the walk after one read (rule R133). -/
theorem translate_directoryAbsent {acc : Access} {va : Word} {s : State} (hon : s.ptbr ≠ 0#32)
    (hp : entryPresent (readDirectory va s).val = false) :
    translate acc va s = ⟨.error ⟨.pageFault, va⟩, (readDirectory va s).lat, (readDirectory va s).st⟩ := by
  simp [translate, hon, hp]

/-- A present directory entry leads to the table entry's read and verdict (rule R133). -/
theorem translate_directoryPresent {acc : Access} {va : Word} {s : State} (hon : s.ptbr ≠ 0#32)
    (hp : entryPresent (readDirectory va s).val = true) :
    translate acc va s =
      ⟨leafResult acc s.priv va (readTable (readDirectory va s).val va (readDirectory va s).st).val,
        (readDirectory va s).lat + (readTable (readDirectory va s).val va (readDirectory va s).st).lat,
        (readTable (readDirectory va s).val va (readDirectory va s).st).st⟩ := by
  simp [translate, hon, hp]

/-- With paging on a translation answers from the view's two entries (rules R133, R138). -/
theorem WalkReads.translate_val {s : State} {va pde pte : Word} (h : WalkReads s va pde pte) (hon : s.ptbr ≠ 0#32)
    (acc : Access) : (translate acc va s).val = walkResult acc s.priv va pde pte := by
  unfold walkResult
  cases hp : entryPresent pde with
  | false => rw [translate_directoryAbsent hon (h.readDirectory_val.symm ▸ hp)]; rfl
  | true =>
    rw [translate_directoryPresent hon (h.readDirectory_val.symm ▸ hp), h.readDirectory_val, h.readTable_val]
    rfl

/-- The latency of a walk past a present directory entry is that of two reads (rule R140). -/
theorem translate_lat {acc : Access} {va : Word} {s : State} (hon : s.ptbr ≠ 0#32)
    (hp : entryPresent (readDirectory va s).val = true) : 20 ≤ (translate acc va s).lat ∧ (translate acc va s).lat ≤ 400 := by
  rw [translate_directoryPresent hon hp]
  have hd := physRead_lat .walk (entryAddress s.ptbr (dirIndex va)) .word s
  have ht := physRead_lat .walk (entryAddress (readDirectory va s).val (tableIndex va)) .word (readDirectory va s).st
  exact ⟨Nat.add_le_add hd.1 ht.1, Nat.add_le_add hd.2 ht.2⟩

/-- Settles O37: with paging on the fault is the verdict's on the view's entries, whose three outcomes exclude each other. -/
theorem translationFaults : Obligations.TranslationFaults := by
  refine ⟨fun acc va s h => translate_off acc va h, fun acc va dir tbl pde pte s hs hon hdir hpde htbl hpte hcmd => ?_⟩
  have hwalk := WalkReads.of_addresses hs hdir hpde htbl hpte hcmd
  rw [hwalk.translate_val hon acc, ← privilegeAllowed_eq_false_iff]
  change (_ ↔ entryPresent pde = false ∨ entryPresent pte = false) ∧
    (_ ↔ entryPresent pde = true ∧ entryPresent pte = true ∧
      (accessAllowed acc pte = false ∨ privilegeAllowed s.priv pte = false)) ∧ _
  rcases walkResult_cases acc s.priv va pde pte with ⟨habsent, hr⟩ | ⟨hd, ht, hright, hr⟩ | ⟨hd, ht, hacc, hpriv, hr⟩
  · rw [hr]
    rcases habsent with h | h <;> simp [h]
  · rw [hr]
    simp [hd, ht, hright]
  · rw [hr]
    simp [hd, ht, hacc, hpriv]

/-- Settles O38: neither fault of the verdict applies, which leaves the frame's address, after two reads. -/
theorem translationRoundTrip : Obligations.TranslationRoundTrip := by
  intro acc va dir tbl pde pte s hs hon hdir hpde htbl hpte hcmd hd ht hacc hpriv
  have hwalk := WalkReads.of_addresses hs hdir hpde htbl hpte hcmd
  have hpresent : entryPresent (readDirectory va s).val = true := hwalk.readDirectory_val.symm ▸ hd
  obtain ⟨hlo, hhi⟩ := translate_lat (acc := acc) hon hpresent
  refine ⟨?_, hlo, hhi, (translate_read acc va s).view hs⟩
  rw [hwalk.translate_val hon acc, ← frame_append_offset]
  exact walkResult_ok hd ht hacc ((privilegeAllowed_iff _ _).2 hpriv)

end Sys2Proof.Machine

/-! SUPPORT. The decoder by word format: every opcode has one of five formats or none, so what decoding, encoding and the
opcode table say of an instruction is proved once per format (rules R161 to R171). With it the obligations on the encoding. -/

namespace Sys2Proof

/-! ### Formats -/

/-- The five layouts of an instruction word (rules R161, R168), each with the instructions it is read as. -/
inductive WordFormat where
  | r (mk : Reg → Reg → Reg → Instr)
  | g (mk : Reg → Reg → Int → Instr)
  | lui
  | j (mk : Int → Instr)
  | b (i : Instr)

/-- The format of an opcode; none where the opcode map has no row (rules R164, R166). -/
def formatOf : Nat → Option WordFormat
  | 2 => some (.r .add)
  | 3 => some (.r .sub)
  | 4 => some (.r .xor)
  | 5 => some (.r .or)
  | 6 => some (.r .and)
  | 7 => some (.r .shr)
  | 8 => some (.r .shl)
  | 9 => some (.g .addi)
  | 10 => some (.g .subi)
  | 11 => some (.g .xori)
  | 12 => some (.g .ori)
  | 13 => some (.g .andi)
  | 14 => some (.g .ldb)
  | 15 => some (.g .ldh)
  | 16 => some (.g .ld)
  | 17 => some (.g .stb)
  | 18 => some (.g .sth)
  | 19 => some (.g .st)
  | 20 => some (.g .bne)
  | 21 => some (.g .beq)
  | 22 => some (.g .blt)
  | 23 => some (.g .bgt)
  | 25 => some (.j .jmpr)
  | 26 => some .lui
  | 27 => some (.j .call)
  | 28 => some (.b .ret)
  | 29 => some (.b .nop)
  | 30 => some (.r .mul)
  | 31 => some (.r .div)
  | 40 => some (.b .int0)
  | _ => none

namespace WordFormat

/-- The instruction of a format with the given operands; an operand that the format does not use is dropped. -/
def make (c a b : Reg) (k : Int) : WordFormat → Instr
  | r mk => mk c a b
  | g mk => mk c a k
  | lui => .lui c k
  | j mk => mk k
  | .b i => i

/-- The word of that instruction with opcode `op`. -/
def encode (op : BitVec 6) (c a b : Reg) (k : Int) : WordFormat → Word
  | r _ => encodeR op c a b
  | g _ => encodeG op c a k
  | lui => encodeG op c 0 k
  | j _ => encodeJ op k
  | .b _ => encodeB op

/-- The immediates that the format's field can hold; a format without one admits every value. -/
def admits (k : Int) : WordFormat → Bool
  | r _ => true
  | g _ => immInRange k
  | lui => immInRange k
  | j _ => offsetInRange k
  | b _ => true

/-- The decoder of a format. -/
def decode (w : Word) : WordFormat → Decoded
  | r mk => decodeR w mk
  | g mk => decodeG w mk
  | lui => decodeLui w
  | j mk => decodeJ w mk
  | b i => .instr i

/-- The bits that a format's words ignore (rule R168). -/
def ignored : WordFormat → Word
  | r _ => 0x000007FF#32
  | g _ => 0x00000000#32
  | lui => 0x001F0000#32
  | j _ => 0x03E00000#32
  | b _ => 0x03FFFFFF#32

/-- The fixed bits of a format: the opcode and the top bit of each used register field. -/
def mask : WordFormat → Word
  | r _ => 0xFE108000#32
  | g _ => 0xFE100000#32
  | lui => 0xFE000000#32
  | j _ => 0xFC000000#32
  | b _ => 0xFC000000#32

/-- The positions of the top bits of the used register fields; a used field holds 16 to 31 when its top bit is set. -/
def registerTops : WordFormat → List Nat
  | r _ => [25, 20, 15]
  | g _ => [25, 20]
  | lui => [25]
  | j _ => []
  | b _ => []

/-- A register field that the format uses names no register (rule R167). -/
def Refuses (f : WordFormat) (w : Word) : Prop := ∃ n ∈ f.registerTops, w.getLsbD n = true

/-- What the model's tables say of the instruction that a format makes with opcode `op`. -/
structure Tabled (op : BitVec 6) (c a b : Reg) (k : Int) (f : WordFormat) : Prop where
  encode : Sys2Proof.encode (f.make c a b k) = f.encode op c a b k
  ignored : ignoredBits (f.make c a b k) = f.ignored
  wellFormed : (f.make c a b k).wellFormed = f.admits k
  row : rowOf (f.make c a b k) = ⟨f.mask, encodeB op⟩

end WordFormat

/-! ### The opcode selects the format (rules R164, R166) -/

theorem decode_of_format {w : Word} {f : WordFormat} (h : formatOf (opcodeField w).toNat = some f) :
    decode w = f.decode w := by
  unfold decode
  unfold formatOf at h
  generalize (opcodeField w).toNat = n at *
  split at h <;> cases h <;> rfl

theorem decode_of_noFormat {w : Word} (h : formatOf (opcodeField w).toNat = none) :
    decode w = .illegal .unassignedOpcode := by
  unfold decode
  generalize (opcodeField w).toNat = n at *
  split
  case h_31 => rfl
  all_goals cases h

/-- The encoder, the ignored bits, the ranges and the rows of the model are the format's. -/
theorem tabled_of_format {op : BitVec 6} {f : WordFormat} (h : formatOf op.toNat = some f) (c a b : Reg) (k : Int) :
    f.Tabled op c a b k := by
  have hop : op = BitVec.ofNat 6 op.toNat := by simp
  unfold formatOf at h
  generalize op.toNat = n at *
  subst hop
  split at h <;> cases h <;> exact ⟨rfl, rfl, rfl, rfl⟩

/-- Every instruction is made by the format of its opcode. -/
theorem exists_format (i : Instr) :
    ∃ (op : BitVec 6) (f : WordFormat) (c a b : Reg) (k : Int), formatOf op.toNat = some f ∧ i = f.make c a b k := by
  cases i with
  | add c a b => exact ⟨2#6, _, c, a, b, 0, rfl, rfl⟩
  | sub c a b => exact ⟨3#6, _, c, a, b, 0, rfl, rfl⟩
  | xor c a b => exact ⟨4#6, _, c, a, b, 0, rfl, rfl⟩
  | or c a b => exact ⟨5#6, _, c, a, b, 0, rfl, rfl⟩
  | and c a b => exact ⟨6#6, _, c, a, b, 0, rfl, rfl⟩
  | shr c a b => exact ⟨7#6, _, c, a, b, 0, rfl, rfl⟩
  | shl c a b => exact ⟨8#6, _, c, a, b, 0, rfl, rfl⟩
  | addi c a k => exact ⟨9#6, _, c, a, 0, k, rfl, rfl⟩
  | subi c a k => exact ⟨10#6, _, c, a, 0, k, rfl, rfl⟩
  | xori c a k => exact ⟨11#6, _, c, a, 0, k, rfl, rfl⟩
  | ori c a k => exact ⟨12#6, _, c, a, 0, k, rfl, rfl⟩
  | andi c a k => exact ⟨13#6, _, c, a, 0, k, rfl, rfl⟩
  | ldb c a k => exact ⟨14#6, _, c, a, 0, k, rfl, rfl⟩
  | ldh c a k => exact ⟨15#6, _, c, a, 0, k, rfl, rfl⟩
  | ld c a k => exact ⟨16#6, _, c, a, 0, k, rfl, rfl⟩
  | stb c a k => exact ⟨17#6, _, c, a, 0, k, rfl, rfl⟩
  | sth c a k => exact ⟨18#6, _, c, a, 0, k, rfl, rfl⟩
  | st c a k => exact ⟨19#6, _, c, a, 0, k, rfl, rfl⟩
  | bne c a k => exact ⟨20#6, _, c, a, 0, k, rfl, rfl⟩
  | beq c a k => exact ⟨21#6, _, c, a, 0, k, rfl, rfl⟩
  | blt c a k => exact ⟨22#6, _, c, a, 0, k, rfl, rfl⟩
  | bgt c a k => exact ⟨23#6, _, c, a, 0, k, rfl, rfl⟩
  | jmpr k => exact ⟨25#6, _, 0, 0, 0, k, rfl, rfl⟩
  | lui c k => exact ⟨26#6, _, c, 0, 0, k, rfl, rfl⟩
  | call k => exact ⟨27#6, _, 0, 0, 0, k, rfl, rfl⟩
  | ret => exact ⟨28#6, _, 0, 0, 0, 0, rfl, rfl⟩
  | nop => exact ⟨29#6, _, 0, 0, 0, 0, rfl, rfl⟩
  | mul c a b => exact ⟨30#6, _, c, a, b, 0, rfl, rfl⟩
  | div c a b => exact ⟨31#6, _, c, a, b, 0, rfl, rfl⟩
  | int0 => exact ⟨40#6, _, 0, 0, 0, 0, rfl, rfl⟩

/-- The opcode table holds the row of every format, opcode by opcode. -/
theorem opcodeRows_eq : opcodeRows =
    (List.finRange 64).filterMap fun n => (formatOf n.val).map fun f => ⟨f.mask, encodeB (BitVec.ofFin n)⟩ := by
  decide

theorem mem_opcodeRows (row : OpcodeRow) :
    row ∈ opcodeRows ↔ ∃ op f, formatOf op.toNat = some f ∧ row = ⟨f.mask, encodeB op⟩ := by
  simp only [opcodeRows_eq, List.mem_filterMap, List.mem_finRange, true_and, Option.map_eq_some_iff]
  constructor
  · rintro ⟨n, f, hf, rfl⟩
    exact ⟨BitVec.ofFin n, f, hf, rfl⟩
  · rintro ⟨op, f, hf, rfl⟩
    exact ⟨op.toFin, f, hf, rfl⟩

/-! ### Masked words -/

/-- A mask that covers a field leaves it. -/
theorem extractLsb'_masked (w : Word) {m : Word} {start len : Nat} (h : m.extractLsb' start len = BitVec.allOnes len) :
    (w &&& m).extractLsb' start len = w.extractLsb' start len := by
  rw [BitVec.extractLsb'_and, h, BitVec.and_allOnes]

theorem and_not_zero (w : Word) : w &&& ~~~0x00000000#32 = w := by
  rw [BitVec.not_zero, BitVec.and_allOnes]

/-- The fixed bits of a word are an opcode exactly when the word has that opcode and 0 in the other fixed bits. -/
theorem masked_eq_encodeB_iff {w m : Word} (hm : opcodeField m = BitVec.allOnes 6) (op : BitVec 6) :
    w &&& m = encodeB op ↔ opcodeField w = op ∧ ∀ n < 26, m.getLsbD n = true → w.getLsbD n = false := by
  constructor
  · intro h
    refine ⟨?_, fun n hn hmn => ?_⟩
    · rw [← opcodeField_encodeB op, ← h]
      exact (extractLsb'_masked w hm).symm
    · have hbit := congrArg (·.getLsbD n) h
      simpa [encodeB_bit, hn, hmn] using hbit
  · rintro ⟨rfl, hzero⟩
    apply BitVec.eq_of_getLsbD_eq
    intro n hn
    rw [BitVec.getLsbD_and, encodeB_bit]
    split
    · rename_i hlow
      cases hmn : m.getLsbD n with
      | false => exact Bool.and_false _
      | true => rw [hzero n hlow hmn]; rfl
    · have htop := congrArg (·.getLsbD (n - 26)) hm
      have hle : 26 + (n - 26) = n := by omega
      simp only [opcodeField, BitVec.getLsbD_extractLsb', hle, BitVec.getLsbD_allOnes] at htop ⊢
      have hsix : n - 26 < 6 := by omega
      simp only [hsix, decide_true, Bool.true_and] at htop ⊢
      rw [htop, Bool.and_true]

/-! ### Register fields (rules R20, R167) -/

theorem regOfField_eq_none_iff (f : BitVec 5) : regOfField f = none ↔ 16 ≤ f.toNat := by
  simp [regOfField]

/-- A field holds 16 to 31 exactly when its top bit is set. -/
theorem sixteen_le_iff (f : BitVec 5) : 16 ≤ f.toNat ↔ f.getLsbD 4 = true := by
  revert f; decide

theorem sixteen_le_rs3Field (w : Word) : 16 ≤ (rs3Field w).toNat ↔ w.getLsbD 25 = true := by
  rw [sixteen_le_iff, rs3Field, BitVec.getLsbD_extractLsb']; simp

theorem sixteen_le_rs1Field (w : Word) : 16 ≤ (rs1Field w).toNat ↔ w.getLsbD 20 = true := by
  rw [sixteen_le_iff, rs1Field, BitVec.getLsbD_extractLsb']; simp

theorem sixteen_le_rs2Field (w : Word) : 16 ≤ (rs2Field w).toNat ↔ w.getLsbD 15 = true := by
  rw [sixteen_le_iff, rs2Field, BitVec.getLsbD_extractLsb']; simp

/-! ### What a word of a format is read as -/

theorem immInRange_immField (w : Word) : immInRange (immField w) = true := by
  have hlo := BitVec.le_toInt (w.extractLsb' 0 16)
  have hhi := BitVec.toInt_lt (x := w.extractLsb' 0 16)
  rw [immInRange_iff, immField]
  omega

theorem offsetInRange_offsetField (w : Word) : offsetInRange (offsetField w) = true := by
  have hlo := BitVec.le_toInt (w.extractLsb' 0 21)
  have hhi := BitVec.toInt_lt (x := w.extractLsb' 0 21)
  rw [offsetInRange_iff, offsetField]
  omega

/-! The encoder puts the fields of a word back where they were. -/

section
variable (w : Word) {a b c : Reg}

theorem encodeR_fields (hc : regBits c = rs3Field w) (ha : regBits a = rs1Field w) (hb : regBits b = rs2Field w) :
    encodeR (opcodeField w) c a b = w &&& ~~~0x000007FF#32 := by
  apply BitVec.eq_of_getLsbD_eq; intro k hk
  rw [encodeR_bit, hc, ha, hb]
  interval_cases k <;> simp [opcodeField, rs3Field, rs1Field, rs2Field]

theorem encodeG_fields (hc : regBits c = rs3Field w) (ha : regBits a = rs1Field w) :
    encodeG (opcodeField w) c a (immField w) = w := by
  apply BitVec.eq_of_getLsbD_eq; intro k hk
  rw [encodeG_bit, hc, ha, immField, BitVec.ofInt_toInt]
  interval_cases k <;> simp [opcodeField, rs3Field, rs1Field]

theorem encodeG_lui_fields (hc : regBits c = rs3Field w) :
    encodeG (opcodeField w) c 0 (immField w) = w &&& ~~~0x001F0000#32 := by
  apply BitVec.eq_of_getLsbD_eq; intro k hk
  rw [encodeG_bit, hc, immField, BitVec.ofInt_toInt]
  interval_cases k <;> simp [opcodeField, rs3Field, regBits]

theorem encodeJ_fields : encodeJ (opcodeField w) (offsetField w) = w &&& ~~~0x03E00000#32 := by
  apply BitVec.eq_of_getLsbD_eq; intro k hk
  rw [encodeJ_bit, offsetField, BitVec.ofInt_toInt]
  interval_cases k <;> simp [opcodeField]

theorem encodeB_fields : encodeB (opcodeField w) = w &&& ~~~0x03FFFFFF#32 := by
  apply BitVec.eq_of_getLsbD_eq; intro k hk
  rw [encodeB_bit]
  interval_cases k <;> simp [opcodeField]

end

namespace WordFormat

variable (f : WordFormat)

/-- The decoder does not read the ignored bits (rule R168). -/
theorem decode_masked (w : Word) : f.decode (w &&& ~~~f.ignored) = f.decode w := by
  cases f with
  | r mk =>
    have hc : rs3Field (w &&& ~~~0x000007FF#32) = rs3Field w := extractLsb'_masked w (by decide)
    have ha : rs1Field (w &&& ~~~0x000007FF#32) = rs1Field w := extractLsb'_masked w (by decide)
    have hb : rs2Field (w &&& ~~~0x000007FF#32) = rs2Field w := extractLsb'_masked w (by decide)
    simp only [decode, ignored, decodeR, hc, ha, hb]
  | g mk => exact congrArg (decodeG · mk) (and_not_zero w)
  | lui =>
    have hc : rs3Field (w &&& ~~~0x001F0000#32) = rs3Field w := extractLsb'_masked w (by decide)
    have hk : immField (w &&& ~~~0x001F0000#32) = immField w :=
      congrArg BitVec.toInt (extractLsb'_masked w (by decide))
    simp only [decode, ignored, decodeLui, hc, hk]
  | j mk =>
    have hk : offsetField (w &&& ~~~0x03E00000#32) = offsetField w :=
      congrArg BitVec.toInt (extractLsb'_masked w (by decide))
    simp only [decode, ignored, decodeJ, hk]
  | b i => rfl

/-- No ignored bit is part of the opcode. -/
theorem opcodeField_masked (w : Word) : opcodeField (w &&& ~~~f.ignored) = opcodeField w := by
  cases f <;> exact extractLsb'_masked w (by rw [ignored]; decide)

theorem opcodeField_encode (op : BitVec 6) (c a b : Reg) (k : Int) : opcodeField (f.encode op c a b k) = op := by
  cases f <;> simp [encode]

/-- The encoder writes 0 in every ignored bit (rule R171). -/
theorem encode_ignored (op : BitVec 6) (c a b : Reg) (k : Int) : f.encode op c a b k &&& f.ignored = 0#32 := by
  apply BitVec.eq_of_getLsbD_eq; intro n hn
  rw [BitVec.getLsbD_and]
  cases f with
  | r mk => rw [encode, encodeR_bit]; interval_cases n <;> simp [ignored]
  | g mk => simp [ignored]
  | lui => rw [encode, encodeG_bit]; interval_cases n <;> simp [ignored, regBits]
  | j mk => rw [encode, encodeJ_bit]; interval_cases n <;> simp [ignored]
  | b i => rw [encode, encodeB_bit]; interval_cases n <;> simp [ignored]

/-- What a format wrote it reads, every operand at every value its field admits (rule R171). -/
theorem decode_encode (op : BitVec 6) (c a b : Reg) {k : Int} (h : f.admits k = true) :
    f.decode (f.encode op c a b k) = .instr (f.make c a b k) := by
  cases f with
  | r mk => simp [decode, encode, make, decodeR]
  | g mk => simp [decode, encode, make, decodeG, immField_encodeG _ _ _ h]
  | lui => simp [decode, encode, make, decodeLui, immField_encodeG _ _ _ h]
  | j mk => rw [decode, encode, make, decodeJ, offsetField_encodeJ _ h]
  | b i => rfl

/-- What a format reads has admissible operands, and is written as the word without its ignored bits (rule R171). -/
theorem decode_instr {w : Word} {i : Instr} (h : f.decode w = .instr i) :
    ∃ c a b k, i = f.make c a b k ∧ f.admits k = true ∧ f.encode (opcodeField w) c a b k = w &&& ~~~f.ignored := by
  cases f with
  | r mk =>
    simp only [decode, decodeR] at h
    split at h
    · rename_i c a b hc ha hb
      cases h
      exact ⟨c, a, b, 0, rfl, rfl, encodeR_fields w (regBits_of_regOfField hc) (regBits_of_regOfField ha)
        (regBits_of_regOfField hb)⟩
    · cases h
  | g mk =>
    simp only [decode, decodeG] at h
    split at h
    · rename_i c a hc ha
      cases h
      exact ⟨c, a, 0, immField w, rfl, immInRange_immField w,
        (encodeG_fields w (regBits_of_regOfField hc) (regBits_of_regOfField ha)).trans (and_not_zero w).symm⟩
    · cases h
  | lui =>
    simp only [decode, decodeLui] at h
    split at h
    · rename_i c hc
      cases h
      exact ⟨c, 0, 0, immField w, rfl, immInRange_immField w, encodeG_lui_fields w (regBits_of_regOfField hc)⟩
    · cases h
  | j mk =>
    cases h
    exact ⟨0, 0, 0, offsetField w, rfl, offsetInRange_offsetField w, encodeJ_fields w⟩
  | b i =>
    cases h
    exact ⟨0, 0, 0, 0, rfl, rfl, encodeB_fields w⟩

theorem refuses_r (mk : Reg → Reg → Reg → Instr) (w : Word) : (r mk).Refuses w ↔
    16 ≤ (rs3Field w).toNat ∨ 16 ≤ (rs1Field w).toNat ∨ 16 ≤ (rs2Field w).toNat := by
  simp [Refuses, registerTops, sixteen_le_rs3Field, sixteen_le_rs1Field, sixteen_le_rs2Field]

theorem refuses_g (mk : Reg → Reg → Int → Instr) (w : Word) : (g mk).Refuses w ↔
    16 ≤ (rs3Field w).toNat ∨ 16 ≤ (rs1Field w).toNat := by
  simp [Refuses, registerTops, sixteen_le_rs3Field, sixteen_le_rs1Field]

theorem refuses_lui (w : Word) : lui.Refuses w ↔ 16 ≤ (rs3Field w).toNat := by
  simp [Refuses, registerTops, sixteen_le_rs3Field]

theorem not_refuses_j (mk : Int → Instr) (w : Word) : ¬ (j mk).Refuses w := by simp [Refuses, registerTops]

theorem not_refuses_b (i : Instr) (w : Word) : ¬ (b i).Refuses w := by simp [Refuses, registerTops]

/-- A format refuses a word exactly for its used register fields, by name (rule R167). -/
theorem decode_cases (w : Word) :
    (f.Refuses w ∧ f.decode w = .illegal .noSuchRegister) ∨ (¬ f.Refuses w ∧ ∃ i, f.decode w = .instr i) := by
  cases f with
  | r mk =>
    simp only [refuses_r, ← regOfField_eq_none_iff, decode, decodeR]
    split
    · rename_i c a b hc ha hb
      exact .inr ⟨by simp [hc, ha, hb], _, rfl⟩
    · rename_i hnone
      refine .inl ⟨?_, rfl⟩
      by_contra! hall
      simp only [Option.ne_none_iff_exists'] at hall
      obtain ⟨⟨c, hc⟩, ⟨a, ha⟩, b, hb⟩ := hall
      exact hnone c a b hc ha hb
  | g mk =>
    simp only [refuses_g, ← regOfField_eq_none_iff, decode, decodeG]
    split
    · rename_i c a hc ha
      exact .inr ⟨by simp [hc, ha], _, rfl⟩
    · rename_i hnone
      refine .inl ⟨?_, rfl⟩
      by_contra! hall
      simp only [Option.ne_none_iff_exists'] at hall
      obtain ⟨⟨c, hc⟩, a, ha⟩ := hall
      exact hnone c a hc ha
  | lui =>
    simp only [refuses_lui, ← regOfField_eq_none_iff, decode, decodeLui]
    split
    · rename_i c hc
      exact .inr ⟨by simp [hc], _, rfl⟩
    · rename_i hc
      exact .inl ⟨hc, rfl⟩
  | j mk => exact .inr ⟨not_refuses_j mk w, _, rfl⟩
  | b i => exact .inr ⟨not_refuses_b i w, _, rfl⟩

/-- The fixed bits of a format below the opcode are the top bits of its register fields. -/
theorem mask_iff {n : Nat} (hn : n < 26) : f.mask.getLsbD n = true ↔ n ∈ f.registerTops := by
  cases f <;> revert n <;> simp only [mask, registerTops] <;> decide

/-- A word lies in a format's row exactly when it has the row's opcode and the format does not refuse it (rule R168). -/
theorem row_iff (op : BitVec 6) (w : Word) : w &&& f.mask = encodeB op ↔ opcodeField w = op ∧ ¬ f.Refuses w := by
  have hm : opcodeField f.mask = BitVec.allOnes 6 := by cases f <;> rw [mask] <;> decide
  have hlow : ∀ n ∈ f.registerTops, n < 26 := by cases f <;> simp [registerTops]
  rw [masked_eq_encodeB_iff hm, Refuses]
  refine and_congr_right fun _ => ⟨?_, fun h n hn hmn => ?_⟩
  · rintro h ⟨n, hn, hbit⟩
    rw [h n (hlow n hn) ((f.mask_iff (hlow n hn)).2 hn)] at hbit
    cases hbit
  · exact Bool.eq_false_iff.2 fun hbit => h ⟨n, (f.mask_iff hn).1 hmn, hbit⟩

end WordFormat

/-! ### The decoder as a whole -/

/-- What the decoder can answer, said once: an opcode without a format, an instruction of the opcode's format, or a word
that the format refuses (rules R166, R167). -/
theorem decode_outcomes (w : Word) :
    (formatOf (opcodeField w).toNat = none ∧ decode w = .illegal .unassignedOpcode) ∨
      ∃ f, formatOf (opcodeField w).toNat = some f ∧
        ((f.Refuses w ∧ decode w = .illegal .noSuchRegister) ∨ (¬ f.Refuses w ∧ ∃ i, decode w = .instr i)) := by
  cases h : formatOf (opcodeField w).toNat with
  | none => exact .inl ⟨rfl, decode_of_noFormat h⟩
  | some f => exact .inr ⟨f, rfl, decode_of_format h ▸ f.decode_cases w⟩

/-- A decoded word has a format, which makes the instruction. -/
theorem format_of_decode {w : Word} {i : Instr} (h : decode w = .instr i) :
    ∃ f, formatOf (opcodeField w).toNat = some f ∧ ¬ f.Refuses w ∧ f.decode w = .instr i := by
  obtain ⟨-, hd⟩ | ⟨f, hf, ⟨-, hd⟩ | ⟨hr, -⟩⟩ := decode_outcomes w
  · rw [h] at hd; cases hd
  · rw [h] at hd; cases hd
  · exact ⟨f, hf, hr, decode_of_format hf ▸ h⟩

theorem decode_unassigned_iff (w : Word) :
    decode w = .illegal .unassignedOpcode ↔ formatOf (opcodeField w).toNat = none := by
  obtain ⟨hf, hd⟩ | ⟨f, hf, ⟨-, hd⟩ | ⟨-, i, hd⟩⟩ := decode_outcomes w <;> simp [hf, hd]

theorem decode_noSuchRegister_iff (w : Word) :
    decode w = .illegal .noSuchRegister ↔ ∃ f, formatOf (opcodeField w).toNat = some f ∧ f.Refuses w := by
  obtain ⟨hf, hd⟩ | ⟨f, hf, ⟨hr, hd⟩ | ⟨hr, i, hd⟩⟩ := decode_outcomes w
  · simp [hf, hd]
  · simp [hf, hd, hr]
  · simp [hf, hd, hr]

theorem decode_instr_iff (w : Word) :
    (∃ i, decode w = .instr i) ↔ ∃ f, formatOf (opcodeField w).toNat = some f ∧ ¬ f.Refuses w := by
  obtain ⟨hf, hd⟩ | ⟨f, hf, ⟨hr, hd⟩ | ⟨hr, i, hd⟩⟩ := decode_outcomes w
  · simp [hf, hd]
  · simp [hf, hd, hr]
  · simp [hf, hd, hr]

/-- What is decoded is well-formed, and is encoded as the word without its ignored bits (rule R171). -/
theorem decode_wellFormed {w : Word} {i : Instr} (h : decode w = .instr i) :
    i.wellFormed = true ∧ encode i = w &&& ~~~(ignoredBits i) := by
  obtain ⟨f, hf, -, hd⟩ := format_of_decode h
  obtain ⟨c, a, b, k, rfl, hk, hw⟩ := f.decode_instr hd
  have ht := tabled_of_format hf c a b k
  exact ⟨ht.wellFormed.trans hk, by rw [ht.encode, ht.ignored, hw]⟩

/-- Words that agree outside the ignored bits of an instruction decode alike: they have its opcode, and its format does not
read those bits (rule R168). -/
theorem decode_congr {w w' : Word} {i : Instr} (h : decode w = .instr i)
    (hw : w &&& ~~~(ignoredBits i) = w' &&& ~~~(ignoredBits i)) : decode w' = .instr i := by
  obtain ⟨f, hf, -, hd⟩ := format_of_decode h
  obtain ⟨c, a, b, k, rfl, -, -⟩ := f.decode_instr hd
  rw [(tabled_of_format hf c a b k).ignored] at hw
  have hop : opcodeField w' = opcodeField w := by rw [← f.opcodeField_masked w', ← hw, f.opcodeField_masked]
  rw [decode_of_format (hop ▸ hf), ← f.decode_masked, ← hw, f.decode_masked, hd]

/-- A well-formed instruction's word decodes to it (rule R171). -/
theorem decode_encode {i : Instr} (h : i.wellFormed = true) : decode (encode i) = .instr i := by
  obtain ⟨op, f, c, a, b, k, hf, rfl⟩ := exists_format i
  have ht := tabled_of_format hf c a b k
  rw [ht.encode, decode_of_format (f := f), f.decode_encode op c a b (ht.wellFormed ▸ h)]
  rwa [f.opcodeField_encode]

/-- The encoder writes 0 in every ignored bit (rule R171). -/
theorem encode_ignored (i : Instr) : encode i &&& ignoredBits i = 0#32 := by
  obtain ⟨op, f, c, a, b, k, hf, rfl⟩ := exists_format i
  have ht := tabled_of_format hf c a b k
  rw [ht.encode, ht.ignored, f.encode_ignored]

/-- A word without the bits `m` is the word itself exactly when it has 0 in them. -/
theorem and_not_eq_self_iff (w m : Word) : w &&& ~~~m = w ↔ w &&& m = 0#32 := by
  constructor
  · intro h
    rw [← h, BitVec.and_assoc]
    simp
  · intro h
    apply BitVec.eq_of_getLsbD_eq; intro n hn
    have hbit : (w.getLsbD n && m.getLsbD n) = false := by
      rw [← BitVec.getLsbD_and, h, BitVec.getLsbD_zero]
    rw [BitVec.getLsbD_and, BitVec.getLsbD_not]
    cases hmn : m.getLsbD n with
    | false => simp [hn]
    | true => rw [hmn, Bool.and_true] at hbit; simp [hbit]

/-- What is decoded lies in its instruction's row (rule R168). -/
theorem decode_row {w : Word} {i : Instr} (h : decode w = .instr i) :
    rowOf i ∈ opcodeRows ∧ w &&& (rowOf i).mask = (rowOf i).pattern := by
  obtain ⟨f, hf, hr, hd⟩ := format_of_decode h
  obtain ⟨c, a, b, k, rfl, -, -⟩ := f.decode_instr hd
  rw [(tabled_of_format hf c a b k).row]
  exact ⟨(mem_opcodeRows _).2 ⟨_, f, hf, rfl⟩, (f.row_iff _ w).2 ⟨rfl, hr⟩⟩

/-- A word of a row decodes (rule R168). -/
theorem decode_of_row {w : Word} {row : OpcodeRow} (hrow : row ∈ opcodeRows) (h : w &&& row.mask = row.pattern) :
    ∃ i, decode w = .instr i := by
  obtain ⟨op, f, hf, rfl⟩ := (mem_opcodeRows row).1 hrow
  obtain ⟨rfl, hr⟩ := (f.row_iff op w).1 h
  exact (decode_instr_iff w).2 ⟨f, hf, hr⟩

/-! ### The obligations -/

/-- Settles O1: each clause is the formats', the last because `encode i` is the word without its ignored bits. -/
theorem decodeEncodeRoundTrip : Obligations.DecodeEncodeRoundTrip := by
  refine ⟨encode_ignored, fun i => decode_encode, fun w i h => ?_⟩
  obtain ⟨hwf, henc⟩ := decode_wellFormed h
  exact ⟨hwf, by rw [henc, and_not_eq_self_iff]⟩

/-- Settles O2: a row is a format's opcode and the zero top bits of its register fields, and two words that agree outside
the ignored bits decode as the same masked word. -/
theorem decodeAcceptsTableRows : Obligations.DecodeAcceptsTableRows := by
  refine ⟨fun w => ⟨?_, ?_⟩, fun w i => decode_row, fun w w' i => decode_congr⟩
  · rintro ⟨i, h⟩
    exact ⟨rowOf i, decode_row h⟩
  · rintro ⟨row, hrow, h⟩
    exact decode_of_row hrow h

/-- The opcodes without a format are the 34 unassigned ones (rule R166). -/
theorem formatOf_eq_none_iff (op : BitVec 6) : formatOf op.toNat = none ↔
    op.toNat ∈ [0, 1, 24, 32, 33, 34, 35, 36, 37, 38, 39] ∨ 41 ≤ op.toNat := by
  rw [← Option.isNone_iff_eq_none]
  revert op; decide

/-- The used register fields by opcode (rule R167). -/
theorem format_refuses_iff (n : Nat) (w : Word) : (∃ f, formatOf n = some f ∧ f.Refuses w) ↔
    (n ∈ [2, 3, 4, 5, 6, 7, 8, 30, 31] ∧
      (16 ≤ (rs3Field w).toNat ∨ 16 ≤ (rs1Field w).toNat ∨ 16 ≤ (rs2Field w).toNat)) ∨
    ((9 ≤ n ∧ n ≤ 23) ∧ (16 ≤ (rs3Field w).toNat ∨ 16 ≤ (rs1Field w).toNat)) ∨
    (n = 26 ∧ 16 ≤ (rs3Field w).toNat) := by
  unfold formatOf
  split
  case h_31 =>
    simp only [imp_false] at *
    simp only [List.mem_cons, List.not_mem_nil, or_false, reduceCtorEq, false_and, exists_false, false_iff]
    omega
  all_goals simp [WordFormat.refuses_r, WordFormat.refuses_g, WordFormat.refuses_lui, WordFormat.not_refuses_j,
    WordFormat.not_refuses_b]

/-- Settles O3: an opcode is refused where it has no format, a register where the opcode's format uses its field. -/
theorem decodeNamesIllegalWords : Obligations.DecodeNamesIllegalWords := by
  intro w
  refine ⟨(decode_unassigned_iff w).trans (formatOf_eq_none_iff _), ?_⟩
  rw [decode_noSuchRegister_iff, format_refuses_iff]
  simp [and_assoc]

/-- Settles O4: the words are evaluated. -/
theorem workedEncodings : Obligations.WorkedEncodings := by
  unfold Obligations.WorkedEncodings
  decide

end Sys2Proof

/-! SUPPORT. The step on every state and the decode stage: every step answers, an illegal word is taken as a fault, and what
`ID_step` does in each of its cases (rules R164, R242, R256, R257, R259, R306). -/

namespace Sys2Proof.Machine

/-! ### The step (rules R9, R242, R306) -/

/-- Settles O6: the word fetched is run, and as an illegal word it is a fault without an access. -/
theorem stepTakesIllegalInstruction : Obligations.StepTakesIllegalInstruction := by
  intro s w why hh hr hw hd
  refine ⟨(fetchInstruction s).st, ?_, fetchInstruction_fetched s⟩
  rw [step_instruction hh hr, instructionStep_ok ((fetchInstruction_val s).trans hw), runWord, hd]
  dsimp only
  rw [faultWithoutAccess, (fetchInstruction_fetched s).pc]

theorem runWord_answers (w : Word) (s : State) : ∃ t, runWord w s = .next t := by
  unfold runWord
  split
  · rename_i i _
    obtain ⟨t, ht, -⟩ := exec_ended i s
    exact ⟨t, ht⟩
  · exact ⟨_, rfl⟩

theorem instructionStep_answers (s : State) : ∃ t, instructionStep s = .next t := by
  cases h : (fetchInstruction s).val with
  | ok w => rw [instructionStep_ok h]; exact runWord_answers w _
  | error f => exact ⟨_, instructionStep_error h⟩

/-- Every state has a next one (rules R164, R306). -/
theorem step_answers (s : State) : ∃ t, step s = .next t := by
  cases hh : s.halted with
  | some cause => exact ⟨s, step_halted (by rw [hh]; rfl)⟩
  | none =>
    cases hr : s.reading with
    | instruction => rw [step_instruction hh hr]; exact instructionStep_answers s
    | cycle => exact ⟨tick s, step_cycle hh hr⟩

/-- Settles O9, by induction on the number of steps. -/
theorem everyStepAnswers : Obligations.EveryStepAnswers := by
  intro n
  induction n with
  | zero => exact fun _ => trivial
  | succ n ih =>
    intro s
    obtain ⟨t, ht⟩ := step_answers s
    exact ⟨t, ht, ih t⟩

/-! ### The decode stage (rules R256, R257) -/

theorem idStep_held {s : State} (h : s.slots.ids = none ∨ s.slots.exs ≠ none) : idStep s = s := by
  unfold idStep
  split
  · rename_i i hi he
    simp [hi, he] at h
  · rfl

theorem idStep_occupied {s : State} {i : InFlight} (hi : s.slots.ids = some i) (he : s.slots.exs = none) :
    idStep s = decodeStage i s := by
  simp only [idStep, hi, he]

theorem decodeStage_faulted {i : InFlight} (s : State) (h : i.fault.isSome = true) :
    decodeStage i s = s.leaveDecode i := by
  rw [decodeStage, if_pos h]

/-- An illegal word carries its fault on (rules R166, R256). -/
theorem decodeStage_illegal {i : InFlight} (s : State) (hf : i.fault = none) (hd : ∀ d, decode i.word ≠ .instr d) :
    decodeStage i s = s.leaveDecode (i.withFault ⟨.illegalInstruction, i.word⟩) := by
  rw [decodeStage, if_neg (by simp [hf])]
  cases h : decode i.word with
  | illegal why => rfl
  | instr d => exact absurd h (hd d)

theorem decodeStage_stalled {i : InFlight} {d : Instr} {s : State} (hon : s.params.pipelineEnabled = true)
    (hf : i.fault = none) (hd : decode i.word = .instr d) (hz : hazard d s = true) :
    decodeStage i s =
      State.countDataStall { s with slots := { s.slots with ids := some { i with instr := some d } } } := by
  simp only [decodeStage, hf, hd, hon, hz, Option.isSome_none, Bool.false_eq_true, Bool.and_self, if_true, if_false]

theorem decodeStage_issued {i : InFlight} {d : Instr} {s : State} (hf : i.fault = none) (hd : decode i.word = .instr d)
    (hz : hazard d s = false) : decodeStage i s =
      State.leaveDecode { s with pending := markPending s.pending (destination d) } (readOperands i d s) := by
  simp only [decodeStage, hf, hd, hz, Option.isSome_none, Bool.false_eq_true, Bool.and_false, if_false]

/-- A hazard is a pending source or a pending destination (rule R257). -/
theorem hazard_iff (d : Instr) (s : State) : hazard d s = true ↔
    (∃ r ∈ sources d, s.isPending r = true) ∨ ∃ r, destination d = some r ∧ s.isPending r = true := by
  rw [hazard, Bool.or_eq_true, List.any_eq_true, Option.any_eq_true]

theorem noHazard {d : Instr} {s : State} (hsrc : ∀ r ∈ sources d, s.isPending r = false)
    (hdst : ∀ r, destination d = some r → s.isPending r = false) : hazard d s = false := by
  rw [Bool.eq_false_iff, Ne, hazard_iff]
  rintro (⟨r, hr, hp⟩ | ⟨r, hr, hp⟩)
  · rw [hsrc r hr] at hp; cases hp
  · rw [hdst r hr] at hp; cases hp

/-- An issued instruction marks its destination, r0 never (rules R27, R256). -/
theorem markPending_isPending (p : Vector Bool 16) (d : Option Reg) (r : Reg) :
    (markPending p d)[r.val] = (p[r.val] || (decide (d = some r) && decide (r ≠ 0))) := by
  rw [markPending_getElem]
  congr 1
  cases d with
  | none => rfl
  | some t =>
    by_cases ht : t = r
    · subst ht; simp [bne, beq_eq_decide]
    · simp [ht]

theorem readOperands_marked (i : InFlight) (d : Instr) (s : State) :
    (readOperands i d s).marked = true ↔ ∃ r, destination d = some r ∧ r ≠ 0 := by
  simp [readOperands, Option.any_eq_true]

/-- Settles O55: the tables instruction by instruction, then the cases of `ID_step`. -/
theorem decodeInterlock : Obligations.DecodeInterlock := by
  refine ⟨?register, ?immediate, fun _ _ => ⟨rfl, rfl, rfl⟩, ?store, ?branch, ?plain, ?frame, fun s => idStep_held,
    fun s i hi he => ⟨fun hf => ?_, fun hf hd => ?_⟩, fun s i d hon hi he hf hd => ⟨fun hz => ?_, fun hsrc hdst => ?_⟩⟩
  case register | immediate | store | branch | plain | frame => simp [sources, destination, regFields, spReg]
  · rw [idStep_occupied hi he, decodeStage_faulted s hf]; rfl
  · rw [idStep_occupied hi he, decodeStage_illegal s hf hd]; rfl
  · rw [idStep_occupied hi he, decodeStage_stalled hon hf hd ((hazard_iff d s).2 hz)]
  · rw [idStep_occupied hi he, decodeStage_issued hf hd (noHazard hsrc hdst)]
    exact ⟨readOperands i d s, rfl, rfl, rfl, rfl, rfl, rfl, rfl, rfl, rfl, readOperands_marked i d s,
      markPending_isPending s.pending (destination d), rfl⟩

end Sys2Proof.Machine

/-! SUPPORT. The register-register instructions: their words, their results in the rules' arithmetic, and the fault of a zero
divisor (rules R161, R200 to R208, R305). With it the obligations on them. -/

namespace Sys2Proof.Machine

/-! ### The R format as the rules write it (rule R161) -/

theorem ofNat_val_eq_regBits (r : Reg) : BitVec.ofNat 32 r.val = (regBits r).setWidth 32 := by
  revert r; decide

theorem regAt_bit (r : Reg) (p : Nat) {k : Nat} (hk : k < 32) :
    (regAt r p).getLsbD k = (!decide (k < p) && (regBits r).getLsbD (k - p)) := by
  simp [regAt, ofNat_val_eq_regBits, hk]

/-- The fields of an R word do not overlap, so that joining them and or-ing them give the same word. -/
theorem encodeR_eq_rWord (op : BitVec 6) (c a b : Reg) : encodeR op c a b = rWord (encodeB op) c a b := by
  apply BitVec.eq_of_getLsbD_eq
  intro k hk
  simp only [rWord, BitVec.getLsbD_or, encodeR_bit, encodeB_bit, regAt_bit _ _ hk]
  interval_cases k <;> simp

/-! ### Completion with a result (rule R262) -/

theorem Completes.of_result {i : Instr} {s : State} {rd : Reg} {v : Word} {post : State → Prop}
    (h : exec i s = writeResult rd v s) (hpost : ∀ t, RegisterResult s t rd v → post t) : Completes i s post := by
  obtain ⟨t, ht, hres⟩ := writeResult_spec rd v s
  exact ⟨t, h.trans ht, hpost t hres⟩

/-! ### Results (rules R200 to R208) -/

theorem addResult_ofNat (a b : Word) : addResult a b = BitVec.ofNat 32 (a.toNat + b.toNat) := BitVec.add_def a b

theorem subResult_ofInt (a b : Word) : subResult a b = BitVec.ofInt 32 (a.toNat - b.toNat) := by
  rw [sub_eq_add_neg, BitVec.ofInt_add, BitVec.ofInt_neg, subResult, BitVec.sub_eq_add_neg]
  simp

theorem mulResult_ofNat (a b : Word) : mulResult a b = BitVec.ofNat 32 (a.toNat * b.toNat) := by
  simp [mulResult, BitVec.ofNat_mul]

/-- The low 32 bits of the product do not depend on the signedness (rule R207). -/
theorem mulResult_ofInt (a b : Word) : mulResult a b = BitVec.ofInt 32 (a.toInt * b.toInt) := by
  rw [BitVec.ofInt_mul, BitVec.ofInt_toInt, BitVec.ofInt_toInt, mulResult]

theorem shiftAmount_eq (b : Word) : shiftAmount b = b.toNat % 32 := by
  simp [shiftAmount]

theorem shrResult_ofNat (a b : Word) : shrResult a b = BitVec.ofNat 32 (a.toNat / 2 ^ (b.toNat % 32)) := by
  rw [shrResult, shiftAmount_eq, ← Nat.shiftRight_eq_div_pow, ← BitVec.toNat_ushiftRight,
    BitVec.ofNat_toNat, BitVec.setWidth_eq]

theorem shlResult_ofNat (a b : Word) : shlResult a b = BitVec.ofNat 32 (a.toNat * 2 ^ (b.toNat % 32)) := by
  rw [shlResult, shiftAmount_eq, ← Nat.shiftLeft_eq]
  rfl

theorem ofInt_tdiv (a b : Word) : BitVec.ofInt 32 (a.toInt.tdiv b.toInt) = a.sdiv b :=
  BitVec.eq_of_toInt_eq (by rw [BitVec.toInt_ofInt, BitVec.toInt_sdiv])

theorem divResult_sdiv {a b : Word} (hb : b ≠ 0#32) : divResult a b = some (a.sdiv b) := by
  rw [divResult, if_neg hb, ofInt_tdiv]

/-! ### DIV (rules R208, R305) -/

theorem exec_div_quotient {ra rb : Reg} {s : State} (rd : Reg) (h : s.reg rb ≠ 0#32) :
    exec (.div rd ra rb) s = writeResult rd ((s.reg ra).sdiv (s.reg rb)) s := by
  show execDiv rd ra rb s = _
  rw [execDiv, divResult_sdiv h]

theorem exec_div_zero {rb : Reg} {s : State} (rd ra : Reg) (h : s.reg rb = 0#32) :
    exec (.div rd ra rb) s = .next (takeFault .divideByZero s.pc 0#32 s.passStages) := by
  show execDiv rd ra rb s = _
  rw [execDiv, divResult, if_pos h, faultWithoutAccess]

theorem State.reg_congr {s t : State} (h : t.x = s.x) (r : Reg) : t.reg r = s.reg r := by
  unfold State.reg; rw [h]

/-- A trap moves no register but the stack pointer (rules R308 to R311). -/
theorem TrapSpec.reg_ne_spReg {s t : State} (h : TrapSpec s t) {q : Reg} (hq : q ≠ spReg) : t.reg q = s.reg q := by
  obtain ⟨-, hx, -⟩ | ⟨-, hx, -⟩ := h.outcome
  · exact State.reg_congr hx q
  · exact (State.reg_congr hx q).trans (State.setReg_reg_ne _ _ _ hq)

theorem takeFault_reg_ne_spReg (kind : FaultKind) (ipc info : Word) (s : State) {q : Reg} (hq : q ≠ spReg) :
    (takeFault kind ipc info s).reg q = s.reg q :=
  (takeFault_spec kind ipc info s).reg_ne_spReg hq

/-! ### The obligations -/

/-- Settles O10: each result is the rule's, written by one `writeResult`. -/
theorem addSubMulResults : Obligations.AddSubMulResults := by
  intro rd ra rb s
  refine ⟨encodeR_eq_rWord 0b000010#6 rd ra rb, encodeR_eq_rWord 0b000011#6 rd ra rb, encodeR_eq_rWord 0b011110#6 rd ra rb,
    .of_result (v := addResult (s.reg ra) (s.reg rb)) rfl fun t h => ?add,
    .of_result (v := subResult (s.reg ra) (s.reg rb)) rfl fun t h => ?sub,
    .of_result (v := mulResult (s.reg ra) (s.reg rb)) rfl fun t h => ⟨?unsigned, ?signed⟩⟩
  case add => rwa [addResult_ofNat] at h
  case sub => rwa [subResult_ofInt] at h
  case unsigned => rwa [mulResult_ofNat] at h
  case signed => rwa [mulResult_ofInt] at h

/-- Settles O11: the bitwise operations of the library, bit by bit. -/
theorem xorOrAndResults : Obligations.XorOrAndResults := by
  intro rd ra rb s
  exact ⟨encodeR_eq_rWord 0b000100#6 rd ra rb, encodeR_eq_rWord 0b000101#6 rd ra rb, encodeR_eq_rWord 0b000110#6 rd ra rb,
    .of_result rfl fun t h => ⟨_, h, fun _ _ => BitVec.getLsbD_xor⟩,
    .of_result rfl fun t h => ⟨_, h, fun _ _ => BitVec.getLsbD_or⟩,
    .of_result rfl fun t h => ⟨_, h, fun _ _ => BitVec.getLsbD_and⟩⟩

/-- Settles O12: a shift by the low five bits divides or multiplies by a power of two. -/
theorem shiftResults : Obligations.ShiftResults := by
  intro rd ra rb s
  refine ⟨encodeR_eq_rWord 0b000111#6 rd ra rb, encodeR_eq_rWord 0b001000#6 rd ra rb,
    .of_result (v := shrResult (s.reg ra) (s.reg rb)) rfl fun t h => ?shr,
    .of_result (v := shlResult (s.reg ra) (s.reg rb)) rfl fun t h => ?shl⟩
  case shr => rwa [shrResult_ofNat] at h
  case shl => rwa [shlResult_ofNat] at h

/-- Settles O13: the quotient is signed division, exact outside the one overflow; a zero divisor is a fault, and a fault
moves no register but the stack pointer. -/
theorem divResults : Obligations.DivResults := by
  intro rd ra rb s
  refine ⟨encodeR_eq_rWord 0b011111#6 rd ra rb, fun hb => .of_result (exec_div_quotient rd hb) fun t h =>
    ⟨_, h, (ofInt_tdiv _ _).symm, ?overflow, BitVec.toInt_sdiv_of_ne_or_ne _ _⟩,
    fun hb => ⟨exec_div_zero rd ra hb, fun q hq => takeFault_reg_ne_spReg _ _ _ _ hq⟩⟩
  case overflow =>
    intro ha hm
    rw [ha, hm]
    decide

end Sys2Proof.Machine

/-! SUPPORT. The register-immediate instructions: the G format as the rules write it, the sign-extended immediate bit by bit,
and the results (rules R161, R162, R210 to R216). With it the obligations on them. -/

namespace Sys2Proof.Machine

/-! ### The sign-extended immediate (rule R162) -/

theorem immWord_eq_signExtend {imm : Int} (hr : immInRange imm = true) :
    immWord imm = (BitVec.ofInt 16 imm).signExtend 32 := by
  rw [BitVec.signExtend, toInt_ofInt_imm hr, immWord]

/-- Above bit 15 stand copies of bit 15. -/
theorem immWord_bit {imm : Int} (hr : immInRange imm = true) {k : Nat} (hk : k < 32) :
    (immWord imm).getLsbD k = (BitVec.ofInt 16 imm).getLsbD (min k 15) := by
  rw [immWord_eq_signExtend hr, BitVec.getLsbD_signExtend, decide_eq_true hk, Bool.true_and]
  by_cases hlow : k < 16
  · rw [if_pos hlow, min_eq_left (by omega)]
  · rw [if_neg hlow, min_eq_right (by omega), BitVec.msb_eq_getLsbD_last]

/-! ### The G format as the rules write it (rule R161) -/

/-- The fields of a G word do not overlap, and its immediate field holds the low 16 bits of the immediate's word. -/
theorem encodeG_eq_gWord (op : BitVec 6) (c a : Reg) {imm : Int} (hr : immInRange imm = true) :
    encodeG op c a imm = gWord (encodeB op) c a imm := by
  apply BitVec.eq_of_getLsbD_eq
  intro k hk
  have himm : (BitVec.ofInt 32 imm).getLsbD k = (BitVec.ofInt 16 imm).getLsbD (min k 15) := immWord_bit hr hk
  simp only [gWord, BitVec.getLsbD_or, BitVec.getLsbD_and, encodeG_bit, encodeB_bit, regAt_bit _ _ hk, himm]
  interval_cases k <;> simp

/-! ### Results (rules R211 to R216) -/

theorem addiResult_ofInt (a : Word) (imm : Int) : addiResult a imm = BitVec.ofInt 32 (a.toInt + imm) := by
  rw [BitVec.ofInt_add, BitVec.ofInt_toInt, addiResult, immWord]

theorem subiResult_ofInt (a : Word) (imm : Int) : subiResult a imm = BitVec.ofInt 32 (a.toInt - imm) := by
  rw [sub_eq_add_neg, BitVec.ofInt_add, BitVec.ofInt_neg, BitVec.ofInt_toInt, subiResult, immWord, BitVec.sub_eq_add_neg]

theorem luiResult_ofInt (imm : Int) : luiResult imm = BitVec.ofInt 32 (imm * 4096) := by
  rw [luiResult, immWord, BitVec.shiftLeft_eq_mul_twoPow, BitVec.ofInt_mul]
  rfl

section
variable {imm : Int} (hr : immInRange imm = true) {k : Nat} (hk : k < 32)
include hr hk

theorem xoriResult_bit (a : Word) :
    (xoriResult a imm).getLsbD k = (a.getLsbD k != (BitVec.ofInt 16 imm).getLsbD (min k 15)) := by
  rw [xoriResult, BitVec.getLsbD_xor, immWord_bit hr hk]

theorem oriResult_bit (a : Word) :
    (oriResult a imm).getLsbD k = (a.getLsbD k || (BitVec.ofInt 16 imm).getLsbD (min k 15)) := by
  rw [oriResult, BitVec.getLsbD_or, immWord_bit hr hk]

theorem andiResult_bit (a : Word) :
    (andiResult a imm).getLsbD k = (a.getLsbD k && (BitVec.ofInt 16 imm).getLsbD (min k 15)) := by
  rw [andiResult, BitVec.getLsbD_and, immWord_bit hr hk]

/-- From bit 12 on, LUI's result is the immediate's word (rule R211). -/
theorem luiResult_bit_high (hhigh : 12 ≤ k) :
    (luiResult imm).getLsbD k = (BitVec.ofInt 16 imm).getLsbD (min (k - 12) 15) := by
  rw [luiResult, BitVec.getLsbD_shiftLeft, immWord_bit hr (by omega)]
  simp [hk, hhigh]

end

theorem luiResult_bit_low (imm : Int) {k : Nat} (hlow : k < 12) : (luiResult imm).getLsbD k = false := by
  simp [luiResult, hlow]

/-! ### The obligations -/

/-- Settles O14: `BitVec.ofInt` turns the sum and the difference into those of the words. -/
theorem addiSubiResults : Obligations.AddiSubiResults := by
  intro rd ra imm s hr
  refine ⟨encodeG_eq_gWord 0b001001#6 rd ra hr, encodeG_eq_gWord 0b001010#6 rd ra hr,
    .of_result (v := addiResult (s.reg ra) imm) rfl fun t h => ?addi,
    .of_result (v := subiResult (s.reg ra) imm) rfl fun t h => ?subi⟩
  case addi => rwa [addiResult_ofInt] at h
  case subi => rwa [subiResult_ofInt] at h

/-- Settles O15: each bit is the operation's on the bits of the sign-extended immediate. -/
theorem xoriOriAndiResults : Obligations.XoriOriAndiResults := by
  intro rd ra imm s hr
  exact ⟨encodeG_eq_gWord 0b001011#6 rd ra hr, encodeG_eq_gWord 0b001100#6 rd ra hr, encodeG_eq_gWord 0b001101#6 rd ra hr,
    .of_result rfl fun t h => ⟨_, h, fun _ hk => xoriResult_bit hr hk _⟩,
    .of_result rfl fun t h => ⟨_, h, fun _ hk => oriResult_bit hr hk _⟩,
    .of_result rfl fun t h => ⟨_, h, fun _ hk => andiResult_bit hr hk _⟩⟩

/-- Settles O16: the result is the sign-extended immediate moved up by 12 bits. (`luiResult` is the model's function.) -/
theorem luiResult_holds : Obligations.LuiResult := by
  intro rd imm s hr
  refine ⟨encodeG_eq_gWord 0b011010#6 rd 0 hr, .of_result (v := luiResult imm) rfl fun t h =>
    ⟨_, h, luiResult_ofInt imm, fun k hk => luiResult_bit_low imm hk, fun k hk => ?immediate, fun k hlo hhi => ?sign⟩⟩
  case immediate => rw [luiResult_bit_high hr (by omega) (by omega), Nat.add_sub_cancel_left, min_eq_left (by omega)]
  case sign => rw [luiResult_bit_high hr hhi (by omega), min_eq_right (by omega)]

end Sys2Proof.Machine

/-! SUPPORT. Branches, jumps, calls and returns: the J format as the rules write it, a transfer decided by a condition, the
checks of a frame in their order, and the frame pushed and popped (rules R161, R163, R230 to R240). With it the obligations
on them. -/

namespace Sys2Proof.Machine

/-! ### The J format as the rules write it (rules R161, R163) -/

theorem offsetWord_eq_signExtend {offset : Int} (hr : offsetInRange offset = true) :
    offsetWord offset = (BitVec.ofInt 21 offset).signExtend 32 := by
  rw [BitVec.signExtend, toInt_ofInt_offset hr, offsetWord]

/-- The offset field of a J word holds the low 21 bits of the offset's word, and the bits above it are 0. -/
theorem encodeJ_eq_jWord (op : BitVec 6) {offset : Int} (hr : offsetInRange offset = true) :
    encodeJ op offset = jWord (encodeB op) offset := by
  apply BitVec.eq_of_getLsbD_eq
  intro k hk
  have hoff : BitVec.ofInt 32 offset = (BitVec.ofInt 21 offset).signExtend 32 := offsetWord_eq_signExtend hr
  simp only [jWord, hoff, BitVec.getLsbD_or, BitVec.getLsbD_and, encodeJ_bit, encodeB_bit, BitVec.getLsbD_signExtend]
  interval_cases k <;> simp

/-! ### Transfers of control (rules R230, R232 to R236, R240) -/

theorem Completes.of_transfer {i : Instr} {s : State} {target : Word} (h : exec i s = transferTo target s) :
    Completes i s (fun t => ControlResult s t target) := by
  obtain ⟨t, ht, hres⟩ := transferTo_spec target s
  exact ⟨t, h.trans ht, hres⟩

/-- A branch whose decision is the condition `p` goes to its own address plus the immediate exactly where `p` holds. -/
theorem Completes.of_branch {i : Instr} {s : State} {taken : Bool} {imm : Int} {p : Prop} [Decidable p]
    (h : exec i s = branchIf taken imm s) (hp : taken = true ↔ p) :
    Completes i s (fun t => ControlResult s t (if p then s.pc + BitVec.ofInt 32 imm else s.pc + 4#32)) := by
  have htarget : (if taken then branchTarget s.pc imm else nextAddress s.pc) =
      if p then s.pc + BitVec.ofInt 32 imm else s.pc + 4#32 := if_congr hp rfl rfl
  rw [branchIf, htarget] at h
  exact .of_transfer h

theorem bneTaken_iff (c a : Word) : bneTaken c a = true ↔ c ≠ a := bne_iff_ne

theorem beqTaken_iff (c a : Word) : beqTaken c a = true ↔ c = a := beq_iff_eq

theorem bltTaken_iff (c a : Word) : bltTaken c a = true ↔ c.toInt < a.toInt := decide_eq_true_iff

theorem bgtTaken_iff (c a : Word) : bgtTaken c a = true ↔ a.toInt < c.toInt := decide_eq_true_iff

/-- Settles O21: each branch is a transfer decided by its condition. -/
theorem branchesDecide : Obligations.BranchesDecide := by
  intro rc ra imm s hr
  exact ⟨encodeG_eq_gWord 0b010100#6 rc ra hr, encodeG_eq_gWord 0b010101#6 rc ra hr, encodeG_eq_gWord 0b010110#6 rc ra hr,
    encodeG_eq_gWord 0b010111#6 rc ra hr,
    .of_branch rfl (bneTaken_iff _ _), .of_branch rfl (beqTaken_iff _ _), .of_branch rfl (bltTaken_iff _ _),
    .of_branch rfl (bgtTaken_iff _ _)⟩

/-- Settles O22: both are transfers without a condition. -/
theorem jmprAndNop : Obligations.JmprAndNop :=
  ⟨fun _ _ hr => ⟨encodeJ_eq_jWord 0b011001#6 hr, .of_transfer rfl⟩, rfl, fun _ => .of_transfer rfl⟩

/-! ### The checks of a frame (rules R237, R238, R314) -/

theorem Timed.eq_of_val {α : Type} {r : Timed α} {v : α} (h : r.val = v) : r = ⟨v, r.lat, r.st⟩ := by
  cases r; cases h; rfl

section
variable {acc : Access} {sp pa0 pa1 : Word} {f : FaultRec} {s : State}

/-- Where the first word's translation fails, the second is not made (log entry 6). -/
theorem translateFrame_first (h0 : (translate acc sp s).val = .error f) :
    translateFrame acc sp s = ⟨.error f, (translate acc sp s).lat, (translate acc sp s).st⟩ := by
  simp only [translateFrame, h0]

theorem translateFrame_second (h0 : (translate acc sp s).val = .ok pa0)
    (h1 : (translate acc (sp + 4#32) (translate acc sp s).st).val = .error f) :
    translateFrame acc sp s =
      ⟨.error f, (translate acc sp s).lat + (translate acc (sp + 4#32) (translate acc sp s).st).lat,
        (translate acc (sp + 4#32) (translate acc sp s).st).st⟩ := by
  simp only [translateFrame, framePcAddress, h0, h1]

theorem translateFrame_misaligned (h0 : (translate acc sp s).val = .ok pa0)
    (h1 : (translate acc (sp + 4#32) (translate acc sp s).st).val = .ok pa1) (ha : aligned sp .word = false) :
    translateFrame acc sp s =
      ⟨.error ⟨.alignmentFault, sp⟩,
        (translate acc sp s).lat + (translate acc (sp + 4#32) (translate acc sp s).st).lat,
        (translate acc (sp + 4#32) (translate acc sp s).st).st⟩ := by
  simp [translateFrame, framePcAddress, h0, h1, ha]

theorem translateFrame_passed (h0 : (translate acc sp s).val = .ok pa0)
    (h1 : (translate acc (sp + 4#32) (translate acc sp s).st).val = .ok pa1) (ha : aligned sp .word = true) :
    translateFrame acc sp s =
      ⟨.ok (pa0, pa1), (translate acc sp s).lat + (translate acc (sp + 4#32) (translate acc sp s).st).lat,
        (translate acc (sp + 4#32) (translate acc sp s).st).st⟩ := by
  simp [translateFrame, framePcAddress, h0, h1, ha]

/-- A frame fails by the first of its three checks that fails. -/
theorem translateFrame_error (h : (translateFrame acc sp s).val = .error f) :
    (translate acc sp s).val = .error f ∨
      (∃ pa0, (translate acc sp s).val = .ok pa0 ∧
        (translate acc (sp + 4#32) (translate acc sp s).st).val = .error f) ∨
      (∃ pa0 pa1, (translate acc sp s).val = .ok pa0 ∧
        (translate acc (sp + 4#32) (translate acc sp s).st).val = .ok pa1 ∧
        sp.toNat % 4 ≠ 0 ∧ f = ⟨.alignmentFault, sp⟩) := by
  cases h0 : (translate acc sp s).val with
  | error g =>
    rw [translateFrame_first h0] at h
    cases h
    exact .inl rfl
  | ok pa0 =>
    cases h1 : (translate acc (sp + 4#32) (translate acc sp s).st).val with
    | error g =>
      rw [translateFrame_second h0 h1] at h
      cases h
      exact .inr (.inl ⟨pa0, rfl, rfl⟩)
    | ok pa1 =>
      cases ha : aligned sp .word with
      | true =>
        rw [translateFrame_passed h0 h1 ha] at h
        cases h
      | false =>
        rw [translateFrame_misaligned h0 h1 ha] at h
        cases h
        exact .inr (.inr ⟨pa0, pa1, rfl, rfl, (aligned_eq_false_iff sp .word).1 ha, rfl⟩)

end

/-! ### The frame pushed and popped (rules R237, R238, R261) -/

section
variable {sp pa0 pa1 : Word} {f : FaultRec} {lat : Nat} {s u : State}

theorem pushFrame_failed (savedPc : Word) (h : translateFrame .store sp s = ⟨.error f, lat, u⟩) :
    pushFrame sp savedPc s = ⟨.error f, max lat 1, u⟩ := by
  unfold pushFrame
  rw [h]

theorem pushFrame_passed (savedPc : Word) (h : translateFrame .store sp s = ⟨.ok (pa0, pa1), lat, u⟩) :
    pushFrame sp savedPc s =
      ⟨.ok (), lat + (writeFrame pa0 pa1 (flagsWord s.priv) savedPc u).lat,
        (writeFrame pa0 pa1 (flagsWord s.priv) savedPc u).st⟩ := by
  unfold pushFrame
  rw [h]

theorem popFrame_failed (h : translateFrame .load sp s = ⟨.error f, lat, u⟩) :
    popFrame sp s = ⟨.error f, max lat 1, u⟩ := by
  unfold popFrame
  rw [h]

theorem popFrame_passed (h : translateFrame .load sp s = ⟨.ok (pa0, pa1), lat, u⟩) :
    popFrame sp s =
      ⟨.ok ((physRead .load pa0 .word u).val, (physRead .load pa1 .word (physRead .load pa0 .word u).st).val),
        lat + (physRead .load pa0 .word u).lat + (physRead .load pa1 .word (physRead .load pa0 .word u).st).lat,
        (physRead .load pa1 .word (physRead .load pa0 .word u).st).st⟩ := by
  unfold popFrame
  rw [h]

end

/-! ### CALL and RET by the outcome of their memory action (rules R237, R238) -/

section
variable {lat : Nat} {s u : State} {f : FaultRec}

theorem exec_call_pushed {offset : Int}
    (h : pushFrame (s.reg spReg - 8#32) (s.pc + 4#32) s.reachMemory = ⟨.ok (), lat, u⟩) :
    exec (.call offset) s =
      .next (((u.serveMemory lat).setReg spReg (s.reg spReg - 8#32)).retireTo (s.pc + BitVec.ofInt 32 offset)) := by
  change execCall offset s = _
  unfold execCall pushedSp nextAddress
  dsimp only
  rw [h]
  rfl

theorem exec_call_failed {offset : Int}
    (h : pushFrame (s.reg spReg - 8#32) (s.pc + 4#32) s.reachMemory = ⟨.error f, lat, u⟩) :
    exec (.call offset) s = .next (takeFault f.kind s.pc f.info (u.serveMemory lat)) := by
  change execCall offset s = _
  unfold execCall pushedSp nextAddress
  dsimp only
  rw [h]

theorem exec_ret_popped {flags target : Word}
    (h : popFrame (s.reg spReg) s.reachMemory = ⟨.ok (flags, target), lat, u⟩) :
    exec .ret s = .next ((State.setReg { u.serveMemory lat with priv := privilegeOfFlags flags } spReg
      (s.reg spReg + 8#32)).retireTo target) := by
  change execRet s = _
  unfold execRet
  dsimp only
  rw [h]
  rfl

theorem exec_ret_failed (h : popFrame (s.reg spReg) s.reachMemory = ⟨.error f, lat, u⟩) :
    exec .ret s = .next (takeFault f.kind s.pc f.info (u.serveMemory lat)) := by
  change execRet s = _
  unfold execRet
  dsimp only
  rw [h]

end

/-- Settles O25: both take the fault that their frame's checks give, after the walk's reads alone. -/
theorem frameFaults : Obligations.FrameFaults := by
  intro offset s i acc sp f hi hf
  have hexec : exec i s = .next (takeFault f.kind s.pc f.info
      ((translateFrame acc sp s.reachMemory).st.serveMemory (max (translateFrame acc sp s.reachMemory).lat 1))) := by
    simp only [List.mem_cons, Prod.mk.injEq, List.not_mem_nil, or_false] at hi
    obtain ⟨rfl, rfl, rfl⟩ | ⟨rfl, rfl, rfl⟩ := hi
    · exact exec_call_failed (pushFrame_failed _ (Timed.eq_of_val hf))
    · exact exec_ret_failed (popFrame_failed (Timed.eq_of_val hf))
  have hserved := serveMemory_walkServed (translateFrame_read acc sp s.reachMemory)
    (max (translateFrame acc sp s.reachMemory).lat 1)
  exact ⟨translateFrame_error hf, _, hexec, hserved.x, hserved.pc, hserved.priv, hserved.halted, hserved.retired,
    hserved.view, hserved.exitRequested, hserved.vgaEvents, hserved.mmioPending, hserved.prngState⟩

/-! ### CALL completes (rules R231, R237) -/

/-- The return address of an aligned CALL is no command of the control register (rule R67, log entry 11). -/
theorem returnAddress_command {pc : Word} (h : pc.toNat % 4 = 0) (k : Byte) (hk : k = 0x41#8 ∨ k = 0x42#8 ∨ k = 0x43#8) :
    (byteOf (pc + 4#32) 0 == k) = false := by
  have hlow : (byteOf (pc + 4#32) 0).toNat % 4 = 0 := by
    simp only [byteOf, BitVec.extractLsb'_toNat, BitVec.toNat_add, BitVec.toNat_ofNat, Nat.mul_zero, Nat.shiftRight_zero]
    omega
  have hne : byteOf (pc + 4#32) 0 ≠ k := by
    rintro rfl
    rcases hk with hk | hk | hk <;> rw [hk] at hlow <;> exact absurd hlow (by decide)
  exact beq_false_of_ne hne

theorem callResult_of_write {s u : State} {pa0 pa1 : Word} (hw : WriteSpec s.reachMemory u)
    (hf : FrameStored s u pa0 pa1 (flagsWord s.priv) (s.pc + 4#32)) (lat : Nat) (target : Word) :
    CallResult s (((u.serveMemory lat).setReg spReg (s.reg spReg - 8#32)).retireTo target) pa0 pa1 target where
  sp := (u.serveMemory lat).setReg_reg_self spReg _
  otherRegisters q hq := ((u.serveMemory lat).setReg_reg_ne spReg _ hq).trans (hw.frame.reg q)
  pc := rfl
  fpc := rfl
  frame := ⟨hf.flagsWord, hf.pcWord, hf.elsewhere, hf.vgaEvents, hf.exitRequested⟩
  machine := ⟨hw.frame.params, hw.frame.reading, hw.frame.ptbr, hw.frame.priv, hw.frame.pending, hw.frame.slots,
    hw.frame.faultInfo, hw.frame.halted⟩
  retired := congrArg (· + 1) hw.retired

/-- CALL completes where its frame passes the checks; the two stores give no command where the frame's second word lies
outside the control register or the CALL is aligned. -/
theorem call_completes (offset : Int) {s : State} {pa0 pa1 : Word} (hs : StoreSound s)
    (h : (translateFrame .store (s.reg spReg - 8#32) s.reachMemory).val = .ok (pa0, pa1)) :
    Completes (.call offset) s (fun t => CallResult s t pa0 pa1 (s.pc + BitVec.ofInt 32 offset) ∧
      t.prngState = (translateFrame .store (s.reg spReg - 8#32) s.reachMemory).st.prngState ∧
      (isCtrl pa1 = false ∨ s.pc.toNat % 4 = 0 →
        t.exitRequested = s.exitRequested ∧
        t.mmioPending = (translateFrame .store (s.reg spReg - 8#32) s.reachMemory).st.mmioPending)) := by
  obtain ⟨-, ha0, ha1, h0, h1⟩ := translateFrame_ok h
  have hpush := pushFrame_passed (s.pc + 4#32) (Timed.eq_of_val h)
  rw [State.reachMemory_priv] at hpush
  have hwalk := translateFrame_read .store (s.reg spReg - 8#32) s.reachMemory
  have hsr : StoreSound s.reachMemory := hs.congr rfl rfl rfl
  generalize (translateFrame .store (s.reg spReg - 8#32) s.reachMemory).st = u at *
  obtain ⟨hframe, hprng, hmmio⟩ := writeFrame_spec (s := s) (p := s.priv) (savedPc := s.pc + 4#32) h0 h1 ha0 ha1
    (hwalk.sound hsr) (hwalk.view hsr) hwalk.frame.exitRequested hwalk.frame.vgaEvents
  have hwrite := hwalk.toWrite.trans (writeFrame_write (flagsWord s.priv) (s.pc + 4#32) u ha0 ha1)
  generalize (writeFrame pa0 pa1 (flagsWord s.priv) (s.pc + 4#32) u).st = w at *
  refine ⟨_, exec_call_pushed hpush, callResult_of_write hwrite hframe _ _, hprng, fun hplain => ?_⟩
  have hcommand : ∀ k, k = 0x41#8 ∨ k = 0x42#8 ∨ k = 0x43#8 →
      (isCtrl pa1 && byteOf (s.pc + 4#32) 0 == k) = false := by
    intro k hk
    obtain hc | hpc := hplain
    · rw [hc, Bool.false_and]
    · rw [returnAddress_command hpc k hk, Bool.and_false]
  constructor
  · refine hframe.exitRequested.trans ?_
    rw [hcommand _ (by simp), Bool.or_false]
  · refine hmmio.trans ?_
    simp [hcommand _ (.inr (.inl rfl)), hcommand _ (.inr (.inr rfl))]

/-- Settles O23: the frame is written at its translated addresses, after reads alone. -/
theorem callPushesFrame : Obligations.CallPushesFrame :=
  fun offset _ _ _ hr hs h => ⟨encodeJ_eq_jWord 0b011011#6 hr, call_completes offset hs h⟩

/-! ### RET completes (rules R231, R238) -/

/-- A read that meets no pending command returns the view's word and leaves the devices (rules R68, R82). -/
theorem physRead_viewWord (kind : AccessKind) {pa : Word} {s : State} (hs : StoreSound s) (ha : aligned pa .word = true)
    (hp : s.mmioPending = none ∨ isCtrl pa = false) :
    (physRead kind pa .word s).val = s.viewWord pa ∧ (physRead kind pa .word s).st.mmioPending = s.mmioPending ∧
      (physRead kind pa .word s).st.prngState = s.prngState := by
  have hspec := physRead_spec kind pa .word s
  refine ⟨physRead_val kind hs ha hp.symm, ?_, hspec.prngState (hp.symm.imp_right fun h => by simp [h])⟩
  rw [hspec.mmioPending]
  obtain hp | hp := hp <;> simp [hp]

theorem ReadSpec.viewWord {s t : State} (h : ReadSpec s t) (hs : StoreSound s) (pa : Word) :
    t.viewWord pa = s.viewWord pa :=
  littleEndian_congr fun _ _ => h.view hs _

/-- The two words of a frame that are read without a pending command at them are the view's (rule R238). -/
theorem poppedWords_view {s : State} {pa0 pa1 : Word} (hs : StoreSound s) (ha0 : aligned pa0 .word = true)
    (ha1 : aligned pa1 .word = true) (hp : s.mmioPending = none ∨ (isCtrl pa0 = false ∧ isCtrl pa1 = false)) :
    (physRead .load pa0 .word s).val = s.viewWord pa0 ∧
      (physRead .load pa1 .word (physRead .load pa0 .word s).st).val = s.viewWord pa1 ∧
      (physRead .load pa1 .word (physRead .load pa0 .word s).st).st.mmioPending = s.mmioPending ∧
      (physRead .load pa1 .word (physRead .load pa0 .word s).st).st.prngState = s.prngState := by
  have hr := physRead_read .load pa0 .word s
  obtain ⟨hv0, hm0, hp0⟩ := physRead_viewWord .load hs ha0 (hp.imp_right And.left)
  obtain ⟨hv1, hm1, hp1⟩ := physRead_viewWord .load (hr.sound hs) ha1 (hp.imp hm0.trans And.right)
  exact ⟨hv0, hv1.trans (hr.viewWord hs pa1), hm1.trans hm0, hp1.trans hp0⟩

theorem returnResult_of_read {s u : State} (hs : StoreSound s) (hr : ReadSpec s.reachMemory u) (lat : Nat)
    (flags target : Word) :
    ReturnResult s ((State.setReg { u.serveMemory lat with priv := privilegeOfFlags flags } spReg
      (s.reg spReg + 8#32)).retireTo target) flags target where
  sp := State.setReg_reg_self _ spReg _
  otherRegisters q hq := (State.setReg_reg_ne _ spReg _ hq).trans (hr.frame.reg q)
  priv := rfl
  pc := rfl
  fpc := rfl
  memory := hr.view (hs.congr rfl rfl rfl)
  params := hr.frame.params
  reading := hr.frame.reading
  ptbr := hr.frame.ptbr
  pending := hr.frame.pending
  slots := hr.frame.slots
  faultInfo := hr.frame.faultInfo
  halted := hr.frame.halted
  exitRequested := hr.frame.exitRequested
  vgaEvents := hr.frame.vgaEvents
  retired := congrArg (· + 1) hr.retired

/-- Settles O24: the frame's words are two reads after the walk's, none of which changes the view. -/
theorem retPopsFrame : Obligations.RetPopsFrame := by
  intro s pa0 pa1 hs h
  obtain ⟨-, ha0, ha1, -, -⟩ := translateFrame_ok h
  have hpop := popFrame_passed (Timed.eq_of_val h)
  have hwalk := translateFrame_read .load (s.reg spReg) s.reachMemory
  have hsr : StoreSound s.reachMemory := hs.congr rfl rfl rfl
  have hread := (hwalk.trans (physRead_read .load pa0 .word _)).trans (physRead_read .load pa1 .word _)
  have hwords := poppedWords_view (hwalk.sound hsr) ha0 ha1
  rw [hwalk.viewWord hsr, hwalk.viewWord hsr] at hwords
  generalize (physRead .load pa1 .word (physRead .load pa0 .word _).st).st = w at *
  exact ⟨rfl, _, exec_ret_popped hpop, _, _, _, rfl, rfl, rfl, returnResult_of_read hs hread _ _ _, hwords⟩

/-! ### A RET after its CALL (rule R239) -/

/-- Bit 0 of a pushed flags word is the privilege that was pushed (rules R25, R231, R238). -/
theorem flagsWord_privilege (p : Privilege) : (if (flagsWord p).getLsbD 0 then .supervisor else .user) = p := by
  cases p <;> rfl

/-- Settles O44: RET pops from the address to which CALL pushed, and the words there are CALL's. -/
theorem callThenReturnResumes : Obligations.CallThenReturnResumes := by
  intro offset s hs hoff hal hc0 hc1
  have ha : aligned (s.reg spReg - 8#32) .word = true := (aligned_pushedSp _).trans ((aligned_iff _ .word).2 hal)
  have hpa1 : framePcAddress (s.reg spReg - 8#32) = s.reg spReg - 4#32 := by unfold framePcAddress; bv_omega
  have hstore := translateFrame_off .store (s := s.reachMemory) hoff ha
  obtain ⟨t, ht, hcall, -, -⟩ := call_completes offset hs (congrArg Timed.val hstore)
  have hload := translateFrame_off .load (s := t.reachMemory) (hcall.machine.ptbr.trans hoff) ha
  rw [← hcall.sp] at hload
  obtain ⟨-, u, hu, v, flags, target, rfl, -, -, hret, hwords⟩ :=
    retPopsFrame t _ _ (exec_sound hs _ t ht) (congrArg Timed.val hload)
  rw [hcall.sp, hpa1] at hwords
  rw [hpa1] at hcall
  obtain ⟨rfl, rfl, -, -⟩ := hwords (.inr ⟨hc0, hc1⟩)
  have hflags := viewWord_of_bytes hcall.frame.flagsWord
  have hpc := viewWord_of_bytes hcall.frame.pcWord
  refine ⟨t, ht, u, hu, hret.pc.trans hpc, ?_, fun q => ?_, fun a h0 h1 => ?_⟩
  · rw [hret.priv, hflags, flagsWord_privilege]
  · by_cases hq : q = spReg
    · rw [hq, hret.sp, hcall.sp, BitVec.sub_add_cancel]
    · rw [hret.otherRegisters q hq, hcall.otherRegisters q hq]
  · rw [hret.memory, hcall.frame.elsewhere a h0 h1]

end Sys2Proof.Machine

/-! SUPPORT. The memory stage tick by tick: the accesses of the first tick row by row of R261's table, the ticks served, and
the completion (rules R254, R261, R264). With it the obligation `MemoryStage`. -/

namespace Sys2Proof.Machine

/-! ### The accesses of a record (rule R261) -/

section
variable {i : InFlight} {s u : State} {lat : Nat} {n : Width} {f : FaultRec}

theorem memAction_loaded {v : Word} (hi : recordForm i = .load n) (h : memRead i.ea n s = ⟨.ok v, lat, u⟩) :
    memAction i s = ⟨{ i with result := v }, lat, u⟩ := by
  simp only [memAction, hi, h]

theorem memAction_load_failed (hi : recordForm i = .load n) (h : memRead i.ea n s = ⟨.error f, lat, u⟩) :
    memAction i s = ⟨{ i with fault := some f }, lat, u⟩ := by
  simp only [memAction, hi, h, InFlight.withFault]

theorem memAction_stored (hi : recordForm i = .store n) (h : memWrite i.ea n i.c s = ⟨.ok (), lat, u⟩) :
    memAction i s = ⟨{ i with exit := u.exitRequested && !s.exitRequested }, lat, u⟩ := by
  simp only [memAction, hi, h]

theorem memAction_store_failed (hi : recordForm i = .store n) (h : memWrite i.ea n i.c s = ⟨.error f, lat, u⟩) :
    memAction i s = ⟨{ i with fault := some f }, lat, u⟩ := by
  simp only [memAction, hi, h, InFlight.withFault]

theorem memAction_pushed (hi : recordForm i = .push) (h : pushFrame i.result (i.ipc + 4#32) s = ⟨.ok (), lat, u⟩) :
    memAction i s = ⟨i, lat, u⟩ := by
  simp only [memAction, hi, nextAddress, h]

theorem memAction_push_failed (hi : recordForm i = .push)
    (h : pushFrame i.result (i.ipc + 4#32) s = ⟨.error f, lat, u⟩) :
    memAction i s = ⟨{ i with fault := some f }, lat, u⟩ := by
  simp only [memAction, hi, nextAddress, h, InFlight.withFault]

theorem memAction_popped {flags target : Word} (hi : recordForm i = .pop)
    (h : popFrame i.sp s = ⟨.ok (flags, target), lat, u⟩) :
    memAction i s = ⟨{ i with newpriv := some (privilegeOfFlags flags), target := target }, lat, u⟩ := by
  simp only [memAction, hi, h]

theorem memAction_pop_failed (hi : recordForm i = .pop) (h : popFrame i.sp s = ⟨.error f, lat, u⟩) :
    memAction i s = ⟨{ i with fault := some f }, lat, u⟩ := by
  simp only [memAction, hi, h, InFlight.withFault]

end

/-! ### The first tick (rules R254, R261) -/

theorem memIssue_passing {i : InFlight} (s : State) (h : i.fault.isSome = true ∨ recordForm i = .noAction) :
    memIssue i s = ({ i with issued := true, wait := 1 }, s) := by
  unfold memIssue
  exact if_pos (by simpa using h)

/-- The accesses of an unfaulted record begin to be served. -/
theorem memIssue_served {i k : InFlight} {s u : State} {lat : Nat} (hf : i.fault = none)
    (hi : recordForm i ≠ .noAction) (h : memAction i s = ⟨k, lat, u⟩) :
    Served u k lat (memIssue i s).2 (memIssue i s).1 := by
  have hissue : memIssue i s = ({ k with issued := true, wait := lat }, u.countMemCycles lat) := by
    unfold memIssue
    rw [if_neg (by simp [hf, hi]), h]
  rw [hissue]
  exact ⟨rfl, rfl⟩

theorem recordForm_eq {i : InFlight} {d : Instr} (h : i.instr = some d) : recordForm i = memForm d := by
  unfold recordForm
  rw [h]
  rfl

/-- An instruction that is none of the loads, the stores, CALL and RET makes no access (rule R261). -/
theorem memForm_noAction {d : Instr} (h : ∀ (r q : Reg) (k : Int),
    d ∉ [.ldb r q k, .ldh r q k, .ld r q k, .stb r q k, .sth r q k, .st r q k, .call k, .ret]) :
    memForm d = .noAction := by
  cases d with
  | ldb r q k | ldh r q k | ld r q k | stb r q k | sth r q k | st r q k => exact absurd (by simp) (h r q k)
  | call k => exact absurd (by simp) (h 0 0 k)
  | ret => exact absurd (by simp) (h 0 0 0)
  | _ => rfl

theorem recordForm_noAction {i : InFlight} (h : ∀ d, i.instr = some d → ∀ (r q : Reg) (k : Int),
    d ∉ [.ldb r q k, .ldh r q k, .ld r q k, .stb r q k, .sth r q k, .st r q k, .call k, .ret]) :
    recordForm i = .noAction := by
  cases hi : i.instr with
  | none => unfold recordForm; rw [hi]; rfl
  | some d => exact (recordForm_eq hi).trans (memForm_noAction (h d hi))

theorem recordForm_load {i : InFlight} {d : Instr} {n : Width} {r q : Reg} {k : Int} (hi : i.instr = some d)
    (h : (d, n) ∈ [(Instr.ldb r q k, Width.byte), (.ldh r q k, .half), (.ld r q k, .word)]) :
    recordForm i = .load n := by
  simp only [List.mem_cons, Prod.mk.injEq, List.not_mem_nil, or_false] at h
  obtain ⟨rfl, rfl⟩ | ⟨rfl, rfl⟩ | ⟨rfl, rfl⟩ := h <;> exact recordForm_eq hi

theorem recordForm_store {i : InFlight} {d : Instr} {n : Width} {r q : Reg} {k : Int} (hi : i.instr = some d)
    (h : (d, n) ∈ [(Instr.stb r q k, Width.byte), (.sth r q k, .half), (.st r q k, .word)]) :
    recordForm i = .store n := by
  simp only [List.mem_cons, Prod.mk.injEq, List.not_mem_nil, or_false] at h
  obtain ⟨rfl, rfl⟩ | ⟨rfl, rfl⟩ | ⟨rfl, rfl⟩ := h <;> exact recordForm_eq hi

/-- The first memory tick follows R261's table: each row is the outcome of its access, served for its latency. -/
theorem memIssue_memIssued (i : InFlight) (s : State) : MemIssued i s (memIssue i s).1 (memIssue i s).2 where
  issued := (memIssue_spec i s).issued
  waits := (memIssue_spec i s).waitPos
  noAction h := by
    rw [memIssue_passing s (h.imp_right recordForm_noAction)]
    exact ⟨rfl, rfl⟩
  load d n r q k hf hi hd := by
    have hform := recordForm_load hi hd
    have hact : recordForm i ≠ .noAction := by simp [hform]
    exact ⟨fun v hv => memIssue_served hf hact (memAction_loaded hform (Timed.eq_of_val hv)),
      fun f hv => memIssue_served hf hact (memAction_load_failed hform (Timed.eq_of_val hv))⟩
  store d n r q k hf hi hd := by
    have hform := recordForm_store hi hd
    have hact : recordForm i ≠ .noAction := by simp [hform]
    exact ⟨fun hv => memIssue_served hf hact (memAction_stored hform (Timed.eq_of_val hv)),
      fun f hv => memIssue_served hf hact (memAction_store_failed hform (Timed.eq_of_val hv))⟩
  call k t0 t1 hf hi := by
    rintro rfl rfl
    have hform : recordForm i = .push := recordForm_eq hi
    have hact : recordForm i ≠ .noAction := by simp [hform]
    refine ⟨fun f h0 => ?first, fun pa0 f h0 h1 => ?second, fun pa0 pa1 h0 h1 ha => ?misaligned,
      fun pa0 pa1 w0 w1 h0 h1 ha => ?pushed⟩
    case first => exact memIssue_served hf hact (memAction_push_failed hform (pushFrame_failed _ (translateFrame_first h0)))
    case second =>
      exact memIssue_served hf hact (memAction_push_failed hform (pushFrame_failed _ (translateFrame_second h0 h1)))
    case misaligned =>
      exact memIssue_served hf hact (memAction_push_failed hform (pushFrame_failed _
        (translateFrame_misaligned h0 h1 ((aligned_eq_false_iff _ .word).2 ha))))
    case pushed =>
      rintro rfl rfl
      have hserved := memIssue_served hf hact (memAction_pushed hform (pushFrame_passed _
        (translateFrame_passed h0 h1 ((aligned_iff _ .word).2 ha))))
      unfold writeFrame at hserved
      rwa [← Nat.add_assoc] at hserved
  ret t0 t1 hf hi := by
    rintro rfl rfl
    have hform : recordForm i = .pop := recordForm_eq hi
    have hact : recordForm i ≠ .noAction := by simp [hform]
    refine ⟨fun f h0 => ?first, fun pa0 f h0 h1 => ?second, fun pa0 pa1 h0 h1 ha => ?misaligned,
      fun pa0 pa1 r0 r1 h0 h1 ha => ?popped⟩
    case first => exact memIssue_served hf hact (memAction_pop_failed hform (popFrame_failed (translateFrame_first h0)))
    case second =>
      exact memIssue_served hf hact (memAction_pop_failed hform (popFrame_failed (translateFrame_second h0 h1)))
    case misaligned =>
      exact memIssue_served hf hact (memAction_pop_failed hform (popFrame_failed
        (translateFrame_misaligned h0 h1 ((aligned_eq_false_iff _ .word).2 ha))))
    case popped =>
      rintro rfl rfl
      exact memIssue_served hf hact (memAction_popped hform (popFrame_passed
        (translateFrame_passed h0 h1 ((aligned_iff _ .word).2 ha))))

/-! ### The ticks served (rule R254) -/

/-- One tick served by record `j` in memory, its accesses made: it stays, or it completes and leaves. -/
def serveTick (j : InFlight) (u : State) : State :=
  if j.wait - 1 = 0 then (memComplete { j with wait := j.wait - 1 } u).leaveMemory { j with wait := j.wait - 1 }
  else u.holdMemory { j with wait := j.wait - 1 }

theorem memStep_issued {s : State} {i : InFlight} (hm : s.slots.mems = some i) (hi : i.issued = true) :
    memStep s = serveTick i s := by
  unfold memStep serveTick
  simp only [hm, hi, if_true]
  rfl

theorem memStep_unissued {s : State} {i : InFlight} (hm : s.slots.mems = some i) (hi : i.issued = false) :
    memStep s = serveTick (memIssue i s).1 (memIssue i s).2 := by
  unfold memStep serveTick
  simp only [hm, hi, Bool.false_eq_true, if_false]
  rfl

theorem serveTick_waiting {i : InFlight} (s : State) (h : 1 < i.wait) :
    serveTick i s = s.holdMemory { i with wait := i.wait - 1 } := by
  unfold serveTick
  exact if_neg (by omega)

theorem serveTick_last {i : InFlight} (s : State) (h : i.wait ≤ 1) :
    serveTick i s = (memComplete { i with wait := 0 } s).leaveMemory { i with wait := 0 } := by
  have hw : i.wait - 1 = 0 := by omega
  unfold serveTick
  rw [if_pos hw, hw]

/-- A completion does not look at the memory slot. -/
theorem memComplete_holdMemory (j k : InFlight) (s : State) :
    memComplete j (s.holdMemory k) = (memComplete j s).holdMemory k := by
  unfold memComplete
  cases j.fault with
  | some f => rfl
  | none => cases j.taken <;> rfl

/-- Nor does any tick served, which writes that slot anew. -/
theorem serveTick_holdMemory (j k : InFlight) (s : State) : serveTick j (s.holdMemory k) = serveTick j s := by
  unfold serveTick
  rw [memComplete_holdMemory]
  rfl

/-- The first tick is a tick served by the record whose accesses are made. -/
theorem memStep_issue {s : State} {i : InFlight} (hm : s.slots.mems = some i) (hi : i.issued = false) :
    memStep s = memStep { (memIssue i s).2 with slots := { s.slots with mems := some (memIssue i s).1 } } := by
  obtain ⟨-, hframe, hissued, -⟩ := memIssue_spec i s
  rw [← hframe.slots]
  calc memStep s
      = serveTick (memIssue i s).1 (memIssue i s).2 := memStep_unissued hm hi
    _ = serveTick (memIssue i s).1 ((memIssue i s).2.holdMemory (memIssue i s).1) := (serveTick_holdMemory _ _ _).symm
    _ = memStep ((memIssue i s).2.holdMemory (memIssue i s).1) := (memStep_issued rfl hissued).symm

/-! ### The completion (rules R254, R264) -/

theorem memComplete_faulted {i : InFlight} (s : State) (h : i.fault.isSome = true) : memComplete i s = s := by
  obtain ⟨f, hf⟩ := Option.isSome_iff_exists.1 h
  unfold memComplete
  rw [hf]

theorem memComplete_taken {i : InFlight} (s : State) (hf : i.fault = none) (ht : i.taken = true) :
    memComplete i s = redirect i.target { s with priv := i.newpriv.getD s.priv } := by
  unfold memComplete
  rw [hf]
  exact if_pos ht

theorem memComplete_next {i : InFlight} (s : State) (hf : i.fault = none) (ht : i.taken = false) :
    memComplete i s = { s with priv := i.newpriv.getD s.priv, pc := i.ipc + 4#32 } := by
  unfold memComplete
  rw [hf]
  exact if_neg (by simp [ht])

/-- Settles O57: the first tick issues and serves, every other one serves, and the last one completes. -/
theorem memoryStage : Obligations.MemoryStage := by
  refine ⟨fun s hm => ?empty, fun s i hm hi => ⟨_, _, memIssue_memIssued i s, memStep_issue hm hi⟩,
    fun s i hm hi hw => (memStep_issued hm hi).trans (serveTick_waiting s hw), fun s i hm hi hw => ?last⟩
  case empty =>
    unfold memStep
    rw [hm]
  case last =>
    exact ⟨memComplete { i with wait := 0 } s, (memStep_issued hm hi).trans (serveTick_last s hw),
      memComplete_faulted s, memComplete_taken s, memComplete_next s⟩

end Sys2Proof.Machine

/-! SUPPORT. A trap through a registered vector whose frame can be stored, and INT0, which retires before its trap entry
(rules R241, R308, R309). With it the obligation on INT0. -/

namespace Sys2Proof.Machine

/-! ### A trap entry that enters its handler (rule R308) -/

/-- A registered vector and a frame that passes its checks: the frame is stored and the handler entered. -/
theorem trapEntry_registered {n : Nat} {savedPc sp pa0 pa1 : Word} {s : State} {v : Timed Word}
    {t0 t1 : Timed (Except FaultRec Word)} {w : Timed Unit}
    (hv : v = physRead .vector (vectorAddress n) .word s.squashBehindWb) (hsp : sp = pushedSp (s.reg spReg))
    (h0 : t0 = translate .store sp v.st) (h1 : t1 = translate .store (framePcAddress sp) t0.st) (hne : v.val ≠ 0#32)
    (e0 : t0.val = .ok pa0) (e1 : t1.val = .ok pa1) (ha : aligned sp .word = true)
    (hw : w = writeFrame pa0 pa1 (flagsWord s.priv) savedPc t1.st) :
    trapEntry n savedPc s = (enterHandler v.val sp w.st).addCycles (v.lat + t0.lat + t1.lat + w.lat) := by
  unfold trapEntry
  dsimp only
  rw [← hv, ← hsp, ← h0, ← h1, if_neg hne, e0, e1]
  dsimp only
  rw [if_pos ha, ← hw]

theorem handlerEntered_of_write {s u : State} {pa0 pa1 savedPc : Word} (hw : WriteSpec s.squashBehindWb u)
    (hf : FrameStored s u pa0 pa1 (flagsWord s.priv) savedPc) (vec : Word) (lat : Nat) :
    HandlerEntered s ((enterHandler vec (pushedSp (s.reg spReg)) u).addCycles lat) vec pa0 pa1 savedPc where
  sp := u.setReg_reg_self spReg _
  otherRegisters q hq := (u.setReg_reg_ne spReg _ hq).trans (hw.frame.reg q)
  priv := rfl
  pc := rfl
  fpc := rfl
  frame := ⟨hf.flagsWord, hf.pcWord, hf.elsewhere, hf.vgaEvents, hf.exitRequested⟩
  squashed := hw.frame.slots
  pending := hw.frame.pending
  params := hw.frame.params
  reading := hw.frame.reading
  ptbr := hw.frame.ptbr
  faultInfo := hw.frame.faultInfo
  halted := hw.frame.halted

/-- The two stores of a trap's frame follow reads alone: the vector's and the walks', none of which changes the view. -/
theorem trapEntry_handlerEntered {n : Nat} {savedPc sp pa0 pa1 : Word} {s : State} {v : Timed Word}
    {t0 t1 : Timed (Except FaultRec Word)} (hn : n < 1024) (hs : StoreSound s)
    (hv : v = physRead .vector (vectorAddress n) .word s.squashBehindWb) (hsp : sp = pushedSp (s.reg spReg))
    (h0 : t0 = translate .store sp v.st) (h1 : t1 = translate .store (framePcAddress sp) t0.st)
    (hne : s.viewWord (vectorAddress n) ≠ 0#32) (e0 : t0.val = .ok pa0) (e1 : t1.val = .ok pa1)
    (ha : aligned (s.reg spReg) .word = true) :
    HandlerEntered s (trapEntry n savedPc s) (s.viewWord (vectorAddress n)) pa0 pa1 savedPc := by
  have hval : v.val = s.viewWord (vectorAddress n) := by
    rw [hv]
    exact vectorRead_val hn hs
  have hreads : ReadSpec s.squashBehindWb t1.st := by
    rw [h1, h0, hv]
    exact ((physRead_read _ _ _ _).trans (translate_read _ _ _)).trans (translate_read _ _ _)
  have hsq : StoreSound s.squashBehindWb := squashBehindWb_read s hs
  have hasp : aligned sp .word = true := by rw [hsp, aligned_pushedSp, ha]
  have hentry := trapEntry_registered (savedPc := savedPc) hv hsp h0 h1 (hval ▸ hne) e0 e1 hasp rfl
  rw [h0] at e0
  rw [h1] at e1
  have ha0 : aligned pa0 .word = true := (aligned_translate e0 .word).trans hasp
  have ha1 : aligned pa1 .word = true := (aligned_translate e1 .word).trans (aligned_framePc hasp)
  obtain ⟨hframe, -, -⟩ := writeFrame_spec (s := s) (p := s.priv) (savedPc := savedPc) e0 e1 ha0 ha1
    (hreads.sound hsq) (hreads.view hsq) hreads.frame.exitRequested hreads.frame.vgaEvents
  have hwrite := hreads.toWrite.trans (writeFrame_write (flagsWord s.priv) savedPc t1.st ha0 ha1)
  rw [hentry, hsp, hval]
  exact handlerEntered_of_write hwrite hframe _ _

/-! ### INT0 (rule R241) -/

/-- INT0 as its trap entry finds the machine: the ticks passed, retired, `pc` at the next instruction. -/
def State.retiredInt0 (s : State) : State := s.passStages.retireTo (s.pc + 4#32)

theorem exec_int0 (s : State) : exec .int0 s = .next (trapEntry 0 (s.pc + 4#32) s.retiredInt0) := rfl

theorem StoreSound.retiredInt0 {s : State} (h : StoreSound s) : StoreSound s.retiredInt0 := h.congr rfl rfl rfl

theorem exec_int0_retired (s : State) :
    (trapEntry 0 (s.pc + 4#32) s.retiredInt0).stats.retired = s.stats.retired + 1 :=
  (trapEntry_spec _ _ _).retired

/-- The retirement changes nothing that the entry of a handler speaks of. -/
theorem HandlerEntered.of_retiredInt0 {s t : State} {vec pa0 pa1 savedPc : Word}
    (h : HandlerEntered s.retiredInt0 t vec pa0 pa1 savedPc) : HandlerEntered s t vec pa0 pa1 savedPc where
  sp := h.sp
  otherRegisters := h.otherRegisters
  priv := h.priv
  pc := h.pc
  fpc := h.fpc
  frame := ⟨h.frame.flagsWord, h.frame.pcWord, h.frame.elsewhere, h.frame.vgaEvents, h.frame.exitRequested⟩
  squashed := h.squashed
  pending := h.pending
  params := h.params
  reading := h.reading
  ptbr := h.ptbr
  faultInfo := h.faultInfo
  halted := h.halted

/-- Settles O26: INT0 is the trap entry of vector 0 after its retirement, and entry 0 decides between the handler and the
halt. -/
theorem int0EntersHandler : Obligations.Int0EntersHandler := by
  constructor
  case left =>
    intro s s0 v t0 t1 pa0 pa1 hs hs0 hv h0 h1 hne e0 e1 hal
    rw [hs0] at hv
    have hentered : HandlerEntered s.retiredInt0 (trapEntry 0 (s.pc + 4#32) s.retiredInt0) (s.viewWord 0#32) pa0 pa1
        (s.pc + 4#32) :=
      trapEntry_handlerEntered (by decide) hs.retiredInt0 hv rfl h0 h1 hne e0 e1 ((aligned_iff _ .word).2 hal)
    exact ⟨rfl, _, exec_int0 s, hentered.of_retiredInt0, exec_int0_retired s⟩
  case right =>
    intro s hs hzero
    obtain ⟨hhalt, -⟩ := unregisteredVectorHalts 0 (s.pc + 4#32) s.retiredInt0 (by decide) hs.retiredInt0 hzero
    exact ⟨_, exec_int0 s, hhalt.halted, hhalt.registers, hhalt.pc, hhalt.fpc.trans hhalt.pc, hhalt.priv, hhalt.memory,
      hhalt.slots, exec_int0_retired s⟩

end Sys2Proof.Machine

/-! SUPPORT. Execute and fetch tick by tick: the rows of R263's table on an unfaulted record, the fetch that an empty slot
issues, and the ticks that it serves (rules R255, R258, R263, R268). With it the obligation `ExecuteAndFetchStages`. -/

namespace Sys2Proof.Machine

/-! ### Execute (rules R255, R263) -/

theorem executed_faulted {i : InFlight} (h : i.fault.isSome = true) : executed i = i := if_pos h

theorem executed_unfaulted {i : InFlight} (h : i.fault = none) : executed i = exAction i := by
  rw [executed, h]
  rfl

/-- BNE's condition (rule R232). -/
theorem bneTaken_eq (c a : Word) : bneTaken c a = decide (c ≠ a) := by
  rw [bneTaken, bne, beq_eq_decide, decide_not]

/-- BEQ's condition (rule R233). -/
theorem beqTaken_eq (c a : Word) : beqTaken c a = decide (c = a) := by
  rw [beqTaken, beq_eq_decide]

/-- The record that execute hands on is the table's (rule R263). -/
theorem executed_spec (i : InFlight) : Executed i (executed i) := by
  constructor
  case faulted => exact executed_faulted
  case add | sub | xor | or | and | mul | addi | subi | xori | ori | andi | lui | blt | bgt | jmpr | call | ret =>
    intros
    rename_i hf hi
    simp only [executed_unfaulted hf, exAction, hi]
    rfl
  case shr | shl =>
    intro _ _ _ hf hi
    simp only [executed_unfaulted hf, exAction, hi, shrResult, shlResult, shiftAmount_eq]
  case bne | beq =>
    intro _ _ _ hf hi
    simp only [executed_unfaulted hf, exAction, hi, bneTaken_eq, beqTaken_eq]
    rfl
  case div =>
    intro _ _ _ hf hi
    by_cases hb : i.b = 0#32
    · simp only [executed_unfaulted hf, exAction, hi, divResult, if_pos hb, InFlight.withFault]
    · simp only [executed_unfaulted hf, exAction, hi, divResult, if_neg hb]
  case access =>
    intro d _ _ _ hf hi hd
    simp only [List.mem_cons, List.not_mem_nil, or_false] at hd
    obtain rfl | rfl | rfl | rfl | rfl | rfl := hd
    all_goals
      simp only [executed_unfaulted hf, exAction, hi]
      rfl
  case nothing =>
    intro hf hi
    obtain hi | hi := hi
    all_goals simp only [executed_unfaulted hf, exAction, hi]

theorem exStep_held {s : State} (h : s.slots.exs = none ∨ s.slots.mems ≠ none) : exStep s = s := by
  unfold exStep
  split
  · rename_i i he hm
    simp [he, hm] at h
  · rfl

theorem exStep_occupied_free {s : State} {i : InFlight} (he : s.slots.exs = some i) (hm : s.slots.mems = none) :
    exStep s = s.leaveExecute (executed i) := by
  simp only [exStep, he, hm]
  rfl

/-! ### The fetch issued (rules R74, R113, R258) -/

/-- Only a read of kind `load` counts (rule R113). -/
theorem physRead_stats_other {kind : AccessKind} (h : kind ≠ .load) (pa : Word) (n : Width) (s : State) :
    (physRead kind pa n s).st.stats = s.stats := by
  cases hb : bypassesCache s pa with
  | true =>
    obtain ⟨-, -, -, hstats⟩ := devRead_frame pa n s
    rw [physRead, if_pos hb]
    exact hstats
  | false => rw [physRead_cached kind n hb, cacheRead_stats_other h]

theorem translate_stats_eq (acc : Access) (va : Word) (s : State) : (translate acc va s).st.stats = s.stats := by
  have hwalk (pa : Word) (u : State) : (physRead .walk pa .word u).st.stats = u.stats :=
    physRead_stats_other (by decide) pa .word u
  unfold translate
  dsimp only
  split
  · rfl
  · split
    · exact hwalk _ _
    · exact (hwalk _ _).trans (hwalk _ _)

/-- A fetch counts nothing in the cache's counters. -/
theorem fetch_stats (va : Word) (s : State) : (fetch va s).st.stats = s.stats := by
  have ht : (translateAligned .fetch va .word s).st.stats = s.stats := by
    rw [(translateAligned_st .fetch va .word s).1, translate_stats_eq]
  unfold fetch virtualRead
  dsimp only
  split
  · exact ht
  · exact (physRead_stats_other (by decide) _ _ _).trans ht

theorem fetch_read (va : Word) (s : State) : ReadSpec s (fetch va s).st := virtualRead_read _ _ _ _ _

/-- Only the reads of an issued fetch show in the other fields; its counts and its slot are those of the state before. -/
theorem issueFetch_fields (s : State) : issueFetch s =
    { (fetch s.fpc s).st with
      stats := { s.stats with fetchCycles := s.stats.fetchCycles + (fetch s.fpc s).lat }
      fpc := s.fpc + 4#32
      slots := { s.slots with
        ifs := some (fetchRecord s.fpc (fetch s.fpc s).lat (Config.undefinedWord s.cycles.toNat) (fetch s.fpc s).val) } } := by
  rw [← fetch_stats s.fpc s, ← (fetch_read s.fpc s).frame.slots]
  rfl

/-- The record of an issued fetch holds its word or its fault (rule R258). -/
theorem fetchRecord_cases (ipc : Word) (lat : Nat) (undefinedWord : Word) (v : Except FaultRec Word) :
    ∃ w fault, (v = .ok w ∧ fault = none ∨ ∃ f, v = .error f ∧ fault = some f) ∧
      fetchRecord ipc lat undefinedWord v = { ipc := ipc, word := w, fault := fault, wait := lat } := by
  cases v with
  | ok w => exact ⟨w, none, .inl ⟨rfl, rfl⟩, rfl⟩
  | error f => exact ⟨undefinedWord, some f, .inr ⟨f, rfl, rfl⟩, rfl⟩

/-! ### The ticks of fetch (rules R258, R268) -/

/-- A fetch in progress serves its tick. -/
theorem ifStep_occupied {idle0 : Bool} {s : State} {i : InFlight} (h : s.slots.ifs = some i) :
    ifStep idle0 s = advanceFetch s := by
  simp [ifStep, h]

/-- With the pipeline off no fetch is issued behind an instruction in flight. -/
theorem ifStep_waits {s : State} (h : s.slots.ifs = none) (hoff : s.params.pipelineEnabled = false) :
    ifStep false s = s := by
  simp [ifStep, advanceFetch, h, hoff]

theorem ifStep_issues {idle0 : Bool} {s : State} (h : s.slots.ifs = none)
    (hor : s.params.pipelineEnabled = true ∨ idle0 = true) : ifStep idle0 s = ifStep idle0 (issueFetch s) := by
  have hissue : ifStep idle0 s = advanceFetch (issueFetch s) := by
    unfold ifStep
    rw [if_pos (by simpa [h] using hor)]
  rw [hissue, issueFetch_eq]
  exact (ifStep_occupied rfl).symm

theorem advanceFetch_holds {s : State} {i : InFlight} (h : s.slots.ifs = some i)
    (hw : 1 < i.wait ∨ s.slots.ids ≠ none) : advanceFetch s = s.holdFetch { i with wait := i.wait - 1 } := by
  unfold advanceFetch
  rw [h]
  refine if_neg ?_
  rw [Bool.and_eq_true, decide_eq_true_iff, Option.isNone_iff_eq_none]
  rintro ⟨hserved, hfree⟩
  have hzero : i.wait - 1 = 0 := hserved
  obtain hw | hd := hw
  · omega
  · exact hd hfree

theorem advanceFetch_leaves {s : State} {i : InFlight} (h : s.slots.ifs = some i) (hw : i.wait ≤ 1)
    (hd : s.slots.ids = none) : advanceFetch s = s.leaveFetch { i with wait := 0 } := by
  have hzero : i.wait - 1 = 0 := by omega
  unfold advanceFetch
  rw [h]
  dsimp only
  rw [hzero, hd]
  rfl

/-- Settles O56: execute hands on the table's record where memory is free; fetch issues into an empty slot, then serves
its ticks and hands over to a free decode. -/
theorem executeAndFetchStages : Obligations.ExecuteAndFetchStages := by
  refine ⟨fun s => exStep_held, fun s i he hm => ⟨executed i, executed_spec i, exStep_occupied_free he hm⟩,
    fun s => ifStep_waits, fun s idle0 hi hor => ⟨virtualRead_lat .fetch .fetch s.fpc .word s, ?issue⟩,
    fun s idle0 i hi => ⟨fun hw => ?hold, fun hw hd => ?leave⟩⟩
  case issue =>
    obtain ⟨w, fault, hcase, hrecord⟩ := fetchRecord_cases s.fpc (fetch s.fpc s).lat
      (Config.undefinedWord s.cycles.toNat) (fetch s.fpc s).val
    refine ⟨w, fault, hcase, ?_⟩
    rw [← hrecord, ifStep_issues hi hor, issueFetch_fields]
  case hold => rw [ifStep_occupied hi, advanceFetch_holds hi hw]; rfl
  case leave => rw [ifStep_occupied hi, advanceFetch_leaves hi hw hd]; rfl

end Sys2Proof.Machine

/-! SUPPORT. A redirect and the writeback of an unfaulted instruction: what they leave pending is what the instructions still
in flight own (rules R253, R264, R265). With it the obligations `RedirectSquashes` and `WritebackCommits`. -/

namespace Sys2Proof.Machine

/-! ### What a scoreboard holds (rules R27, R276) -/

/-- A bit is pending exactly when an instruction in execute, memory or writeback owns it. -/
theorem Scoreboard.pending_eq {sl : Slots} {p : Vector Bool 16} (h : Scoreboard sl p) (t : Reg) :
    p[t.val] = (owns t sl.exs || owns t sl.mems || owns t sl.wbs) := by
  have key : ∀ e m w b : Bool, e.toNat + m.toNat + w.toNat = b.toNat → b = (e || m || w) := by decide
  exact key _ _ _ _ (h.owned t)

/-- Nothing is pending where those three stages are empty. -/
theorem State.PipelineSound.nonePending {s : State} (h : s.PipelineSound) (he : s.slots.exs = none)
    (hm : s.slots.mems = none) (hw : s.slots.wbs = none) (r : Reg) : s.isPending r = false := by
  rw [State.isPending, h.scoreboard.pending_eq r, he, hm, hw]
  rfl

/-! ### The redirect (rules R264, R265) -/

theorem slotCount_eq_ite (x : Slot) : slotCount x = if x.isSome then 1 else 0 := by
  cases x <;> rfl

/-- Only memory and writeback still own a pending bit. -/
theorem redirect_isPending {s : State} (h : s.PipelineSound) (target : Word) (r : Reg) :
    (redirect target s).isPending r = (owns r s.slots.mems || owns r s.slots.wbs) :=
  h.scoreboard.squashYoung.pending_eq r

theorem redirect_controlSquash (target : Word) (s : State) :
    (redirect target s).stats.controlSquash = s.stats.controlSquash +
      ((if s.slots.exs.isSome then 1 else 0) + (if s.slots.ids.isSome then 1 else 0) +
        (if s.slots.ifs.isSome then 1 else 0)) := by
  simp only [← slotCount_eq_ite]
  rfl

/-- Settles O58: the scoreboard after the squash of execute, decode and fetch is that of the slots that remain. -/
theorem redirectSquashes : Obligations.RedirectSquashes := fun s target hs =>
  ⟨rfl, rfl, rfl, redirect_controlSquash target s, redirect_isPending hs target, fun _ => rfl, rfl, fun _ => rfl⟩

/-! ### The commit (rule R253) -/

/-- `s` after the unfaulted instruction `i` in writeback has written its result, left its slot and retired. -/
def State.committed (s : State) (i : InFlight) : State := (commitResult i (clearWb s)).countRetired

/-- An unfaulted writeback is the commit, then a halt, a trap entry or nothing more. -/
theorem writeback_unfaulted {i : InFlight} (s : State) (hf : i.fault = none) :
    writeback i s =
      if i.exit then (s.committed i).halt .hostExit
      else if i.instr = some .int0 then trapEntry 0 (i.ipc + 4#32) (s.committed i)
      else s.committed i := by
  unfold writeback
  rw [hf]
  rfl

/-- The commit writes registers alone. -/
theorem commitResult_onlyRegisters (i : InFlight) (s : State) : ∃ x, commitResult i s = { s with x := x } := by
  unfold commitResult
  split
  · exact ⟨_, rfl⟩
  · exact ⟨s.x, rfl⟩

theorem commitResult_written {i : InFlight} (s : State) {d : Reg} (hd : i.dest = some d) (h : d ≠ 0) :
    (commitResult i s).reg d = i.result := by
  simp only [commitResult, hd, State.setReg_reg_self, if_neg h]

theorem commitResult_otherRegisters {i : InFlight} (s : State) {q : Reg} (h : i.dest ≠ some q ∨ q = 0) :
    (commitResult i s).reg q = s.reg q := by
  obtain h | rfl := h
  · cases hd : i.dest with
    | none => simp only [commitResult, hd]
    | some d =>
      have hne : q ≠ d := fun he => h (by rw [hd, he])
      simp only [commitResult, hd, State.setReg_reg_ne _ _ _ hne]
  · rfl

/-- The scoreboard of the slots that the commit leaves. -/
theorem State.PipelineSound.committed_scoreboard {s : State} (h : s.PipelineSound) (i : InFlight) :
    Scoreboard (s.committed i).slots (s.committed i).pending := by
  obtain ⟨-, hslots, hpending, -, -⟩ := commitResult_frame i (clearWb s)
  rw [State.committed, State.countRetired_slots, State.countRetired_pending, hslots, hpending]
  exact h.scoreboard.releaseWbs

theorem State.committed_spec {s : State} (i : InFlight) (hs : s.PipelineSound) : Committed i s (s.committed i) := by
  have hwritten : ∀ d, i.dest = some d → d ≠ 0 → (s.committed i).reg d = i.result :=
    fun _ => commitResult_written (clearWb s)
  have hothers : ∀ q, i.dest ≠ some q ∨ q = 0 → (s.committed i).reg q = s.reg q :=
    fun _ => commitResult_otherRegisters (clearWb s)
  have hboard := hs.committed_scoreboard i
  obtain ⟨x, hx⟩ := commitResult_onlyRegisters i (clearWb s)
  rw [State.committed, hx] at hwritten hothers hboard ⊢
  exact {
    slots := rfl
    retired := rfl
    written := hwritten
    otherRegisters := hothers
    pending := fun r => (hboard.pending_eq r).trans (Bool.or_false _)
    params := rfl
    reading := rfl
    pc := rfl
    fpc := rfl
    priv := rfl
    ptbr := rfl
    memory := rfl
    cache := rfl
    exitRequested := rfl
    mmioPending := rfl
    prngState := rfl
    vgaEvents := rfl
    halted := rfl
    faultInfo := rfl
    cycles := rfl }

/-! ### The exit command (rules R33, R253) -/

theorem State.halt_haltedWith (s : State) (cause : HaltCause) : HaltedWith s (s.halt cause) cause :=
  ⟨rfl, fun _ => rfl, rfl, rfl, rfl, rfl, fun _ => rfl, rfl, rfl, rfl, rfl⟩

/-- A halt leaves nothing pending. -/
theorem Scoreboard.halt_isPending {s : State} (h : Scoreboard s.slots s.pending) (cause : HaltCause) (r : Reg) :
    (s.halt cause).isPending r = false :=
  h.squashAll.pending_eq r

/-- Settles O59: the commit, then the exit's halt, INT0's trap entry, or nothing more. -/
theorem writebackCommits : Obligations.WritebackCommits := by
  refine ⟨fun s => wbStep_empty, fun s i hs hw hf => ⟨s.committed i, State.committed_spec i hs, fun hexit => ?exit,
    fun hexit hint => ?int0, fun hexit hother => ?other⟩⟩
  all_goals rw [wbStep_occupied hw, writeback_unfaulted s hf]
  case exit =>
    rw [if_pos hexit]
    exact ⟨rfl, State.halt_haltedWith _ _, State.halt_stats _ _, (hs.committed_scoreboard i).halt_isPending .hostExit⟩
  case int0 => rw [if_neg (by simp [hexit]), if_pos hint]
  case other => rw [if_neg (by simp [hexit]), if_neg hother]

end Sys2Proof.Machine

/-! SUPPORT. The tick that takes a fault: writeback empties the machine, so that the younger stages can only fetch from the
handler (rules R252, R271, R301, R306, R308). With it the obligation `FaultsArePrecise`. -/

namespace Sys2Proof.Machine

/-! ### The younger stages of an empty machine (rules R254 to R258) -/

/-- `t` is `s`, in which nothing is in flight, after at most a fetch at the fetch pointer. -/
structure OnlyFetched (s t : State) : Prop where
  registers : ∀ q, t.reg q = s.reg q
  pc : t.pc = s.pc
  priv : t.priv = s.priv
  halted : t.halted = s.halted
  faultInfo : t.faultInfo = s.faultInfo
  retired : t.stats.retired = s.stats.retired
  exs : t.slots.exs = none
  mems : t.slots.mems = none
  wbs : t.slots.wbs = none
  fetched : ∀ j : InFlight, t.slots.ids = some j ∨ t.slots.ifs = some j → j.ipc = s.fpc

theorem OnlyFetched.refl {s : State} (h : s.slots = {}) : OnlyFetched s s := by
  refine ⟨fun _ => rfl, rfl, rfl, rfl, rfl, rfl, ?_, ?_, ?_, ?_⟩ <;> rw [h]
  rintro j (hj | hj) <;> cases hj

/-- Reads that leave one record of the fetch pointer in fetch or in decode. -/
theorem ReadSpec.onlyFetched {s u : State} (hu : ReadSpec s u) (fpc : Word) {j : InFlight} {sl : Slots} (hj : j.ipc = s.fpc)
    (hsl : sl = { ids := some j } ∨ sl = { ifs := some j }) : OnlyFetched s { u with fpc := fpc, slots := sl } := by
  refine ⟨hu.frame.reg, hu.frame.pc, hu.frame.priv, hu.frame.halted, hu.frame.faultInfo, hu.retired, ?_, ?_, ?_,
    fun k hk => ?_⟩
  · obtain rfl | rfl := hsl <;> rfl
  · obtain rfl | rfl := hsl <;> rfl
  · obtain rfl | rfl := hsl <;> rfl
  · have hsame : j = k := by obtain rfl | rfl := hsl <;> simpa using hk
    rw [← hsame, hj]

/-- An issued record serves its tick in fetch or moves to decode, alone there. -/
theorem FetchMoved.onlyFetched {s u t : State} {j : InFlight} (hu : ReadSpec s u) (hs : s.slots = {}) (hj : j.ipc = s.fpc)
    (h : FetchMoved (State.holdFetch { u with fpc := nextAddress s.fpc } j) t) : OnlyFetched s t := by
  have hempty : u.slots = {} := hu.frame.slots.trans hs
  cases h with
  | empty hnone => cases hnone
  | serving hi hk =>
    cases hi
    exact hu.onlyFetched _ (hk.ipc.trans hj) (.inr (by simp only [State.holdFetch, hempty]))
  | left hi hd hk =>
    cases hi
    exact hu.onlyFetched _ (hk.ipc.trans hj) (.inl (by simp only [State.holdFetch, hempty]))

/-- With nothing in flight only fetch has something to do. -/
theorem youngStages_empty (idle0 : Bool) {s : State} (h : s.slots = {}) : youngStages idle0 s = ifStep idle0 s := by
  have hmem : memStep s = s := by simp [memStep, h]
  rw [youngStages, hmem, exStep_held (.inl (by rw [h])), idStep_held (.inl (by rw [h]))]

theorem youngStages_onlyFetched (idle0 : Bool) {s : State} (h : s.slots = {}) :
    OnlyFetched s (youngStages idle0 s) := by
  rw [youngStages_empty idle0 h]
  obtain ⟨-, hmoved⟩ | ⟨-, -, u, j, hu, hj, -, hmoved⟩ := ifStep_moved idle0 s
  · generalize ifStep idle0 s = t at hmoved ⊢
    cases hmoved with
    | empty => exact .refl h
    | serving hi => rw [h] at hi; cases hi
    | left hi => rw [h] at hi; cases hi
  · exact hmoved.onlyFetched hu h hj

/-! ### The fault taken (rules R253, R301, R306 to R308) -/

theorem tick_running {s : State} (h : s.halted = none) : tick s = runningTick s := by
  rw [tick, if_neg (by simp [h])]

/-- A trap taken from writeback leaves nothing in flight. -/
theorem TrapSpec.emptied {s t : State} (h : TrapSpec s t) (hw : s.slots.wbs = none) : t.slots = {} := by
  obtain ⟨-, -, -, -, -, hslots, -⟩ | ⟨-, -, -, -, hslots, -⟩ := h.outcome
  · exact hslots
  · simp only [hslots, State.squashBehindWb_slots, hw]

/-- A trap entry halts or goes to the address in its vector (rules R301, R308 to R310). -/
theorem trapEntry_halts_or_pc {n : Nat} (savedPc : Word) {s : State} (hn : n < 1024) (hs : StoreSound s) :
    (trapEntry n savedPc s).halted.isSome = true ∨ (trapEntry n savedPc s).pc = s.viewWord (vectorAddress n) := by
  rw [← vectorRead_val hn hs]
  unfold trapEntry
  extract_lets v sp t0 t1 fail
  split
  · exact .inl rfl
  · split
    · exact .inl rfl
    · exact .inl rfl
    · split
      · exact .inr rfl
      · exact .inl rfl

theorem faultVector_lt (kind : FaultKind) : faultVector kind < 1024 := by
  cases kind <;> decide

/-- So does a fault (rules R306, R307). -/
theorem takeFault_halts_or_pc (kind : FaultKind) (ipc info : Word) {s : State} (hs : StoreSound s) :
    (takeFault kind ipc info s).halted.isSome = true ∨
      (takeFault kind ipc info s).pc = s.viewWord (vectorAddress (faultVector kind)) := by
  unfold takeFault
  dsimp only
  split
  · exact .inl rfl
  · exact trapEntry_halts_or_pc (s := { s with faultInfo := some ⟨kind, ipc, info⟩ }) ipc (faultVector_lt kind)
      (hs.congr rfl rfl rfl)

/-- The state after writeback takes the fault `f` of instruction `i`, in a tick that begins in `s`. -/
def State.faultTaken (s : State) (i : InFlight) (f : FaultRec) : State :=
  takeFault f.kind i.ipc f.info (clearWb (s.addCycles 1))

theorem faultTaken_halts_or_pc {s : State} (i : InFlight) (f : FaultRec) (hs : StoreSound s) :
    (s.faultTaken i f).halted.isSome = true ∨ (s.faultTaken i f).pc = s.viewWord (vectorAddress (faultVector f.kind)) :=
  takeFault_halts_or_pc f.kind i.ipc f.info (s := clearWb (s.addCycles 1)) (hs.congr rfl rfl rfl)

theorem wbStep_faultTaken {s : State} {i : InFlight} {f : FaultRec} (hw : s.slots.wbs = some i) (hf : i.fault = some f) :
    wbStep (s.addCycles 1) = s.faultTaken i f := by
  rw [wbStep_occupied (s := s.addCycles 1) hw]
  unfold writeback
  rw [hf]
  rfl

theorem faultTaken_spec (s : State) (i : InFlight) (f : FaultRec) :
    TrapSpec { clearWb (s.addCycles 1) with faultInfo := some ⟨f.kind, i.ipc, f.info⟩ } (s.faultTaken i f) :=
  takeFault_spec _ _ _ _

/-- The tick that takes a fault ends there if the machine halts, and else with at most the handler's first fetch. -/
theorem tick_faultTaken {s : State} {i : InFlight} {f : FaultRec} (hrun : s.halted = none) (hw : s.slots.wbs = some i)
    (hf : i.fault = some f) :
    OnlyFetched (s.faultTaken i f) (tick s) ∧
      ((s.faultTaken i f).halted.isSome = true → tick s = s.faultTaken i f) := by
  have hempty : (s.faultTaken i f).slots = {} := (faultTaken_spec s i f).emptied rfl
  rw [tick_running hrun, runningTick_eq, wbStep_faultTaken hw hf]
  split
  · exact ⟨.refl hempty, fun _ => rfl⟩
  · rename_i hgoes
    exact ⟨youngStages_onlyFetched _ hempty, fun hhalt => absurd hhalt hgoes⟩

/-- Settles O60: the fault's trap or halt empties the machine, and the rest of the tick can only fetch. -/
theorem faultsArePrecise : Obligations.FaultsArePrecise := by
  intro s i f hs hrun hw hf
  have hsound : (tick s).PipelineSound := tick_running hrun ▸ runningTick_pipelineSound hrun hs
  have hspec := faultTaken_spec s i f
  obtain ⟨hfetch, hends⟩ := tick_faultTaken hrun hw hf
  refine ⟨fun q hq => (hfetch.registers q).trans (hspec.reg_ne_spReg hq), hfetch.retired.trans hspec.retired,
    hfetch.exs, hfetch.mems, hfetch.wbs, hsound.nonePending hfetch.exs hfetch.mems hfetch.wbs,
    hfetch.faultInfo.trans hspec.faultInfo, fun hhalt => ?halts, fun hgoes => ?enters⟩
  case halts =>
    rw [hfetch.halted] at hhalt
    rw [hends hhalt]
    obtain ⟨-, hx, hpc, -, -, hslots, -⟩ | ⟨hkept, -⟩ := hspec.outcome
    · exact ⟨hslots, hpc, State.reg_congr hx spReg⟩
    · rw [hkept.trans hrun] at hhalt
      cases hhalt
  case enters =>
    have hnot : (s.faultTaken i f).halted.isSome ≠ true := by rw [← hfetch.halted, hgoes]; nofun
    obtain ⟨hhalt, -⟩ | ⟨-, -, -, hpriv, -⟩ := hspec.outcome
    · exact absurd hhalt hnot
    · refine ⟨hfetch.priv.trans hpriv, fun j hj => ?_, fun n hn hstore => ?_⟩
      · rw [hfetch.fetched j hj, hspec.onePc, hfetch.pc]
      · obtain rfl := faultVector_row.1 hn
        rw [hfetch.pc]
        exact (faultTaken_halts_or_pc i f hstore).resolve_left hnot

end Sys2Proof.Machine

/-! SUPPORT. Traps through a registered vector, and the RET that ends a handler: the counters that a trap entry moves, and
the frame that RET finds where the trap stored it (rules R238, R308, R311, R315). -/

namespace Sys2Proof.Machine

/-! ### What a trap entry counts (rule R311) -/

/-- The two stores of a frame advance no counter of the clock or of a stage. -/
theorem writeFrame_counters (pa0 pa1 flags savedPc : Word) (s : State) :
    (writeFrame pa0 pa1 flags savedPc s).st.cycles = s.cycles ∧
      (writeFrame pa0 pa1 flags savedPc s).st.stats.memCycles = s.stats.memCycles ∧
      (writeFrame pa0 pa1 flags savedPc s).st.stats.fetchCycles = s.stats.fetchCycles := by
  have hcycles0 := (physWrite_spec pa0 .word flags s).frame.cycles
  have hcycles1 := (physWrite_spec pa1 .word savedPc (physWrite pa0 .word flags s).st).frame.cycles
  have ⟨hmem0, hfetch0⟩ := physWrite_stats pa0 .word flags s
  have ⟨hmem1, hfetch1⟩ := physWrite_stats pa1 .word savedPc (physWrite pa0 .word flags s).st
  exact ⟨hcycles1.trans hcycles0, hmem1.trans hmem0, hfetch1.trans hfetch0⟩

/-- Everything a trap entry reads before its frame's stores (rules R308, R310): the vector and the frame's two
translations. -/
theorem trapReads_read {va sp : Word} {s : State} {v : Timed Word} {t0 t1 : Timed (Except FaultRec Word)}
    (hv : v = physRead .vector va .word s) (h0 : t0 = translate .store sp v.st)
    (h1 : t1 = translate .store (framePcAddress sp) t0.st) :
    ReadSpec s t1.st ∧ t1.st.stats.memCycles = s.stats.memCycles ∧ t1.st.stats.fetchCycles = s.stats.fetchCycles := by
  subst hv h0 h1
  have ⟨hmemV, hfetchV⟩ := physRead_stats .vector va .word s
  have ⟨hmem0, hfetch0⟩ := translate_stats .store sp (physRead .vector va .word s).st
  have ⟨hmem1, hfetch1⟩ :=
    translate_stats .store (framePcAddress sp) (translate .store sp (physRead .vector va .word s).st).st
  exact ⟨((physRead_read _ _ _ _).trans (translate_read _ _ _)).trans (translate_read _ _ _),
    hmem1.trans (hmem0.trans hmemV), hfetch1.trans (hfetch0.trans hfetchV)⟩

/-- A trap entry that enters its handler adds the latencies of its accesses to `cycles`, and no stage counts them. -/
theorem trapEntry_counters {n : Nat} {savedPc pa0 pa1 : Word} {s : State} {v : Timed Word}
    {t0 t1 : Timed (Except FaultRec Word)} {w : Timed Unit}
    (hv : v = physRead .vector (vectorAddress n) .word s.squashBehindWb)
    (h0 : t0 = translate .store (pushedSp (s.reg spReg)) v.st)
    (h1 : t1 = translate .store (framePcAddress (pushedSp (s.reg spReg))) t0.st) (hne : v.val ≠ 0#32)
    (e0 : t0.val = .ok pa0) (e1 : t1.val = .ok pa1) (ha : aligned (s.reg spReg) .word = true)
    (hw : w = writeFrame pa0 pa1 (flagsWord s.priv) savedPc t1.st) :
    (trapEntry n savedPc s).cycles = s.cycles + BitVec.ofNat 64 (v.lat + t0.lat + t1.lat + w.lat) ∧
      (trapEntry n savedPc s).stats.memCycles = s.stats.memCycles ∧
      (trapEntry n savedPc s).stats.fetchCycles = s.stats.fetchCycles := by
  obtain ⟨hreads, hmemR, hfetchR⟩ := trapReads_read hv h0 h1
  obtain ⟨hcyclesW, hmemW, hfetchW⟩ := writeFrame_counters pa0 pa1 (flagsWord s.priv) savedPc t1.st
  rw [trapEntry_registered hv rfl h0 h1 hne e0 e1 ((aligned_pushedSp _).trans ha) hw, hw]
  exact ⟨congrArg (· + _) (hcyclesW.trans hreads.frame.cycles), hmemW.trans hmemR, hfetchW.trans hfetchR⟩

/-- Settles O39: the vector and both translations pass, so that the entry is the frame's two stores after reads, and each
access adds its latency to `cycles`. -/
theorem trapEntersHandler : Obligations.TrapEntersHandler := by
  intro n savedPc s v t0 t1 w0 w1 pa0 pa1 hn hs hv h0 h1 e0 e1 hal hw0 hw1 hne
  have ha : aligned (s.reg spReg) .word = true := (aligned_iff _ .word).2 hal
  have hval : v.val ≠ 0#32 := by
    rw [hv]
    exact fun h => hne ((vectorRead_val hn hs).symm.trans h)
  have hstores : writeFrame pa0 pa1 (flagsWord s.priv) savedPc t1.st = ⟨(), w0.lat + w1.lat, w1.st⟩ := by
    rw [hw1, hw0]
    rfl
  obtain ⟨hcycles, hmem, hfetch⟩ := trapEntry_counters hv h0 h1 hval e0 e1 ha hstores.symm
  rw [← Nat.add_assoc] at hcycles
  exact ⟨trapEntry_handlerEntered hn hs hv rfl h0 h1 hne e0 e1 ha, hcycles, hmem, hfetch,
    (trapEntry_spec n savedPc s).retired⟩

/-! ### A RET at the handler's first instruction (rules R238, R315) -/

/-- With paging off the frame lies at its virtual addresses (rules R130, R308). -/
theorem trapEntry_paging_off {n : Nat} (savedPc : Word) {s : State} (hn : n < 1024) (hs : StoreSound s)
    (hoff : s.ptbr = 0#32) (hne : s.viewWord (vectorAddress n) ≠ 0#32) (ha : aligned (s.reg spReg) .word = true) :
    HandlerEntered s (trapEntry n savedPc s) (s.viewWord (vectorAddress n)) (s.reg spReg - 8#32) (s.reg spReg - 4#32)
      savedPc := by
  have hpa1 : framePcAddress (pushedSp (s.reg spReg)) = s.reg spReg - 4#32 := by
    unfold framePcAddress pushedSp
    bv_omega
  have hread := physRead_read .vector (vectorAddress n) .word s.squashBehindWb
  have ht0 := translate_off .store (pushedSp (s.reg spReg)) (hread.frame.ptbr.trans hoff)
  have ht1 := translate_off .store (framePcAddress (pushedSp (s.reg spReg))) (hread.frame.ptbr.trans hoff)
  rw [← hpa1]
  exact trapEntry_handlerEntered hn hs rfl rfl ht0.symm ht1.symm hne rfl rfl ha

/-- RET pops what the entry of a handler pushed, where `r15` still points to it and paging is off. -/
theorem HandlerEntered.ret_pops {s t : State} {vec savedPc : Word}
    (h : HandlerEntered s t vec (s.reg spReg - 8#32) (s.reg spReg - 4#32) savedPc) (ht : StoreSound t)
    (hoff : s.ptbr = 0#32) (ha : aligned (s.reg spReg) .word = true) (hc0 : isCtrl (s.reg spReg - 8#32) = false)
    (hc1 : isCtrl (s.reg spReg - 4#32) = false) :
    Completes .ret t (fun u => ReturnResult t u (flagsWord s.priv) savedPc) := by
  have hpa1 : framePcAddress (t.reg spReg) = s.reg spReg - 4#32 := by
    rw [h.sp]
    unfold framePcAddress
    bv_omega
  have hasp : aligned (t.reg spReg) .word = true := by
    rw [h.sp]
    exact (aligned_pushedSp _).trans ha
  have hload := translateFrame_off .load (s := t.reachMemory) (h.ptbr.trans hoff) hasp
  rw [hpa1] at hload
  obtain ⟨-, u, hu, v, flags, target, rfl, -, -, hret, hwords⟩ := retPopsFrame t _ _ ht (congrArg Timed.val hload)
  rw [h.sp] at hwords
  obtain ⟨rfl, rfl, -, -⟩ := hwords (.inr ⟨hc0, hc1⟩)
  rw [viewWord_of_bytes h.frame.flagsWord, viewWord_of_bytes h.frame.pcWord] at hret
  exact ⟨u, hu, hret⟩

/-- Settles O43: RET pops the trap's frame, and gives back what the entry of the handler took. -/
theorem trapThenReturnResumes : Obligations.TrapThenReturnResumes := by
  intro n savedPc s hn hs hoff hne hal hc0 hc1
  have ha : aligned (s.reg spReg) .word = true := (aligned_iff _ .word).2 hal
  have htrap := trapEntry_paging_off savedPc hn hs hoff hne ha
  have hsound : StoreSound (trapEntry n savedPc s) := (trapEntry_spec n savedPc s).sound hs
  obtain ⟨u, hu, hret⟩ := htrap.ret_pops hsound hoff ha hc0 hc1
  refine ⟨u, hu, hret.pc, hret.fpc, ?_, fun q => ?_, fun a h0 h1 => ?_⟩
  · rw [hret.priv, flagsWord_privilege]
  · by_cases hq : q = spReg
    · rw [hq, hret.sp, htrap.sp, BitVec.sub_add_cancel]
    · rw [hret.otherRegisters q hq, htrap.otherRegisters q hq]
  · rw [hret.memory, htrap.frame.elsewhere a h0 h1]

end Sys2Proof.Machine
